-- ==== Sys2Proof/Word.lean ====
section
/-! DEFINITION. The word types of the 612 and the names of its fixed index types. -/

namespace Sys2Proof

/-- A byte on the serial line. -/
abbrev Byte := BitVec 8

/-- A 12-bit word of the pack (00_scope.md, Conventions). -/
abbrev Word12 := BitVec 12

/-- The 16-bit tag of a frame (00_scope.md, Terms). -/
abbrev Tag := BitVec 16

/-- A drive unit, 0 to 3. -/
abbrev UnitId := Fin 4

/-- An entry of the job table; entry i holds the job whose id is i + 1 (R43). -/
abbrev JobIx := Fin 32

/-- A slab of the vote store, 0 to 63 (section 6.1). -/
abbrev SlabId := Fin 64

/-- A set of the eighteen flags: member m is bit m (R177). -/
abbrev FlagSet := BitVec 18

end Sys2Proof
end

