-- ==== Sys2Proof/Syntax.lean ====
section
/-! DEFINITION. The commands: one constructor per row of spec/opcode_table.json. A request's operands are the
tag of its frame and the fields of its body at the widths of section 11.7; an event's operands are what the
block observes of it. -/

namespace Sys2Proof

/-- The body of DEFINE-DRIVE after its unit (section 11.7, 0x02). -/
structure DriveFields where
  model : Byte
  cylinders : BitVec 16
  heads : Byte
  sectors : Byte
  words : BitVec 16
  period : BitVec 32
  tolerance : BitVec 16
  dataOffset : BitVec 32
  maxOffset : Byte
  settle : Byte
  deriving DecidableEq, Repr

/-- The body of SET-PROFILE after its unit (section 11.7, 0x06); the pass list count is the length of
`entries`, each an offset byte and a strobe-shift byte. -/
structure ProfileFields where
  entries : List (Byte × Byte)
  passLimit : Byte
  backoff : Byte
  recalibrate : Byte
  quorum : Byte
  weak : Byte
  repair : Byte
  blindAllowed : Byte
  strayLimit : Byte
  keepStrays : Byte
  dead : Byte
  deferral : Byte
  deriving DecidableEq, Repr

/-- The body of SET-QUIRK after its slot (section 11.7, 0x09). -/
structure QuirkFields where
  model : Byte
  headsPresent : Byte
  heads : BitVec 16
  rangePresent : Byte
  low : BitVec 16
  high : BitVec 16
  conditionPresent : Byte
  condition : Byte
  action : Byte
  parameter : Byte
  deriving DecidableEq, Repr

/-- What of a field is still under way when an index pulse arrives (R37): nothing, a header field or a data
field, with the amplitude it showed up to the index (`low`: it carried the low indication). -/
inductive CutField where
  | nothing
  | header (low : Bool)
  | data (low : Bool)
  deriving DecidableEq, Repr

/-- A flux transition of a data word as the separator times it (R34): how far after the centre of its bit cell it fell,
half the width of that cell's acceptance window, and the cell's length before the trim, in one unit of time. -/
structure Transition where
  place : Int
  half : Nat
  cell : Nat
  deriving DecidableEq, Repr

/-- A command to the block. -/
inductive Instr where
  | powerOn (straps : Fin 4)
  | identify (tag : Tag)
  | defineDrive (tag : Tag) (unit : Byte) (fields : DriveFields)
  | driveStatus (tag : Tag) (unit : Byte)
  | unload (tag : Tag) (unit : Byte)
  | reload (tag : Tag) (unit : Byte)
  | setProfile (tag : Tag) (unit : Byte) (fields : ProfileFields)
  | swapProfile (tag : Tag) (unit : Byte)
  | readProfile (tag : Tag) (unit : Byte) (choice : Byte)
  | setQuirk (tag : Tag) (slot : Byte) (fields : QuirkFields)
  | clearQuirk (tag : Tag) (slot : Byte)
  | readQuirk (tag : Tag) (slot : Byte)
  | defineExtent (tag : Tag) (unit entry : Byte) (ending : BitVec 24) (cylinder : BitVec 16) (heads interleave skew : Byte)
  | clearExtents (tag : Tag) (unit : Byte)
  | setRemap (tag : Tag) (unit : Byte) (block : BitVec 24) (cylinder : BitVec 16) (head sector : Byte)
  | clearRemap (tag : Tag) (unit mark : Byte) (block : BitVec 24)
  | mapBlock (tag : Tag) (unit : Byte) (block : BitVec 24)
  | recoverTrack (tag : Tag) (unit : Byte) (cylinder : BitVec 16) (head cls : Byte) (budget : BitVec 16) (wanted : BitVec 32)
  | recoverBlocks (tag : Tag) (unit : Byte) (first : BitVec 24) (count : BitVec 16) (cls : Byte) (budget : BitVec 16)
  | abort (tag : Tag) (job unit : Byte)
  | jobStatus (tag : Tag) (job : Byte)
  | peekSector (tag : Tag) (job sector : Byte)
  | hold (tag : Tag) (time : BitVec 16)
  | readFlags (tag : Tag)
  | clearFlags (tag : Tag) (flags : BitVec 24)
  | setNotices (tag : Tag) (flags : BitVec 24)
  | resetUnit (tag : Tag) (scope : Byte)
  | resetAll (tag : Tag)
  | unknownKind (tag : Tag) (kind : Byte) (body : List Byte)
  | frameComplete (bytes : List Byte)
  | frameLengthOutOfRange (high low : Byte)
  | frameGapTimeout
  | lineBreak
  | requestToSendDropped (lastByte : Bool)
  | requestToSendAsserted
  | replySent
  | noticeSent
  | sectorSent
  | straySent
  | jobEndSent
  | holdExpires
  | indexPulse (unit : UnitId) (elapsed : Nat) (cut : CutField)
  | indexTimeout (unit : UnitId)
  | readyRise (unit : UnitId)
  | readyFall (unit : UnitId)
  | seekComplete (unit : UnitId)
  | restoreComplete (unit : UnitId)
  | seekErrorIndication (unit : UnitId)
  | seekTimeout (unit : UnitId)
  | restoreTimeout (unit : UnitId)
  | headsUnloaded (unit : UnitId)
  | headerFieldRead (sync last : Nat) (h1 h2 h3 : Word12) (low : Bool)
  | dataFieldRead (sync : Nat) (words : List Word12) (timing : List (List Transition)) (low : Bool)
  | dataWindowCloses
  | searchEnd
  deriving DecidableEq, Repr

end Sys2Proof
end

