-- ==== Sys2Proof/WellFormed.lean ====
section
/-! DEFINITION. Which commands can be spelt: the checks on operands that their types do not make. A meaning
is total and does not rest on them. -/

namespace Sys2Proof

/-- The body of a frame is at most 1024 bytes (section 11.2). -/
def bodyFits (body : List Byte) : Bool := body.length ≤ 1024

/-- The pass list count travels in one byte (section 11.7, 0x06). -/
def entriesFit (f : ProfileFields) : Bool := f.entries.length ≤ 255

/-- RESET_UNIT is the RESET whose scope is not 0xFF (R181). -/
def scopeIsNotAll (scope : Byte) : Bool := scope != 0xFF

/-- UNKNOWN_KIND is a frame whose kind lies outside 0x01 to 0x1A (R172). -/
def kindIsUnknown (kind : Byte) : Bool := kind == 0 || 0x1A < kind.toNat

/-- The length of FRAME_LENGTH_OUT_OF_RANGE lies outside 3 to 1027 (R168). -/
def lengthIsOut (high low : Byte) : Bool :=
  let n := high.toNat * 256 + low.toNat
  n < 3 || 1027 < n

/-- A header's last word ends after its sync (R31). -/
def headerEndsAfterSync (sync last : Nat) : Bool := sync < last

/-- A data field is W + 1 words with W even and 32 to 256, each word with the timing of its transitions, of which it has
one at least, each in a window with a width (R33, R34). -/
def dataFieldShape (words : List Word12) (timing : List (List Transition)) : Bool :=
  33 ≤ words.length && words.length ≤ 257 && words.length % 2 == 1 && timing.length == words.length &&
    timing.all (fun ts => !ts.isEmpty && ts.all (fun t => 0 < t.half))

/-- The commands that can be spelt. -/
def Instr.wellFormed : Instr → Bool
  | .powerOn _ => true
  | .identify _ => true
  | .defineDrive _ _ _ => true
  | .driveStatus _ _ => true
  | .unload _ _ => true
  | .reload _ _ => true
  | .setProfile _ _ f => entriesFit f
  | .swapProfile _ _ => true
  | .readProfile _ _ _ => true
  | .setQuirk _ _ _ => true
  | .clearQuirk _ _ => true
  | .readQuirk _ _ => true
  | .defineExtent _ _ _ _ _ _ _ _ => true
  | .clearExtents _ _ => true
  | .setRemap _ _ _ _ _ _ => true
  | .clearRemap _ _ _ _ => true
  | .mapBlock _ _ _ => true
  | .recoverTrack _ _ _ _ _ _ _ => true
  | .recoverBlocks _ _ _ _ _ _ => true
  | .abort _ _ _ => true
  | .jobStatus _ _ => true
  | .peekSector _ _ _ => true
  | .hold _ _ => true
  | .readFlags _ => true
  | .clearFlags _ _ => true
  | .setNotices _ _ => true
  | .resetUnit _ scope => scopeIsNotAll scope
  | .resetAll _ => true
  | .unknownKind _ kind body => kindIsUnknown kind && bodyFits body
  | .frameComplete _ => true
  | .frameLengthOutOfRange high low => lengthIsOut high low
  | .frameGapTimeout => true
  | .lineBreak => true
  | .requestToSendDropped _ => true
  | .requestToSendAsserted => true
  | .replySent => true
  | .noticeSent => true
  | .sectorSent => true
  | .straySent => true
  | .jobEndSent => true
  | .holdExpires => true
  | .indexPulse _ _ _ => true
  | .indexTimeout _ => true
  | .readyRise _ => true
  | .readyFall _ => true
  | .seekComplete _ => true
  | .restoreComplete _ => true
  | .seekErrorIndication _ => true
  | .seekTimeout _ => true
  | .restoreTimeout _ => true
  | .headsUnloaded _ => true
  | .headerFieldRead sync last _ _ _ _ => headerEndsAfterSync sync last
  | .dataFieldRead _ words timing _ => dataFieldShape words timing
  | .dataWindowCloses => true
  | .searchEnd => true

end Sys2Proof
end

