-- ==== Sys2Proof/Config.lean ====
section
/-! DEFINITION. The capacities and time limits the spec fixes, and the free values: constants without a body
for what the spec leaves open. -/

namespace Sys2Proof

/-- The delivery queue holds at most 24 entries (R142). -/
def Config.deliveryCapacity : Nat := 24
/-- The reply queue holds at most 8 replies (R173). -/
def Config.replyCapacity : Nat := 8
/-- The receive buffer holds up to two complete frames (R170). -/
def Config.bufferCapacity : Nat := 2
/-- The remap list holds at most 32 entries (R135). -/
def Config.remapCapacity : Nat := 32
/-- A unit's extent table has 8 entries (R130). -/
def Config.extentCapacity : Nat := 8
/-- 500 ms for a seek, in ticks of 0.1 microseconds (R11). -/
def Config.seekLimit : Nat := 5000000
/-- 2,000 ms for a restore, in ticks (R12). -/
def Config.restoreLimit : Nat := 20000000
/-- 20 ms, the longest gap inside a frame, in ticks (R168). -/
def Config.gapLimit : Nat := 200000
/-- 10 ms, the unit of a hold time, in ticks (R151). -/
def Config.holdUnit : Nat := 100000
/-- The budget of a job whose request carries 0 (R45). -/
def Config.defaultBudget : Nat := 2000

/-- The order in which the things of one index pulse are taken. The spec lets them be taken in any order in
which the Spindle Monitor is first to judge the period for the speed fault and for the revolution's work
(R16, R26, R40, R49, R51, R70, R72, R121). `faultFirst`: the speed fault before the revolution's work. The
other three are the places at which the budget, the deferral count and the swap are put into that order. -/
structure IndexOrder where
  faultFirst : Bool
  budgetAt : Fin 4
  deferralAt : Fin 5
  swapAt : Fin 6
  deriving DecidableEq, Repr, Inhabited

/-- FREE VALUE (log entry 1): the order taken at the k-th index pulse handled. Safe: a statement holds for
every order. -/
opaque Config.indexOrder : Nat → IndexOrder

/-- FREE VALUE (log entry 6): the word the separator reads at place i of a data field whose sync is at a
given tick, where the command's operand holds no such word. Safe. -/
opaque Config.unreadWord : Nat → Nat → Word12

/-- FREE VALUE (log entry 6): the margin class graded for such a word. Safe. -/
opaque Config.unreadMargin : Nat → Nat → Fin 4

/-- FREE VALUE (log entry 4): whether the unit select line of a defined unit is driven at a tick. Safe. -/
opaque Config.unitSelect : Nat → UnitId → Bool

end Sys2Proof
end

