-- ==== Sys2Proof/Machine/State.lean ====
section
/-! DEFINITION. The state of the 612: everything the spec gives the block, and the queue of commands that
wait. Plain data throughout. -/

namespace Sys2Proof.Machine

/-! ### Drive units (01) -/

/-- The drive descriptor (section 1.1). -/
structure Descriptor where
  model : Nat
  cylinders : Nat
  heads : Nat
  sectors : Nat
  words : Nat
  period : Nat
  tolerance : Nat
  dataOffset : Nat
  maxOffset : Nat
  settle : Nat
  deriving DecidableEq, Repr

/-- The ten drive states (section 1.4). -/
inductive DriveState where
  | undefined | notReady | idle | seeking | recalibrating | settling | tracking | speedFault | unloading | retracted
  deriving DecidableEq, Repr

/-- The speed status (R5). -/
inductive SpeedStatus where
  | inTolerance | out
  deriving DecidableEq, Repr

/-- What the Spindle Monitor keeps (R4 to R6). -/
structure Monitor where
  prevIndex : Option Nat
  lastPeriod : Option Nat
  deviation : Int
  trimTarget : Int
  currentTrim : Int
  locked : Bool
  speed : SpeedStatus
  run : Nat
  deriving DecidableEq, Repr

/-- A seek or restore in flight, with the clock at which its time limit is reached (R3, R11, R12). -/
inductive Motion where
  | still
  | seek (limit : Nat)
  | restore (limit : Nat)
  deriving DecidableEq, Repr

/-- The combined actions of an evaluation of the quirk table (R126). -/
structure Actions where
  clampOffset : Option Nat
  extraSettle : Option Nat
  headerMask : Option Nat
  weightCap : Option Nat
  noBlind : Bool
  noVote : Bool
  deriving DecidableEq, Repr

/-- A prepared pass (section 4.1). -/
structure Prepared where
  position : Nat
  requested : Int
  offset : Int
  strobe : Int
  slots : BitVec 16
  actions : Actions
  deriving DecidableEq, Repr

/-- What a Drive Sequencer keeps for its unit (section 1.2), with the pass loop's items (section 4.1), the
positioning settle (R128), the level of the ready line and the unload and load lines (R3). -/
structure Drive where
  descriptor : Option Descriptor
  state : DriveState
  cylinder : Option Nat
  target : Option Nat
  offset : Int
  heldJob : Option JobIx
  settleCount : Nat
  seekErrors : Nat
  deadRevs : Nat
  deferral : Nat
  motion : Motion
  monitor : Monitor
  indexTimer : Option Nat
  indexLost : Bool
  ready : Bool
  unloadLine : Bool
  loadLine : Bool
  positioningSettle : Nat
  matchedSlots : BitVec 16
  prepared : Option Prepared
  waiting : Nat
  passStrays : Nat
  deriving DecidableEq, Repr

/-! ### Profiles and quirks (07) -/

/-- One entry of a pass list (section 7.1). -/
structure PassEntry where
  offset : Int
  strobe : Int
  deriving DecidableEq, Repr

/-- A retry profile (section 7.1). -/
structure Profile where
  passes : List PassEntry
  passLimit : Nat
  backoff : Nat
  recalibrate : Nat
  quorum : Nat
  weak : Nat
  repair : Nat
  blindAllowed : Bool
  strayLimit : Nat
  keepStrays : Bool
  dead : Nat
  deferral : Nat
  deriving DecidableEq, Repr

/-- A unit's two profiles and its swap-pending mark (R113). -/
structure UnitProfiles where
  active : Profile
  staged : Profile
  swapPending : Bool
  deriving DecidableEq, Repr

/-- The offset condition of a quirk entry (section 7.4). -/
inductive OffsetCondition where
  | positive | negative | nonzero
  deriving DecidableEq, Repr

/-- The action of a quirk entry (section 7.4). -/
inductive QuirkAction where
  | clampOffset (c : Nat)
  | extraSettle (e : Nat)
  | headerMask (m : Nat)
  | weightCap (w : Nat)
  | noBlind
  | noVote
  deriving DecidableEq, Repr

/-- An entry of the quirk table (section 7.4). -/
structure Quirk where
  model : Nat
  heads : Option (BitVec 16)
  cylinders : Option (Nat × Nat)
  condition : Option OffsetCondition
  action : QuirkAction
  deriving DecidableEq, Repr

/-! ### Jobs and sector records (03, 05) -/

/-- The class of a job (section 3.1). -/
inductive JobClass where
  | bulk | urgent
  deriving DecidableEq, Repr

/-- The state of a job (section 3.1). -/
inductive JobState where
  | queued | positioning | reading | draining
  deriving DecidableEq, Repr

/-- The eight end causes (section 3.5). -/
inductive EndCause where
  | complete | passesExhausted | budgetExhausted | aborted | driveRetracted | driveLost | seekFailed | driveReset
  deriving DecidableEq, Repr

/-- The elevator direction of a unit (R47). -/
inductive Direction where
  | up | down
  deriving DecidableEq, Repr

/-- The seven counters of a job (R50). -/
structure Counters where
  passes : Nat
  revolutions : Nat
  headerCaptures : Nat
  blindUsed : Nat
  strays : Nat
  recalibrations : Nat
  ambiguous : Nat
  deriving DecidableEq, Repr

/-- The state of a sector record (section 5.1). -/
inductive RecordState where
  | notWanted | wanted | voting | good | voted | repaired | bestEffort | missing
  deriving DecidableEq, Repr

/-- The kind of a record's image (R75). -/
inductive ImageKind where
  | raw | voted | final
  deriving DecidableEq, Repr

/-- A record's image: W + 1 words and their kind (section 5.1). -/
structure Image where
  kind : ImageKind
  words : List Word12
  deriving DecidableEq, Repr

/-- The delivery status of a record (section 9.1). -/
inductive DeliveryStatus where
  | none | awaiting | queued | sent
  deriving DecidableEq, Repr

/-- A sector record (section 5.1), with the last data sync time of R180. Its sector is its place in the job's
list of records. A weak-list entry is a word index and a bit. -/
structure Record where
  wanted : Bool
  state : RecordState
  reads : Nat
  image : Option Image
  slab : Option SlabId
  block : Option Nat
  weakCount : Nat
  weakList : List (Nat × Nat)
  delivery : DeliveryStatus
  lastSync : Option Nat
  deriving DecidableEq, Repr

/-- A job record (section 3.1); its id is its table entry plus 1. -/
structure Job where
  unit : UnitId
  cylinder : Nat
  head : Nat
  cls : JobClass
  tag : Tag
  records : List Record
  budget : Nat
  state : JobState
  arrival : BitVec 32
  passCount : Nat
  fruitless : Nat
  mark : Bool
  endCause : Option EndCause
  finalized : Bool
  counters : Counters
  deriving DecidableEq, Repr

/-! ### The Read Channel (02) -/

/-- The header status of a capture (R31). -/
inductive HeaderStatus where
  | good | badCheck | noSync
  deriving DecidableEq, Repr

/-- The identification of a capture (R32, R38). -/
inductive Identification where
  | header | blind
  deriving DecidableEq, Repr

/-- The data field of a capture: W + 1 words, their margin classes and the data sync time (R33, R34). -/
structure DataField where
  words : List Word12
  margins : List (Fin 4)
  sync : Nat
  deriving DecidableEq, Repr

/-- A sector capture (section 2.3). -/
structure Capture where
  unit : UnitId
  job : JobIx
  ident : Option Identification
  sector : Option Nat
  repeated : Bool
  status : HeaderStatus
  header : Option (Word12 × Word12 × Word12)
  data : Option DataField
  low : Bool
  deriving DecidableEq, Repr

/-- A deferred blind candidate: its slot, whether the slot is shared, and the first candidate found for it
(R36). -/
structure Deferred where
  slot : Nat
  shared : Bool
  capture : Capture
  deriving DecidableEq, Repr

/-- A header whose data window is open: its capture without data, and the tick at which its last word ended
(R33). -/
structure OpenHeader where
  capture : Capture
  last : Nat
  deriving DecidableEq, Repr

/-- What is fixed for a revolution when its capture opens (R30), with the prepared pass's actions for the
Recovery Engine (R64). -/
structure Revolution where
  job : JobIx
  trim : Int
  pitch : Nat
  window : Nat
  cylinder : Nat
  head : Nat
  headerMask : Option Nat
  noBlind : Bool
  weightCap : Option Nat
  noVote : Bool
  profile : Profile
  deriving DecidableEq, Repr

/-- The state of the channel with its granted unit (R24). -/
inductive ChannelState where
  | idle
  | reserved (unit : UnitId)
  | capturing (unit : UnitId)
  deriving DecidableEq, Repr

/-- What the Read Channel keeps (section 2.1). `openHeader` and `liveSeen` are the separator's own progress
through the revolution: the header whose window is open (R33), and whether a capture without the low
amplitude indication has been formed (R39). -/
structure Channel where
  state : ChannelState
  lastGranted : UnitId
  strobe : Int
  slotSet : List Nat
  deferred : List Deferred
  rev : Option Revolution
  openHeader : Option OpenHeader
  liveSeen : Bool
  deriving DecidableEq, Repr

/-! ### The vote store and the repair unit (06) -/

/-- The fold thresholds: vote quorum Q, weak threshold T and repair limit (section 6.1). -/
structure Thresholds where
  quorum : Nat
  weak : Nat
  repair : Nat
  deriving DecidableEq, Repr

/-- The repair status of a slab (section 6.1). -/
inductive RepairStatus where
  | idle | queued | searching
  deriving DecidableEq, Repr

/-- A capture held pending in a slab, with its weight settings and thresholds (R106). -/
structure Pending where
  words : List Word12
  margins : List (Fin 4)
  ident : Identification
  weightCap : Option Nat
  thresholds : Thresholds
  deriving DecidableEq, Repr

/-- A slab in use (section 6.1). The accumulators stand in one list, bit b of word i at place 12 i + b. -/
structure Slab where
  job : JobIx
  sector : Nat
  acc : List Int
  folds : Nat
  lastRaw : List Word12
  thresholds : Thresholds
  weakCount : Nat
  status : RepairStatus
  pending : Option Pending
  ambiguity : Nat
  deriving DecidableEq, Repr

/-- The search in progress: the slab, its weak bits in weak order and its candidates in order (R102). -/
structure Search where
  slab : SlabId
  bits : List Nat
  candidates : List (List Word12)
  deriving DecidableEq, Repr

/-! ### Volume maps (08) -/

/-- An extent (section 8.1). -/
structure Extent where
  ending : Nat
  cylinder : Nat
  heads : Nat
  interleave : Nat
  skew : Nat
  deriving DecidableEq, Repr

/-- A physical address: cylinder, head and sector. -/
structure Address where
  cylinder : Nat
  head : Nat
  sector : Nat
  deriving DecidableEq, Repr

/-- A remap entry (R135). -/
structure Remap where
  unit : UnitId
  block : Nat
  alternate : Address
  deriving DecidableEq, Repr

/-! ### Delivery (09) -/

/-- An entry of the delivery queue (section 9.1). -/
inductive Entry where
  | sector (job : JobIx) (sector : Nat)
  | stray (buffer : Fin 4)
  | jobEnd (job : JobIx)
  deriving DecidableEq, Repr

/-- A kept stray in its buffer (R147). -/
structure Stray where
  unit : UnitId
  tag : Tag
  h1 : Word12
  h2 : Word12
  h3 : Word12
  words : List Word12
  deriving DecidableEq, Repr

/-! ### Flags (10) -/

/-- The three sets of the Flag Unit (10). -/
structure FlagUnit where
  set : FlagSet
  enabled : FlagSet
  owed : FlagSet
  deriving DecidableEq, Repr

/-! ### The Link Interface (11) -/

/-- A frame's kind, tag and body (section 11.2). -/
structure Frame where
  kind : Byte
  tag : Tag
  body : List Byte
  deriving DecidableEq, Repr

/-- The phase of the receiver (R166). -/
inductive RxPhase where
  | hunt | length | content | check
  deriving DecidableEq, Repr

/-- A reply in the reply queue; `resetAll` marks the reply of a RESET ALL (R182). -/
structure Reply where
  frame : Frame
  resetAll : Bool
  deriving DecidableEq, Repr

/-- What a message in transmission was taken from (R174). -/
inductive TxSource where
  | reply
  | notice
  | delivery (entry : Entry)
  deriving DecidableEq, Repr

/-- The message in transmission, composed when it was chosen (R174). -/
structure TxMessage where
  source : TxSource
  frame : Frame
  deriving DecidableEq, Repr

/-- What the Link Interface keeps. `assembly` holds the bytes of the frame in progress after its start byte;
`gapFrom` is the clock from which the gap is measured, while it is (R168); `rts` is the level of the host's
request-to-send; `lastByte` says that the byte under way when request-to-send dropped was the last of its
message (R175). -/
structure Link where
  rate : Fin 4
  phase : RxPhase
  assembly : List Byte
  gapFrom : Option Nat
  buffer : List Frame
  replies : List Reply
  resetWaiting : Bool
  rts : Bool
  tx : Option TxMessage
  lastByte : Bool
  deriving DecidableEq, Repr

/-! ### The whole state -/

/-- The state of the 612. `clock` counts ticks of the time base; `choices` counts the free index orders read
(log entry 1); `pending` is the queue of commands, first in, first out. -/
structure State where
  clock : Nat
  choices : Nat
  pending : List Instr
  drives : Vector Drive 4
  profiles : Vector UnitProfiles 4
  directions : Vector Direction 4
  extents : Vector (List Extent) 4
  channel : Channel
  jobs : Vector (Option Job) 32
  arrival : BitVec 32
  slabs : Vector (Option Slab) 64
  fifo : List SlabId
  search : Option Search
  quirks : Vector (Option Quirk) 16
  remaps : List Remap
  queue : List Entry
  strays : Vector (Option Stray) 4
  hold : Option Nat
  flags : FlagUnit
  link : Link
  deriving DecidableEq, Repr

/-! ### Power-on values -/

/-- A cleared monitor (R4). -/
def Monitor.cleared : Monitor :=
  { prevIndex := none, lastPeriod := none, deviation := 0, trimTarget := 0, currentTrim := 0,
    locked := false, speed := .inTolerance, run := 0 }

/-- A unit's values after power-on and RESET ALL (R22), with the level of its ready line kept. -/
def Drive.powerOn (ready : Bool) : Drive :=
  { descriptor := none, state := .undefined, cylinder := none, target := none, offset := 0,
    heldJob := none, settleCount := 0, seekErrors := 0, deadRevs := 0, deferral := 0, motion := .still,
    monitor := .cleared, indexTimer := none, indexLost := false, ready := ready, unloadLine := false,
    loadLine := false, positioningSettle := 0, matchedSlots := 0, prepared := none, waiting := 0,
    passStrays := 0 }

/-- The default profile (section 7.1, R113). -/
def Profile.default : Profile :=
  { passes := [⟨0, 0⟩, ⟨0, -1⟩, ⟨0, 1⟩, ⟨1, 0⟩, ⟨-1, 0⟩], passLimit := 40, backoff := 2, recalibrate := 8,
    quorum := 3, weak := 6, repair := 2, blindAllowed := true, strayLimit := 4, keepStrays := false,
    dead := 3, deferral := 16 }

/-- Both profiles at their defaults and no swap pending (R113). -/
def UnitProfiles.powerOn : UnitProfiles :=
  { active := .default, staged := .default, swapPending := false }

/-- The channel after power-on (R42). -/
def Channel.powerOn : Channel :=
  { state := .idle, lastGranted := 3, strobe := 0, slotSet := [], deferred := [], rev := none,
    openHeader := none, liveSeen := false }

/-- The Flag Unit after power-on (R164). -/
def FlagUnit.powerOn : FlagUnit := { set := 0, enabled := 0, owed := 0 }

/-- The Link Interface after power-on (R183), at a line rate and with the level of request-to-send kept. -/
def Link.powerOn (rate : Fin 4) (rts : Bool) : Link :=
  { rate := rate, phase := .hunt, assembly := [], gapFrom := none, buffer := [], replies := [],
    resetWaiting := false, rts := rts, tx := none, lastByte := false }

/-- The machine after reset: every block at its power-on values, no command waiting. The clock, the levels of
the input lines and the rate code are choices of the model (log entries 1, 2, 3, 5). -/
def State.reset : State :=
  { clock := 0, choices := 0, pending := [],
    drives := Vector.replicate 4 (Drive.powerOn false),
    profiles := Vector.replicate 4 UnitProfiles.powerOn,
    directions := Vector.replicate 4 Direction.up,
    extents := Vector.replicate 4 [],
    channel := Channel.powerOn,
    jobs := Vector.replicate 32 none,
    arrival := 0,
    slabs := Vector.replicate 64 none,
    fifo := [],
    search := none,
    quirks := Vector.replicate 16 none,
    remaps := [],
    queue := [],
    strays := Vector.replicate 4 none,
    hold := none,
    flags := FlagUnit.powerOn,
    link := Link.powerOn 0 true }

/-- Why the block stops. The spec gives it no stopping fault (INVENTORY.md, Faults): errors are statuses,
flags and end causes, so no meaning raises one. Safe. -/
inductive Fault where
  /-- Raised by no meaning: a name for the absence of faults. Safe. -/
  | neverRaised
  deriving DecidableEq, Repr

/-- Why a command has no meaning. -/
inductive Refusal where
  /-- Raised only by `exec` for a command the model gives no meaning to. Safe: the block stops. -/
  | notModelled (mnemonic : String)
  deriving DecidableEq, Repr

end Sys2Proof.Machine
end

