-- ==== Sys2Proof/Machine/Operands.lean ====
section
/-! DEFINITION. How fields travel (R177): numbers and sets as bytes, high byte first, the codes of section
11.5, the frame with its CRC (R166, R167), and the Packer (R150). -/

namespace Sys2Proof.Machine

/-! ### Numbers and bytes -/

/-- A number as `len` bytes, high byte first (R177). -/
def beBytes : Nat → Nat → List Byte
  | 0, _ => []
  | len + 1, n => BitVec.ofNat 8 (n / 256 ^ len) :: beBytes len n

/-- The number that bytes give, high byte first (R177). -/
def beNat (bytes : List Byte) : Nat := bytes.foldl (fun n b => n * 256 + b.toNat) 0

/-- The number in `len` bytes at offset `off` of a body. -/
def field (body : List Byte) (off len : Nat) : Nat := beNat ((body.drop off).take len)

/-- The byte at offset `off` of a body, as a number. -/
def byteAt (body : List Byte) (off : Nat) : Nat := field body off 1

/-- A signed field of one byte (R177). -/
def signedByte (b : Byte) : Int := b.toInt

/-- A signed number as one byte, in two's complement (R177). -/
def signedByteOf (x : Int) : List Byte := [BitVec.ofInt 8 x]

/-- A signed number as four bytes, in two's complement (R177). -/
def signedWordOf (x : Int) : List Byte := beBytes 4 (BitVec.ofInt 32 x).toNat

/-- A yes/no field or a presence mark (R177). -/
def markByte (b : Bool) : List Byte := [if b then 1 else 0]

/-- A number that can be absent, with the value that says so (R177). -/
def optField (len absent : Nat) : Option Nat → List Byte
  | some n => beBytes len n
  | none => beBytes len absent

/-- A number with its presence mark: zero bytes when absent (R177). -/
def marked (len : Nat) : Option Nat → List Byte
  | some n => 1 :: beBytes len n
  | none => 0 :: beBytes len 0

/-- The number of an entry's id: the entry plus 1 (R43). -/
def jobId (j : JobIx) : Nat := j.val + 1

/-! ### Codes (section 11.5) -/

/-- The code of a drive state. -/
def DriveState.code : DriveState → Nat
  | .undefined => 0 | .notReady => 1 | .idle => 2 | .seeking => 3 | .recalibrating => 4 | .settling => 5
  | .tracking => 6 | .speedFault => 7 | .unloading => 8 | .retracted => 9

/-- The code of a job state. -/
def JobState.code : JobState → Nat
  | .queued => 0 | .positioning => 1 | .reading => 2 | .draining => 3

/-- The code of an end cause. -/
def EndCause.code : EndCause → Nat
  | .complete => 0 | .passesExhausted => 1 | .budgetExhausted => 2 | .aborted => 3 | .driveRetracted => 4
  | .driveLost => 5 | .seekFailed => 6 | .driveReset => 7

/-- The code of a record state: the outcome codes of R90, and 6 and 7. -/
def RecordState.code : RecordState → Nat
  | .notWanted => 0 | .good => 1 | .voted => 2 | .repaired => 3 | .bestEffort => 4 | .missing => 5
  | .wanted => 6 | .voting => 7

/-- The code of a delivery status. -/
def DeliveryStatus.code : DeliveryStatus → Nat
  | .none => 0 | .awaiting => 1 | .queued => 2 | .sent => 3

/-- The code of an image kind. -/
def ImageKind.code : ImageKind → Nat
  | .raw => 0 | .voted => 1 | .final => 2

/-- The code of a repair status. -/
def RepairStatus.code : RepairStatus → Nat
  | .idle => 0 | .queued => 1 | .searching => 2

/-- The code of a class. -/
def JobClass.code : JobClass → Nat
  | .bulk => 0 | .urgent => 1

/-- The class a code names, if it names one. -/
def classOf : Nat → Option JobClass
  | 0 => some .bulk
  | 1 => some .urgent
  | _ => none

/-- The code of a quirk's offset condition. -/
def OffsetCondition.code : OffsetCondition → Nat
  | .positive => 1 | .negative => 2 | .nonzero => 3

/-- The offset condition a code names, if it names one. -/
def conditionOf : Nat → Option OffsetCondition
  | 1 => some .positive
  | 2 => some .negative
  | 3 => some .nonzero
  | _ => none

/-- The code of a quirk's action. -/
def QuirkAction.code : QuirkAction → Nat
  | .clampOffset _ => 1 | .extraSettle _ => 2 | .headerMask _ => 3 | .weightCap _ => 4 | .noBlind => 5 | .noVote => 6

/-- The parameter byte of a quirk's action, 0 where it has none (R123). -/
def QuirkAction.parameter : QuirkAction → Nat
  | .clampOffset c => c
  | .extraSettle e => e
  | .headerMask m => m
  | .weightCap w => w
  | .noBlind => 0
  | .noVote => 0

/-- The action that a code and a parameter name, if they name one (R123). -/
def actionOf (code parameter : Nat) : Option QuirkAction :=
  if code = 1 then (if parameter ≤ 4 then some (.clampOffset parameter) else none)
  else if code = 2 then (if 1 ≤ parameter ∧ parameter ≤ 15 then some (.extraSettle parameter) else none)
  else if code = 3 then (if 1 ≤ parameter ∧ parameter ≤ 11 then some (.headerMask parameter) else none)
  else if code = 4 then (if 1 ≤ parameter ∧ parameter ≤ 4 then some (.weightCap parameter) else none)
  else if code = 5 then some .noBlind
  else if code = 6 then some .noVote
  else none

/-- The reply statuses (R172). -/
inductive Status where
  | ok | clamped | unknownKind | badLength | badField | noDrive | wrongState | driveBusy | tableFull | trackBusy
  | outOfMap | swapPending | noJob | outOfOrder | conflict
  deriving DecidableEq, Repr

/-- The code of a status (R172). -/
def Status.code : Status → Nat
  | .ok => 0 | .clamped => 1 | .unknownKind => 2 | .badLength => 3 | .badField => 4 | .noDrive => 5
  | .wrongState => 6 | .driveBusy => 7 | .tableFull => 8 | .trackBusy => 9 | .outOfMap => 10
  | .swapPending => 11 | .noJob => 12 | .outOfOrder => 13 | .conflict => 14

/-- Reply fields follow only OK and CLAMPED (R172). -/
def Status.accepted : Status → Bool
  | .ok => true
  | .clamped => true
  | _ => false

/-! ### Frames (R166, R167) -/

/-- One bit of the CRC register: polynomial x^16 + x^12 + x^5 + 1 (R167). -/
def crcBit (crc : BitVec 16) : BitVec 16 :=
  if crc.msb then (crc <<< 1) ^^^ 0x1021#16 else crc <<< 1

/-- The CRC register after one more byte, most significant bit first (R167). -/
def crcByte (crc : BitVec 16) (b : Byte) : BitVec 16 :=
  Nat.repeat crcBit 8 (crc ^^^ ((b.zeroExtend 16) <<< 8))

/-- The CRC of bytes, from a register of all ones, not inverted (R167). -/
def crc16 (bytes : List Byte) : BitVec 16 := bytes.foldl crcByte 0xFFFF#16

/-- The start byte of every frame (section 11.2). -/
def startByte : Byte := 0xD4

/-- A frame's bytes from its length to its last body byte: what the CRC covers (R167). -/
def Frame.covered (f : Frame) : List Byte :=
  beBytes 2 (f.body.length + 3) ++ (f.kind :: (beBytes 2 f.tag.toNat ++ f.body))

/-- A frame as it travels on the line (section 11.2). -/
def Frame.bytes (f : Frame) : List Byte :=
  startByte :: (f.covered ++ beBytes 2 (crc16 f.covered).toNat)

/-- The length field of the bytes assembled so far (R166). -/
def assembledLength (assembly : List Byte) : Nat := field assembly 0 2

/-- The frame that assembled bytes hold (section 11.2). -/
def assembledFrame (assembly : List Byte) : Frame :=
  { kind := BitVec.ofNat 8 (byteAt assembly 2)
    tag := BitVec.ofNat 16 (field assembly 3 2)
    body := (assembly.drop 5).take (assembledLength assembly - 3) }

/-! ### The Packer (R150) -/

/-- Words in pairs, each pair as three bytes (R150). -/
def packWords : List Word12 → List Byte
  | w0 :: w1 :: rest =>
    BitVec.ofNat 8 (w0.toNat / 16) :: BitVec.ofNat 8 (w0.toNat % 16 * 16 + w1.toNat / 256) ::
      BitVec.ofNat 8 (w1.toNat % 256) :: packWords rest
  | _ => []

/-- The packed data of W + 1 words: the check word is not packed (R150). -/
def packData (words : List Word12) : List Byte := packWords words.dropLast

/-! ### Words of a field -/

/-- One step of the end-around sum (R31). -/
def endAroundAdd (total : Nat) (w : Word12) : Nat :=
  if 4096 ≤ total + w.toNat then total + w.toNat - 4095 else total + w.toNat

/-- The end-around sum of words (R31). -/
def endAroundSum (words : List Word12) : Nat := words.foldl endAroundAdd 0

/-- A field passes its check when its end-around sum is 7777 octal, 4095 (R97). -/
def passesCheck (words : List Word12) : Bool := endAroundSum words == 4095

/-- The words the separator reads of a data field: as many as the field has, from the command's operand where
it holds them (R33; log entry 6). -/
def readWords (count sync : Nat) (words : List Word12) : List Word12 :=
  (List.range count).map (fun i => words.getD i (Config.unreadWord sync i))

/-- How far inside its acceptance window a transition fell, from the nearer edge, in 160,000ths of the operand's unit of
time: the window is centred on the sampling point, which each step of the strobe shift moves by a sixteenth of the bit
cell, and the trim scales the cell by 100 ppm a step (R30, R34). -/
def insideWindow (t : Transition) (trim strobe : Int) : Int :=
  160000 * t.half - (160000 * t.place - strobe * t.cell * (10000 + trim)).natAbs

/-- A transition's margin is at least so many quarters of half the window (R34). -/
def marginAtLeast (t : Transition) (trim strobe : Int) (quarters : Nat) : Bool :=
  quarters * (160000 * t.half) ≤ 4 * insideWindow t trim strobe

/-- The class of a transition's margin: 3/4, 1/2 and 1/4 begin classes 3, 2 and 1 (R34). -/
def marginClass (t : Transition) (trim strobe : Int) : Fin 4 :=
  if marginAtLeast t trim strobe 3 then 3
  else if marginAtLeast t trim strobe 2 then 2
  else if marginAtLeast t trim strobe 1 then 1
  else 0

/-- A word takes the class of its worst transition (R34); a word whose transitions the operand does not give has none
here. -/
def wordClass (trim strobe : Int) : List Transition → Option (Fin 4)
  | [] => none
  | t :: rest =>
    match wordClass trim strobe rest with
    | some c => some (min (marginClass t trim strobe) c)
    | none => some (marginClass t trim strobe)

/-- The margin classes graded for those words (R34; log entry 6). -/
def readMargins (count sync : Nat) (trim strobe : Int) (timing : List (List Transition)) : List (Fin 4) :=
  (List.range count).map (fun i => (wordClass trim strobe (timing.getD i [])).getD (Config.unreadMargin sync i))

end Sys2Proof.Machine
end

