-- ==== Sys2Proof/Machine/Flags.lean ====
section
/-! DEFINITION. The Flag Unit (10): raising, clearing and owing, and the flags' numbers. -/

namespace Sys2Proof.Machine

/-- The four kinds of unit flag (section 10.1). -/
inductive FlagKind where
  | spindleLost | speedFault | retracted | seekError
  deriving DecidableEq, Repr

/-- The number of a kind inside its unit. -/
def FlagKind.index : FlagKind → Nat
  | .spindleLost => 0 | .speedFault => 1 | .retracted => 2 | .seekError => 3

/-- The number of a unit flag: 4n + k (section 10.1). -/
def unitFlag (n : UnitId) (k : FlagKind) : Nat := 4 * n.val + k.index

/-- LINK_ERROR is flag 16 (section 10.1). -/
def linkErrorFlag : Nat := 16

/-- SLAB_SHORTAGE is flag 17 (section 10.1). -/
def slabShortageFlag : Nat := 17

/-- The set with one member. -/
def flagBit (k : Nat) : FlagSet := BitVec.twoPow 18 k

/-- Raising a flag (R156, R157): a clear flag becomes set, and joins the owed set if its enable is on. -/
def FlagUnit.raise (f : FlagUnit) (k : Nat) : FlagUnit :=
  if f.set.getLsbD k then f
  else { f with set := f.set ||| flagBit k, owed := f.owed ||| (f.enabled &&& flagBit k) }

/-- Clearing a set of flags, their owed notices with them (R159). -/
def FlagUnit.clear (f : FlagUnit) (named : FlagSet) : FlagUnit :=
  { f with set := f.set &&& ~~~named, owed := f.owed &&& ~~~named }

/-- Replacing the enable set; a flag whose enable is off is owed no notice (R162). -/
def FlagUnit.enable (f : FlagUnit) (named : FlagSet) : FlagUnit :=
  { f with enabled := named, owed := f.owed &&& named }

/-- The owed flag with the lowest number (R158). -/
def FlagUnit.lowestOwed (f : FlagUnit) : Option Nat :=
  (List.range 18).find? (fun k => f.owed.getLsbD k)

/-- How many flags a set holds. -/
def flagCount (f : FlagSet) : Nat := ((List.range 18).filter (fun k => f.getLsbD k)).length

/-- The block raises a flag. -/
def State.raise (s : State) (k : Nat) : State := { s with flags := s.flags.raise k }

/-- The flags of a unit, numbers 4n to 4n + 3 (R164). -/
def unitFlags (n : UnitId) : FlagSet :=
  flagBit (unitFlag n .spindleLost) ||| flagBit (unitFlag n .speedFault) |||
    flagBit (unitFlag n .retracted) ||| flagBit (unitFlag n .seekError)

/-- The SPINDLE_LOST flags held by their index-lost marks (R160). -/
def State.heldFlags (s : State) : FlagSet :=
  (List.finRange 4).foldl
    (fun held n => if s.drives[n].indexLost then held ||| flagBit (unitFlag n .spindleLost) else held) 0

end Sys2Proof.Machine
end

