-- ==== Sys2Proof/Machine/Ops.lean ====
section
/-! DEFINITION. The named operations over the tables of State, the Spindle Monitor's arithmetic (R4 to R7) and
the changes of a unit's drive state that several rules share (01). -/

namespace Sys2Proof.Machine

/-! ### Tables -/

/-- A unit's drive. -/
def State.drive (s : State) (n : UnitId) : Drive := s.drives[n]

/-- Replacing a unit's drive. -/
def State.setDrive (s : State) (n : UnitId) (d : Drive) : State := { s with drives := s.drives.set n d }

/-- Changing a unit's drive. -/
def State.modDrive (s : State) (n : UnitId) (f : Drive → Drive) : State := s.setDrive n (f (s.drive n))

/-- A unit's profiles. -/
def State.unitProfiles (s : State) (n : UnitId) : UnitProfiles := s.profiles[n]

/-- A unit's active profile (R113). -/
def State.active (s : State) (n : UnitId) : Profile := (s.unitProfiles n).active

/-- Replacing a unit's profiles. -/
def State.setProfiles (s : State) (n : UnitId) (p : UnitProfiles) : State :=
  { s with profiles := s.profiles.set n p }

/-- A unit's extent table (R130). -/
def State.extentsOf (s : State) (n : UnitId) : List Extent := s.extents[n]

/-- Replacing a unit's extent table. -/
def State.setExtents (s : State) (n : UnitId) (es : List Extent) : State :=
  { s with extents := s.extents.set n es }

/-- Replacing a unit's elevator direction. -/
def State.setDirection (s : State) (n : UnitId) (d : Direction) : State :=
  { s with directions := s.directions.set n d }

/-- An entry of the job table. -/
def State.job (s : State) (j : JobIx) : Option Job := s.jobs[j]

/-- Replacing an entry of the job table. -/
def State.setJob (s : State) (j : JobIx) (x : Option Job) : State := { s with jobs := s.jobs.set j x }

/-- Changing a live job. -/
def State.modJob (s : State) (j : JobIx) (f : Job → Job) : State :=
  match s.job j with
  | some x => s.setJob j (some (f x))
  | none => s

/-- A sector record of a live job. -/
def State.record (s : State) (j : JobIx) (sec : Nat) : Option Record :=
  (s.job j).bind (fun x => x.records[sec]?)

/-- Changing a sector record of a live job. -/
def State.modRecord (s : State) (j : JobIx) (sec : Nat) (f : Record → Record) : State :=
  s.modJob j (fun x => { x with records := x.records.modify sec f })

/-- A slab in use. -/
def State.slab (s : State) (i : SlabId) : Option Slab := s.slabs[i]

/-- Replacing a slab. -/
def State.setSlab (s : State) (i : SlabId) (x : Option Slab) : State := { s with slabs := s.slabs.set i x }

/-- Changing a slab in use. -/
def State.modSlab (s : State) (i : SlabId) (f : Slab → Slab) : State :=
  match s.slab i with
  | some x => s.setSlab i (some (f x))
  | none => s

/-- The live jobs. -/
def State.liveJobs (s : State) : List JobIx := (List.finRange 32).filter (fun j => (s.job j).isSome)

/-- The live jobs of a unit. -/
def State.jobsOf (s : State) (n : UnitId) : List JobIx :=
  (List.finRange 32).filter (fun j => match s.job j with | some x => x.unit == n | none => false)

/-- The lowest-numbered free entry of the job table (R43). -/
def State.freeJob (s : State) : Option JobIx := (List.finRange 32).find? (fun j => (s.job j).isNone)

/-- How many entries of the job table are free. -/
def State.freeJobs (s : State) : Nat := ((List.finRange 32).filter (fun j => (s.job j).isNone)).length

/-- The lowest-numbered free slab (R91). -/
def State.freeSlabId (s : State) : Option SlabId := (List.finRange 64).find? (fun i => (s.slab i).isNone)

/-- A counter that holds at a limit. -/
def holdAt (limit n : Nat) : Nat := min limit (n + 1)

/-- A job's counter goes up by 1, holding at 65,535 (R50). -/
def bump (n : Nat) : Nat := holdAt 65535 n

/-- Of two arrival numbers, a is older than b (R43). -/
def older (a b : BitVec 32) : Bool := (b - a).toNat < 2147483648

/-- A job's arrival number, 0 for a free entry. -/
def State.arrivalOf (s : State) (j : JobIx) : BitVec 32 := ((s.job j).map (·.arrival)).getD 0

/-- The oldest of some jobs by arrival number (R43). -/
def State.oldest (s : State) : List JobIx → Option JobIx
  | [] => none
  | j :: rest =>
    match s.oldest rest with
    | none => some j
    | some k => if older (s.arrivalOf j) (s.arrivalOf k) then some j else some k

/-- A job put into its place in a list that runs from the oldest to the youngest. -/
def State.insertByAge (s : State) (j : JobIx) : List JobIx → List JobIx
  | [] => [j]
  | k :: rest => if older (s.arrivalOf j) (s.arrivalOf k) then j :: k :: rest else k :: s.insertByAge j rest

/-- Jobs from the oldest to the youngest (R43). -/
def State.byAge (s : State) : List JobIx → List JobIx
  | [] => []
  | j :: rest => s.insertByAge j (s.byAge rest)

/-! ### Outputs -/

/-- Clear-to-send: asserted while the receive buffer holds fewer than two frames (R170). -/
def State.clearToSend (s : State) : Bool := s.link.buffer.length < Config.bufferCapacity

/-- The read gate of a unit: on only while the channel captures for it (R3, R24). -/
def State.readGate (s : State) (n : UnitId) : Bool := s.channel.state == .capturing n

/-- The unit select line: inactive for an undefined unit (R22), otherwise a free value (log entry 4). -/
def State.unitSelected (s : State) (n : UnitId) : Bool :=
  (s.drive n).descriptor.isSome && Config.unitSelect s.clock n

/-! ### The Spindle Monitor (R4 to R7) -/

/-- The deviation of a period in parts per million, truncated toward zero (R5). -/
def deviationOf (period nominal : Nat) : Int := Int.tdiv (((period : Int) - nominal) * 1000000) nominal

/-- A number limited to a magnitude, its sign kept. -/
def clampTo (limit : Nat) (x : Int) : Int :=
  if (limit : Int) < x then limit else if x < -(limit : Int) then -(limit : Int) else x

/-- The trim target of a deviation: d/100 rounded half away from zero, clamped to -63..+63 (R6). -/
def trimTargetOf (d : Int) : Int :=
  let q : Nat := d.natAbs / 100 + (if 50 ≤ d.natAbs % 100 then 1 else 0)
  clampTo 63 (if d < 0 then -(q : Int) else q)

/-- One step of the current trim toward the target (R6). -/
def trimStep (current target : Int) : Int :=
  if current < target then current + 1 else if target < current then current - 1 else current

/-- A deviation is out of tolerance when its magnitude is strictly greater than the tolerance (R5). -/
def outOfTolerance (d : Int) (tolerance : Nat) : Bool := tolerance < d.natAbs

/-- The speed status and the in-tolerance run after a period (R5). -/
def speedAfter (speed : SpeedStatus) (run : Nat) (out : Bool) : SpeedStatus × Nat :=
  match speed, out with
  | .inTolerance, false => (.inTolerance, 0)
  | .inTolerance, true => (.out, 0)
  | .out, true => (.out, 0)
  | .out, false => if 2 ≤ run + 1 then (.inTolerance, 0) else (.out, run + 1)

/-- The monitor after a period P that ends at a time (R4 to R6). -/
def Monitor.measure (m : Monitor) (descriptor : Descriptor) (now period : Nat) : Monitor :=
  let d := deviationOf period descriptor.period
  let target := trimTargetOf d
  let after := speedAfter m.speed m.run (outOfTolerance d descriptor.tolerance)
  { prevIndex := some now, lastPeriod := some period, deviation := d, trimTarget := target,
    currentTrim := if m.locked then trimStep m.currentTrim target else target,
    locked := true, speed := after.1, run := after.2 }

/-- The monitor after an index pulse (R4). -/
def Monitor.index (m : Monitor) (descriptor : Descriptor) (now : Nat) : Monitor :=
  match m.prevIndex with
  | none => { m with prevIndex := some now }
  | some before => m.measure descriptor now (now - before)

/-- Trim-settled (R7). -/
def Monitor.trimSettled (m : Monitor) : Bool := m.locked && (m.currentTrim - m.trimTarget).natAbs ≤ 2

/-! ### Drive states -/

/-- The states in which periods are measured (R4). -/
def DriveState.measures : DriveState → Bool
  | .idle => true
  | .seeking => true
  | .recalibrating => true
  | .settling => true
  | .tracking => true
  | .speedFault => true
  | .undefined => false
  | .notReady => false
  | .unloading => false
  | .retracted => false

/-- The states in which the index timer runs (R8). -/
def DriveState.timed : DriveState → Bool
  | .notReady => true
  | .idle => true
  | .seeking => true
  | .recalibrating => true
  | .settling => true
  | .tracking => true
  | .speedFault => true
  | .undefined => false
  | .unloading => false
  | .retracted => false

/-- A drive takes a state. Leaving TRACKING clears the deferral count (R26) and discards the pass loop (R59); the
settle count is SETTLING's; a motion in flight is over or abandoned (R9, R11, R12, R17, R19, R23); the index timer
stops in a state in which it does not run (R8); the unload line is driven only in UNLOADING (R20) and the load
line only in NOT_READY (R21). -/
def Drive.enter (d : Drive) (st : DriveState) : Drive :=
  { d with
    state := st
    settleCount := if st = .settling then d.settleCount else 0
    deferral := if st = .tracking then d.deferral else 0
    prepared := if st = .tracking then d.prepared else none
    waiting := if st = .tracking then d.waiting else 0
    passStrays := if st = .tracking then d.passStrays else 0
    motion := .still
    indexTimer := if st.timed then d.indexTimer else none
    unloadLine := d.unloadLine && st == .unloading
    loadLine := d.loadLine && st == .notReady }

/-- Entering IDLE clears the seek-error count (R10); no cylinder is being positioned to. -/
def Drive.enterIdle (d : Drive) : Drive := { d.enter .idle with seekErrors := 0, target := none }

/-- The time limit of the index timer, 3 N ticks from a time (R8). -/
def Drive.timerFrom (d : Drive) (now : Nat) : Option Nat :=
  d.descriptor.map (fun x => now + 3 * x.period)

/-- Positioning is lost: the cylinder unknown, the target dropped, the offset lines at 0 and the monitor cleared
(R9, R23). -/
def Drive.losePosition (d : Drive) : Drive :=
  { d with cylinder := none, target := none, offset := 0, monitor := .cleared }

/-- A seek is issued to the target: the offset returns to 0 first (R3, R11). -/
def State.issueSeek (s : State) (n : UnitId) : State :=
  s.modDrive n (fun d =>
    { d.enter .seeking with offset := 0, motion := .seek (s.clock + Config.seekLimit) })

/-- A restore is issued: the offset returns to 0 first (R3, R12). -/
def State.issueRestore (s : State) (n : UnitId) : State :=
  s.modDrive n (fun d =>
    { d.enter .recalibrating with offset := 0, motion := .restore (s.clock + Config.restoreLimit) })

/-- An unload begins (R17, R18, R19): the unload line is driven, motion is abandoned, the monitor cleared, the
index timer stopped and the dead-revolution count 0. -/
def State.beginUnload (s : State) (n : UnitId) : State :=
  s.modDrive n (fun d =>
    { d.enter .unloading with
      unloadLine := true, target := none, monitor := .cleared, deadRevs := 0 })

/-- The pass loop and the held job are gone from a drive (R59, R51). -/
def Drive.dropJob (d : Drive) : Drive :=
  { d with heldJob := none, prepared := none, waiting := 0, passStrays := 0 }

/-- The waiting revolutions that DRIVE-STATUS reports (R63). -/
def Drive.waitingRevolutions (d : Drive) : Nat :=
  match d.state with
  | .settling => d.settleCount
  | .tracking => d.waiting
  | .undefined => 0
  | .notReady => 0
  | .idle => 0
  | .seeking => 0
  | .recalibrating => 0
  | .speedFault => 0
  | .unloading => 0
  | .retracted => 0

end Sys2Proof.Machine
end

