-- ==== Sys2Proof/Machine/Quirks.lean ====
section
/-! DEFINITION. Matching and combining quirks (R125, R126) and the positioning evaluation (R128). -/

namespace Sys2Proof.Machine

/-- An offset satisfies a condition (section 7.4). -/
def OffsetCondition.holds : OffsetCondition → Int → Bool
  | .positive, x => 0 < x
  | .negative, x => x < 0
  | .nonzero, x => x != 0

/-- An entry matches a model and a track under an offset (R125). -/
def Quirk.matches (q : Quirk) (model cylinder head : Nat) (offset : Int) : Bool :=
  q.model == model &&
  (match q.heads with | some set => set.getLsbD head | none => true) &&
  (match q.cylinders with | some (low, high) => decide (low ≤ cylinder ∧ cylinder ≤ high) | none => true) &&
  (match q.condition with | some c => c.holds offset | none => true)

/-- No action (R126). -/
def Actions.none : Actions :=
  { clampOffset := .none, extraSettle := .none, headerMask := .none, weightCap := .none, noBlind := false,
    noVote := false }

/-- The lesser of a value and one that may be absent. -/
def leastOf (x : Nat) : Option Nat → Option Nat
  | some y => some (min x y)
  | .none => some x

/-- The greater of a value and one that may be absent. -/
def greatestOf (x : Nat) : Option Nat → Option Nat
  | some y => some (max x y)
  | .none => some x

/-- One more action combined, toward the cautious side (R126). -/
def Actions.combine (a : Actions) : QuirkAction → Actions
  | .clampOffset c => { a with clampOffset := leastOf c a.clampOffset }
  | .extraSettle e => { a with extraSettle := greatestOf e a.extraSettle }
  | .headerMask m => { a with headerMask := leastOf m a.headerMask }
  | .weightCap w => { a with weightCap := leastOf w a.weightCap }
  | .noBlind => { a with noBlind := true }
  | .noVote => { a with noVote := true }

/-- The slots that match (R125). -/
def State.matchingSlots (s : State) (model cylinder head : Nat) (offset : Int) : List (Fin 16) :=
  (List.finRange 16).filter (fun k =>
    match s.quirks[k] with
    | some q => q.matches model cylinder head offset
    | none => false)

/-- A set of slots as a number (R177). -/
def slotSet (ks : List (Fin 16)) : BitVec 16 := ks.foldl (fun set k => set ||| BitVec.twoPow 16 k.val) 0

/-- The combined actions of slots (R126). -/
def State.combined (s : State) (ks : List (Fin 16)) : Actions :=
  ks.foldl (fun a k => match s.quirks[k] with | some q => a.combine q.action | none => a) .none

/-- The model code of a unit (R125); a unit with no descriptor is never evaluated. -/
def State.evaluate (s : State) (n : UnitId) (cylinder head : Nat) (offset : Int) : List (Fin 16) :=
  match (s.drive n).descriptor with
  | some d => s.matchingSlots d.model cylinder head offset
  | none => []

/-- A positioning evaluation of a unit for a job (R128). -/
def State.evaluatePositioning (s : State) (n : UnitId) (j : JobIx) : State :=
  match s.job j with
  | some x =>
    let ks := s.evaluate n x.cylinder x.head 0
    s.modDrive n (fun d =>
      { d with positioningSettle := (s.combined ks).extraSettle.getD 0, matchedSlots := slotSet ks })
  | none => s

end Sys2Proof.Machine
end

