-- ==== Sys2Proof/Machine/Delivery.lean ====
section
/-! DEFINITION. The delivery queue (09): offering, admitting, JOB-END entries and the stray buffers. -/

namespace Sys2Proof.Machine

/-- The queue has a free place (R142). -/
def State.queueRoom (s : State) : Bool := s.queue.length < Config.deliveryCapacity

/-- An entry joins the tail (R142). -/
def State.enqueue (s : State) (e : Entry) : State := { s with queue := s.queue ++ [e] }

/-- A record's delivery status changes. -/
def State.setDelivery (s : State) (j : JobIx) (sec : Nat) (d : DeliveryStatus) : State :=
  s.modRecord j sec (fun r => { r with delivery := d })

/-- A record is offered for delivery (R143). -/
def State.offer (s : State) (j : JobIx) (sec : Nat) : State :=
  if s.queueRoom then (s.enqueue (.sector j sec)).setDelivery j sec .queued
  else s.setDelivery j sec .awaiting

/-- The lowest sector of a job that is AWAITING (R144). -/
def Job.awaiting (x : Job) : Option Nat := x.records.findIdx? (fun r => r.delivery == .awaiting)

/-- A job's JOB-END is due (R145). -/
def Job.jobEndDue (x : Job) : Bool := x.finalized && x.awaiting.isNone

/-- A job's JOB-END is due and stands in the queue in no place: it is held back (R145). -/
def State.jobEndHeld (s : State) (j : JobIx) : Bool :=
  match s.job j with
  | some x => x.jobEndDue && !s.queue.contains (.jobEnd j)
  | none => false

/-- A job's JOB-END joins the tail if it is due and there is a free place (R145). -/
def State.queueJobEnd (s : State) (j : JobIx) : State :=
  if s.jobEndHeld j && s.queueRoom then s.enqueue (.jobEnd j) else s

/-- A job has a record AWAITING or its JOB-END held back (R144). -/
def State.waitsForRoom (s : State) (j : JobIx) : Bool :=
  match s.job j with
  | some x => x.awaiting.isSome || s.jobEndHeld j
  | none => false

/-- A freed place admits one waiting item of the oldest job that has one: its lowest AWAITING record, or else
its JOB-END (R144). -/
def State.admitWaiting (s : State) : State :=
  match s.oldest ((List.finRange 32).filter s.waitsForRoom) with
  | none => s
  | some j =>
    match (s.job j).bind (·.awaiting) with
    | some sec => ((s.enqueue (.sector j sec)).setDelivery j sec .queued).queueJobEnd j
    | none => s.enqueue (.jobEnd j)

/-- The lowest-numbered free stray buffer (R147). -/
def State.freeStray (s : State) : Option (Fin 4) := (List.finRange 4).find? (fun b => (s.strays[b]).isNone)

/-- A stray is kept: copied into a buffer, its entry at the tail (R78). -/
def State.keepStray (s : State) (b : Fin 4) (x : Stray) : State :=
  { s with strays := s.strays.set b (some x) }.enqueue (.stray b)

end Sys2Proof.Machine
end

