-- ==== Sys2Proof/Machine/Votes.lean ====
section
/-! DEFINITION. The vote store's arithmetic and the repair unit (06): weights, folds, voted images, weak bits,
candidates, the repair FIFO, and freeing a slab. -/

namespace Sys2Proof.Machine

/-! ### Bits and weights -/

/-- The bits of words: bit b of word i at place 12 i + b (R94). -/
def bitsOf (words : List Word12) : List Bool :=
  words.flatMap (fun w => (List.range 12).map (fun b => w.getLsbD b))

/-- The word of twelve bits, bit 0 first. -/
def wordOf (bits : List Bool) : Word12 := BitVec.ofNat 12 (bits.foldr (fun b n => 2 * n + b.toNat) 0)

/-- The words of a list of bits, as many as asked for. -/
def wordsOf : Nat → List Bool → List Word12
  | 0, _ => []
  | k + 1, bits => wordOf (bits.take 12) :: wordsOf k (bits.drop 12)

/-- A weight under the pass's WEIGHT_CAP (R93). -/
def capped (cap : Option Nat) (q : Nat) : Nat :=
  match cap with
  | some c => min q c
  | none => q

/-- The weight of a word: its margin class plus 1 for a HEADER capture, 1 for a BLIND one, capped (R93). -/
def wordWeight (ident : Identification) (cap : Option Nat) (margin : Fin 4) : Nat :=
  match ident with
  | .header => capped cap (margin.val + 1)
  | .blind => capped cap 1

/-- An accumulator after one bit of weight q, clamped to -63..+63 (R94). -/
def voteStep (acc : Int) (bit : Bool) (q : Nat) : Int := clampTo 63 (if bit then acc + q else acc - q)

/-- The accumulators after a fold (R94). -/
def foldVotes (acc : List Int) (words : List Word12) (weights : List Nat) : List Int :=
  List.zipWith (fun a (x : Bool × Nat) => voteStep a x.1 x.2) acc
    ((bitsOf words).zip (weights.flatMap (fun q => List.replicate 12 q)))

/-! ### The voted image and its weak bits -/

/-- A voted bit: a tie takes the last raw image's bit (R95). -/
def votedBit (acc : Int) (raw : Bool) : Bool := if 0 < acc then true else if acc < 0 then false else raw

/-- The voted image of a slab (R95). -/
def Slab.votedImage (x : Slab) : List Word12 :=
  wordsOf x.lastRaw.length (List.zipWith votedBit x.acc (bitsOf x.lastRaw))

/-- How many bits are weak under a threshold (R96). -/
def weakCountOf (threshold : Nat) (acc : List Int) : Nat :=
  (acc.filter (fun a => a.natAbs < threshold)).length

/-- The places of the weak bits in weak order: by magnitude, then by word and bit (R96). -/
def weakBits (threshold : Nat) (acc : List Int) : List Nat :=
  (List.range threshold).flatMap (fun m => (acc.zipIdx.filter (fun p => p.1.natAbs == m)).map (·.2))

/-- A slab after a fold of words at weights under thresholds (R94 to R96). -/
def Slab.fold (x : Slab) (words : List Word12) (weights : List Nat) (th : Thresholds) : Slab :=
  let acc := foldVotes x.acc words weights
  { x with acc := acc, folds := holdAt 255 x.folds, lastRaw := words, thresholds := th,
           weakCount := weakCountOf th.weak acc }

/-- A slab as allocated for a record (R84, R91). The last raw image and the thresholds are set by the first
fold, which follows at once. -/
def Slab.fresh (j : JobIx) (sec words : Nat) (th : Thresholds) : Slab :=
  { job := j, sector := sec, acc := List.replicate (words * 12) 0, folds := 0, lastRaw := [],
    thresholds := th, weakCount := 0, status := .idle, pending := none, ambiguity := 0 }

/-- The fold thresholds of a profile (R94). -/
def Profile.thresholds (p : Profile) : Thresholds := { quorum := p.quorum, weak := p.weak, repair := p.repair }

/-! ### The repair search -/

/-- An image with one bit inverted (R102). -/
def flipBit (words : List Word12) (place : Nat) : List Word12 :=
  words.modify (place / 12) (fun w => w ^^^ BitVec.twoPow 12 (place % 12))

/-- The pairs of a list, in order of their first and then of their second member (R102). -/
def pairsOf : List Nat → List (Nat × Nat)
  | [] => []
  | a :: rest => rest.map (fun b => (a, b)) ++ pairsOf rest

/-- The candidates of a search: each weak bit alone, then each pair (R102). -/
def candidatesOf (image : List Word12) (bits : List Nat) : List (List Word12) :=
  bits.map (flipBit image) ++ (pairsOf bits).map (fun p => flipBit (flipBit image p.1) p.2)

/-- The search that a slab's weak bits call for (R102). -/
def Slab.searchOf (x : Slab) (i : SlabId) : Search :=
  let bits := weakBits x.thresholds.weak x.acc
  { slab := i, bits := bits, candidates := candidatesOf x.votedImage bits }

/-- The repair unit, when IDLE, takes the slab at the head of the FIFO (R101). -/
def State.startSearch (s : State) : State :=
  match s.search, s.fifo with
  | none, i :: rest =>
    match s.slab i with
    | some x => { s.setSlab i (some { x with status := .searching }) with fifo := rest, search := some (x.searchOf i) }
    | none => { s with fifo := rest }
  | _, _ => s

/-- A slab joins the tail of the FIFO (R99). -/
def State.queueRepair (s : State) (i : SlabId) : State :=
  { s.modSlab i (fun x => { x with status := .queued }) with fifo := s.fifo ++ [i] }.startSearch

/-- A slab is freed: it leaves the FIFO, its search is abandoned, and the repair unit goes on (R91, R108). -/
def State.freeSlab (s : State) (i : SlabId) : State :=
  { s.setSlab i none with
    fifo := s.fifo.filter (fun k => k != i)
    search := match s.search with
      | some x => if x.slab = i then none else some x
      | none => none }.startSearch

/-- A slab of the job stands in the repair unit: QUEUED or SEARCHING (R54). -/
def State.inRepair (s : State) (j : JobIx) : Bool :=
  (List.finRange 64).any (fun i =>
    match s.slab i with
    | some x => x.job == j && x.status != .idle
    | none => false)

/-- A job's QUEUED slabs leave the FIFO and become IDLE, their pending captures discarded (R53, R110). -/
def State.withdrawSlabs (s : State) (j : JobIx) : State :=
  let queued : SlabId → Bool := fun i =>
    match s.slab i with
    | some x => x.job == j && x.status == .queued
    | none => false
  { s with
    fifo := s.fifo.filter (fun i => !queued i)
    slabs := s.slabs.mapFinIdx (fun i x h =>
      if queued ⟨i, h⟩ then x.map (fun y => { y with status := .idle, pending := none }) else x) }

end Sys2Proof.Machine
end

