-- ==== Sys2Proof/Machine/Channel.lean ====
section
/-! DEFINITION. The Read Channel's requests, arbiter, grant, opening and early release (02). -/

namespace Sys2Proof.Machine

/-- The channel is RESERVED or CAPTURING for a unit (R24). -/
def ChannelState.holds (c : ChannelState) (n : UnitId) : Bool := c == .reserved n || c == .capturing n

/-- A unit's held job may start a pass: its pass count below the limit in force, its budget above 0 (R25). -/
def State.mayStartPass (s : State) (n : UnitId) : Bool :=
  match (s.drive n).heldJob.bind s.job with
  | some x => x.passCount < (s.active n).passLimit && 0 < x.budget
  | none => false

/-- A unit is requesting (R25). -/
def State.requesting (s : State) (n : UnitId) : Bool :=
  (s.drive n).state == .tracking && (s.drive n).waiting == 0 && (s.drive n).monitor.trimSettled && s.mayStartPass n

/-- Round-robin order: from the unit after the last-granted unit upward (R28). -/
def State.roundRobin (s : State) : List UnitId :=
  [s.channel.lastGranted + 1, s.channel.lastGranted + 2, s.channel.lastGranted + 3, s.channel.lastGranted]

/-- A unit's profile has a deferral limit above 0 that its deferral count has reached: tier 1 (R28). -/
def State.overdue (s : State) (n : UnitId) : Bool :=
  0 < (s.active n).deferral && (s.active n).deferral ≤ (s.drive n).deferral

/-- A unit holds a job of class URGENT: tier 2 (R28). -/
def State.urgent (s : State) (n : UnitId) : Bool :=
  match (s.drive n).heldJob.bind s.job with
  | some x => x.cls == .urgent
  | none => false

/-- The first unit of a list with the highest deferral count (R28). -/
def State.mostDeferred (s : State) : List UnitId → Option UnitId
  | [] => none
  | n :: rest =>
    match s.mostDeferred rest with
    | none => some n
    | some m => if (s.drive m).deferral ≤ (s.drive n).deferral then some n else some m

/-- The unit the arbiter chooses among those requesting (R28). -/
def State.arbiterChoice (s : State) : Option UnitId :=
  let asking := s.roundRobin.filter s.requesting
  match s.mostDeferred (asking.filter s.overdue) with
  | some n => some n
  | none =>
    match asking.find? s.urgent with
    | some n => some n
    | none => asking.head?

/-- The grant: RESERVED for the unit, which becomes the last granted, its deferral count 0 (R29). -/
def State.grant (s : State) (n : UnitId) : State :=
  { s with channel := { s.channel with state := .reserved n, lastGranted := n } }.modDrive n
    (fun d => { d with deferral := 0 })

/-- The arbiter runs whenever the channel is IDLE and a unit is requesting (R27). -/
def State.arbitrate (s : State) : State :=
  if s.channel.state = .idle then
    match s.arbiterChoice with
    | some n => s.grant n
    | none => s
  else s

/-- The channel enters IDLE: nothing granted, the strobe shift 0, nothing of the revolution kept (R40, R41). -/
def Channel.toIdle (c : Channel) : Channel :=
  { c with state := .idle, strobe := 0, slotSet := [], deferred := [], rev := none, openHeader := none,
           liveSeen := false }

/-- The channel goes to IDLE and the arbiter runs (R40, R41). -/
def State.channelIdle (s : State) : State := { s with channel := s.channel.toIdle }.arbitrate

/-- Early release, if the channel is reserved or capturing for the unit (R41). -/
def State.releaseEarly (s : State) (n : UnitId) : State :=
  if s.channel.state.holds n then s.channelIdle else s

/-- The capture opens at the granted unit's index (R30): what is fixed for the revolution. -/
def State.openCapture (s : State) (n : UnitId) (j : JobIx) (x : Job) (p : Prepared) (d : Descriptor) : State :=
  let pitch := (s.drive n).monitor.lastPeriod.getD 0 / d.sectors
  { s with channel :=
      { s.channel with
        state := .capturing n
        strobe := p.strobe
        slotSet := []
        deferred := []
        openHeader := none
        liveSeen := false
        rev := some
          { job := j, trim := (s.drive n).monitor.currentTrim, pitch := pitch, window := pitch / 4,
            cylinder := x.cylinder, head := x.head, headerMask := p.actions.headerMask,
            noBlind := p.actions.noBlind, weightCap := p.actions.weightCap, noVote := p.actions.noVote,
            profile := s.active n } } }.modDrive n (fun d => { d with passStrays := 0 })

end Sys2Proof.Machine
end

