-- ==== Sys2Proof/Machine/Jobs.lean ====
section
/-! DEFINITION. The Job Scheduler (03): creating and choosing jobs, how they end, and their finalization. -/

namespace Sys2Proof.Machine

/-! ### Admission (R43, R45) -/

/-- Every counter 0 (R45). -/
def Counters.zero : Counters :=
  { passes := 0, revolutions := 0, headerCaptures := 0, blindUsed := 0, strays := 0, recalibrations := 0,
    ambiguous := 0 }

/-- A record at admission (R45, R74). -/
def Record.fresh (wanted : Bool) (block : Option Nat) : Record :=
  { wanted := wanted, state := if wanted then .wanted else .notWanted, reads := 0, image := none, slab := none,
    block := block, weakCount := 0, weakList := [], delivery := .none, lastSync := none }

/-- A job at admission (R43, R45). -/
def Job.fresh (n : UnitId) (cylinder head : Nat) (cls : JobClass) (tag : Tag) (budget : Nat)
    (records : List Record) (arrival : BitVec 32) : Job :=
  { unit := n, cylinder := cylinder, head := head, cls := cls, tag := tag, records := records,
    budget := if budget = 0 then Config.defaultBudget else budget, state := .queued, arrival := arrival,
    passCount := 0, fruitless := 0, mark := false, endCause := none, finalized := false, counters := .zero }

/-- A job takes an entry and the next arrival number (R43). -/
def State.admitJob (s : State) (j : JobIx) (x : Job) : State :=
  { s.setJob j (some x) with arrival := s.arrival + 1 }

/-- A live job names a track (R44). -/
def State.trackBusy (s : State) (n : UnitId) (cylinder head : Nat) : Bool :=
  (List.finRange 32).any (fun j =>
    match s.job j with
    | some x => x.unit == n && x.cylinder == cylinder && x.head == head
    | none => false)

/-! ### Selection (R46, R47) -/

/-- The QUEUED jobs of a unit of a class (R47). -/
def State.queuedJobs (s : State) (n : UnitId) (cls : JobClass) : List JobIx :=
  (List.finRange 32).filter (fun j =>
    match s.job j with
    | some x => x.unit == n && x.state == .queued && x.cls == cls
    | none => false)

/-- The cylinder of a job, 0 for a free entry. -/
def State.cylinderOf (s : State) (j : JobIx) : Nat := ((s.job j).map (·.cylinder)).getD 0

/-- A cylinder lies ahead in a direction; the current cylinder does in both (R47). -/
def Direction.ahead : Direction → Nat → Nat → Bool
  | .up, current, c => current ≤ c
  | .down, current, c => c ≤ current

/-- The distance to a cylinder. -/
def distance (a b : Nat) : Nat := if a ≤ b then b - a else a - b

/-- The jobs nearest to the current cylinder among those ahead in a direction (R47). -/
def State.nearest (s : State) (current : Nat) (dir : Direction) (js : List JobIx) : List JobIx :=
  let ahead := js.filter (fun j => dir.ahead current (s.cylinderOf j))
  ahead.filter (fun j => ahead.all (fun k => distance current (s.cylinderOf j) ≤ distance current (s.cylinderOf k)))

/-- The other direction (R47). -/
def Direction.reverse : Direction → Direction
  | .up => .down
  | .down => .up

/-- The job that selection chooses for a unit, with the elevator direction after it (R47). -/
def State.select (s : State) (n : UnitId) : Option (JobIx × Direction) :=
  let dir := s.directions[n]
  match s.oldest (s.queuedJobs n .urgent) with
  | some j => some (j, dir)
  | none =>
    let bulk := s.queuedJobs n .bulk
    let current := (s.drive n).cylinder.getD 0
    match s.oldest (s.nearest current dir bulk) with
    | some j => some (j, dir)
    | none => (s.oldest (s.nearest current dir.reverse bulk)).map (fun j => (j, dir.reverse))

/-! ### Finalization (R54, R111) -/

/-- A record's final state (R54, R111). -/
def State.finalRecord (s : State) (r : Record) : Record :=
  match r.state with
  | .voting =>
    match r.slab.bind s.slab with
    | some x =>
      { r with state := .bestEffort, image := some ⟨.final, x.votedImage⟩, slab := none, weakCount := x.weakCount,
               weakList := ((weakBits x.thresholds.weak x.acc).take 32).map (fun i => (i / 12, i % 12)) }
    | none => { r with state := .bestEffort, image := r.image.map (fun im => { im with kind := .final }), slab := none }
  | .wanted =>
    match r.image with
    | some im => { r with state := .bestEffort, image := some { im with kind := .final } }
    | none => { r with state := .missing }
  | .notWanted => r
  | .good => r
  | .voted => r
  | .repaired => r
  | .bestEffort => r
  | .missing => r

/-- The slabs that a job's VOTING records hold (R54). -/
def Job.votingSlabs (x : Job) : List SlabId :=
  x.records.filterMap (fun r => if r.state = .voting then r.slab else none)

/-- A record became BEST_EFFORT by finalization and has not been offered (R54, R143). -/
def Record.toOffer (r : Record) : Bool := r.state == .bestEffort && r.delivery == .none

/-- The sectors to offer after finalization, in ascending order (R54). -/
def Job.sectorsToOffer (x : Job) : List Nat :=
  (List.range x.records.length).filter (fun i =>
    match x.records[i]? with
    | some r => r.toOffer
    | none => false)

/-- A job is finalized: its records take their final states, its slabs are freed, its BEST_EFFORT records are
offered in ascending order, and its JOB-END may fall due (R54, R145). -/
def State.finalize (s : State) (j : JobIx) : State :=
  match s.job j with
  | none => s
  | some x =>
    let y := { x with records := x.records.map s.finalRecord, finalized := true }
    let freed := x.votingSlabs.foldl (fun t i => t.freeSlab i) (s.setJob j (some y))
    (y.sectorsToOffer.foldl (fun t sec => t.offer j sec) freed).queueJobEnd j

/-- A DRAINING job is finalized, once, when none of its slabs is QUEUED or SEARCHING (R52, R53, R111). -/
def State.finalizeIfDone (s : State) (j : JobIx) : State :=
  match s.job j with
  | some x => if x.state = .draining ∧ x.finalized = false ∧ s.inRepair j = false then s.finalize j else s
  | none => s

/-! ### How jobs end (R51 to R53) -/

/-- The causes that withdraw a job's slabs from the repair unit (R53). -/
def EndCause.withdraws : EndCause → Bool
  | .complete => false
  | .passesExhausted => false
  | .budgetExhausted => false
  | .aborted => true
  | .driveRetracted => true
  | .driveLost => true
  | .seekFailed => true
  | .driveReset => true

/-- A job's unit no longer holds it, and the channel is released early (R51). -/
def State.letGo (s : State) (j : JobIx) (n : UnitId) : State :=
  if (s.drive n).heldJob = some j then (s.modDrive n Drive.dropJob).releaseEarly n else s

/-- A job that is not yet DRAINING ends for a cause (R51). What its unit does next is the caller's. -/
def State.endJob (s : State) (j : JobIx) (cause : EndCause) : State :=
  match s.job j with
  | none => s
  | some x =>
    if x.state = .draining then s
    else
      let ended := (s.setJob j (some { x with state := .draining, endCause := some cause })).letGo j x.unit
      (if cause.withdraws then ended.withdrawSlabs j else ended).finalizeIfDone j

/-- The jobs of a unit that are QUEUED, oldest first (R56, R58). -/
def State.queuedByAge (s : State) (n : UnitId) : List JobIx :=
  s.byAge ((s.jobsOf n).filter (fun j =>
    match s.job j with
    | some x => x.state == .queued
    | none => false))

/-- Ending a unit's held job, if it holds one. -/
def State.endHeld (s : State) (n : UnitId) (cause : EndCause) : State :=
  match (s.drive n).heldJob with
  | some j => s.endJob j cause
  | none => s

end Sys2Proof.Machine
end

