-- ==== Sys2Proof/Machine/Passes.lean ====
section
/-! DEFINITION. Pass starts (R60 to R62), entries to TRACKING and IDLE with selection and hand-over (R10, R48,
R59), what a unit does when its job ends (R15), pass ends (R66 to R70) and the swap (R72, R120). -/

namespace Sys2Proof.Machine

/-! ### Pass start (R60 to R62) -/

/-- The pass list entry of a pass count (R61). -/
def Profile.passAt (p : Profile) (count : Nat) : PassEntry :=
  p.passes.getD (count % p.passes.length) ⟨0, 0⟩

/-- A requested offset limited by the descriptor's steps and by CLAMP_OFFSET (R62). -/
def clampOffset (steps : Nat) (clamp : Option Nat) (requested : Int) : Int :=
  match clamp with
  | some c => clampTo c (clampTo steps requested)
  | none => clampTo steps requested

/-- The setting of a pass for a unit's job (R61, R62, R127). -/
def State.preparePass (s : State) (n : UnitId) (x : Job) : Prepared :=
  let p := s.active n
  let entry := p.passAt x.passCount
  let ks := s.evaluate n x.cylinder x.head entry.offset
  let actions := s.combined ks
  let steps := ((s.drive n).descriptor.map (·.maxOffset)).getD 0
  { position := x.passCount % p.passes.length, requested := entry.offset,
    offset := clampOffset steps actions.clampOffset entry.offset, strobe := entry.strobe,
    slots := slotSet ks, actions := actions }

/-- A prepared pass is recorded and its offset applied; an offset change costs 1 revolution and the combined
EXTRA_SETTLE (R62), and the waiting count holds at 255 (R63). -/
def Drive.applyPass (d : Drive) (p : Prepared) : Drive :=
  { d with
    prepared := some p
    matchedSlots := p.slots
    offset := p.offset
    waiting := if p.offset = d.offset then d.waiting else min 255 (d.waiting + 1 + p.actions.extraSettle.getD 0) }

/-- The exhaustion test (R60). -/
def State.exhausted (s : State) (n : UnitId) (x : Job) : Bool := (s.active n).passLimit ≤ x.passCount

/-- A pass start, and whether it ended the job PASSES_EXHAUSTED (R60). -/
def State.passStartCore (s : State) (n : UnitId) : State × Bool :=
  match (s.drive n).heldJob with
  | none => (s, false)
  | some j =>
    match s.job j with
    | none => (s, false)
    | some x =>
      if s.exhausted n x then (s.endJob j .passesExhausted, true)
      else (s.modDrive n (fun d => d.applyPass (s.preparePass n x)), false)

/-- A job that was POSITIONING is READING from its unit's first entry to TRACKING (R48). -/
def Job.startReading (x : Job) : Job :=
  { x with state := if x.state = JobState.positioning then JobState.reading else x.state }

/-- The unit enters TRACKING: the seek-error count cleared, the loop created, the job READING, and a pass start
(R14, R48, R59). -/
def State.enterTracking (s : State) (n : UnitId) : State × Bool :=
  let t := s.modDrive n (fun d =>
    { d.enter .tracking with seekErrors := 0, prepared := none, waiting := 0, passStrays := 0 })
  let u := match (s.drive n).heldJob with
    | some j => t.modJob j Job.startReading
    | none => t
  u.passStartCore n

/-! ### Hand-over and IDLE (R10, R46, R48) -/

/-- A QUEUED job handed to its unit is POSITIONING (R48). -/
def Job.startPositioning (x : Job) : Job :=
  { x with state := if x.state = JobState.queued then JobState.positioning else x.state }

/-- A chosen job becomes the held job and is positioned for (R10, R48). -/
def State.handOver (s : State) (n : UnitId) (j : JobIx) (dir : Direction) : State :=
  let t := (s.setDirection n dir).modJob j Job.startPositioning
  let u := t.modDrive n (fun d => { d with heldJob := some j, target := some (s.cylinderOf j) })
  u.evaluatePositioning n j

/-- A unit whose cylinder is its target settles for a count, going on to TRACKING at once with a count of 0
(R10, R11, R12). -/
def State.settleFor (s : State) (n : UnitId) (count : Nat) : State × Bool :=
  if count = 0 then s.enterTracking n
  else (s.modDrive n (fun d => { d.enter .settling with settleCount := count }), false)

/-- A unit with a held job leaves IDLE by its known cylinder (R10). -/
def State.leaveIdle (s : State) (n : UnitId) : State × Bool :=
  let d := s.drive n
  match d.cylinder with
  | none => (s.issueRestore n, false)
  | some _ =>
    if d.cylinder = d.target then s.settleFor n d.positioningSettle else (s.issueSeek n, false)

/-- Selection for a unit in IDLE, with hand-over (R46, R48). A job that the hand-over ends at once leaves the
unit IDLE again; each such end uses up a QUEUED job, so the fuel of 33 is never used up. -/
def State.selection : Nat → State → UnitId → State
  | 0, s, _ => s
  | fuel + 1, s, n =>
    match s.select n with
    | none => s
    | some (j, dir) =>
      match (s.handOver n j dir).leaveIdle n with
      | (t, false) => t
      | (t, true) => State.selection fuel (t.modDrive n Drive.enterIdle) n

/-- Selection runs for a unit that is IDLE (R46). -/
def State.runSelection (s : State) (n : UnitId) : State :=
  if (s.drive n).state = .idle then State.selection 33 s n else s

/-- The unit enters IDLE, and is offered its next job at once (R10, R46, R48), also at an index at which the speed fault is
still to be taken: DESIGN CHOICE, log entry 23. -/
def State.toIdle (s : State) (n : UnitId) : State := (s.modDrive n Drive.enterIdle).runSelection n

/-- A settle or pass start that ended its job leaves the unit to enter IDLE (R15, R60). -/
def State.orIdle (r : State × Bool) (n : UnitId) : State := if r.2 then r.1.toIdle n else r.1

/-- A pass start of a unit that is TRACKING (R60). -/
def State.passStart (s : State) (n : UnitId) : State := State.orIdle (s.passStartCore n) n

/-- The unit enters TRACKING (R14). -/
def State.track (s : State) (n : UnitId) : State := State.orIdle (s.enterTracking n) n

/-- The unit settles for a count (R11, R12). -/
def State.settle (s : State) (n : UnitId) (count : Nat) : State := State.orIdle (s.settleFor n count) n

/-! ### A held job ends (R15) -/

/-- What a unit does when its held job has ended for a cause without a transition of its own (R15). -/
def State.goOn (s : State) (n : UnitId) : State :=
  match (s.drive n).state with
  | .settling => s.toIdle n
  | .tracking => s.toIdle n
  | .undefined => s
  | .notReady => s
  | .idle => s
  | .seeking => s
  | .recalibrating => s
  | .speedFault => s
  | .unloading => s
  | .retracted => s

/-- A job ends COMPLETE, PASSES_EXHAUSTED, BUDGET_EXHAUSTED or ABORTED by a request, and its unit, if it held
the job, goes on (R15). -/
def State.endJobAndGoOn (s : State) (j : JobIx) (cause : EndCause) : State :=
  match s.job j with
  | none => s
  | some x =>
    if x.state = .draining then s
    else if (s.drive x.unit).heldJob = some j then (s.endJob j cause).goOn x.unit
    else s.endJob j cause

/-! ### Pass end (R66 to R70) -/

/-- The back-off skip (R67). -/
def backoffSkip (fruitless limit : Nat) : Nat := 2 ^ min fruitless limit - 1

/-- A job after the accounting of a pass end (R66). The pass count is written held at 255, which by R60 it reaches without
the hold (log entry 22). -/
def Job.passEnded (x : Job) : Job :=
  { x with
    passCount := holdAt 255 x.passCount
    counters := { x.counters with passes := bump x.counters.passes }
    fruitless := if x.mark then 0 else holdAt 255 x.fruitless
    mark := false }

/-- The tests of R68 call for a recalibration. -/
def callsForRecalibration (p : Profile) (strays fruitless : Nat) : Bool :=
  p.strayLimit ≤ strays || (0 < p.recalibrate && p.recalibrate ≤ fruitless)

/-- A job whose recalibration is ordered (R68). -/
def Job.recalibrated (x : Job) : Job :=
  { x with fruitless := 0, counters := { x.counters with recalibrations := bump x.counters.recalibrations } }

/-- A pass end of a unit under its revolution's profile (R66, R68 to R70). A pass start that ends the job has the unit enter
IDLE, and another QUEUED job handed over there, before a speed fault of the same index is taken: where a job is QUEUED, R70's
words and R48's leave that open (DESIGN CHOICE, log entry 23). -/
def State.passEnd (s : State) (n : UnitId) (p : Profile) : State :=
  match (s.drive n).heldJob with
  | none => s
  | some j =>
    match s.job j with
    | none => s
    | some x =>
      let strays := (s.drive n).passStrays
      let y := x.passEnded
      let t := (s.setJob j (some y)).modDrive n (fun d => { d with prepared := none })
      if (s.drive n).state = .tracking then
        if callsForRecalibration p strays y.fruitless then
          ((t.setJob j (some y.recalibrated)).evaluatePositioning n j).issueRestore n
        else
          (t.modDrive n (fun d => { d with waiting := min 255 (d.waiting + backoffSkip y.fruitless p.backoff) })).passStart n
      else
        let u := t.modDrive n (fun d => { d with passStrays := 0 })
        if callsForRecalibration p strays y.fruitless then
          ((u.setJob j (some y.recalibrated)).modDrive n (fun d => { d with cylinder := none })).evaluatePositioning n j
        else if u.exhausted n y then u.endJob j .passesExhausted
        else u

/-! ### The swap (R72, R119, R120) -/

/-- The exchange of a unit's profiles (R120). -/
def UnitProfiles.swap (p : UnitProfiles) : UnitProfiles :=
  { active := p.staged, staged := p.active, swapPending := false }

/-- A pending swap is taken at an index: the profiles are exchanged, and a pass loop that is WAITING or READY
runs its pass start again (R72, R120). -/
def State.takeSwap (s : State) (n : UnitId) : State :=
  if (s.unitProfiles n).swapPending then
    let t := s.setProfiles n (s.unitProfiles n).swap
    if (s.drive n).state = .tracking ∧ (s.drive n).prepared.isSome ∧ s.channel.state.holds n = false then t.passStart n
    else t
  else s

end Sys2Proof.Machine
end

