-- ==== Sys2Proof/Machine/Records.lean ====
section
/-! DEFINITION. The Recovery Engine (05, 06): recovery of a record, folds and the voted check, the fate of a
capture, and the end of a search. -/

namespace Sys2Proof.Machine

/-! ### Recovery (R88) -/

/-- A record that is not settled: WANTED or VOTING (R88). -/
def Record.open (r : Record) : Bool := r.wanted && (r.state == .wanted || r.state == .voting)

/-- No wanted record of a job remains WANTED or VOTING (R88). -/
def Job.allRecovered (x : Job) : Bool := x.records.all (fun r => !r.open)

/-- A record in a recovered state with its final image (R75, R88). -/
def Record.recovered (r : Record) (st : RecordState) (words : List Word12) : Record :=
  { r with state := st, image := some ⟨.final, words⟩, slab := none }

/-- A record's slab is freed, if it has one (R88). -/
def State.freeSlabOf (s : State) (r : Option Record) : State :=
  match r.bind (·.slab) with
  | some i => s.freeSlab i
  | none => s

/-- The job ends COMPLETE when its last wanted record is recovered (R51, R88). -/
def State.completeIfDone (s : State) (j : JobIx) : State :=
  match s.job j with
  | some x => if x.allRecovered then s.endJobAndGoOn j .complete else s
  | none => s

/-- A record enters GOOD, VOTED or REPAIRED: the four steps of R88. -/
def State.recover (s : State) (j : JobIx) (sec : Nat) (st : RecordState) (words : List Word12) : State :=
  let freed := (s.modRecord j sec (fun r => r.recovered st words)).freeSlabOf (s.record j sec)
  (((freed.modJob j (fun x => { x with mark := true })).offer j sec).completeIfDone j)

/-! ### Folds (R94 to R99) -/

/-- Reads goes up by 1, holding at 255 (R87). -/
def Record.read (r : Record) : Record := { r with reads := holdAt 255 r.reads }

/-- A fold into a slab, with the record's new image (R94, R95). -/
def State.foldInto (s : State) (i : SlabId) (words : List Word12) (weights : List Nat) (th : Thresholds) : State :=
  match s.slab i with
  | none => s
  | some x =>
    let y := x.fold words weights th
    (s.setSlab i (some y)).modRecord y.job y.sector (fun r => { r with image := some ⟨.voted, y.votedImage⟩ })

/-- The voted check after a fold: VOTED, the repair FIFO, or neither (R98, R99). -/
def State.votedCheck (s : State) (i : SlabId) : State :=
  match s.slab i with
  | none => s
  | some x =>
    if x.folds < x.thresholds.quorum then s
    else if passesCheck x.votedImage then s.recover x.job x.sector .voted x.votedImage
    else if 1 ≤ x.weakCount ∧ x.weakCount ≤ x.thresholds.repair ∧ x.status = .idle then s.queueRepair i
    else s

/-- A capture's data put to use by folding it into a slab: reads goes up by 1 and the check follows (R83, R87,
R98). -/
def State.foldCapture (s : State) (i : SlabId) (p : Pending) : State :=
  match s.slab i with
  | none => s
  | some x =>
    ((s.modRecord x.job x.sector Record.read).foldInto i p.words
      (p.margins.map (wordWeight p.ident p.weightCap)) p.thresholds).votedCheck i

/-! ### The fate of a capture (R76 to R86) -/

/-- A BLIND capture that is put to use raises its job's counter (R86). -/
def State.countBlind (s : State) (j : JobIx) (ident : Identification) : State :=
  match ident with
  | .blind => s.modJob j (fun x => { x with counters := { x.counters with blindUsed := bump x.counters.blindUsed } })
  | .header => s

/-- A capture's words become the record's raw image (R82, R85). -/
def Record.takeRaw (r : Record) (words : List Word12) : Record := { r.read with image := some ⟨.raw, words⟩ }

/-- A slab is allocated to a WANTED record: its raw image, if any, is folded first at weight 1, then the capture
(R84, R93). -/
def State.allocate (s : State) (j : JobIx) (sec : Nat) (i : SlabId) (r : Record) (p : Pending) : State :=
  let given := (s.setSlab i (some (Slab.fresh j sec p.words.length p.thresholds))).modRecord j sec
    (fun x => { x with state := .voting, slab := some i })
  let started := match r.image with
    | some im => given.foldInto i im.words (im.words.map (fun _ => capped p.weightCap 1)) p.thresholds
    | none => given
  started.foldCapture i p

/-- A failing HEADER capture or a BLIND capture reaches a record (R82 to R86). -/
def State.takeFailing (s : State) (j : JobIx) (sec : Nat) (r : Record) (p : Pending) (noVote : Bool) : State :=
  match r.state with
  | .wanted =>
    if noVote then (s.countBlind j p.ident).modRecord j sec (fun x => x.takeRaw p.words)
    else
      match s.freeSlabId with
      | some i => (s.countBlind j p.ident).allocate j sec i r p
      | none =>
        ((s.countBlind j p.ident).modRecord j sec (fun x => x.takeRaw p.words)).raise slabShortageFlag
  | .voting =>
    if noVote then s
    else
      match r.slab with
      | none => s
      | some i =>
        match s.slab i with
        | none => s
        | some x =>
          if x.status = .idle then (s.countBlind j p.ident).foldCapture i p
          else if x.pending.isNone then
            (s.countBlind j p.ident).modSlab i (fun y => { y with pending := some p })
          else s
  | .notWanted => s
  | .good => s
  | .voted => s
  | .repaired => s
  | .bestEffort => s
  | .missing => s

/-- The counts of a stray (R77). -/
def State.countStray (s : State) (j : JobIx) (n : UnitId) : State :=
  (s.modJob j (fun x => { x with counters := { x.counters with strays := bump x.counters.strays } })).modDrive n
    (fun d => { d with passStrays := holdAt 255 d.passStrays })

/-- A stray is counted, and kept where R78 allows it. -/
def State.stray (s : State) (c : Capture) (x : Job) (keep : Bool) : State :=
  let t := s.countStray c.job c.unit
  match c.data, c.header, t.freeStray with
  | some f, some (h1, h2, h3), some b =>
    if keep && passesCheck f.words && t.queueRoom then
      t.keepStray b { unit := c.unit, tag := x.tag, h1 := h1, h2 := h2, h3 := h3, words := f.words }
    else t
  | _, _, _ => t

/-- A capture's data as it is held pending or folded, under its revolution (R94, R106). -/
def pendingOf (f : DataField) (ident : Identification) (rev : Revolution) : Pending :=
  { words := f.words, margins := f.margins, ident := ident, weightCap := rev.weightCap,
    thresholds := rev.profile.thresholds }

/-- A HEADER capture that is no repeat names a record (R79 to R85, R180). -/
def State.takeHeader (s : State) (j : JobIx) (sec : Nat) (data : Option DataField) (rev : Revolution) : State :=
  match data with
  | none => s
  | some f =>
    let t := s.modRecord j sec (fun x => { x with lastSync := some f.sync })
    match t.record j sec with
    | none => t
    | some r =>
      if passesCheck f.words && r.open then (t.modRecord j sec Record.read).recover j sec .good f.words
      else t.takeFailing j sec r (pendingOf f .header rev) rev.noVote

/-- A BLIND capture names the record of its slot (R86). -/
def State.takeBlind (s : State) (j : JobIx) (sec : Nat) (data : Option DataField) (rev : Revolution) : State :=
  match data, s.record j sec with
  | some f, some r => s.takeFailing j sec r (pendingOf f .blind rev) rev.noVote
  | _, _ => s

/-- Every HEADER capture that reaches a job that is not DRAINING counts (R76). -/
def State.countHeader (s : State) (c : Capture) : State :=
  match c.ident with
  | some .header =>
    s.modJob c.job (fun x => { x with counters := { x.counters with headerCaptures := bump x.counters.headerCaptures } })
  | some .blind => s
  | none => s

/-- The Recovery Engine applies a capture handed over, under its revolution (R76 to R86). -/
def State.applyCapture (s : State) (c : Capture) (rev : Revolution) : State :=
  match s.job c.job with
  | none => s
  | some x =>
    if x.state = .draining then s
    else
      let t := s.countHeader c
      if c.status = .good ∧ (c.ident = none ∨ c.repeated = true) then t.stray c x rev.profile.keepStrays
      else
        match c.ident, c.sector with
        | some .header, some sec => t.takeHeader c.job sec c.data rev
        | some .blind, some sec => t.takeBlind c.job sec c.data rev
        | _, _ => t

/-! ### The end of a search (R103 to R111) -/

/-- The candidates that pass their check (R103). -/
def Search.passing (x : Search) : List (List Word12) := x.candidates.filter passesCheck

/-- A job that ended for a cause that withdraws its searches (R53). -/
def Job.withdrawn (x : Job) : Bool :=
  match x.endCause with
  | some c => c.withdraws
  | none => false

/-- The pending capture is folded after a search that did not repair its sector (R107). -/
def State.foldPending (s : State) (i : SlabId) : State :=
  match (s.slab i).bind (·.pending) with
  | some p => (s.modSlab i (fun y => { y with pending := none })).foldCapture i p
  | none => s

/-- A search's outcome applied to its record (R104, R105, R107). -/
def State.applyOutcome (s : State) (i : SlabId) (x : Slab) (passing : List (List Word12)) : State :=
  match passing with
  | [image] => s.recover x.job x.sector .repaired image
  | [] => (s.modSlab i (fun y => { y with status := .idle })).foldPending i
  | _ =>
    ((s.modSlab i (fun y => { y with status := .idle, ambiguity := holdAt 255 y.ambiguity })).modJob x.job
      (fun y => { y with counters := { y.counters with ambiguous := bump y.counters.ambiguous } })).foldPending i

/-- The search ends: the repair unit takes the next slab, the outcome is applied to the record or discarded
with the pending capture where the job's end withdrew it, and a DRAINING job may be finalized (R103, R110,
R111). -/
def State.endSearch (s : State) : State :=
  match s.search with
  | none => s
  | some search =>
    let t := { s with search := none }.startSearch
    match t.slab search.slab with
    | none => t
    | some x =>
      let u := match t.job x.job with
        | some y =>
          if y.withdrawn then t.modSlab search.slab (fun z => { z with status := .idle, pending := none })
          else t.applyOutcome search.slab x search.passing
        | none => t
      u.finalizeIfDone x.job

end Sys2Proof.Machine
end

