-- ==== Sys2Proof/Machine/Separator.lean ====
section
/-! DEFINITION. The captured revolution (02): header and data fields, blind candidates, and the stages of
closing (R31 to R40). -/

namespace Sys2Proof.Machine

/-! ### Fields and captures (R31 to R37) -/

/-- The capture under way: the unit captured for and its revolution (R24). -/
def State.capturing (s : State) : Option (UnitId × Revolution) :=
  match s.channel.state, s.channel.rev with
  | .capturing n, some rev => some (n, rev)
  | _, _ => none

/-- A GOOD header matches the job's track (R32). -/
def Revolution.matches (rev : Revolution) (sectors : Nat) (h1 h2 : Word12) : Bool :=
  (match rev.headerMask with
    | some m => h1.toNat % 2 ^ m == rev.cylinder % 2 ^ m
    | none => h1.toNat == rev.cylinder) &&
  h2.toNat / 64 == rev.head && decide (h2.toNat % 64 < sectors)

/-- The header status of three words (R31). -/
def headerStatus (h1 h2 h3 : Word12) : HeaderStatus := if passesCheck [h1, h2, h3] then .good else .badCheck

/-- A capture formed from a field counts in the dead-revolution test by its amplitude (R34, R39). -/
def State.noteField (s : State) (low : Bool) : State :=
  { s with channel := { s.channel with liveSeen := s.channel.liveSeen || !low } }

/-- The sectors per track of a unit, 0 without a descriptor. -/
def State.sectorsOf (s : State) (n : UnitId) : Nat := ((s.drive n).descriptor.map (·.sectors)).getD 0

/-- The data words per sector of a unit, 0 without a descriptor. -/
def State.wordsOf (s : State) (n : UnitId) : Nat := ((s.drive n).descriptor.map (·.words)).getD 0

/-- A capture without data is complete: one with a GOOD header is handed over, another serves the
dead-revolution test alone (R35). -/
def State.completeAbsent (s : State) (c : Capture) (rev : Revolution) : State :=
  let t := { s with channel := { s.channel with openHeader := none } }.noteField c.low
  if c.status = .good then t.applyCapture c rev else t

/-- The open window closes with its data absent (R33). -/
def State.closeWindow (s : State) (rev : Revolution) : State :=
  match s.channel.openHeader with
  | some h => s.completeAbsent h.capture rev
  | none => s

/-- The capture that a header starts: its status, its match with the job's track and its repeat mark
(R31, R32). -/
def State.headerCapture (s : State) (n : UnitId) (rev : Revolution) (h1 h2 h3 : Word12) (low : Bool) : Capture :=
  let status := headerStatus h1 h2 h3
  let named := status == .good && rev.matches (s.sectorsOf n) h1 h2
  let sector := h2.toNat % 64
  { unit := n, job := rev.job, ident := if named then some .header else none,
    sector := if named then some sector else none,
    repeated := named && s.channel.slotSet.contains sector, status := status,
    header := some (h1, h2, h3), data := none, low := low }

/-- A header-identified capture's sector joins the slot set (R32). -/
def addSlot (slots : List Nat) : Option Nat → List Nat
  | some sec => if slots.contains sec then slots else slots ++ [sec]
  | none => slots

/-- A header field is read: an open window closes, and the header's own capture starts (R31 to R33). -/
def State.readHeader (s : State) (n : UnitId) (rev : Revolution) (last : Nat) (h1 h2 h3 : Word12) (low : Bool) : State :=
  let t := s.closeWindow rev
  let c := t.headerCapture n rev h1 h2 h3 low
  { t with channel :=
      { t.channel with
        slotSet := addSlot t.channel.slotSet c.sector
        openHeader := some { capture := c, last := last } } }

/-- The slot of a data sync time, where it is valid (R36). -/
def slotOf (dataOffset sectors pitch sync : Nat) : Option Nat :=
  if dataOffset ≤ sync ∧ 0 < pitch ∧ (sync - dataOffset) / pitch < sectors then some ((sync - dataOffset) / pitch)
  else none

/-- A candidate joins the deferred ones: the first keeps its slot, a second marks it shared (R36). -/
def deferCandidate (c : Capture) (slot : Nat) : List Deferred → List Deferred
  | [] => [{ slot := slot, shared := false, capture := c }]
  | d :: rest =>
    if d.slot = slot then { d with shared := true } :: rest else d :: deferCandidate c slot rest

/-- A blind candidate is given its slot and held, or discarded (R36). -/
def State.blindCandidate (s : State) (n : UnitId) (rev : Revolution) (c : Capture) (sync : Nat) : State :=
  let t := s.noteField c.low
  let offset := ((s.drive n).descriptor.map (·.dataOffset)).getD 0
  match slotOf offset (s.sectorsOf n) rev.pitch sync with
  | some slot => { t with channel := { t.channel with deferred := deferCandidate c slot t.channel.deferred } }
  | none => t

/-- A capture that has its data is complete: one with a GOOD header is handed over, another is a blind candidate
(R33, R35). -/
def State.completeWithData (s : State) (n : UnitId) (rev : Revolution) (c : Capture) (sync : Nat) : State :=
  let t := { s with channel := { s.channel with openHeader := none } }
  if c.status = .good then (t.noteField c.low).applyCapture c rev else t.blindCandidate n rev c sync

/-- The capture of a data field that no header stands before (R33). -/
def bareCapture (n : UnitId) (rev : Revolution) (f : DataField) (low : Bool) : Capture :=
  { unit := n, job := rev.job, ident := none, sector := none, repeated := false, status := .noSync,
    header := none, data := some f, low := low }

/-- A data sync falls inside a header's window (R33). -/
def OpenHeader.covers (h : OpenHeader) (window sync : Nat) : Bool := sync ≤ h.last + window

/-- A data field is read: it belongs to the header whose window its sync falls in, or stands alone (R33). -/
def State.readData (s : State) (n : UnitId) (rev : Revolution) (f : DataField) (low : Bool) : State :=
  match s.channel.openHeader with
  | some h =>
    if h.covers rev.window f.sync then
      s.completeWithData n rev { h.capture with data := some f, low := h.capture.low && low } f.sync
    else (s.closeWindow rev).completeWithData n rev (bareCapture n rev f low) f.sync
  | none => s.completeWithData n rev (bareCapture n rev f low) f.sync

/-! ### Closing (R37 to R40) -/

/-- Stage 1: a field under way is cut off, and what is outstanding is complete (R37, R38). -/
def State.settleCut (s : State) (rev : Revolution) : CutField → State
  | .nothing => s.closeWindow rev
  | .header low => (s.closeWindow rev).noteField low
  | .data low =>
    match s.channel.openHeader with
    | some h => s.completeAbsent { h.capture with low := h.capture.low && low } rev
    | none => s.noteField low

/-- Stage 2 for one slot: its candidate is handed over as BLIND, or discarded (R38). -/
def State.handSlot (s : State) (n : UnitId) (slot : Nat) : State :=
  match s.channel.state == .capturing n, s.channel.rev, s.channel.deferred.find? (fun d => d.slot == slot) with
  | true, some rev, some d =>
    if d.shared = false ∧ s.channel.slotSet.contains slot = false ∧ rev.profile.blindAllowed = true ∧ rev.noBlind = false then
      s.applyCapture { d.capture with ident := some .blind, sector := some slot } rev
    else s
  | _, _, _ => s

/-- Stage 2: the slots in ascending order (R38). -/
def State.handBlind (s : State) (n : UnitId) : State :=
  (List.range 32).foldl (fun t slot => t.handSlot n slot) s

/-- The dead limit is reached: the protection unload (R18). -/
def State.protectionUnload (s : State) (n : UnitId) : State :=
  (s.beginUnload n).endHeld n .driveRetracted

/-- Stage 5: the channel enters IDLE, unless the job's end has already released it (R40). -/
def State.stageIdle (s : State) (n : UnitId) : State :=
  if s.channel.state = .capturing n then s.channelIdle else s

/-- Stages 3 to 5: the dead-revolution test, the pass end and IDLE (R18, R39, R40). The dead-revolution count is written
held at 8, the greatest limit, at which the unload sets it to 0 (log entry 22). -/
def State.closingStages (s : State) (n : UnitId) (rev : Revolution) : State :=
  if s.channel.liveSeen then
    ((s.modDrive n (fun d => { d with deadRevs := 0 })).passEnd n rev.profile).stageIdle n
  else
    let t := s.modDrive n (fun d => { d with deadRevs := holdAt 8 d.deadRevs })
    if rev.profile.dead ≤ (t.drive n).deadRevs then (t.protectionUnload n).stageIdle n
    else (t.passEnd n rev.profile).stageIdle n

/-- The index that closes a captured revolution (R38 to R40). A job that its captures complete releases the
channel, and then stages 3 to 5 do not run. -/
def State.closeRevolution (s : State) (n : UnitId) (cut : CutField) : State :=
  match s.capturing with
  | some (m, rev) =>
    if m = n then
      let t := (s.settleCut rev cut).handBlind n
      if t.channel.state = .capturing n then t.closingStages n rev else t
    else s
  | none => s

end Sys2Proof.Machine
end

