-- ==== Sys2Proof/Machine/Index.lean ====
section
/-! DEFINITION. The index pulse (01 R4 to R8, R14, R16; 02 R26, R30; 03 R49; 04 R63, R72; 07 R119): its stages,
and the order in which they are taken. -/

namespace Sys2Proof.Machine

/-- What one index pulse does to a unit, in six stages. -/
inductive IndexStage where
  | monitor | speed | track | budget | deferral | swap
  deriving DecidableEq, Repr

/-- The stages in the order chosen: each once, the monitor before the speed fault and the revolution's work. -/
def indexStages (o : IndexOrder) : List IndexStage :=
  let core : List IndexStage := if o.faultFirst then [.monitor, .speed, .track] else [.monitor, .track, .speed]
  ((core.insertIdx o.budgetAt.val .budget).insertIdx o.deferralAt.val .deferral).insertIdx o.swapAt.val .swap

/-- What the revolution's work is at an index, as the unit stood when the index came: closing its captured
revolution, opening its capture, counting down its loop's waiting, counting down its settling, or nothing. -/
inductive Situation where
  | closing
  | opening
  | looping
  | settling
  | other
  deriving DecidableEq, Repr

/-- The situation of a unit as an index comes. -/
def State.situation (s : State) (n : UnitId) : Situation :=
  if s.channel.state = .capturing n then .closing
  else if s.channel.state = .reserved n then .opening
  else
    match (s.drive n).state with
    | .tracking => .looping
    | .settling => .settling
    | .undefined => .other
    | .notReady => .other
    | .idle => .other
    | .seeking => .other
    | .recalibrating => .other
    | .speedFault => .other
    | .unloading => .other
    | .retracted => .other

/-- A unit's speed status is OUT. -/
def State.speedOut (s : State) (n : UnitId) : Bool := (s.drive n).monitor.speed == .out

/-- The monitor handles the index; SPEED_FAULT(n) is raised when the status passes from IN to OUT (R4 to R6). -/
def State.stageMonitor (s : State) (n : UnitId) : State :=
  match (s.drive n).descriptor with
  | none => s
  | some d =>
    let t := s.modDrive n (fun x => { x with monitor := x.monitor.index d s.clock })
    if !s.speedOut n && t.speedOut n then t.raise (unitFlag n .speedFault) else t

/-- The unit enters SPEED_FAULT (R16). A reservation is returned, and so is a capture that this index began. A
capture that this index closes keeps its pass stray count for its pass end (R70). -/
def State.enterSpeedFault (s : State) (n : UnitId) (at_ : Situation) : State :=
  if at_ = .closing ∧ s.channel.state = .capturing n then
    s.modDrive n (fun d => { d.enter .speedFault with passStrays := d.passStrays })
  else (s.modDrive n (fun d => d.enter .speedFault)).releaseEarly n

/-- The unit leaves SPEED_FAULT (R16, R128). -/
def State.leaveSpeedFault (s : State) (n : UnitId) : State :=
  match (s.drive n).heldJob with
  | none => s.toIdle n
  | some j =>
    match (s.drive n).cylinder with
    | none => (s.evaluatePositioning n j).issueRestore n
    | some _ =>
      if (s.drive n).cylinder = (s.drive n).target then
        s.modDrive n (fun d => { d.enter .settling with settleCount := 1 })
      else (s.evaluatePositioning n j).issueSeek n

/-- The drive state follows the speed status (R16). A unit that entered IDLE earlier at the index and was handed a QUEUED job
there is met in the state of the hand-over, SEEKING among them (DESIGN CHOICE, log entry 23). -/
def State.stageSpeed (s : State) (n : UnitId) (at_ : Situation) : State :=
  match (s.drive n).state, s.speedOut n with
  | .idle, true => s.enterSpeedFault n at_
  | .settling, true => s.enterSpeedFault n at_
  | .tracking, true => s.enterSpeedFault n at_
  | .speedFault, false => s.leaveSpeedFault n
  | _, _ => s

/-- The capture opens for the granted unit, after any swap pending at this index (R30). -/
def State.stageOpen (s : State) (n : UnitId) : State :=
  let t := s.takeSwap n
  if t.channel.state = .reserved n then
    match (t.drive n).heldJob, (t.drive n).prepared, (t.drive n).descriptor with
    | some j, some p, some d =>
      match t.job j with
      | some x => t.openCapture n j x p d
      | none => t
    | _, _, _ => t
  else t

/-- The waiting count goes down by 1, but not where the speed status is OUT (R63). -/
def State.stageWaiting (s : State) (n : UnitId) : State :=
  if (s.drive n).state = .tracking ∧ 0 < (s.drive n).waiting ∧ s.speedOut n = false then
    s.modDrive n (fun d => { d with waiting := d.waiting - 1 })
  else s

/-- The settle count goes down by 1, but not where the speed status is OUT; at 0 the unit enters TRACKING
(R14). -/
def State.stageSettle (s : State) (n : UnitId) : State :=
  if (s.drive n).state = .settling ∧ s.speedOut n = false then
    if (s.drive n).settleCount ≤ 1 then s.track n
    else s.modDrive n (fun d => { d with settleCount := d.settleCount - 1 })
  else s

/-- The revolution's work at an index. It is done for the job that was held when the index came: a job handed
over at this index starts with the next (R49). -/
def State.stageTrack (s : State) (n : UnitId) (at_ : Situation) (held : Option JobIx) (cut : CutField) : State :=
  match at_ with
  | .closing => s.closeRevolution n cut
  | .opening => if (s.drive n).heldJob = held then s.stageOpen n else s
  | .looping => if (s.drive n).heldJob = held then s.stageWaiting n else s
  | .settling => if (s.drive n).heldJob = held then s.stageSettle n else s
  | .other => s

/-- A job after a revolution of its budget (R49). -/
def Job.revolution (x : Job) : Job :=
  { x with budget := x.budget - 1, counters := { x.counters with revolutions := bump x.counters.revolutions } }

/-- The budget of the job that was held when the index came (R49). -/
def State.stageBudget (s : State) (n : UnitId) (held : Option JobIx) : State :=
  match held with
  | none => s
  | some j =>
    if (s.drive n).heldJob = some j then
      match s.job j with
      | some x =>
        let t := s.setJob j (some x.revolution)
        if x.revolution.budget = 0 then t.endJobAndGoOn j .budgetExhausted else t
      | none => s
    else s

/-- A requesting unit that the channel does not hold has waited one more revolution (R26). -/
def State.stageDeferral (s : State) (n : UnitId) : State :=
  if s.requesting n && !s.channel.state.holds n then
    s.modDrive n (fun d => { d with deferral := holdAt 255 d.deferral })
  else s

/-- The pending swap of an index (R72, R119). At the index that closes the unit's captured revolution the next pass is
prepared under the new profile in either order: a swap taken after that pass start comes before the channel is granted to
the same job again, so the grant is made afresh after it (log entry 1). -/
def State.stageSwap (s : State) (n : UnitId) (at_ : Situation) (held : Option JobIx) : State :=
  if at_ = .closing ∧ s.channel.state = .reserved n ∧ (s.drive n).heldJob = held ∧
      (s.unitProfiles n).swapPending = true then
    { s with channel := { s.channel with state := .idle } }.takeSwap n
  else s.takeSwap n

/-- One stage of an index pulse. A request that it begins while the channel is IDLE is granted at once (R27). -/
def State.indexStage (n : UnitId) (at_ : Situation) (held : Option JobIx) (cut : CutField) (s : State) :
    IndexStage → State
  | .monitor => (s.stageMonitor n).arbitrate
  | .speed => (s.stageSpeed n at_).arbitrate
  | .track => (s.stageTrack n at_ held cut).arbitrate
  | .budget => (s.stageBudget n held).arbitrate
  | .deferral => (s.stageDeferral n).arbitrate
  | .swap => (s.stageSwap n at_ held).arbitrate

/-- The index pulse clears the index-lost mark and, in a state in which the index timer runs, restarts it
(R8). -/
def Drive.indexSeen (d : Drive) (now : Nat) : Drive :=
  { d with indexLost := false, indexTimer := if d.state.timed then d.timerFrom now else none }

/-- An index pulse of a unit, with its stages in an order (R4 to R8, R119). In UNDEFINED the index is not
watched; in NOT_READY, UNLOADING and RETRACTED it takes a pending swap and is not timed for a period. -/
def State.indexIn (s : State) (n : UnitId) (cut : CutField) (order : IndexOrder) : State :=
  if (s.drive n).state = .undefined then s
  else
    let t := s.modDrive n (fun d => d.indexSeen s.clock)
    if (s.drive n).state.measures then
      (indexStages order).foldl (State.indexStage n (t.situation n) (t.drive n).heldJob cut) t
    else t.takeSwap n

/-- An index pulse that comes some ticks after the command before it, in the free order of log entry 1. -/
def State.index (s : State) (n : UnitId) (elapsed : Nat) (cut : CutField) : State :=
  { s with clock := s.clock + elapsed, choices := s.choices + 1 }.indexIn n cut (Config.indexOrder s.choices)

end Sys2Proof.Machine
end

