-- ==== Sys2Proof/Machine/Maps.lean ====
section
/-! DEFINITION. The Volume Map's translations (08): extents, the remap list, and the groups of a block run. -/

namespace Sys2Proof.Machine

/-- The first block of an entry of an extent table (R130). -/
def firstBlock (es : List Extent) (k : Nat) : Nat :=
  match k with
  | 0 => 0
  | i + 1 => ((es[i]?).map (fun e => e.ending + 1)).getD 0

/-- A block is inside a unit's extents (R130). -/
def insideExtents (es : List Extent) (b : Nat) : Bool :=
  match es.getLast? with
  | some e => b ≤ e.ending
  | none => false

/-- The lowest entry whose ending block is at least the block (R134). -/
def extentOf (es : List Extent) (b : Nat) : Option Nat := es.findIdx? (fun e => b ≤ e.ending)

/-- The address an extent gives a block (R134). -/
def Extent.address (e : Extent) (first sectors b : Nat) : Address :=
  let r := b - first
  let t := r / sectors
  let p := r % sectors
  { cylinder := e.cylinder + t / e.heads, head := t % e.heads,
    sector := (p * e.interleave + t * e.skew) % sectors }

/-- The extent of a block and the address it gives (R134). -/
def extentAddress (es : List Extent) (sectors b : Nat) : Option (Nat × Address) :=
  match extentOf es b with
  | some k => (es[k]?).map (fun e => (k, e.address (firstBlock es k) sectors b))
  | none => none

/-- The remap entry of a unit's block (R138). -/
def State.remapOf (s : State) (n : UnitId) (b : Nat) : Option Remap :=
  s.remaps.find? (fun r => r.unit == n && r.block == b)

/-- A block's address: its remap entry's alternate, or else its extent's (R138). -/
def State.translate (s : State) (n : UnitId) (sectors b : Nat) : Option Address :=
  match s.remapOf n b with
  | some r => some r.alternate
  | none => (extentAddress (s.extentsOf n) sectors b).map (·.2)

/-- Ascending order of unit, then of block (R135). -/
def Remap.before (a b : Remap) : Bool := a.unit < b.unit || (a.unit == b.unit && a.block < b.block)

/-- A remap entry at its place in the order (R135). -/
def insertRemap (r : Remap) : List Remap → List Remap
  | [] => [r]
  | x :: rest => if r.before x then r :: x :: rest else x :: insertRemap r rest

/-- The place a remap entry takes (R136). -/
def remapPlace (r : Remap) (rs : List Remap) : Nat := (rs.takeWhile (fun x => !r.before x)).length

/-- A unit's last cylinder that an entry reaches lies inside the geometry (R131 step 6). -/
def Extent.fits (e : Extent) (first cylinders sectors : Nat) : Bool :=
  e.cylinder + (e.ending - first) / sectors / e.heads < cylinders

/-- A block of a run with the address it lands on. -/
structure Landing where
  block : Nat
  address : Address
  deriving DecidableEq, Repr

/-- A run's blocks with their addresses (R139 step 4). -/
def State.landings (s : State) (n : UnitId) (sectors first count : Nat) : List Landing :=
  (List.range count).filterMap (fun i =>
    (s.translate n sectors (first + i)).map (fun a => { block := first + i, address := a }))

/-- Two landings on one sector (R139 step 4). -/
def conflicting : List Landing → Bool
  | [] => false
  | x :: rest => rest.any (fun y => y.address == x.address) || conflicting rest

/-- The tracks of landings, each once, in the order of their lowest blocks (R139, R140). -/
def tracksOf (ls : List Landing) : List (Nat × Nat) :=
  ls.foldl (fun ts l =>
    if ts.contains (l.address.cylinder, l.address.head) then ts
    else ts ++ [(l.address.cylinder, l.address.head)]) []

/-- The block of a run that lands on a sector of a track. -/
def blockOn (ls : List Landing) (cylinder head sector : Nat) : Option Nat :=
  (ls.find? (fun l => l.address == { cylinder := cylinder, head := head, sector := sector })).map (·.block)

/-- The records of a job made from blocks (R140). -/
def blockRecords (ls : List Landing) (cylinder head sectors : Nat) : List Record :=
  (List.range sectors).map (fun sec =>
    let b := blockOn ls cylinder head sec
    Record.fresh b.isSome b)

/-- The records of a job made by RECOVER-TRACK from its wanted set (R45). -/
def trackRecords (wanted : BitVec 32) (sectors : Nat) : List Record :=
  (List.range sectors).map (fun sec => Record.fresh (wanted.getLsbD sec) none)

/-- A job was created from blocks: its records hold block numbers (R131 step 7). -/
def Job.fromBlocks (x : Job) : Bool := x.records.any (fun r => r.block.isSome)

/-- A live job of the unit was created from blocks (R131 step 7). -/
def State.blockJobLive (s : State) (n : UnitId) : Bool :=
  (List.finRange 32).any (fun j =>
    match s.job j with
    | some x => x.unit == n && x.fromBlocks
    | none => false)

end Sys2Proof.Machine
end

