-- ==== Sys2Proof/Machine/Requests.lean ====
section
/-! DEFINITION. What each request does when it runs (11.6, 11.7 and the chapters it names): its checks in their
order, its effect and its reply fields. -/

namespace Sys2Proof.Machine

/-- The outcome of a request: its status, its reply fields and the state after it (R172). -/
structure Response where
  status : Status
  fields : List Byte
  state : State
  deriving DecidableEq, Repr

/-- A refused request changes nothing (R172). -/
def refuse (st : Status) (s : State) : Response := { status := st, fields := [], state := s }

/-- A request answered OK. -/
def accept (fields : List Byte) (s : State) : Response := { status := .ok, fields := fields, state := s }

/-- The unit a byte names. -/
def unitOf (u : Nat) : Option UnitId := if h : u < 4 then some ⟨u, h⟩ else none

/-- The job entry an id 1 to 32 names (R43). -/
def jobOf (id : Nat) : Option JobIx := if h : 1 ≤ id ∧ id ≤ 32 then some ⟨id - 1, by omega⟩ else none

/-- The quirk slot a byte names. -/
def slotOfByte (k : Nat) : Option (Fin 16) := if h : k < 16 then some ⟨k, h⟩ else none

/-! ### IDENTIFY and the drive requests -/

/-- IDENTIFY (R178). -/
def serveIdentify (s : State) : Response :=
  accept [0x4C, 0x01, BitVec.ofNat 8 s.link.rate.val, 4, 32, 64, 24, 16, 8, 32, 4] s

/-- The descriptor in a DEFINE-DRIVE body (section 11.7). -/
def descriptorOf (body : List Byte) : Descriptor :=
  { model := byteAt body 1, cylinders := field body 2 2, heads := byteAt body 4, sectors := byteAt body 5,
    words := field body 6 2, period := field body 8 4, tolerance := field body 12 2,
    dataOffset := field body 14 4, maxOffset := byteAt body 18, settle := byteAt body 19 }

/-- Every field lies in its range (section 1.1, R1). -/
def Descriptor.inRange (d : Descriptor) : Bool :=
  decide (d.model ≤ 255 ∧ 1 ≤ d.cylinders ∧ d.cylinders ≤ 1024 ∧ 1 ≤ d.heads ∧ d.heads ≤ 16 ∧
    1 ≤ d.sectors ∧ d.sectors ≤ 32 ∧ 32 ≤ d.words ∧ d.words ≤ 256 ∧ d.words % 2 = 0 ∧
    100000 ≤ d.period ∧ d.period ≤ 1000000 ∧ 1000 ≤ d.tolerance ∧ d.tolerance ≤ 30000 ∧
    d.dataOffset ≤ d.period / d.sectors - 1 ∧ d.maxOffset ≤ 4 ∧ d.settle ≤ 15)

/-- Two descriptors differ in cylinders, heads or sectors per track (R1). -/
def Descriptor.geometryDiffers (a b : Descriptor) : Bool :=
  a.cylinders != b.cylinders || a.heads != b.heads || a.sectors != b.sectors

/-- A unit has at least one extent or remap entry (R1). -/
def State.mapped (s : State) (n : UnitId) : Bool :=
  !(s.extentsOf n).isEmpty || s.remaps.any (fun r => r.unit == n)

/-- The new descriptor would change the geometry under the unit's maps (R1). -/
def State.mapConflict (s : State) (n : UnitId) (d : Descriptor) : Bool :=
  match (s.drive n).descriptor with
  | some old => s.mapped n && old.geometryDiffers d
  | none => false

/-- A unit enters IDLE if its ready line is asserted and stays NOT_READY otherwise (R2, R23). -/
def State.idleIfReady (s : State) (n : UnitId) : State := if (s.drive n).ready then s.toIdle n else s

/-- The matched quirk slots and the positioning settle are emptied (R59, R128, R129). -/
def Drive.forgetQuirks (d : Drive) : Drive := { d with matchedSlots := 0, positioningSettle := 0 }

/-- The effect of an accepted DEFINE-DRIVE (R2). -/
def State.install (s : State) (n : UnitId) (x : Descriptor) : State :=
  if (s.drive n).state = .retracted then
    s.modDrive n (fun d => { d.forgetQuirks with descriptor := some x, deadRevs := 0 })
  else
    (s.modDrive n (fun d =>
      { (d.losePosition.enter .notReady).forgetQuirks with
        descriptor := some x, seekErrors := 0, deadRevs := 0, indexTimer := some (s.clock + 3 * x.period) })).idleIfReady n

/-- A drive state in which DEFINE-DRIVE is refused (R1). -/
def DriveState.blocksDefine : DriveState → Bool
  | .seeking => true
  | .recalibrating => true
  | .unloading => true
  | .undefined => false
  | .notReady => false
  | .idle => false
  | .settling => false
  | .tracking => false
  | .speedFault => false
  | .retracted => false

/-- DEFINE-DRIVE (R1, R2). -/
def serveDefineDrive (body : List Byte) (s : State) : Response :=
  let x := descriptorOf body
  match unitOf (byteAt body 0) with
  | none => refuse .badField s
  | some n =>
    if !x.inRange then refuse .badField s
    else if !(s.jobsOf n).isEmpty then refuse .driveBusy s
    else if s.mapConflict n x then refuse .conflict s
    else if (s.drive n).state.blocksDefine then refuse .wrongState s
    else accept [] (s.install n x)

/-- The 22 reply fields of DRIVE-STATUS (R179). -/
def State.driveStatusFields (s : State) (n : UnitId) : List Byte :=
  let d := s.drive n
  beBytes 1 n.val ++ beBytes 1 d.state.code ++ optField 2 0xFFFF d.cylinder ++ signedByteOf d.offset ++
  optField 4 0 d.monitor.lastPeriod ++ signedWordOf d.monitor.deviation ++ signedByteOf d.monitor.trimTarget ++
  signedByteOf d.monitor.currentTrim ++ markByte d.monitor.locked ++ optField 1 0 (d.heldJob.map jobId) ++
  beBytes 1 d.waitingRevolutions ++ beBytes 1 d.deferral ++ markByte (s.unitProfiles n).swapPending ++
  beBytes 2 d.matchedSlots.toNat

/-- DRIVE-STATUS (R179). -/
def serveDriveStatus (body : List Byte) (s : State) : Response :=
  match unitOf (byteAt body 0) with
  | none => refuse .badField s
  | some n => accept (s.driveStatusFields n) s

/-- A drive state in which UNLOAD is refused (R19). -/
def DriveState.blocksUnload : DriveState → Bool
  | .undefined => true
  | .unloading => true
  | .retracted => true
  | .notReady => false
  | .idle => false
  | .seeking => false
  | .recalibrating => false
  | .settling => false
  | .tracking => false
  | .speedFault => false

/-- UNLOAD (R19). -/
def serveUnload (body : List Byte) (s : State) : Response :=
  match unitOf (byteAt body 0) with
  | none => refuse .badField s
  | some n =>
    if (s.drive n).state.blocksUnload then refuse .wrongState s
    else accept [] ((s.beginUnload n).endHeld n .aborted)

/-- The ready line rises in NOT_READY (R9): IDLE with the cylinder unknown, the monitor cleared and the index
timer restarted. -/
def State.readyInNotReady (s : State) (n : UnitId) : State :=
  (s.modDrive n (fun d =>
    { d with cylinder := none, monitor := .cleared, indexTimer := d.timerFrom s.clock })).toIdle n

/-- RELOAD (R21). -/
def serveReload (body : List Byte) (s : State) : Response :=
  match unitOf (byteAt body 0) with
  | none => refuse .badField s
  | some n =>
    if (s.drive n).state = .retracted then
      let t := s.modDrive n (fun d =>
        { d.enter .notReady with loadLine := true, indexTimer := d.timerFrom s.clock })
      accept [] (if (s.drive n).ready then t.readyInNotReady n else t)
    else refuse .wrongState s

/-! ### Profiles (07) -/

/-- A number limited to a range. -/
def clampRange (low high x : Nat) : Nat := max low (min high x)

/-- The profile a SET-PROFILE body carries, as sent (section 11.7). -/
def profileSent (body : List Byte) : Profile :=
  let count := byteAt body 1
  let o := 2 + 2 * count
  { passes := (List.range count).map (fun i =>
      { offset := signedByte (body.getD (2 + 2 * i) 0), strobe := signedByte (body.getD (3 + 2 * i) 0) }),
    passLimit := byteAt body o, backoff := byteAt body (o + 1), recalibrate := byteAt body (o + 2),
    quorum := byteAt body (o + 3), weak := byteAt body (o + 4), repair := byteAt body (o + 5),
    blindAllowed := byteAt body (o + 6) == 1, strayLimit := byteAt body (o + 7),
    keepStrays := byteAt body (o + 8) == 1, dead := byteAt body (o + 9), deferral := byteAt body (o + 10) }

/-- Each numeric field clamped to the nearer end of its range (R115). -/
def Profile.clamp (p : Profile) : Profile :=
  { p with
    passes := p.passes.map (fun e => { offset := clampTo 4 e.offset, strobe := clampTo 2 e.strobe })
    passLimit := clampRange 1 255 p.passLimit
    backoff := clampRange 0 4 p.backoff
    recalibrate := clampRange 0 15 p.recalibrate
    quorum := clampRange 2 15 p.quorum
    weak := clampRange 1 63 p.weak
    repair := clampRange 0 3 p.repair
    strayLimit := clampRange 1 32 p.strayLimit
    dead := clampRange 1 8 p.dead
    deferral := clampRange 0 255 p.deferral }

/-- A SET-PROFILE body is as long as its pass list count calls for (R114). -/
def profileLengthOk (body : List Byte) : Bool := decide (2 ≤ body.length ∧ body.length = 13 + 2 * byteAt body 1)

/-- SET-PROFILE (R114 to R116). -/
def serveSetProfile (body : List Byte) (s : State) : Response :=
  let count := byteAt body 1
  let o := 2 + 2 * count
  match unitOf (byteAt body 0) with
  | none => refuse .badField s
  | some n =>
    if count < 1 ∨ 16 < count ∨ 1 < byteAt body (o + 6) ∨ 1 < byteAt body (o + 8) then refuse .badField s
    else if (s.unitProfiles n).swapPending then refuse .swapPending s
    else
      let sent := profileSent body
      { status := if sent.clamp = sent then .ok else .clamped, fields := [],
        state := s.setProfiles n { s.unitProfiles n with staged := sent.clamp } }

/-- SWAP-PROFILE (R118). -/
def serveSwapProfile (body : List Byte) (s : State) : Response :=
  match unitOf (byteAt body 0) with
  | none => refuse .badField s
  | some n => accept [] (s.setProfiles n { s.unitProfiles n with swapPending := true })

/-- A profile from its count on, as SET-PROFILE sends it (section 11.7, 0x08). -/
def Profile.bytes (p : Profile) : List Byte :=
  beBytes 1 p.passes.length ++
  p.passes.flatMap (fun e => signedByteOf e.offset ++ signedByteOf e.strobe) ++
  beBytes 1 p.passLimit ++ beBytes 1 p.backoff ++ beBytes 1 p.recalibrate ++ beBytes 1 p.quorum ++
  beBytes 1 p.weak ++ beBytes 1 p.repair ++ markByte p.blindAllowed ++ beBytes 1 p.strayLimit ++
  markByte p.keepStrays ++ beBytes 1 p.dead ++ beBytes 1 p.deferral

/-- READ-PROFILE (R117). -/
def serveReadProfile (body : List Byte) (s : State) : Response :=
  match unitOf (byteAt body 0) with
  | none => refuse .badField s
  | some n =>
    let p := s.unitProfiles n
    if byteAt body 1 = 0 then accept (beBytes 1 0 ++ markByte p.swapPending ++ p.active.bytes) s
    else if byteAt body 1 = 1 then accept (beBytes 1 1 ++ markByte p.swapPending ++ p.staged.bytes) s
    else refuse .badField s

/-! ### Quirks (07) -/

/-- The entry that a SET-QUIRK body carries, where no check of R123 fails. -/
def quirkOf (body : List Byte) : Option Quirk :=
  let headSet : BitVec 16 := BitVec.ofNat 16 (field body 3 2)
  let low := field body 6 2
  let high := field body 8 2
  if 1 < byteAt body 2 ∨ 1 < byteAt body 5 ∨ 1 < byteAt body 10 then none
  else if byteAt body 2 = 1 ∧ headSet = 0 then none
  else if byteAt body 5 = 1 ∧ (1023 < high ∨ high < low) then none
  else if byteAt body 10 = 1 ∧ (conditionOf (byteAt body 11)).isNone = true then none
  else
    (actionOf (byteAt body 12) (byteAt body 13)).map (fun action =>
      { model := byteAt body 1
        heads := if byteAt body 2 = 1 then some headSet else none
        cylinders := if byteAt body 5 = 1 then some (low, high) else none
        condition := if byteAt body 10 = 1 then conditionOf (byteAt body 11) else none
        action := action })

/-- SET-QUIRK (R123). -/
def serveSetQuirk (body : List Byte) (s : State) : Response :=
  match slotOfByte (byteAt body 0), quirkOf body with
  | some k, some q => accept [] { s with quirks := s.quirks.set k (some q) }
  | _, _ => refuse .badField s

/-- CLEAR-QUIRK (R124). -/
def serveClearQuirk (body : List Byte) (s : State) : Response :=
  match slotOfByte (byteAt body 0) with
  | some k => accept [] { s with quirks := s.quirks.set k none }
  | none => refuse .badField s

/-- The 13 entry bytes of a quirk (section 11.7, 0x0B). -/
def Quirk.bytes (q : Quirk) : List Byte :=
  beBytes 1 q.model ++ marked 2 (q.heads.map (·.toNat)) ++
  (match q.cylinders with
    | some (low, high) => beBytes 1 1 ++ beBytes 2 low ++ beBytes 2 high
    | none => beBytes 5 0) ++
  marked 1 (q.condition.map (·.code)) ++ beBytes 1 q.action.code ++ beBytes 1 q.action.parameter

/-- READ-QUIRK (R124). -/
def serveReadQuirk (body : List Byte) (s : State) : Response :=
  match slotOfByte (byteAt body 0) with
  | none => refuse .badField s
  | some k =>
    match s.quirks[k] with
    | some q => accept (beBytes 1 k.val ++ beBytes 1 1 ++ q.bytes) s
    | none => accept (beBytes 1 k.val ++ beBytes 1 0) s

/-! ### Maps (08) -/

/-- The extent in a DEFINE-EXTENT body (section 11.7). -/
def extentSent (body : List Byte) : Extent :=
  { ending := field body 2 3, cylinder := field body 5 2, heads := byteAt body 7, interleave := byteAt body 8,
    skew := byteAt body 9 }

/-- The ending block keeps the table in strictly ascending order (R131 step 4). -/
def endingInOrder (es : List Extent) (k ending : Nat) : Bool :=
  (k == 0 || firstBlock es k ≤ ending) &&
  (match es[k + 1]? with
    | some next => ending < next.ending
    | none => true)

/-- He, I, Ks and C0 lie in their ranges (R131 step 5). -/
def Extent.inRange (e : Extent) (d : Descriptor) : Bool :=
  decide (1 ≤ e.heads ∧ e.heads ≤ d.heads ∧ 1 ≤ e.interleave ∧ e.interleave ≤ d.sectors ∧
    Nat.gcd e.interleave d.sectors = 1 ∧ e.skew ≤ d.sectors - 1 ∧ e.cylinder < d.cylinders)

/-- Every block of the entry, and of the entry after it, maps inside the geometry (R131 step 6). -/
def extentsFit (es : List Extent) (k : Nat) (e : Extent) (d : Descriptor) : Bool :=
  e.fits (firstBlock es k) d.cylinders d.sectors &&
  (match es[k + 1]? with
    | some next => next.fits (e.ending + 1) d.cylinders d.sectors
    | none => true)

/-- Entry k written: an entry defined, or one more at the end (R132). -/
def writeExtent (es : List Extent) (k : Nat) (e : Extent) : List Extent :=
  if k < es.length then es.set k e else es ++ [e]

/-- A remap entry whose unit is this one and whose block is outside these extents (R132). -/
def Remap.outside (r : Remap) (n : UnitId) (es : List Extent) : Bool := r.unit == n && !insideExtents es r.block

/-- A unit's extents replaced, and the remap entries outside them removed (R132, R133). -/
def State.replaceExtents (s : State) (n : UnitId) (es : List Extent) : State :=
  { s.setExtents n es with remaps := s.remaps.filter (fun r => !r.outside n es) }

/-- How many remap entries fall outside a unit's new extents (R132, R133). -/
def State.removedRemaps (s : State) (n : UnitId) (es : List Extent) : Nat :=
  (s.remaps.filter (fun r => r.outside n es)).length

/-- DEFINE-EXTENT (R131, R132). -/
def serveDefineExtent (body : List Byte) (s : State) : Response :=
  let k := byteAt body 1
  let e := extentSent body
  match unitOf (byteAt body 0) with
  | none => refuse .badField s
  | some n =>
    let es := s.extentsOf n
    if Config.extentCapacity ≤ k then refuse .badField s
    else
      match (s.drive n).descriptor with
      | none => refuse .noDrive s
      | some d =>
        if es.length < k then refuse .outOfOrder s
        else if !endingInOrder es k e.ending then refuse .outOfOrder s
        else if !e.inRange d then refuse .badField s
        else if !extentsFit es k e d then refuse .badField s
        else if s.blockJobLive n then refuse .driveBusy s
        else
          accept (beBytes 1 (s.removedRemaps n (writeExtent es k e))) (s.replaceExtents n (writeExtent es k e))

/-- CLEAR-EXTENTS (R133). -/
def serveClearExtents (body : List Byte) (s : State) : Response :=
  match unitOf (byteAt body 0) with
  | none => refuse .badField s
  | some n =>
    if (s.drive n).state = .undefined then refuse .noDrive s
    else if s.blockJobLive n then refuse .driveBusy s
    else
      accept (beBytes 1 (s.extentsOf n).length ++ beBytes 1 (s.removedRemaps n [])) (s.replaceExtents n [])

/-- The remap entry in a SET-REMAP body (section 11.7). -/
def remapSent (n : UnitId) (body : List Byte) : Remap :=
  { unit := n, block := field body 1 3,
    alternate := { cylinder := field body 4 2, head := byteAt body 6, sector := byteAt body 7 } }

/-- An entry holds the same unit and block, or the same unit and alternate address (R136 step 5). -/
def Remap.clashes (r x : Remap) : Bool := x.unit == r.unit && (x.block == r.block || x.alternate == r.alternate)

/-- SET-REMAP (R136). -/
def serveSetRemap (body : List Byte) (s : State) : Response :=
  match unitOf (byteAt body 0) with
  | none => refuse .badField s
  | some n =>
    let r := remapSent n body
    match (s.drive n).descriptor with
    | none => refuse .noDrive s
    | some d =>
      if d.cylinders ≤ r.alternate.cylinder ∨ d.heads ≤ r.alternate.head ∨ d.sectors ≤ r.alternate.sector then
        refuse .badField s
      else if !insideExtents (s.extentsOf n) r.block then refuse .outOfMap s
      else if s.remaps.any r.clashes then refuse .conflict s
      else if Config.remapCapacity ≤ s.remaps.length then refuse .tableFull s
      else accept (beBytes 1 (remapPlace r s.remaps)) { s with remaps := insertRemap r s.remaps }

/-- The entries a CLEAR-REMAP names (R137). -/
def Remap.named (r : Remap) (n : UnitId) (all : Bool) (block : Nat) : Bool :=
  r.unit == n && (all || r.block == block)

/-- CLEAR-REMAP (R137). -/
def serveClearRemap (body : List Byte) (s : State) : Response :=
  let block := field body 2 3
  match unitOf (byteAt body 0) with
  | none => refuse .badField s
  | some n =>
    if 1 < byteAt body 1 then refuse .badField s
    else
      let all := byteAt body 1 == 1
      accept (beBytes 1 (s.remaps.filter (fun r => r.named n all block)).length)
        { s with remaps := s.remaps.filter (fun r => !r.named n all block) }

/-- An address as a reply carries it (section 11.7, 0x10). -/
def Address.bytes (a : Address) : List Byte := beBytes 2 a.cylinder ++ beBytes 1 a.head ++ beBytes 1 a.sector

/-- MAP-BLOCK (R138). -/
def serveMapBlock (body : List Byte) (s : State) : Response :=
  let b := field body 1 3
  match unitOf (byteAt body 0) with
  | none => refuse .badField s
  | some n =>
    match (s.drive n).descriptor with
    | none => refuse .noDrive s
    | some d =>
      if !insideExtents (s.extentsOf n) b then refuse .outOfMap s
      else
        match extentAddress (s.extentsOf n) d.sectors b with
        | none => refuse .outOfMap s
        | some (k, home) =>
          match s.remapOf n b with
          | some r => accept (beBytes 1 1 ++ r.alternate.bytes ++ beBytes 1 k ++ home.bytes) s
          | none => accept (beBytes 1 0 ++ home.bytes ++ beBytes 1 k ++ home.bytes) s

/-! ### Jobs (03, 08) -/

/-- The sectors of a wanted set that the track has (R44 step 3). -/
def keptSectors (wanted : BitVec 32) (sectors : Nat) : Bool := (List.range sectors).any (fun i => wanted.getLsbD i)

/-- A sector number of the wanted set was dropped (R44 step 3). -/
def droppedSectors (wanted : BitVec 32) (sectors : Nat) : Bool :=
  (List.range 32).any (fun i => sectors ≤ i && wanted.getLsbD i)

/-- RECOVER-TRACK (R44, R45). -/
def serveRecoverTrack (tag : Tag) (body : List Byte) (s : State) : Response :=
  let cylinder := field body 1 2
  let head := byteAt body 3
  let budget := field body 5 2
  let wanted : BitVec 32 := BitVec.ofNat 32 (field body 7 4)
  match unitOf (byteAt body 0), classOf (byteAt body 4) with
  | some n, some cls =>
    match (s.drive n).descriptor with
    | none => refuse .noDrive s
    | some d =>
      if d.cylinders ≤ cylinder ∨ d.heads ≤ head ∨ keptSectors wanted d.sectors = false then refuse .badField s
      else if s.trackBusy n cylinder head then refuse .trackBusy s
      else
        match s.freeJob with
        | none => refuse .tableFull s
        | some j =>
          let x := Job.fresh n cylinder head cls tag budget (trackRecords wanted d.sectors) s.arrival
          { status := if droppedSectors wanted d.sectors then .clamped else .ok,
            fields := beBytes 1 (jobId j), state := (s.admitJob j x).runSelection n }
  | _, _ => refuse .badField s

/-- One job admitted for each track, with the ids taken (R140). -/
def State.admitTracks (s : State) (n : UnitId) (cls : JobClass) (tag : Tag) (budget sectors : Nat)
    (ls : List Landing) : List (Nat × Nat) → State × List JobIx
  | [] => (s, [])
  | (cylinder, head) :: rest =>
    match s.freeJob with
    | none => (s, [])
    | some j =>
      let x := Job.fresh n cylinder head cls tag budget (blockRecords ls cylinder head sectors) s.arrival
      let r := State.admitTracks (s.admitJob j x) n cls tag budget sectors ls rest
      (r.1, j :: r.2)

/-- RECOVER-BLOCKS (R139, R140). -/
def serveRecoverBlocks (tag : Tag) (body : List Byte) (s : State) : Response :=
  let first := field body 1 3
  let count := field body 4 2
  let budget := field body 7 2
  match unitOf (byteAt body 0), classOf (byteAt body 6) with
  | some n, some cls =>
    if count < 1 ∨ 256 < count then refuse .badField s
    else
      match (s.drive n).descriptor with
      | none => refuse .noDrive s
      | some d =>
        if !insideExtents (s.extentsOf n) (first + count - 1) then refuse .outOfMap s
        else
          let ls := s.landings n d.sectors first count
          let tracks := tracksOf ls
          if conflicting ls then refuse .conflict s
          else if tracks.any (fun t => s.trackBusy n t.1 t.2) then refuse .trackBusy s
          else if s.freeJobs < tracks.length then refuse .tableFull s
          else
            let r := s.admitTracks n cls tag budget d.sectors ls tracks
            accept (beBytes 1 r.2.length ++ r.2.flatMap (fun j => beBytes 1 (jobId j))) (r.1.runSelection n)
  | _, _ => refuse .badField s

/-- ABORT of every job of a unit: the QUEUED jobs first, oldest first, then the held job (R56). -/
def State.abortUnit (s : State) (n : UnitId) : State :=
  let t := (s.queuedByAge n).foldl (fun t j => t.endJob j .aborted) s
  match (s.drive n).heldJob with
  | some j => t.endJobAndGoOn j .aborted
  | none => t

/-- How many jobs of a unit an ABORT of the unit ends (R56). -/
def State.abortCount (s : State) (n : UnitId) : Nat :=
  (s.queuedByAge n).length + (if (s.drive n).heldJob.isSome then 1 else 0)

/-- ABORT (R56). -/
def serveAbort (body : List Byte) (s : State) : Response :=
  if byteAt body 0 = 0 then
    match unitOf (byteAt body 1) with
    | none => refuse .badField s
    | some n => accept (beBytes 1 (s.abortCount n)) (s.abortUnit n)
  else
    match jobOf (byteAt body 0) with
    | none => refuse .badField s
    | some j =>
      match s.job j with
      | none => refuse .noJob s
      | some x =>
        if x.state = .draining then refuse .wrongState s
        else accept (beBytes 1 1) (s.endJobAndGoOn j .aborted)

/-- The seven counters, two bytes each (section 11.7, JOB-END). -/
def Counters.bytes (c : Counters) : List Byte :=
  beBytes 2 c.passes ++ beBytes 2 c.revolutions ++ beBytes 2 c.headerCaptures ++ beBytes 2 c.blindUsed ++
  beBytes 2 c.strays ++ beBytes 2 c.recalibrations ++ beBytes 2 c.ambiguous

/-- The reply fields of JOB-STATUS (R57, section 11.7). -/
def Job.statusFields (x : Job) (j : JobIx) : List Byte :=
  beBytes 1 (jobId j) ++ beBytes 1 x.unit.val ++ beBytes 2 x.cylinder ++ beBytes 1 x.head ++
  beBytes 1 x.cls.code ++ beBytes 2 x.tag.toNat ++ beBytes 4 x.arrival.toNat ++
  beBytes 1 x.state.code ++ beBytes 2 x.budget ++ beBytes 1 x.passCount ++ beBytes 1 x.fruitless ++
  optField 1 0xFF (x.endCause.map (·.code)) ++ markByte x.finalized ++ x.counters.bytes ++
  beBytes 1 x.records.length ++
  x.records.flatMap (fun r => beBytes 1 r.state.code ++ beBytes 1 r.delivery.code)

/-- JOB-STATUS (R57). -/
def serveJobStatus (body : List Byte) (s : State) : Response :=
  match jobOf (byteAt body 0) with
  | none => refuse .badField s
  | some j =>
    match s.job j with
    | none => refuse .noJob s
    | some x => accept (x.statusFields j) s

/-- The slab fields of PEEK-SECTOR, 0 when no slab is present (R180). -/
def slabFields : Option Slab → List Byte
  | some x =>
    beBytes 1 1 ++ beBytes 1 x.folds ++ beBytes 1 x.status.code ++ beBytes 1 x.ambiguity ++
    beBytes 2 x.weakCount ++ markByte x.pending.isSome
  | none => beBytes 7 0

/-- The reply fields of PEEK-SECTOR (R180). -/
def State.peekFields (s : State) (j : JobIx) (sec : Nat) (r : Record) : List Byte :=
  beBytes 1 (jobId j) ++ beBytes 1 sec ++ beBytes 1 r.state.code ++ beBytes 1 r.reads ++
  optField 1 0xFF (r.image.map (fun im => im.kind.code)) ++ marked 3 r.block ++ beBytes 1 r.delivery.code ++
  beBytes 2 r.weakCount ++ optField 4 0xFFFFFFFF r.lastSync ++ slabFields (r.slab.bind s.slab) ++
  (match r.image with
    | some im => packData im.words
    | none => [])

/-- PEEK-SECTOR (R180). -/
def servePeekSector (body : List Byte) (s : State) : Response :=
  let sec := byteAt body 1
  match jobOf (byteAt body 0) with
  | none => refuse .badField s
  | some j =>
    if 31 < sec then refuse .badField s
    else
      match s.job j with
      | none => refuse .noJob s
      | some x =>
        match x.records[sec]? with
        | none => refuse .badField s
        | some r => accept (s.peekFields j sec r) s

/-! ### HOLD and the flags (09, 10) -/

/-- What remains of the hold, in units of 10 ms rounded up; 0 if none is in force (R151). -/
def State.holdRemaining (s : State) : Nat :=
  match s.hold with
  | some deadline => (deadline - s.clock + (Config.holdUnit - 1)) / Config.holdUnit
  | none => 0

/-- HOLD (R151). -/
def serveHold (body : List Byte) (s : State) : Response :=
  let d := field body 0 2
  accept (beBytes 2 s.holdRemaining)
    { s with hold := if d = 0 then none else some (s.clock + d * Config.holdUnit) }

/-- READ-FLAGS (R163). -/
def serveReadFlags (s : State) : Response :=
  accept (beBytes 3 s.flags.set.toNat ++ beBytes 3 s.flags.enabled.toNat ++ beBytes 3 s.flags.owed.toNat) s

/-- The flag set in a body, where none of bits 18 to 23 is 1 (R177). -/
def flagSetOf (body : List Byte) : Option FlagSet :=
  if field body 0 3 < 2 ^ 18 then some (BitVec.ofNat 18 (field body 0 3)) else none

/-- The effect of CLEAR-FLAGS: the named flags but those held by an index-lost mark (R159, R160). -/
def State.clearFlags (s : State) (named : FlagSet) : State :=
  { s with flags := s.flags.clear (named &&& ~~~s.heldFlags) }

/-- CLEAR-FLAGS (R159, R160). -/
def serveClearFlags (body : List Byte) (s : State) : Response :=
  match flagSetOf body with
  | none => refuse .badField s
  | some named =>
    let t := s.clearFlags named
    accept (beBytes 3 t.flags.set.toNat) t

/-- SET-NOTICES (R162). -/
def serveSetNotices (body : List Byte) (s : State) : Response :=
  match flagSetOf body with
  | none => refuse .badField s
  | some named =>
    accept (beBytes 3 named.toNat ++ beBytes 1 (flagCount (s.flags.owed &&& ~~~named)))
      { s with flags := s.flags.enable named }

/-! ### RESET (R181, R182) -/

/-- The drive's part of a RESET of its unit (R23, R181). -/
def State.resetDrive (s : State) (n : UnitId) : State :=
  let t := s.modDrive n (fun d => { d.forgetQuirks with deferral := 0, deadRevs := 0 })
  if (s.drive n).state.timed then
    (t.modDrive n (fun d =>
      { d.losePosition.enter .notReady with
        seekErrors := 0
        indexTimer := if d.indexLost then none else d.timerFrom s.clock })).idleIfReady n
  else t

/-- Every job of the unit that is not DRAINING ends DRIVE_RESET: the QUEUED ones first, oldest first (R58). -/
def State.resetJobs (s : State) (n : UnitId) : State :=
  ((s.queuedByAge n).foldl (fun t j => t.endJob j .driveReset) s).endHeld n .driveReset

/-- RESET of one unit (R181). -/
def State.resetUnit (s : State) (n : UnitId) : State :=
  let t := (s.resetJobs n).setDirection n .up
  let u := t.setProfiles n { t.unitProfiles n with swapPending := false }
  (u.resetDrive n).clearFlags (unitFlags n)

/-- RESET (R181, R182): with scope 0xFF its reply is queued and the reset waits for that reply's completion. -/
def serveReset (body : List Byte) (s : State) : Response :=
  if byteAt body 0 = 0xFF then accept [] { s with link := { s.link with resetWaiting := true } }
  else
    match unitOf (byteAt body 0) with
    | none => refuse .badField s
    | some n => accept [] (s.resetUnit n)

/-! ### The checks every request meets (R172) -/

/-- The body lengths of the requests 0x01 to 0x1A (section 11.7); SET-PROFILE's depends on its count. -/
def bodyLengths : List Nat :=
  [0, 20, 1, 1, 1, 13, 1, 2, 14, 1, 1, 10, 1, 8, 5, 4, 11, 9, 2, 1, 2, 2, 0, 3, 3, 1]

/-- The body has the length its request's entry gives (R172). -/
def lengthOk (kind : Nat) (body : List Byte) : Bool :=
  if kind = 0x06 then profileLengthOk body else body.length == bodyLengths.getD (kind - 1) 0

/-- A request with a known kind and a body of the right length. -/
def serveKnown (kind : Nat) (tag : Tag) (body : List Byte) (s : State) : Response :=
  match kind with
  | 0x01 => serveIdentify s
  | 0x02 => serveDefineDrive body s
  | 0x03 => serveDriveStatus body s
  | 0x04 => serveUnload body s
  | 0x05 => serveReload body s
  | 0x06 => serveSetProfile body s
  | 0x07 => serveSwapProfile body s
  | 0x08 => serveReadProfile body s
  | 0x09 => serveSetQuirk body s
  | 0x0A => serveClearQuirk body s
  | 0x0B => serveReadQuirk body s
  | 0x0C => serveDefineExtent body s
  | 0x0D => serveClearExtents body s
  | 0x0E => serveSetRemap body s
  | 0x0F => serveClearRemap body s
  | 0x10 => serveMapBlock body s
  | 0x11 => serveRecoverTrack tag body s
  | 0x12 => serveRecoverBlocks tag body s
  | 0x13 => serveAbort body s
  | 0x14 => serveJobStatus body s
  | 0x15 => servePeekSector body s
  | 0x16 => serveHold body s
  | 0x17 => serveReadFlags s
  | 0x18 => serveClearFlags body s
  | 0x19 => serveSetNotices body s
  | 0x1A => serveReset body s
  | _ => refuse .unknownKind s

/-- A request is checked for its kind, then its length, then as its own entry gives (R172). -/
def serve (f : Frame) (s : State) : Response :=
  if f.kind.toNat < 1 ∨ 0x1A < f.kind.toNat then refuse .unknownKind s
  else if !lengthOk f.kind.toNat f.body then refuse .badLength s
  else serveKnown f.kind.toNat f.tag f.body s

end Sys2Proof.Machine
end

