-- ==== Sys2Proof/Machine/Link.lean ====
section
/-! DEFINITION. The Link Interface (11): the receiver, the receive buffer, the reply queue, the messages the
controller composes, and the transmitter. -/

namespace Sys2Proof.Machine

/-! ### Requests and their replies (R171 to R173) -/

/-- The REPLY frame of a request (R172, R176). -/
def replyFrame (f : Frame) (r : Response) : Frame :=
  { kind := 0x80, tag := f.tag, body := f.kind :: BitVec.ofNat 8 r.status.code :: r.fields }

/-- A reply joins the tail of the reply queue (R173). -/
def State.pushReply (s : State) (r : Reply) : State := { s with link := { s.link with replies := s.link.replies ++ [r] } }

/-- A request runs whole, and its reply joins the reply queue (R171); the reply of a RESET ALL is marked (R182).
No request runs while a RESET ALL waits, so the mark is this request's own. -/
def State.runFrame (s : State) (f : Frame) : State :=
  let r := serve f s
  r.state.pushReply { frame := replyFrame f r, resetAll := r.state.link.resetWaiting }

/-- A request may run: the reply queue has room and no RESET ALL waits (R171). -/
def State.mayTakeFrame (s : State) : Bool :=
  decide (s.link.replies.length < Config.replyCapacity) && !s.link.resetWaiting

/-- Frames are taken out of the receive buffer, oldest first, as long as they may be (R171). The fuel is the
number of frames the buffer holds. -/
def State.takeFramesUpTo : Nat → State → State
  | 0, s => s
  | fuel + 1, s =>
    match s.link.buffer with
    | [] => s
    | f :: rest =>
      if s.mayTakeFrame then
        State.takeFramesUpTo fuel ({ s with link := { s.link with buffer := rest } }.runFrame f)
      else s

/-- Every frame that may be taken is taken (R171). -/
def State.takeFrames (s : State) : State := State.takeFramesUpTo s.link.buffer.length s

/-- A complete frame is offered to the receive buffer: it joins if there is room and is discarded otherwise
(R170). -/
def State.offerFrame (s : State) (f : Frame) : State :=
  if s.clearToSend then { s with link := { s.link with buffer := s.link.buffer ++ [f] } }.takeFrames else s

/-! ### The receiver (R166 to R169) -/

/-- The receiver in HUNT with its assembly area empty (R166). -/
def Link.hunt (l : Link) : Link := { l with phase := .hunt, assembly := [], gapFrom := none }

/-- The frame in progress is discarded and LINK_ERROR raised (R168). -/
def State.discardFrame (s : State) : State := { s with link := s.link.hunt }.raise linkErrorFlag

/-- A byte of the frame in progress is kept, and the gap is measured from it (R166, R168). -/
def State.assemble (s : State) (phase : RxPhase) (assembly : List Byte) : State :=
  { s with link := { s.link with phase := phase, assembly := assembly, gapFrom := some s.clock } }

/-- A length lies in 3 to 1027 (R166). -/
def lengthInRange (n : Nat) : Bool := decide (3 ≤ n ∧ n ≤ 1027)

/-- The two CRC bytes received equal the CRC of the bytes before them (R167). -/
def crcPasses (assembly : List Byte) : Bool :=
  let covered := assembly.take (assembledLength assembly + 2)
  decide ((crc16 covered).toNat = field assembly (assembledLength assembly + 2) 2)

/-- A byte in LENGTH: the length is judged at its second byte (R166, R168). -/
def State.receiveLength (s : State) (assembly : List Byte) : State :=
  if assembly.length < 2 then s.assemble .length assembly
  else if lengthInRange (assembledLength assembly) then s.assemble .content assembly
  else s.discardFrame

/-- A byte in CONTENT: after Lf bytes the receiver goes to CHECK (R166). -/
def State.receiveContent (s : State) (assembly : List Byte) : State :=
  if assembly.length < assembledLength assembly + 2 then s.assemble .content assembly
  else s.assemble .check assembly

/-- A byte in CHECK: at the second CRC byte the frame is complete, or discarded (R166 to R168). -/
def State.receiveCheck (s : State) (assembly : List Byte) : State :=
  if assembly.length < assembledLength assembly + 4 then s.assemble .check assembly
  else if crcPasses assembly then { s with link := s.link.hunt }.offerFrame (assembledFrame assembly)
  else s.discardFrame

/-- The receiver takes a byte (R166). -/
def State.receiveByte (s : State) (b : Byte) : State :=
  match s.link.phase with
  | .hunt => if b = startByte then s.assemble .length [] else s
  | .length => s.receiveLength (s.link.assembly ++ [b])
  | .content => s.receiveContent (s.link.assembly ++ [b])
  | .check => s.receiveCheck (s.link.assembly ++ [b])

/-- A frame is in progress (R166). -/
def Link.inProgress (l : Link) : Bool := l.phase != .hunt

/-- The gap is measured while a frame is in progress and clear-to-send is asserted, afresh from the moment it is
asserted again (R168). -/
def State.gapSync (s : State) : State :=
  { s with link := { s.link with gapFrom :=
      if s.link.inProgress && s.clearToSend then some (s.link.gapFrom.getD s.clock) else none } }

/-! ### The messages (R148, R149, R158, R176) -/

/-- The weak list as it travels (R177). -/
def weakListBytes (l : List (Nat × Nat)) : List Byte := l.flatMap (fun e => beBytes 2 (e.1 * 16 + e.2))

/-- The SECTOR frame of a record (R148, section 11.7). -/
def sectorFrame (j : JobIx) (x : Job) (sec : Nat) (r : Record) : Frame :=
  { kind := 0x81
    tag := x.tag
    body :=
      beBytes 1 (jobId j) ++ beBytes 1 x.unit.val ++ beBytes 2 x.cylinder ++ beBytes 1 x.head ++ beBytes 1 sec ++
      beBytes 1 r.state.code ++ beBytes 1 r.reads ++ marked 3 r.block ++ beBytes 2 r.weakCount ++
      beBytes 1 r.weakList.length ++ weakListBytes r.weakList ++
      packData ((r.image.map (·.words)).getD []) }

/-- The STRAY frame of a stray buffer (R149, section 11.7). -/
def strayFrame (x : Stray) : Frame :=
  { kind := 0x82
    tag := x.tag
    body :=
      beBytes 1 x.unit.val ++ beBytes 2 x.h1.toNat ++ beBytes 2 x.h2.toNat ++ beBytes 2 x.h3.toNat ++
      packData x.words }

/-- The JOB-END frame of a job (R149, section 11.7). -/
def jobEndFrame (j : JobIx) (x : Job) : Frame :=
  { kind := 0x83
    tag := x.tag
    body :=
      beBytes 1 (jobId j) ++ beBytes 1 x.unit.val ++ beBytes 2 x.cylinder ++ beBytes 1 x.head ++
      optField 1 0xFF (x.endCause.map (·.code)) ++ x.counters.bytes ++ beBytes 1 x.records.length ++
      x.records.flatMap (fun r => beBytes 1 r.state.code) }

/-- The unit a flag belongs to (section 10.1). -/
def unitOfFlag (k : Nat) : Option UnitId := unitOf (k / 4)

/-- The NOTICE frame of a flag, with the unit's drive state as it stands (R158, section 11.7). -/
def State.noticeFrame (s : State) (k : Nat) : Frame :=
  { kind := 0x84
    tag := 0
    body := beBytes 1 k ++ optField 1 0xFF ((unitOfFlag k).map (·.val)) ++
      optField 1 0xFF ((unitOfFlag k).map (fun n => (s.drive n).state.code)) }

/-- The message of a delivery entry, composed from the state that stands (R146). An entry always names a record,
a buffer or a job that is there. -/
def State.compose (s : State) : Entry → Option Frame
  | .sector j sec => (s.job j).bind (fun x => (x.records[sec]?).map (sectorFrame j x sec))
  | .stray b => (s.strays[b]).map strayFrame
  | .jobEnd j => (s.job j).map (jobEndFrame j)

/-! ### The transmitter (R174, R175) -/

/-- The delivery message that is offered: the head entry's, while no hold is in force (R146, R152). -/
def State.deliveryMessage (s : State) : Option TxMessage :=
  match s.hold, s.queue with
  | none, e :: _ => (s.compose e).map (fun f => { source := .delivery e, frame := f })
  | _, _ => none

/-- The message that the transmitter would choose (R174). -/
def State.nextMessage (s : State) : Option TxMessage :=
  match s.link.replies with
  | r :: _ => some { source := .reply, frame := r.frame }
  | [] =>
    match s.flags.lowestOwed with
    | some k => some { source := .notice, frame := s.noticeFrame k }
    | none => s.deliveryMessage

/-- The owed flag whose notice is taken leaves the owed set (R158). -/
def FlagUnit.takeOwed (f : FlagUnit) : FlagUnit :=
  match f.lowestOwed with
  | some k => { f with owed := f.owed &&& ~~~flagBit k }
  | none => f

/-- A message begins (R174, R158). -/
def State.begin (s : State) (m : TxMessage) : State :=
  { s with
    link := { s.link with tx := some m, lastByte := false }
    flags := if m.source = .notice then s.flags.takeOwed else s.flags }

/-- The transmitter chooses, if the line is idle and request-to-send is asserted (R174). -/
def State.transmit (s : State) : State :=
  if s.link.tx.isNone && s.link.rts then
    match s.nextMessage with
    | some m => s.begin m
    | none => s
  else s

/-- What follows every command: a request that it began is granted where the channel is IDLE (R27), the gap test
follows clear-to-send (R168), and the transmitter chooses (R174). -/
def State.finish (s : State) : State := s.arbitrate.gapSync.transmit

/-- Bytes arrive in order. What a byte brings about is complete before the next one arrives: a notice that a discarded
frame owes is chosen before a later frame's request has run (R166, R174). -/
def State.receive (s : State) (bytes : List Byte) : State := bytes.foldl (fun t b => (t.receiveByte b).finish) s

/-! ### Completions (R146, R173, R175) -/

/-- The message in transmission may send its last byte: request-to-send is asserted, or was dropped in the
middle of that byte (R175). -/
def State.mayComplete (s : State) : Bool := s.link.rts || s.link.lastByte

/-- A message of a source is in transmission and may complete (R175). -/
def State.completing (s : State) (source : TxSource) : Bool :=
  s.mayComplete && (match s.link.tx with | some m => m.source == source | none => false)

/-- The delivery entry in transmission, if it may complete (R146, R175). -/
def State.deliveryCompleting (s : State) : Option Entry :=
  match s.link.tx with
  | some m =>
    match m.source with
    | .delivery e => if s.mayComplete then some e else none
    | .reply => none
    | .notice => none
  | none => none

/-- The line is idle again. -/
def State.endMessage (s : State) : State := { s with link := { s.link with tx := none, lastByte := false } }

/-- The head entry leaves the delivery queue (R146). -/
def State.popDelivery (s : State) : State := { s with queue := s.queue.tail }

/-- Every block at its power-on values, with a line rate (R22, R42, R58, R92, R113, R129, R130, R135, R154, R164,
R183). The levels of the input lines, the clock and the commands that wait stand as they are. -/
def State.powerOn (s : State) (rate : Fin 4) : State :=
  { State.reset with
    clock := s.clock
    choices := s.choices
    pending := s.pending
    drives := s.drives.map (fun d => Drive.powerOn d.ready)
    link := Link.powerOn rate s.link.rts }

/-- RESET ALL takes effect: power-on values, the line rate kept (R182, R183). -/
def State.resetAllTakesEffect (s : State) : State := s.powerOn s.link.rate

/-- A reply completes: it leaves the reply queue, and either its RESET ALL takes effect or the frames that waited
for room are taken (R171, R173, R182). -/
def State.replyDone (s : State) : State :=
  let t := { s.endMessage with link := { s.endMessage.link with replies := s.link.replies.tail } }
  match s.link.replies with
  | [] => t
  | r :: _ => if r.resetAll then t.resetAllTakesEffect else t.takeFrames

/-- A SECTOR message completes (R146, R144). -/
def State.sectorDone (s : State) (j : JobIx) (sec : Nat) : State :=
  (s.endMessage.setDelivery j sec .sent).popDelivery.admitWaiting

/-- A STRAY message completes (R146, R144). -/
def State.strayDone (s : State) (b : Fin 4) : State :=
  let t := s.endMessage
  { t with strays := t.strays.set b none }.popDelivery.admitWaiting

/-- A JOB-END message completes (R55, R146, R144). -/
def State.jobEndDone (s : State) (j : JobIx) : State := (s.endMessage.setJob j none).popDelivery.admitWaiting

end Sys2Proof.Machine
end

