-- ==== Sys2Proof/Machine/CaptureCommands.lean ====
section
/-! DEFINITION. The commands of the separator and the repair unit: fields read in a captured revolution and the end
of a search (02, 06). A field is read only while a revolution is captured (R24). -/

namespace Sys2Proof.Machine

/-- HEADER_FIELD_READ: a header's sync tick, the tick at which its last word ended, its words and whether it carried
the low indication (R31 to R34). -/
def execHeaderFieldRead (sync last : Nat) (h1 h2 h3 : Word12) (low : Bool) (s : State) :
    Host.Outcome State Fault Refusal :=
  match s.capturing with
  | some (n, rev) => .next (s.readHeader n rev (max sync last) h1 h2 h3 low).finish
  | none => .next s

/-- The data field that a command's operands spell: W + 1 words (R33), each graded at the revolution's trim and the
applied strobe shift (R34; log entries 6 and 20). -/
def State.fieldRead (s : State) (n : UnitId) (trim : Int) (sync : Nat) (words : List Word12)
    (timing : List (List Transition)) : DataField :=
  { words := readWords (s.wordsOf n + 1) sync words
    margins := readMargins (s.wordsOf n + 1) sync trim s.channel.strobe timing
    sync := sync }

/-- DATA_FIELD_READ: a data field's sync tick, its words and the timing of their transitions, and whether it carried the
low indication (R33 to R36). -/
def execDataFieldRead (sync : Nat) (words : List Word12) (timing : List (List Transition)) (low : Bool) (s : State) :
    Host.Outcome State Fault Refusal :=
  match s.capturing with
  | some (n, rev) => .next (s.readData n rev (s.fieldRead n rev.trim sync words timing) low).finish
  | none => .next s

/-- DATA_WINDOW_CLOSES: the open data window closes with no data sync (R33). -/
def execDataWindowCloses (s : State) : Host.Outcome State Fault Refusal :=
  match s.capturing with
  | some (_, rev) => .next (s.closeWindow rev).finish
  | none => .next s

/-- SEARCH_END: the repair unit has evaluated its candidates (R103). -/
def execSearchEnd (s : State) : Host.Outcome State Fault Refusal := .next s.endSearch.finish

end Sys2Proof.Machine
end

