-- ==== Sys2Proof/Machine/DriveCommands.lean ====
section
/-! DEFINITION. The commands that the drives and the block's timers send: index pulses and their loss, the ready
line, positioning and its errors, and the end of an unload (01). -/

namespace Sys2Proof.Machine

/-! ### Ready (R9) -/

/-- The ready line rises (R9). -/
def State.readyRise (s : State) (n : UnitId) : State :=
  let t := s.modDrive n (fun d => { d with ready := true })
  if (s.drive n).state = .notReady then t.readyInNotReady n else t

/-- The ready line falls (R9). -/
def State.readyFall (s : State) (n : UnitId) : State :=
  let t := s.modDrive n (fun d => { d with ready := false })
  if (s.drive n).state.measures then
    (t.modDrive n (fun d => d.losePosition.enter .notReady)).endHeld n .driveLost
  else t

/-! ### Index timeout (R8, R17) -/

/-- The index timer reaches 0 at a time (R8, R17). -/
def State.indexTimeout (s : State) (n : UnitId) (deadline : Nat) : State :=
  let t := ({ s with clock := max s.clock deadline }.modDrive n (fun d =>
    { d with indexLost := true, indexTimer := none })).raise (unitFlag n .spindleLost)
  if (s.drive n).state.measures then (t.beginUnload n).endHeld n .driveRetracted else t

/-! ### Positioning (R11 to R13) -/

/-- The seek settle revolutions of a unit, with its positioning settle (R11, R12, R128). -/
def State.arrivalSettle (s : State) (n : UnitId) : Nat :=
  ((s.drive n).descriptor.map (·.settle)).getD 0 + (s.drive n).positioningSettle

/-- A unit that has arrived with its speed IN and no seek to make (R11, R12). -/
def State.arrive (s : State) (n : UnitId) : State :=
  if (s.drive n).heldJob.isSome then s.settle n (s.arrivalSettle n) else s.toIdle n

/-- A seek completes (R11). -/
def State.seekDone (s : State) (n : UnitId) : State :=
  let t := s.modDrive n (fun d => { d with motion := .still, cylinder := d.target })
  if s.speedOut n then t.modDrive n (fun d => d.enter .speedFault) else t.arrive n

/-- A restore completes (R12). -/
def State.restoreDone (s : State) (n : UnitId) : State :=
  let t := s.modDrive n (fun d => { d with motion := .still, cylinder := some 0 })
  if s.speedOut n then t.modDrive n (fun d => d.enter .speedFault)
  else if (s.drive n).heldJob.isSome ∧ (s.drive n).target ≠ some 0 then t.issueSeek n
  else t.arrive n

/-- A seek error (R13). The count is written held at 3, where the job ends (log entry 22). -/
def State.seekError (s : State) (n : UnitId) : State :=
  let t := (s.modDrive n (fun d =>
    { d with motion := .still, cylinder := none, seekErrors := holdAt 3 d.seekErrors })).raise (unitFlag n .seekError)
  if (s.drive n).heldJob.isSome then
    if (t.drive n).seekErrors < 3 then t.issueRestore n else (t.endHeld n .seekFailed).toIdle n
  else t.toIdle n

/-- A seek error whose time limit is reached at a time (R11, R12). -/
def State.motionTimeout (s : State) (n : UnitId) (limit : Nat) : State :=
  { s with clock := max s.clock limit }.seekError n

/-! ### Unloading (R20) -/

/-- The heads are unloaded (R20). -/
def State.headsUnloaded (s : State) (n : UnitId) : State :=
  (s.modDrive n (fun d =>
    { d.enter .retracted with cylinder := none, offset := 0 })).raise (unitFlag n .retracted)

/-! ### The commands -/

/-- INDEX_PULSE, some ticks after the command before it (R4 to R8). -/
def execIndexPulse (unit : UnitId) (elapsed : Nat) (cut : CutField) (s : State) : Host.Outcome State Fault Refusal :=
  .next (s.index unit elapsed cut).finish

/-- INDEX_TIMEOUT: the running index timer of a unit reaches 0 (R8, R17). -/
def execIndexTimeout (unit : UnitId) (s : State) : Host.Outcome State Fault Refusal :=
  match (s.drive unit).indexTimer with
  | some deadline =>
    if (s.drive unit).state.timed then .next (s.indexTimeout unit deadline).finish else .next s
  | none => .next s

/-- READY_RISE (R9). -/
def execReadyRise (unit : UnitId) (s : State) : Host.Outcome State Fault Refusal := .next (s.readyRise unit).finish

/-- READY_FALL (R9). -/
def execReadyFall (unit : UnitId) (s : State) : Host.Outcome State Fault Refusal := .next (s.readyFall unit).finish

/-- SEEK_COMPLETE: the drive's seek-complete indication for a seek (R3, R11). -/
def execSeekComplete (unit : UnitId) (s : State) : Host.Outcome State Fault Refusal :=
  match (s.drive unit).motion with
  | .seek _ => .next (s.seekDone unit).finish
  | .restore _ => .next s
  | .still => .next s

/-- RESTORE_COMPLETE: the drive's seek-complete indication for a restore (R3, R12). -/
def execRestoreComplete (unit : UnitId) (s : State) : Host.Outcome State Fault Refusal :=
  match (s.drive unit).motion with
  | .restore _ => .next (s.restoreDone unit).finish
  | .seek _ => .next s
  | .still => .next s

/-- SEEK_ERROR_INDICATION: ignored with no motion in flight (R3, R13). -/
def execSeekErrorIndication (unit : UnitId) (s : State) : Host.Outcome State Fault Refusal :=
  match (s.drive unit).motion with
  | .seek _ => .next (s.seekError unit).finish
  | .restore _ => .next (s.seekError unit).finish
  | .still => .next s

/-- SEEK_TIMEOUT: 500 ms have passed since a seek was issued (R11). -/
def execSeekTimeout (unit : UnitId) (s : State) : Host.Outcome State Fault Refusal :=
  match (s.drive unit).motion with
  | .seek limit => .next (s.motionTimeout unit limit).finish
  | .restore _ => .next s
  | .still => .next s

/-- RESTORE_TIMEOUT: 2,000 ms have passed since a restore was issued (R12). -/
def execRestoreTimeout (unit : UnitId) (s : State) : Host.Outcome State Fault Refusal :=
  match (s.drive unit).motion with
  | .restore limit => .next (s.motionTimeout unit limit).finish
  | .seek _ => .next s
  | .still => .next s

/-- HEADS_UNLOADED: ignored but in UNLOADING (R20). -/
def execHeadsUnloaded (unit : UnitId) (s : State) : Host.Outcome State Fault Refusal :=
  if (s.drive unit).state = .unloading then .next (s.headsUnloaded unit).finish else .next s

end Sys2Proof.Machine
end

