-- ==== Sys2Proof/Machine/LinkCommands.lean ====
section
/-! DEFINITION. The commands of the serial line: bytes and breaks, request-to-send, the completions of messages,
and the end of a hold (09, 11). A completion that names no message in transmission has no effect. -/

namespace Sys2Proof.Machine

/-- FRAME_COMPLETE: bytes arrive, up to the last of a frame (R166, R167, R170). -/
def execFrameComplete (bytes : List Byte) (s : State) : Host.Outcome State Fault Refusal := .next (s.receive bytes)

/-- FRAME_LENGTH_OUT_OF_RANGE: a start byte and two length bytes arrive (R166, R168). -/
def execFrameLengthOutOfRange (high low : Byte) (s : State) : Host.Outcome State Fault Refusal :=
  .next (s.receive [startByte, high, low])

/-- FRAME_GAP_TIMEOUT: more than 20 ms have passed since the gap began (R168). -/
def execFrameGapTimeout (s : State) : Host.Outcome State Fault Refusal :=
  match s.link.gapFrom with
  | some from_ =>
    if s.link.inProgress && s.clearToSend then
      .next ({ s with clock := max s.clock (from_ + Config.gapLimit + 1) }.discardFrame).finish
    else .next s
  | none => .next s

/-- BREAK: the frame in progress is discarded and the hold released (R153, R169). -/
def execLineBreak (s : State) : Host.Outcome State Fault Refusal :=
  .next ({ s with link := s.link.hunt, hold := none }.finish)

/-- REQUEST_TO_SEND_DROPPED (R175). `lastByte`: the byte in progress is the last of its message. While request-to-send
is dropped already nothing is dropped and nothing happens: DESIGN CHOICE, the spec does not speak of it (log entry 12). -/
def execRequestToSendDropped (lastByte : Bool) (s : State) : Host.Outcome State Fault Refusal :=
  if s.link.rts then
    .next ({ s with link := { s.link with rts := false, lastByte := lastByte && s.link.tx.isSome } }.finish)
  else .next s

/-- REQUEST_TO_SEND_ASSERTED (R174, R175). -/
def execRequestToSendAsserted (s : State) : Host.Outcome State Fault Refusal :=
  .next ({ s with link := { s.link with rts := true, lastByte := false } }.finish)

/-- REPLY_SENT (R171, R173, R182). -/
def execReplySent (s : State) : Host.Outcome State Fault Refusal :=
  if s.completing .reply then .next s.replyDone.finish else .next s

/-- NOTICE_SENT (R158, R174). -/
def execNoticeSent (s : State) : Host.Outcome State Fault Refusal :=
  if s.completing .notice then .next s.endMessage.finish else .next s

/-- SECTOR_SENT (R146). -/
def execSectorSent (s : State) : Host.Outcome State Fault Refusal :=
  match s.deliveryCompleting with
  | some (.sector j sec) => .next (s.sectorDone j sec).finish
  | some (.stray _) => .next s
  | some (.jobEnd _) => .next s
  | none => .next s

/-- STRAY_SENT (R146, R147). -/
def execStraySent (s : State) : Host.Outcome State Fault Refusal :=
  match s.deliveryCompleting with
  | some (.stray b) => .next (s.strayDone b).finish
  | some (.sector _ _) => .next s
  | some (.jobEnd _) => .next s
  | none => .next s

/-- JOB_END_SENT (R55, R146). -/
def execJobEndSent (s : State) : Host.Outcome State Fault Refusal :=
  match s.deliveryCompleting with
  | some (.jobEnd j) => .next (s.jobEndDone j).finish
  | some (.sector _ _) => .next s
  | some (.stray _) => .next s
  | none => .next s

/-- HOLD_EXPIRES: the hold's time runs out (R153). -/
def execHoldExpires (s : State) : Host.Outcome State Fault Refusal :=
  match s.hold with
  | some deadline => .next ({ s with clock := max s.clock deadline, hold := none }.finish)
  | none => .next s

end Sys2Proof.Machine
end

