-- ==== Sys2Proof/Machine/RequestCommands.lean ====
section
/-! DEFINITION. POWER_ON and the request commands. A request command is a complete frame of that request, with its
body laid out as section 11.7 gives, offered to the receive buffer (R170); it runs as soon as R171 allows. -/

namespace Sys2Proof.Machine

/-- A request frame completes (R170, R171). -/
def State.request (s : State) (kind : Byte) (tag : Tag) (body : List Byte) : State :=
  (s.offerFrame { kind := kind, tag := tag, body := body }).finish

/-- A field at its width (R177). -/
def bits {w : Nat} (len : Nat) (x : BitVec w) : List Byte := beBytes len x.toNat

/-- The body of DEFINE-DRIVE (section 11.7, 0x02). -/
def driveBody (f : DriveFields) (unit : Byte) : List Byte :=
  [unit, f.model] ++ bits 2 f.cylinders ++ [f.heads, f.sectors] ++ bits 2 f.words ++ bits 4 f.period ++
    bits 2 f.tolerance ++ bits 4 f.dataOffset ++ [f.maxOffset, f.settle]

/-- The body of SET-PROFILE (section 11.7, 0x06). -/
def profileBody (f : ProfileFields) (unit : Byte) : List Byte :=
  [unit, BitVec.ofNat 8 f.entries.length] ++ f.entries.flatMap (fun e => [e.1, e.2]) ++
    [f.passLimit, f.backoff, f.recalibrate, f.quorum, f.weak, f.repair, f.blindAllowed, f.strayLimit,
     f.keepStrays, f.dead, f.deferral]

/-- The body of SET-QUIRK (section 11.7, 0x09). -/
def quirkBody (f : QuirkFields) (slot : Byte) : List Byte :=
  [slot, f.model, f.headsPresent] ++ bits 2 f.heads ++ [f.rangePresent] ++ bits 2 f.low ++ bits 2 f.high ++
    [f.conditionPresent, f.condition, f.action, f.parameter]

/-- The body of DEFINE-EXTENT (section 11.7, 0x0C). -/
def extentBody (unit entry : Byte) (ending : BitVec 24) (cylinder : BitVec 16) (heads interleave skew : Byte) : List Byte :=
  [unit, entry] ++ bits 3 ending ++ bits 2 cylinder ++ [heads, interleave, skew]

/-- The body of SET-REMAP (section 11.7, 0x0E). -/
def remapBody (unit : Byte) (block : BitVec 24) (cylinder : BitVec 16) (head sector : Byte) : List Byte :=
  [unit] ++ bits 3 block ++ bits 2 cylinder ++ [head, sector]

/-- The body of RECOVER-TRACK (section 11.7, 0x11). -/
def trackBody (unit : Byte) (cylinder : BitVec 16) (head cls : Byte) (budget : BitVec 16) (wanted : BitVec 32) : List Byte :=
  [unit] ++ bits 2 cylinder ++ [head, cls] ++ bits 2 budget ++ bits 4 wanted

/-- The body of RECOVER-BLOCKS (section 11.7, 0x12). -/
def blocksBody (unit : Byte) (first : BitVec 24) (count : BitVec 16) (cls : Byte) (budget : BitVec 16) : List Byte :=
  [unit] ++ bits 3 first ++ bits 2 count ++ [cls] ++ bits 2 budget

/-- POWER_ON: every block takes its power-on values and the rate code is read from the straps (R22, R165, R183). -/
def execPowerOn (straps : Fin 4) (s : State) : Host.Outcome State Fault Refusal := .next (s.powerOn straps).finish

/-- IDENTIFY (R178). -/
def execIdentify (tag : Tag) (s : State) : Host.Outcome State Fault Refusal := .next (s.request 0x01 tag [])

/-- DEFINE-DRIVE (R1, R2). -/
def execDefineDrive (tag : Tag) (unit : Byte) (fields : DriveFields) (s : State) : Host.Outcome State Fault Refusal :=
  .next (s.request 0x02 tag (driveBody fields unit))

/-- DRIVE-STATUS (R179). -/
def execDriveStatus (tag : Tag) (unit : Byte) (s : State) : Host.Outcome State Fault Refusal :=
  .next (s.request 0x03 tag [unit])

/-- UNLOAD (R19). -/
def execUnload (tag : Tag) (unit : Byte) (s : State) : Host.Outcome State Fault Refusal :=
  .next (s.request 0x04 tag [unit])

/-- RELOAD (R21). -/
def execReload (tag : Tag) (unit : Byte) (s : State) : Host.Outcome State Fault Refusal :=
  .next (s.request 0x05 tag [unit])

/-- SET-PROFILE (R114 to R116). -/
def execSetProfile (tag : Tag) (unit : Byte) (fields : ProfileFields) (s : State) : Host.Outcome State Fault Refusal :=
  .next (s.request 0x06 tag (profileBody fields unit))

/-- SWAP-PROFILE (R118). -/
def execSwapProfile (tag : Tag) (unit : Byte) (s : State) : Host.Outcome State Fault Refusal :=
  .next (s.request 0x07 tag [unit])

/-- READ-PROFILE (R117). -/
def execReadProfile (tag : Tag) (unit choice : Byte) (s : State) : Host.Outcome State Fault Refusal :=
  .next (s.request 0x08 tag [unit, choice])

/-- SET-QUIRK (R123). -/
def execSetQuirk (tag : Tag) (slot : Byte) (fields : QuirkFields) (s : State) : Host.Outcome State Fault Refusal :=
  .next (s.request 0x09 tag (quirkBody fields slot))

/-- CLEAR-QUIRK (R124). -/
def execClearQuirk (tag : Tag) (slot : Byte) (s : State) : Host.Outcome State Fault Refusal :=
  .next (s.request 0x0A tag [slot])

/-- READ-QUIRK (R124). -/
def execReadQuirk (tag : Tag) (slot : Byte) (s : State) : Host.Outcome State Fault Refusal :=
  .next (s.request 0x0B tag [slot])

/-- DEFINE-EXTENT (R131, R132). -/
def execDefineExtent (tag : Tag) (unit entry : Byte) (ending : BitVec 24) (cylinder : BitVec 16)
    (heads interleave skew : Byte) (s : State) : Host.Outcome State Fault Refusal :=
  .next (s.request 0x0C tag (extentBody unit entry ending cylinder heads interleave skew))

/-- CLEAR-EXTENTS (R133). -/
def execClearExtents (tag : Tag) (unit : Byte) (s : State) : Host.Outcome State Fault Refusal :=
  .next (s.request 0x0D tag [unit])

/-- SET-REMAP (R136). -/
def execSetRemap (tag : Tag) (unit : Byte) (block : BitVec 24) (cylinder : BitVec 16) (head sector : Byte)
    (s : State) : Host.Outcome State Fault Refusal :=
  .next (s.request 0x0E tag (remapBody unit block cylinder head sector))

/-- CLEAR-REMAP (R137). -/
def execClearRemap (tag : Tag) (unit mark : Byte) (block : BitVec 24) (s : State) : Host.Outcome State Fault Refusal :=
  .next (s.request 0x0F tag ([unit, mark] ++ bits 3 block))

/-- MAP-BLOCK (R138). -/
def execMapBlock (tag : Tag) (unit : Byte) (block : BitVec 24) (s : State) : Host.Outcome State Fault Refusal :=
  .next (s.request 0x10 tag ([unit] ++ bits 3 block))

/-- RECOVER-TRACK (R44, R45). -/
def execRecoverTrack (tag : Tag) (unit : Byte) (cylinder : BitVec 16) (head cls : Byte) (budget : BitVec 16)
    (wanted : BitVec 32) (s : State) : Host.Outcome State Fault Refusal :=
  .next (s.request 0x11 tag (trackBody unit cylinder head cls budget wanted))

/-- RECOVER-BLOCKS (R139, R140). -/
def execRecoverBlocks (tag : Tag) (unit : Byte) (first : BitVec 24) (count : BitVec 16) (cls : Byte)
    (budget : BitVec 16) (s : State) : Host.Outcome State Fault Refusal :=
  .next (s.request 0x12 tag (blocksBody unit first count cls budget))

/-- ABORT (R56). -/
def execAbort (tag : Tag) (job unit : Byte) (s : State) : Host.Outcome State Fault Refusal :=
  .next (s.request 0x13 tag [job, unit])

/-- JOB-STATUS (R57). -/
def execJobStatus (tag : Tag) (job : Byte) (s : State) : Host.Outcome State Fault Refusal :=
  .next (s.request 0x14 tag [job])

/-- PEEK-SECTOR (R180). -/
def execPeekSector (tag : Tag) (job sector : Byte) (s : State) : Host.Outcome State Fault Refusal :=
  .next (s.request 0x15 tag [job, sector])

/-- HOLD (R151). -/
def execHold (tag : Tag) (time : BitVec 16) (s : State) : Host.Outcome State Fault Refusal :=
  .next (s.request 0x16 tag (bits 2 time))

/-- READ-FLAGS (R163). -/
def execReadFlags (tag : Tag) (s : State) : Host.Outcome State Fault Refusal := .next (s.request 0x17 tag [])

/-- CLEAR-FLAGS (R159, R160). -/
def execClearFlags (tag : Tag) (flags : BitVec 24) (s : State) : Host.Outcome State Fault Refusal :=
  .next (s.request 0x18 tag (bits 3 flags))

/-- SET-NOTICES (R162). -/
def execSetNotices (tag : Tag) (flags : BitVec 24) (s : State) : Host.Outcome State Fault Refusal :=
  .next (s.request 0x19 tag (bits 3 flags))

/-- RESET of one unit (R181). -/
def execResetUnit (tag : Tag) (scope : Byte) (s : State) : Host.Outcome State Fault Refusal :=
  .next (s.request 0x1A tag [scope])

/-- RESET ALL (R182). -/
def execResetAll (tag : Tag) (s : State) : Host.Outcome State Fault Refusal := .next (s.request 0x1A tag [0xFF])

/-- A request of an unknown kind (R172). -/
def execUnknownKind (tag : Tag) (kind : Byte) (body : List Byte) (s : State) : Host.Outcome State Fault Refusal :=
  .next (s.request kind tag body)

/-- The frame of a request command; the other commands are no frames. -/
def requestFrame : Instr → Option Frame
  | .powerOn _ => none
  | .identify tag => some { kind := 0x01, tag := tag, body := [] }
  | .defineDrive tag unit fields => some { kind := 0x02, tag := tag, body := driveBody fields unit }
  | .driveStatus tag unit => some { kind := 0x03, tag := tag, body := [unit] }
  | .unload tag unit => some { kind := 0x04, tag := tag, body := [unit] }
  | .reload tag unit => some { kind := 0x05, tag := tag, body := [unit] }
  | .setProfile tag unit fields => some { kind := 0x06, tag := tag, body := profileBody fields unit }
  | .swapProfile tag unit => some { kind := 0x07, tag := tag, body := [unit] }
  | .readProfile tag unit choice => some { kind := 0x08, tag := tag, body := [unit, choice] }
  | .setQuirk tag slot fields => some { kind := 0x09, tag := tag, body := quirkBody fields slot }
  | .clearQuirk tag slot => some { kind := 0x0A, tag := tag, body := [slot] }
  | .readQuirk tag slot => some { kind := 0x0B, tag := tag, body := [slot] }
  | .defineExtent tag unit entry ending cylinder heads interleave skew =>
    some { kind := 0x0C, tag := tag, body := extentBody unit entry ending cylinder heads interleave skew }
  | .clearExtents tag unit => some { kind := 0x0D, tag := tag, body := [unit] }
  | .setRemap tag unit block cylinder head sector =>
    some { kind := 0x0E, tag := tag, body := remapBody unit block cylinder head sector }
  | .clearRemap tag unit mark block => some { kind := 0x0F, tag := tag, body := [unit, mark] ++ bits 3 block }
  | .mapBlock tag unit block => some { kind := 0x10, tag := tag, body := [unit] ++ bits 3 block }
  | .recoverTrack tag unit cylinder head cls budget wanted =>
    some { kind := 0x11, tag := tag, body := trackBody unit cylinder head cls budget wanted }
  | .recoverBlocks tag unit first count cls budget =>
    some { kind := 0x12, tag := tag, body := blocksBody unit first count cls budget }
  | .abort tag job unit => some { kind := 0x13, tag := tag, body := [job, unit] }
  | .jobStatus tag job => some { kind := 0x14, tag := tag, body := [job] }
  | .peekSector tag job sector => some { kind := 0x15, tag := tag, body := [job, sector] }
  | .hold tag time => some { kind := 0x16, tag := tag, body := bits 2 time }
  | .readFlags tag => some { kind := 0x17, tag := tag, body := [] }
  | .clearFlags tag flags => some { kind := 0x18, tag := tag, body := bits 3 flags }
  | .setNotices tag flags => some { kind := 0x19, tag := tag, body := bits 3 flags }
  | .resetUnit tag scope => some { kind := 0x1A, tag := tag, body := [scope] }
  | .resetAll tag => some { kind := 0x1A, tag := tag, body := [0xFF] }
  | .unknownKind tag kind body => some { kind := kind, tag := tag, body := body }
  | .frameComplete _ => none
  | .frameLengthOutOfRange _ _ => none
  | .frameGapTimeout => none
  | .lineBreak => none
  | .requestToSendDropped _ => none
  | .requestToSendAsserted => none
  | .replySent => none
  | .noticeSent => none
  | .sectorSent => none
  | .straySent => none
  | .jobEndSent => none
  | .holdExpires => none
  | .indexPulse _ _ _ => none
  | .indexTimeout _ => none
  | .readyRise _ => none
  | .readyFall _ => none
  | .seekComplete _ => none
  | .restoreComplete _ => none
  | .seekErrorIndication _ => none
  | .seekTimeout _ => none
  | .restoreTimeout _ => none
  | .headsUnloaded _ => none
  | .headerFieldRead _ _ _ _ _ _ => none
  | .dataFieldRead _ _ _ _ => none
  | .dataWindowCloses => none
  | .searchEnd => none

end Sys2Proof.Machine
end

