-- ==== Sys2Proof/Machine/Dispatch.lean ====
section
/-! DEFINITION. One arm per command: its meaning. -/

namespace Sys2Proof.Machine

/-- The effect of a command on everything but the queue of commands. -/
def exec (i : Instr) (s : State) : Host.Outcome State Fault Refusal :=
  match i with
  | .powerOn straps => Sys2Proof.Machine.execPowerOn straps s
  | .identify tag => Sys2Proof.Machine.execIdentify tag s
  | .defineDrive tag unit fields => Sys2Proof.Machine.execDefineDrive tag unit fields s
  | .driveStatus tag unit => Sys2Proof.Machine.execDriveStatus tag unit s
  | .unload tag unit => Sys2Proof.Machine.execUnload tag unit s
  | .reload tag unit => Sys2Proof.Machine.execReload tag unit s
  | .setProfile tag unit fields => Sys2Proof.Machine.execSetProfile tag unit fields s
  | .swapProfile tag unit => Sys2Proof.Machine.execSwapProfile tag unit s
  | .readProfile tag unit choice => Sys2Proof.Machine.execReadProfile tag unit choice s
  | .setQuirk tag slot fields => Sys2Proof.Machine.execSetQuirk tag slot fields s
  | .clearQuirk tag slot => Sys2Proof.Machine.execClearQuirk tag slot s
  | .readQuirk tag slot => Sys2Proof.Machine.execReadQuirk tag slot s
  | .defineExtent tag unit entry ending cylinder heads interleave skew => Sys2Proof.Machine.execDefineExtent tag unit entry ending cylinder heads interleave skew s
  | .clearExtents tag unit => Sys2Proof.Machine.execClearExtents tag unit s
  | .setRemap tag unit block cylinder head sector => Sys2Proof.Machine.execSetRemap tag unit block cylinder head sector s
  | .clearRemap tag unit mark block => Sys2Proof.Machine.execClearRemap tag unit mark block s
  | .mapBlock tag unit block => Sys2Proof.Machine.execMapBlock tag unit block s
  | .recoverTrack tag unit cylinder head cls budget wanted => Sys2Proof.Machine.execRecoverTrack tag unit cylinder head cls budget wanted s
  | .recoverBlocks tag unit first count cls budget => Sys2Proof.Machine.execRecoverBlocks tag unit first count cls budget s
  | .abort tag job unit => Sys2Proof.Machine.execAbort tag job unit s
  | .jobStatus tag job => Sys2Proof.Machine.execJobStatus tag job s
  | .peekSector tag job sector => Sys2Proof.Machine.execPeekSector tag job sector s
  | .hold tag time => Sys2Proof.Machine.execHold tag time s
  | .readFlags tag => Sys2Proof.Machine.execReadFlags tag s
  | .clearFlags tag flags => Sys2Proof.Machine.execClearFlags tag flags s
  | .setNotices tag flags => Sys2Proof.Machine.execSetNotices tag flags s
  | .resetUnit tag scope => Sys2Proof.Machine.execResetUnit tag scope s
  | .resetAll tag => Sys2Proof.Machine.execResetAll tag s
  | .unknownKind tag kind body => Sys2Proof.Machine.execUnknownKind tag kind body s
  | .frameComplete bytes => Sys2Proof.Machine.execFrameComplete bytes s
  | .frameLengthOutOfRange high low => Sys2Proof.Machine.execFrameLengthOutOfRange high low s
  | .frameGapTimeout => Sys2Proof.Machine.execFrameGapTimeout s
  | .lineBreak => Sys2Proof.Machine.execLineBreak s
  | .requestToSendDropped lastByte => Sys2Proof.Machine.execRequestToSendDropped lastByte s
  | .requestToSendAsserted => Sys2Proof.Machine.execRequestToSendAsserted s
  | .replySent => Sys2Proof.Machine.execReplySent s
  | .noticeSent => Sys2Proof.Machine.execNoticeSent s
  | .sectorSent => Sys2Proof.Machine.execSectorSent s
  | .straySent => Sys2Proof.Machine.execStraySent s
  | .jobEndSent => Sys2Proof.Machine.execJobEndSent s
  | .holdExpires => Sys2Proof.Machine.execHoldExpires s
  | .indexPulse unit elapsed cut => Sys2Proof.Machine.execIndexPulse unit elapsed cut s
  | .indexTimeout unit => Sys2Proof.Machine.execIndexTimeout unit s
  | .readyRise unit => Sys2Proof.Machine.execReadyRise unit s
  | .readyFall unit => Sys2Proof.Machine.execReadyFall unit s
  | .seekComplete unit => Sys2Proof.Machine.execSeekComplete unit s
  | .restoreComplete unit => Sys2Proof.Machine.execRestoreComplete unit s
  | .seekErrorIndication unit => Sys2Proof.Machine.execSeekErrorIndication unit s
  | .seekTimeout unit => Sys2Proof.Machine.execSeekTimeout unit s
  | .restoreTimeout unit => Sys2Proof.Machine.execRestoreTimeout unit s
  | .headsUnloaded unit => Sys2Proof.Machine.execHeadsUnloaded unit s
  | .headerFieldRead sync last h1 h2 h3 low => Sys2Proof.Machine.execHeaderFieldRead sync last h1 h2 h3 low s
  | .dataFieldRead sync words timing low => Sys2Proof.Machine.execDataFieldRead sync words timing low s
  | .dataWindowCloses => Sys2Proof.Machine.execDataWindowCloses s
  | .searchEnd => Sys2Proof.Machine.execSearchEnd s

end Sys2Proof.Machine
end

