-- ==== Sys2Proof/Machine/Step.lean ====
section
/-! DEFINITION. One step: the command at the front of the queue, or one tick on an empty queue. -/

namespace Sys2Proof.Machine

/-- One tick of the time base passes and nothing else (log entry 2). -/
def State.tick (s : State) : State := { s with clock := s.clock + 1 }

/-- The machine takes the command at the front of its queue; on an empty queue a tick passes (log entry 2). -/
def step (s : State) : Host.Outcome State Fault Refusal :=
  match s.pending with
  | c :: rest => exec c { s with pending := rest }
  | [] => .next s.tick

/-- The command that a word spells, put at the front of the queue; no word spells one (Decode). -/
def State.withFetchWord (s : State) (nbits w : Nat) : State :=
  match decodeTableWord nbits w with
  | some c => { s with pending := c :: s.pending }
  | none => s

end Sys2Proof.Machine
end

