-- ==== Sys2Proof/Safety.lean ====
section
/-! DEFINITION. What a safe state is, in the terms the statements use: each item of State inside the range its
chapter gives it, and the rules about the whole block that hold between commands. -/

namespace Sys2Proof.Machine

/-! ### The terms of the statements -/

/-- The byte that names a unit (R177). -/
def unitByte (n : UnitId) : Byte := BitVec.ofNat 8 n.val

/-- The byte that names a job by its id (R43). -/
def idByte (j : JobIx) : Byte := BitVec.ofNat 8 (jobId j)

/-- A request whose frame completes now runs at once: no frame waits, the reply queue has room and no RESET ALL waits
(R171). -/
def State.takesAtOnce (s : State) : Prop := s.link.buffer = [] ∧ s.mayTakeFrame = true

/-- A state with the reply of a request at the tail of the reply queue (R172, R173). -/
def State.answered (s : State) (kind : Byte) (tag : Tag) (status : Status) (fields : List Byte) : State :=
  s.pushReply
    { frame := { kind := 0x80, tag := tag, body := kind :: BitVec.ofNat 8 status.code :: fields }, resetAll := false }

/-- The descriptor that the fields of a DEFINE-DRIVE spell (section 1.1). -/
def Descriptor.ofFields (f : DriveFields) : Descriptor :=
  { model := f.model.toNat, cylinders := f.cylinders.toNat, heads := f.heads.toNat, sectors := f.sectors.toNat,
    words := f.words.toNat, period := f.period.toNat, tolerance := f.tolerance.toNat,
    dataOffset := f.dataOffset.toNat, maxOffset := f.maxOffset.toNat, settle := f.settle.toNat }

/-- Every field of a DEFINE-DRIVE lies in its range (section 1.1, R1). -/
structure LegalDriveFields (f : DriveFields) : Prop where
  cylinders : 1 ≤ f.cylinders.toNat ∧ f.cylinders.toNat ≤ 1024
  heads : 1 ≤ f.heads.toNat ∧ f.heads.toNat ≤ 16
  sectors : 1 ≤ f.sectors.toNat ∧ f.sectors.toNat ≤ 32
  words : 32 ≤ f.words.toNat ∧ f.words.toNat ≤ 256 ∧ f.words.toNat % 2 = 0
  period : 100000 ≤ f.period.toNat ∧ f.period.toNat ≤ 1000000
  tolerance : 1000 ≤ f.tolerance.toNat ∧ f.tolerance.toNat ≤ 30000
  dataOffset : f.dataOffset.toNat ≤ f.period.toNat / f.sectors.toNat - 1
  maxOffset : f.maxOffset.toNat ≤ 4
  settle : f.settle.toNat ≤ 15

/-- A drive whose unload has begun, its held job apart (R17, R18, R19): the unload line driven, motion abandoned, the
monitor cleared, the index timer stopped, the dead-revolution count 0, and nothing left of settling or of a pass loop. -/
def Drive.unloadBegun (d : Drive) : Drive :=
  { d with
    state := .unloading, unloadLine := true, loadLine := false, target := none, motion := .still, monitor := .cleared,
    indexTimer := none, deadRevs := 0, settleCount := 0, deferral := 0, prepared := none, waiting := 0, passStrays := 0 }

/-- A drive that is NOT_READY or IDLE with its position lost (R2, R9, R23): the cylinder unknown, no target, the offset
lines at 0, no motion, the monitor cleared, and nothing left of settling, of seek errors or of a pass loop. -/
def Drive.afresh (d : Drive) (st : DriveState) (timer : Option Nat) : Drive :=
  { d with
    state := st, cylinder := none, target := none, offset := 0, motion := .still, monitor := .cleared,
    indexTimer := timer, seekErrors := 0, settleCount := 0, deferral := 0, prepared := none, waiting := 0,
    passStrays := 0, unloadLine := false, loadLine := d.loadLine && st == .notReady }

/-- A live job names the unit (R1). -/
def State.HasJob (s : State) (n : UnitId) : Prop := ∃ j x, s.job j = some x ∧ x.unit = n

/-- The unit has an extent or a remap entry, and the fields differ from its descriptor in geometry (R1). -/
def State.MapForbids (s : State) (n : UnitId) (f : DriveFields) : Prop :=
  (s.extentsOf n ≠ [] ∨ ∃ r ∈ s.remaps, r.unit = n) ∧
  ∃ d, (s.drive n).descriptor = some d ∧
    (d.cylinders ≠ f.cylinders.toNat ∨ d.heads ≠ f.heads.toNat ∨ d.sectors ≠ f.sectors.toNat)

/-- The profile that the fields of a SET-PROFILE spell, before any clamping (section 7.1). -/
def Profile.ofFields (f : ProfileFields) : Profile :=
  { passes := f.entries.map (fun e => { offset := e.1.toInt, strobe := e.2.toInt })
    passLimit := f.passLimit.toNat, backoff := f.backoff.toNat, recalibrate := f.recalibrate.toNat,
    quorum := f.quorum.toNat, weak := f.weak.toNat, repair := f.repair.toNat, blindAllowed := f.blindAllowed == 1,
    strayLimit := f.strayLimit.toNat, keepStrays := f.keepStrays == 1, dead := f.dead.toNat,
    deferral := f.deferral.toNat }

/-- That profile with each field at the nearer end of its range (R115). -/
def Profile.ofFieldsClamped (f : ProfileFields) : Profile :=
  { Profile.ofFields f with
    passes := f.entries.map (fun e => { offset := max (-4) (min 4 e.1.toInt), strobe := max (-2) (min 2 e.2.toInt) })
    passLimit := max 1 f.passLimit.toNat
    backoff := min 4 f.backoff.toNat
    recalibrate := min 15 f.recalibrate.toNat
    quorum := max 2 (min 15 f.quorum.toNat)
    weak := max 1 (min 63 f.weak.toNat)
    repair := min 3 f.repair.toNat
    strayLimit := max 1 (min 32 f.strayLimit.toNat)
    dead := max 1 (min 8 f.dead.toNat) }

/-- The fields of a SET-PROFILE that are not clamped are legal (R114). -/
structure LegalProfileFields (f : ProfileFields) : Prop where
  entries : 1 ≤ f.entries.length ∧ f.entries.length ≤ 16
  blindAllowed : f.blindAllowed = 0 ∨ f.blindAllowed = 1
  keepStrays : f.keepStrays = 0 ∨ f.keepStrays = 1

/-- A quirk's action with its code and parameter byte (section 7.4); the byte of NO_BLIND and NO_VOTE is not examined. -/
inductive ActionNamed : Byte → Byte → QuirkAction → Prop where
  | clampOffset (p : Byte) : p.toNat ≤ 4 → ActionNamed 1 p (.clampOffset p.toNat)
  | extraSettle (p : Byte) : 1 ≤ p.toNat → p.toNat ≤ 15 → ActionNamed 2 p (.extraSettle p.toNat)
  | headerMask (p : Byte) : 1 ≤ p.toNat → p.toNat ≤ 11 → ActionNamed 3 p (.headerMask p.toNat)
  | weightCap (p : Byte) : 1 ≤ p.toNat → p.toNat ≤ 4 → ActionNamed 4 p (.weightCap p.toNat)
  | noBlind (p : Byte) : ActionNamed 5 p .noBlind
  | noVote (p : Byte) : ActionNamed 6 p .noVote

/-- The fields of a SET-QUIRK name an entry: no check of R123 refuses them. -/
structure Quirk.NamedBy (q : Quirk) (f : QuirkFields) : Prop where
  model : q.model = f.model.toNat
  heads : (f.headsPresent = 0 ∧ q.heads = none) ∨ (f.headsPresent = 1 ∧ f.heads ≠ 0 ∧ q.heads = some f.heads)
  cylinders : (f.rangePresent = 0 ∧ q.cylinders = none) ∨
    (f.rangePresent = 1 ∧ f.high.toNat ≤ 1023 ∧ f.low.toNat ≤ f.high.toNat ∧
      q.cylinders = some (f.low.toNat, f.high.toNat))
  condition : (f.conditionPresent = 0 ∧ q.condition = none) ∨
    (f.conditionPresent = 1 ∧ ((f.condition = 1 ∧ q.condition = some .positive) ∨
      (f.condition = 2 ∧ q.condition = some .negative) ∨ (f.condition = 3 ∧ q.condition = some .nonzero)))
  action : ActionNamed f.action f.parameter q.action

/-- A live job of the unit was created from blocks: one of its records holds a block number (R131). -/
def State.HasBlockJob (s : State) (n : UnitId) : Prop :=
  ∃ j x, s.job j = some x ∧ x.unit = n ∧ ∃ r ∈ x.records, r.block.isSome = true

/-- The ending block stands above the entry before and below the entry after (R131 step 4). -/
structure State.ExtentOrdered (s : State) (n : UnitId) (k ending : Nat) : Prop where
  above : ∀ i p, k = i + 1 → (s.extentsOf n)[i]? = some p → p.ending < ending
  below : ∀ q, (s.extentsOf n)[k + 1]? = some q → ending < q.ending

/-- The fields of an extent lie in their ranges, and every block of it and of the entry after it maps inside the geometry
(R131 steps 5 and 6). -/
structure State.ExtentFits (s : State) (n : UnitId) (k : Nat) (e : Extent) (d : Descriptor) : Prop where
  heads : 1 ≤ e.heads ∧ e.heads ≤ d.heads
  interleave : 1 ≤ e.interleave ∧ e.interleave ≤ d.sectors ∧ Nat.gcd e.interleave d.sectors = 1
  skew : e.skew < d.sectors
  cylinder : e.cylinder < d.cylinders
  blocks : ∀ b, firstBlock (s.extentsOf n) k ≤ b → b ≤ e.ending →
    e.cylinder + (b - firstBlock (s.extentsOf n) k) / d.sectors / e.heads < d.cylinders
  after : ∀ q b, (s.extentsOf n)[k + 1]? = some q → e.ending + 1 ≤ b → b ≤ q.ending →
    q.cylinder + (b - (e.ending + 1)) / d.sectors / q.heads < d.cylinders

/-- A block is inside a unit's extents: not above the ending block of the last one (R130). -/
def State.Inside (s : State) (n : UnitId) (b : Nat) : Prop := ∃ e, (s.extentsOf n).getLast? = some e ∧ b ≤ e.ending

/-- The lowest extent of a unit whose ending block is at least a block (R134). -/
def State.HoldsBlock (s : State) (n : UnitId) (k : Nat) (e : Extent) (b : Nat) : Prop :=
  (s.extentsOf n)[k]? = some e ∧ b ≤ e.ending ∧ ∀ i p, i < k → (s.extentsOf n)[i]? = some p → p.ending < b

/-- The record of a sector as a job is admitted (R45, R140). -/
def recordAdmitted (wanted : Bool) (block : Option Nat) : Record :=
  { wanted := wanted, state := if wanted then .wanted else .notWanted, reads := 0, image := none, slab := none,
    block := block, weakCount := 0, weakList := [], delivery := .none, lastSync := none }

/-- A job as it is admitted (R43, R45). -/
def jobAdmitted (n : UnitId) (cylinder head : Nat) (cls : JobClass) (tag : Tag) (budget : Nat) (records : List Record)
    (arrival : BitVec 32) : Job :=
  { unit := n, cylinder := cylinder, head := head, cls := cls, tag := tag, records := records,
    budget := if budget = 0 then 2000 else budget, state := .queued, arrival := arrival, passCount := 0,
    fruitless := 0, mark := false, endCause := none, finalized := false,
    counters := { passes := 0, revolutions := 0, headerCaptures := 0, blindUsed := 0, strays := 0,
                  recalibrations := 0, ambiguous := 0 } }

/-- A live job of the unit names the track (R44). -/
def State.TrackTaken (s : State) (n : UnitId) (cylinder head : Nat) : Prop :=
  ∃ j x, s.job j = some x ∧ x.unit = n ∧ x.cylinder = cylinder ∧ x.head = head

/-- The lowest-numbered free entry of the job table (R43). -/
def State.LowestFree (s : State) (j : JobIx) : Prop := s.job j = none ∧ ∀ i, i < j → s.job i ≠ none

/-- A job of the table ended for a cause: it is DRAINING with that cause (R51). -/
def State.Ended (s : State) (j : JobIx) (cause : EndCause) : Prop :=
  ∃ y, s.job j = some y ∧ y.state = .draining ∧ y.endCause = some cause

/-- A job of the unit that has not ended: QUEUED, POSITIONING or READING. -/
def State.Unended (s : State) (n : UnitId) (j : JobIx) : Prop :=
  ∃ x, s.job j = some x ∧ x.unit = n ∧ x.state ≠ .draining

/-- A job of the unit is QUEUED. -/
def State.HasQueued (s : State) (n : UnitId) : Prop := ∃ j x, s.job j = some x ∧ x.unit = n ∧ x.state = .queued

/-- SPINDLE_LOST of a unit whose index-lost mark is set (R160). -/
def State.HeldFlag (s : State) (k : Nat) : Prop := ∃ n : UnitId, k = 4 * n.val ∧ (s.drive n).indexLost = true

/-- A drive with no motion in flight, nothing left of settling or of a pass loop, and the load and unload lines at rest. -/
def Drive.quieted (d : Drive) : Drive :=
  { d with
    motion := .still, settleCount := 0, deferral := 0, prepared := none, waiting := 0, passStrays := 0,
    unloadLine := false, loadLine := false }

/-- A drive that enters IDLE with no job (R10). -/
def Drive.idled (d : Drive) : Drive :=
  { d.quieted with state := .idle, heldJob := none, target := none, seekErrors := 0 }

/-- A message of a source is in transmission, and its last byte may be sent: request-to-send is asserted, or dropped in the
middle of that byte (R175). -/
def State.Ends (s : State) (source : TxSource) : Prop :=
  (∃ m, s.link.tx = some m ∧ m.source = source) ∧ (s.link.rts = true ∨ s.link.lastByte = true)

/-- A job has a record AWAITING, or is finalized with its JOB-END not in the queue (R144, R145). -/
def State.Waits (s : State) (j : JobIx) : Prop :=
  ∃ x, s.job j = some x ∧
    ((∃ r ∈ x.records, r.delivery = .awaiting) ∨ (x.finalized = true ∧ .jobEnd j ∉ s.queue))

/-- One job is older than another by their arrival numbers, which go round at 2 to the 32 (R43). -/
def Job.OlderThan (x y : Job) : Prop := 0 < (y.arrival - x.arrival).toNat ∧ (y.arrival - x.arrival).toNat < 2147483648

/-- A job of the unit is QUEUED in a class (R47). -/
def State.QueuedIn (s : State) (n : UnitId) (c : JobClass) (j : JobIx) (x : Job) : Prop :=
  s.job j = some x ∧ x.unit = n ∧ x.state = .queued ∧ x.cls = c

/-- A cylinder lies ahead of another, or on it, in a direction (R47). -/
def Direction.Ahead (dir : Direction) (at_ cylinder : Nat) : Prop :=
  (dir = .up ∧ at_ ≤ cylinder) ∨ (dir = .down ∧ cylinder ≤ at_)

/-- A field of words passes its check: the end-around sum of its words is 7777 octal, which is to say that their plain sum
is above 0 and a multiple of 4095 (R31, R97). -/
def WordsPass (words : List Word12) : Prop :=
  0 < (words.map BitVec.toNat).sum ∧ (words.map BitVec.toNat).sum % 4095 = 0

/-- The vote of a bit of weight q on an accumulator, limited to -63 and 63 (R94). -/
def voteOn (acc : Int) (bit : Bool) (q : Nat) : Int := max (-63) (min 63 (if bit then acc + q else acc - q))

/-- A wanted record that is not recovered (R88). -/
def Record.Outstanding (r : Record) : Prop := r.wanted = true ∧ (r.state = .wanted ∨ r.state = .voting)

/-! ### The terms of the passes -/

/-- The least number with a property, or none where no number has it (R126). -/
def LeastWith (P : Nat → Prop) : Option Nat → Prop
  | none => ∀ x, ¬ P x
  | some x => P x ∧ ∀ y, P y → x ≤ y

/-- The greatest number with a property, or none where no number has it (R126). -/
def GreatestWith (P : Nat → Prop) : Option Nat → Prop
  | none => ∀ x, ¬ P x
  | some x => P x ∧ ∀ y, P y → y ≤ x

/-- A slot's entry matches a unit and a track under an offset (R125). -/
structure State.SlotMatches (s : State) (n : UnitId) (cylinder head : Nat) (offset : Int) (k : Fin 16) (q : Quirk) :
    Prop where
  entry : s.quirks[k] = some q
  model : ∃ d, (s.drive n).descriptor = some d ∧ q.model = d.model
  heads : ∀ set, q.heads = some set → set.getLsbD head = true
  cylinders : ∀ low high, q.cylinders = some (low, high) → low ≤ cylinder ∧ cylinder ≤ high
  positive : q.condition = some .positive → 0 < offset
  negative : q.condition = some .negative → offset < 0
  nonzero : q.condition = some .nonzero → offset ≠ 0

/-- A matching slot carries an action (R126). -/
def State.Calls (s : State) (n : UnitId) (cylinder head : Nat) (offset : Int) (a : QuirkAction) : Prop :=
  ∃ k q, s.SlotMatches n cylinder head offset k q ∧ q.action = a

/-- The slots that match a unit and a track under an offset, and their actions combined toward the cautious side (R125,
R126). -/
structure State.Combines (s : State) (n : UnitId) (cylinder head : Nat) (offset : Int) (slots : BitVec 16) (a : Actions) :
    Prop where
  slots : ∀ k : Fin 16, slots.getLsbD k.val = true ↔ ∃ q, s.SlotMatches n cylinder head offset k q
  clampOffset : LeastWith (fun c => s.Calls n cylinder head offset (.clampOffset c)) a.clampOffset
  extraSettle : GreatestWith (fun e => s.Calls n cylinder head offset (.extraSettle e)) a.extraSettle
  headerMask : LeastWith (fun m => s.Calls n cylinder head offset (.headerMask m)) a.headerMask
  weightCap : LeastWith (fun w => s.Calls n cylinder head offset (.weightCap w)) a.weightCap
  noBlind : a.noBlind = true ↔ s.Calls n cylinder head offset .noBlind
  noVote : a.noVote = true ↔ s.Calls n cylinder head offset .noVote

/-- The pass that a pass start prepares for a unit's job: the entry of its pass count, the slots that match under the offset
requested, and that offset limited by the unit's steps and by CLAMP_OFFSET (R61, R62). -/
structure State.PassPrepared (s : State) (n : UnitId) (x : Job) (p : Prepared) : Prop where
  position : p.position = x.passCount % (s.unitProfiles n).active.passes.length
  entry : (s.unitProfiles n).active.passes[p.position]? = some { offset := p.requested, strobe := p.strobe }
  actions : s.Combines n x.cylinder x.head p.requested p.slots p.actions
  steps : ∀ d, (s.drive n).descriptor = some d → p.actions.clampOffset = none →
    p.offset = max (-(d.maxOffset : Int)) (min d.maxOffset p.requested)
  clamped : ∀ d c, (s.drive n).descriptor = some d → p.actions.clampOffset = some c →
    p.offset = max (-(c : Int)) (min c (max (-(d.maxOffset : Int)) (min d.maxOffset p.requested)))

/-- A drive that enters TRACKING, its pass loop afresh (R14, R59). -/
def Drive.tracked (d : Drive) : Drive :=
  { d.quieted with state := .tracking, deferral := d.deferral, seekErrors := 0 }

/-- A drive after a pass start: the prepared pass recorded, its offset applied and its slots shown, with 1 revolution and the
EXTRA_SETTLE more to wait where the offset changes, the count holding at 255 (R61 to R63). -/
def Drive.started (d : Drive) (p : Prepared) : Drive :=
  { d with
    prepared := some p, matchedSlots := p.slots, offset := p.offset
    waiting := if p.offset = d.offset then d.waiting else min 255 (d.waiting + 1 + p.actions.extraSettle.getD 0) }

/-- A drive positioned for a job's track: the EXTRA_SETTLE of the slots that match at offset 0, and those slots (R128). -/
def Drive.evaluated (d : Drive) (slots : BitVec 16) (a : Actions) : Drive :=
  { d with positioningSettle := a.extraSettle.getD 0, matchedSlots := slots }

/-- A drive whose restore is issued at a time, with 2,000 ms, 20,000,000 ticks (R12). -/
def Drive.restoring (d : Drive) (now : Nat) : Drive :=
  { d.quieted with state := .recalibrating, offset := 0, motion := .restore (now + 20000000) }

/-- A drive whose seek is issued at a time, with 500 ms, 5,000,000 ticks (R11). -/
def Drive.seeking (d : Drive) (now : Nat) : Drive :=
  { d.quieted with state := .seeking, offset := 0, motion := .seek (now + 5000000) }

/-- A drive that settles for a count of revolutions (R10, R11, R12, R16). -/
def Drive.settling (d : Drive) (count : Nat) : Drive := { d.quieted with state := .settling, settleCount := count }

/-- A drive at an index at a time: the index-lost mark cleared, the timer restarted and the monitor moved on (R4, R8). -/
def Drive.indexed (d : Drive) (x : Descriptor) (now : Nat) : Drive :=
  { d with indexLost := false, indexTimer := some (now + 3 * x.period), monitor := d.monitor.index x now }

/-- A job that has used a revolution of its budget (R49). -/
def Job.spent (y : Job) : Job :=
  { y with
    budget := y.budget - 1
    counters := { y.counters with revolutions := min 65535 (y.counters.revolutions + 1) } }

/-- A job whose pass has ended, with the fruitless count after it (R66). -/
def Job.passed (y : Job) (f : Nat) : Job :=
  { y with
    passCount := y.passCount + 1, fruitless := f, mark := false
    counters := { y.counters with passes := min 65535 (y.counters.passes + 1) } }

/-- A job whose recalibration is counted (R68). -/
def Job.recalibratedOnce (y : Job) : Job :=
  { y with counters := { y.counters with recalibrations := min 65535 (y.counters.recalibrations + 1) } }

/-- Profiles exchanged, and the swap no longer pending (R120). -/
def UnitProfiles.exchanged (p : UnitProfiles) : UnitProfiles :=
  { active := p.staged, staged := p.active, swapPending := false }

/-- An index at a time, at which the speed status becomes the one given, closes the captured revolution of a unit that was
in tolerance, with the held job READING and budget left after it (R16, R38 to R40, R49). -/
structure State.Closes (s : State) (n : UnitId) (d : Drive) (x : Descriptor) (j : JobIx) (y : Job) (rev : Revolution)
    (now : Nat) (speed : SpeedStatus) : Prop where
  drive : d = s.drive n
  descriptor : d.descriptor = some x
  held : d.heldJob = some j
  job : s.job j = some y
  unit : y.unit = n
  reading : y.state = .reading
  budget : 2 ≤ y.budget
  tracking : d.state = .tracking
  before : d.monitor.speed = .inTolerance
  after : (d.monitor.index x now).speed = speed
  capturing : s.channel.state = .capturing n
  revolution : s.channel.rev = some rev

/-- A state after an index of a unit, its work apart: the time, one more index order taken (log entry 1), and a pending swap
of the unit's profiles made (R119, R120). -/
def State.swapped (s : State) (n : UnitId) (now : Nat) : State :=
  ({ s with clock := now, choices := s.choices + 1 } : State).setProfiles n
    (if (s.unitProfiles n).swapPending then (s.unitProfiles n).exchanged else s.unitProfiles n)

/-- A drive whose job has ended, in a state that goes on without it (R15, R59). -/
def Drive.jobless (d : Drive) : Drive := { d with heldJob := none, prepared := none, waiting := 0, passStrays := 0 }

/-- The current trim is within 2 steps of the target, and the monitor is locked (R7). -/
def Monitor.Settled (m : Monitor) : Prop := m.locked = true ∧ (m.currentTrim - m.trimTarget).natAbs ≤ 2

/-- The channel is reserved or captures for a unit (R24). -/
def State.ServedTo (s : State) (m : UnitId) : Prop := s.channel.state = .reserved m ∨ s.channel.state = .capturing m

/-! ### The terms of the captures -/

/-- A transition's margin is at least q quarters of half its acceptance window: it fell no farther than the rest of that
half from the sampling point, which each step of the strobe shift moves by a sixteenth of the bit cell, the cell being
scaled by 100 ppm a step of the trim (R30, R34; log entry 6). Both sides are multiplied by 160,000. -/
def MarginAtLeast (t : Transition) (trim strobe : Int) (q : Nat) : Prop :=
  ((160000 * t.place - strobe * t.cell * (10000 + trim)).natAbs : Int) ≤ (160000 - 40000 * (q : Int)) * t.half

/-- The class of a word with those transitions: 3/4, 1/2 and 1/4 of half the window begin classes 3, 2 and 1, and the worst
transition decides (R34). -/
def Graded (ts : List Transition) (trim strobe : Int) (g : Fin 4) : Prop :=
  ∀ q, 1 ≤ q → q ≤ 3 → (q ≤ g.val ↔ ∀ t ∈ ts, MarginAtLeast t trim strobe q)

/-- The classes of a field of words, each graded by its own transitions where they are given (R34; log entry 20). -/
def FieldGraded (timing : List (List Transition)) (trim strobe : Int) (count : Nat) (gs : List (Fin 4)) : Prop :=
  gs.length = count ∧
    ∀ (i : Nat) ts g, timing[i]? = some ts → ts ≠ [] → gs[i]? = some g → Graded ts trim strobe g

/-- A data sync falls in the open window of a GOOD header of a captured revolution, whose job has not ended (R33, R35,
R76). -/
structure State.Hears (s : State) (n : UnitId) (rev : Revolution) (h : OpenHeader) (d : Descriptor) (x : Job) (sync : Nat)
    (words : List Word12) : Prop where
  capturing : s.channel.state = .capturing n
  revolution : s.channel.rev = some rev
  window : s.channel.openHeader = some h
  unit : h.capture.unit = n
  good : h.capture.status = .good
  inside : sync ≤ h.last + rev.window
  descriptor : (s.drive n).descriptor = some d
  length : words.length = d.words + 1
  job : s.job h.capture.job = some x
  live : x.state ≠ .draining

/-- A capture is header-identified, no repeat, and names a sector of its job whose record is given (R32, R76). -/
structure Capture.Names (c : Capture) (x : Job) (sec : Nat) (r : Record) : Prop where
  header : c.ident = some .header
  first : c.repeated = false
  sector : c.sector = some sec
  record : x.records[sec]? = some r

/-- A capture is a stray: its GOOD header names no sector of the job's track, or is a repeat (R77). -/
def Capture.IsStray (c : Capture) : Prop := c.ident = none ∨ (c.ident = some .header ∧ c.repeated = true)

/-- A job that a header-identified capture has reached (R76). -/
def Job.heard (x : Job) : Job :=
  { x with counters := { x.counters with headerCaptures := min 65535 (x.counters.headerCaptures + 1) } }

/-- A job for which a stray is counted (R77). -/
def Job.strayed (x : Job) : Job :=
  { x with counters := { x.counters with strays := min 65535 (x.counters.strays + 1) } }

/-- What a capture that completes without data makes of its job and of its unit's pass stray count: nothing where its header
is not GOOD, a header capture counted where it names a record, and a stray counted where it is one (R35, R64, R76, R77). -/
inductive CompletesAbsent (c : Capture) (y : Job) (strays : Nat) : Job → Nat → Prop where
  | unread : c.status ≠ .good → CompletesAbsent c y strays y strays
  | named (sec : Nat) (r : Record) : c.status = .good → c.Names y sec r → CompletesAbsent c y strays y.heard strays
  | stray : c.status = .good → c.IsStray →
    CompletesAbsent c y strays (if c.ident = some .header then y.heard else y).strayed (min 255 (strays + 1))

/-- Whether the fields still outstanding at a closing index make the revolution live: the header whose window is open, by
whether it carried the low indication, and the field cut off, by the amplitude it showed. A data field cut off in an open
window is of that header's capture, which is low only if both are (R34, R37, R39). -/
def cutLive : CutField → Option Bool → Bool
  | .nothing, none => false
  | .nothing, some low => !low
  | .header low, none => !low
  | .header low, some before => !before || !low
  | .data low, none => !low
  | .data low, some before => !(before && low)

/-- Stage 1 of closing, with a field under way or none: the held job, the unit's pass stray count, and whether the
revolution is live, after it (R37, R38). A capture whose window is open is complete without data; a header cut off is
discarded, and so is a data field. -/
inductive StageOne (s : State) (n : UnitId) (cut : CutField) (j : JobIx) (y : Job) (strays : Nat) : Job → Nat → Bool → Prop where
  | bare : s.channel.openHeader = none →
    StageOne s n cut j y strays y strays (s.channel.liveSeen || cutLive cut none)
  | window (h : OpenHeader) (z : Job) (k : Nat) : s.channel.openHeader = some h → h.capture.unit = n → h.capture.job = j →
    h.capture.data = none → CompletesAbsent h.capture y strays z k →
    StageOne s n cut j y strays z k (s.channel.liveSeen || cutLive cut (some h.capture.low))

/-- The channel when a field's capture is complete: no window open, and the revolution live unless the capture carried the
low indication (R33, R34, R39). -/
def Channel.afterField (c : Channel) (low : Bool) : Channel :=
  { c with openHeader := none, liveSeen := c.liveSeen || !low }

/-- What a slab takes from the revolution in which a capture was read: the words, their classes, the WEIGHT_CAP and the
profile's thresholds (R94, R106). -/
def heldPending (words : List Word12) (gs : List (Fin 4)) (ident : Identification) (rev : Revolution) : Pending :=
  { words := words, margins := gs, ident := ident, weightCap := rev.weightCap,
    thresholds := { quorum := rev.profile.quorum, weak := rev.profile.weak, repair := rev.profile.repair } }

/-- The weight of a word of class g: the class plus 1 for a HEADER capture, 1 for a BLIND one, under the WEIGHT_CAP (R93). -/
def weightOf (ident : Identification) (cap : Option Nat) (g : Fin 4) : Nat :=
  min (if ident = .header then g.val + 1 else 1) (cap.getD 4)

/-- A slab's weak bits in weak order: by magnitude, then by place (R96). -/
def Slab.WeakOrder (k : Slab) (bits : List Nat) : Prop :=
  (∀ i : Nat, i ∈ bits ↔ ∃ a, k.acc[i]? = some a ∧ a.natAbs < k.thresholds.weak) ∧
  bits.Pairwise (fun i m => ∀ a b, k.acc[i]? = some a → k.acc[m]? = some b → a.natAbs < b.natAbs ∨ (a.natAbs = b.natAbs ∧ i < m))

/-- The weak bits that a search's candidates invert, candidate by candidate (R102). -/
def searchOrder : List Nat → List (List Nat)
  | [a] => [[a]]
  | [a, b] => [[a], [b], [a, b]]
  | [a, b, c] => [[a], [b], [c], [a, b], [a, c], [b, c]]
  | _ => []

/-- An image with the bits at some places inverted, bit b of word i at place 12 i + b (R102). -/
def Inverted (image : List Word12) (places : List Nat) (other : List Word12) : Prop :=
  other.length = image.length ∧ ∀ (i b : Nat) w v, image[i]? = some w → other[i]? = some v → b < 12 →
    v.getLsbD b = (w.getLsbD b ^^ decide (12 * i + b ∈ places))

/-- The search that a slab's weak bits call for (R102). -/
structure Search.Of (f : Search) (i : SlabId) (k : Slab) : Prop where
  slab : f.slab = i
  bits : k.WeakOrder f.bits
  count : f.candidates.length = (searchOrder f.bits).length
  candidates : ∀ (m : Nat) places c, (searchOrder f.bits)[m]? = some places → f.candidates[m]? = some c →
    Inverted k.votedImage places c

/-- A record as finalization leaves it, beside the record before and the slab it held (R54, R111). -/
structure Record.Finalized (r q : Record) (slab : Option Slab) : Prop where
  settled : r.state ∉ [.wanted, .voting] → q = r
  missing : r.state = .wanted → r.image = none → q = { r with state := .missing }
  raw : ∀ im, r.state = .wanted → r.image = some im →
    q.state = .bestEffort ∧ q.image = some { kind := .final, words := im.words } ∧ q.weakCount = r.weakCount ∧
      q.weakList = r.weakList
  voted : ∀ k, r.state = .voting → slab = some k →
    q.state = .bestEffort ∧ q.image = some { kind := .final, words := k.votedImage } ∧ q.slab = none ∧
      q.weakCount = k.weakCount ∧
      ∃ bits, k.WeakOrder bits ∧ q.weakList = (bits.take 32).map (fun p => (p / 12, p % 12))

/-- The delivery status of a record that is offered (R143). -/
def State.offerStatus (s : State) : DeliveryStatus := if s.queue.length < 24 then .queued else .awaiting

/-- The delivery queue after a record is offered (R143). -/
def State.offerQueue (s : State) (j : JobIx) (sec : Nat) : List Entry :=
  if s.queue.length < 24 then s.queue ++ [.sector j sec] else s.queue

/-- A record that enters a recovered state with its final image, offered for delivery (R75, R88, R143). -/
def State.recovers (s : State) (r : Record) (st : RecordState) (words : List Word12) : Record :=
  { r with state := st, image := some { kind := .final, words := words }, slab := none, delivery := s.offerStatus }

/-- A job with an image recovered for one of its records (R88). -/
def Job.gains (x : Job) (sec : Nat) (r : Record) : Job := { x with mark := true, records := x.records.set sec r }

/-- A wanted record of the job besides the one given is not recovered (R88). -/
def Job.WantsMore (x : Job) (sec : Nat) : Prop := ∃ (k : Nat) (q : Record), k ≠ sec ∧ x.records[k]? = some q ∧ q.Outstanding

/-- Exactly one candidate passes: the search's outcome is UNIQUE (R103). -/
def OnlyPasses (candidates : List (List Word12)) (c : List Word12) : Prop :=
  ∃ a : Nat, candidates[a]? = some c ∧ WordsPass c ∧ ∀ b e, b ≠ a → candidates[b]? = some e → ¬ WordsPass e

/-- A search's outcome is NONE or AMBIGUOUS, with what it makes of the slab and of the job (R103, R105). -/
inductive Inconclusive (candidates : List (List Word12)) (x : Slab) (y : Job) : Slab → Job → Prop where
  | none : (∀ c ∈ candidates, ¬ WordsPass c) → Inconclusive candidates x y { x with status := .idle } y
  | ambiguous (a b : Nat) (c e : List Word12) : a < b → candidates[a]? = some c → WordsPass c →
    candidates[b]? = some e → WordsPass e →
    Inconclusive candidates x y { x with status := .idle, ambiguity := min 255 (x.ambiguity + 1) }
      { y with counters := { y.counters with ambiguous := min 65535 (y.counters.ambiguous + 1) } }

/-- A job that a search's outcome reaches while it is READING (R104, R105). -/
def Job.InHand (y : Job) : Prop := y.state = .reading ∧ y.endCause = none

/-- A job that ended for a cause that leaves its slabs in the repair unit, and is not finalized (R52, R109). -/
def Job.Lingers (y : Job) : Prop :=
  y.state = .draining ∧ (y.endCause = some .passesExhausted ∨ y.endCause = some .budgetExhausted) ∧ y.finalized = false

/-- The repair unit lets go of its search, and is IDLE or begins on the next slab of the FIFO (R101 to R103). -/
inductive State.NextSearch (s : State) : State → Prop where
  | idle : s.fifo = [] → NextSearch s { s with search := none }
  | next (m : SlabId) (z : Slab) (rest : List SlabId) (f : Search) : s.fifo = m :: rest → s.slab m = some z → f.Of m z →
    NextSearch s { s.setSlab m (some { z with status := .searching }) with search := some f, fifo := rest }

/-- The slab at the head of the FIFO, where there is one, can be searched: it is another than the one given, with at most
three weak bits (R99). -/
def State.Searchable (s : State) (i : SlabId) : Prop :=
  ∀ m, s.fifo.head? = some m → m ≠ i ∧ ∃ z, s.slab m = some z ∧ (z.acc.filter (fun a => a.natAbs < z.thresholds.weak)).length ≤ 3

/-- A slab of the job other than the one given stands in the repair unit, QUEUED or SEARCHING (R54). -/
def State.Works (s : State) (i : SlabId) (j : JobIx) : Prop := ∃ k z, k ≠ i ∧ s.slab k = some z ∧ z.job = j ∧ z.status ≠ .idle

/-- A fold leaves the record VOTING and the slab IDLE: folds are below the quorum, or the voted image fails and its weak bits
are none or too many (R98, R99). -/
def Slab.Undecided (k : Slab) : Prop :=
  k.folds < k.thresholds.quorum ∨ (¬ WordsPass k.votedImage ∧ (k.weakCount = 0 ∨ k.thresholds.repair < k.weakCount))

/-- A DRAINING job is finalized at the end of a search of its slab i, which is freed: its cause is kept, and its counters and
the record of the search are as given (R54, R109 to R111). -/
def State.FinalizesTo (s t : State) (i : SlabId) (j : JobIx) (cause : Option EndCause) (counters : Counters) (sec : Nat)
    (q : Record) : Prop :=
  (s.fifo = [] → t.search = none) ∧ t.slab i = none ∧
    ∃ z, t.job j = some z ∧ z.state = .draining ∧ z.endCause = cause ∧ z.finalized = true ∧ z.counters = counters ∧
      z.records[sec]? = some q

/-- A record is the last that its job waits for: the others are settled and none of them waits for room, the job holds no
slab but the record's, its unit holds it and has no QUEUED job, and its JOB-END is not in the queue. -/
structure State.Last (s : State) (n : UnitId) (j : JobIx) (x : Job) (sec : Nat) (own : Option SlabId) : Prop where
  unit : x.unit = n
  held : (s.drive n).heldJob = some j
  others : ∀ (k : Nat) q, k ≠ sec → x.records[k]? = some q →
    q.state ∈ [.notWanted, .good, .voted, .repaired] ∧ q.delivery ≠ .awaiting
  slabs : ∀ i k, s.slab i = some k → k.job = j → own = some i
  next : ¬ s.HasQueued n
  due : .jobEnd j ∉ s.queue

/-- The recovery of a record completes its job: COMPLETE and finalized at once, the record's SECTOR in the delivery queue and
the JOB-END behind it where both have room, the channel given up, and the unit, which settled or tracked, IDLE; in another
state it goes on without a job (R15, R41, R51, R52, R54, R88, R143, R145). -/
structure State.Completed (s t : State) (n : UnitId) (j : JobIx) (x : Job) (sec : Nat) (r : Record) : Prop where
  job : t.job j = some { x.gains sec r with state := .draining, endCause := some .complete, finalized := true }
  queue : t.queue = if s.queue.length < 23 then s.queue ++ [.sector j sec, .jobEnd j] else s.offerQueue j sec
  drive : t.drive n =
    if (s.drive n).state ∈ [.settling, .tracking] then (s.drive n).idled else (s.drive n).jobless
  channel : t.channel.state.holds n = false

/-! ### The terms of the events -/

/-- The command that reports the completion of a delivery entry's message. -/
def Entry.Sent : Entry → Instr → Prop
  | .sector _ _, c => c = .sectorSent
  | .stray _, c => c = .straySent
  | .jobEnd _, c => c = .jobEndSent

/-- A seek or restore in flight, and the time at which a command reports its seek error: the indication at once, a time
limit when it is reached (R11 to R13). -/
inductive SeekErrorAt (n : UnitId) (s : State) : Instr → Nat → Prop where
  | indication : (s.drive n).motion ≠ .still → SeekErrorAt n s (.seekErrorIndication n) s.clock
  | seekLimit (limit : Nat) : (s.drive n).motion = .seek limit → SeekErrorAt n s (.seekTimeout n) (max s.clock limit)
  | restoreLimit (limit : Nat) :
    (s.drive n).motion = .restore limit → SeekErrorAt n s (.restoreTimeout n) (max s.clock limit)

/-- The states in which a unit's periods are measured and its index timeout begins an unload (R4, R17). -/
def DriveState.Ready (st : DriveState) : Prop :=
  st ∈ [.idle, .seeking, .recalibrating, .settling, .tracking, .speedFault]

/-- A unit's held job is its one job that is POSITIONING or READING (R48, R51). -/
def State.JobsHeld (s : State) : Prop :=
  ∀ n j, (s.drive n).heldJob = some j ↔
    ∃ x, s.job j = some x ∧ x.unit = n ∧ (x.state = .positioning ∨ x.state = .reading)

/-- Every block stands at its power-on values; the levels of the input lines, the line rate, the clock and the commands
that wait are not among them. -/
structure State.PoweredOn (s : State) : Prop where
  drives : ∀ n, s.drive n =
    { descriptor := none, state := .undefined, cylinder := none, target := none, offset := 0, heldJob := none,
      settleCount := 0, seekErrors := 0, deadRevs := 0, deferral := 0, motion := .still,
      monitor := { prevIndex := none, lastPeriod := none, deviation := 0, trimTarget := 0, currentTrim := 0,
                   locked := false, speed := .inTolerance, run := 0 },
      indexTimer := none, indexLost := false, ready := (s.drive n).ready, unloadLine := false, loadLine := false,
      positioningSettle := 0, matchedSlots := 0, prepared := none, waiting := 0, passStrays := 0 }
  profiles : ∀ n, ∃ p : Profile, s.unitProfiles n = { active := p, staged := p, swapPending := false } ∧
    p = { passes := [{ offset := 0, strobe := 0 }, { offset := 0, strobe := -1 }, { offset := 0, strobe := 1 },
                     { offset := 1, strobe := 0 }, { offset := -1, strobe := 0 }],
          passLimit := 40, backoff := 2, recalibrate := 8, quorum := 3, weak := 6, repair := 2, blindAllowed := true,
          strayLimit := 4, keepStrays := false, dead := 3, deferral := 16 }
  directions : ∀ n : UnitId, s.directions[n] = .up
  extents : ∀ n, s.extentsOf n = []
  channel : s.channel.state = .idle ∧ s.channel.lastGranted = 3 ∧ s.channel.strobe = 0 ∧ s.channel.slotSet = []
  revolution : s.channel.deferred = [] ∧ s.channel.rev = none ∧ s.channel.openHeader = none ∧ s.channel.liveSeen = false
  jobs : ∀ j, s.job j = none
  arrival : s.arrival = 0
  slabs : ∀ i, s.slab i = none
  repair : s.fifo = [] ∧ s.search = none
  quirks : ∀ k : Fin 16, s.quirks[k] = none
  remaps : s.remaps = []
  queue : s.queue = []
  strays : ∀ b : Fin 4, s.strays[b] = none
  hold : s.hold = none
  flags : s.flags.set = 0 ∧ s.flags.enabled = 0 ∧ s.flags.owed = 0
  receiver : s.link.phase = .hunt ∧ s.link.assembly = [] ∧ s.link.gapFrom = none ∧ s.link.buffer = []
  sender : s.link.replies = [] ∧ s.link.resetWaiting = false ∧ s.link.tx = none ∧ s.link.lastByte = false

/-! ### Ranges -/

/-- The trims stand in -63 to +63 (R6) and the in-tolerance run in 0 to 2 (R5). -/
structure Monitor.Ok (m : Monitor) : Prop where
  target : -63 ≤ m.trimTarget ∧ m.trimTarget ≤ 63
  current : -63 ≤ m.currentTrim ∧ m.currentTrim ≤ 63
  run : m.run ≤ 2

/-- The parameter of a quirk's action stands in the range of section 7.4 (R123). -/
def QuirkAction.Ok : QuirkAction → Prop
  | .clampOffset c => c ≤ 4
  | .extraSettle e => 1 ≤ e ∧ e ≤ 15
  | .headerMask m => 1 ≤ m ∧ m ≤ 11
  | .weightCap w => 1 ≤ w ∧ w ≤ 4
  | .noBlind => True
  | .noVote => True

/-- A quirk's parameter and its cylinder range stand in the ranges of section 7.4 (R123). -/
structure Quirk.Ok (q : Quirk) : Prop where
  action : q.action.Ok
  cylinders : ∀ low high, q.cylinders = some (low, high) → low ≤ high ∧ high ≤ 1023

/-- Combined actions stand in the ranges of the actions they combine (R126). -/
structure Actions.Ok (a : Actions) : Prop where
  clampOffset : ∀ c, a.clampOffset = some c → c ≤ 4
  extraSettle : ∀ e, a.extraSettle = some e → 1 ≤ e ∧ e ≤ 15
  headerMask : ∀ m, a.headerMask = some m → 1 ≤ m ∧ m ≤ 11
  weightCap : ∀ w, a.weightCap = some w → 1 ≤ w ∧ w ≤ 4

/-- A prepared pass's fields stand in the ranges of section 4.1. -/
structure Prepared.Ok (p : Prepared) : Prop where
  position : p.position ≤ 15
  requested : p.requested.natAbs ≤ 4
  offset : p.offset.natAbs ≤ 4
  strobe : p.strobe.natAbs ≤ 2
  actions : p.actions.Ok

/-- A drive's items stand in the ranges of sections 1.2 and 4.1, and only in the states they belong to: a motion in
SEEKING or RECALIBRATING (R11, R12), the unload line in UNLOADING (R20), the load line in NOT_READY (R21), the index
timer where it runs (R8), a settle count in SETTLING (R14), the pass loop (R59) and a deferral count (R26) in
TRACKING, no target from an unload on (R17 to R20) and no cylinder in RETRACTED (R20). -/
structure Drive.Ok (d : Drive) : Prop where
  monitor : d.monitor.Ok
  offset : d.offset.natAbs ≤ 4
  descriptor : ∀ x, d.descriptor = some x → x.inRange = true
  seek : ∀ limit, d.motion = .seek limit → d.state = .seeking
  restore : ∀ limit, d.motion = .restore limit → d.state = .recalibrating
  unloadLine : d.unloadLine = true ↔ d.state = .unloading
  loadLine : d.loadLine = true → d.state = .notReady
  timer : d.indexTimer.isSome = true → d.state.timed = true
  settle : d.state ≠ .settling → d.settleCount = 0
  deferral : d.state ≠ .tracking → d.deferral = 0
  loop : d.state ≠ .tracking → d.prepared = none ∧ d.waiting = 0
  deferralLimit : d.deferral ≤ 255
  waitingLimit : d.waiting ≤ 255
  straysLimit : d.passStrays ≤ 255
  settleLimit : d.settleCount ≤ 30
  errorsLimit : d.seekErrors ≤ 3
  deadLimit : d.deadRevs ≤ 8
  positioningLimit : d.positioningSettle ≤ 15
  preparedOk : ∀ p, d.prepared = some p → p.Ok
  cylinder : ∀ c x, d.cylinder = some c → d.descriptor = some x → c < x.cylinders
  target : ∀ c x, d.target = some c → d.descriptor = some x → c < x.cylinders
  unloaded : d.state = .unloading ∨ d.state = .retracted → d.target = none
  retracted : d.state = .retracted → d.cylinder = none

/-- A profile's fields stand in the ranges of section 7.1 (R113). -/
structure Profile.Ok (p : Profile) : Prop where
  passes : 1 ≤ p.passes.length ∧ p.passes.length ≤ 16
  entries : ∀ e ∈ p.passes, e.offset.natAbs ≤ 4 ∧ e.strobe.natAbs ≤ 2
  passLimit : 1 ≤ p.passLimit ∧ p.passLimit ≤ 255
  backoff : p.backoff ≤ 4
  recalibrate : p.recalibrate ≤ 15
  quorum : 2 ≤ p.quorum ∧ p.quorum ≤ 15
  weak : 1 ≤ p.weak ∧ p.weak ≤ 63
  repair : p.repair ≤ 3
  strayLimit : 1 ≤ p.strayLimit ∧ p.strayLimit ≤ 32
  dead : 1 ≤ p.dead ∧ p.dead ≤ 8
  deferral : p.deferral ≤ 255

/-- Both profiles of a unit stand in their ranges (R113). -/
structure UnitProfiles.Ok (p : UnitProfiles) : Prop where
  active : p.active.Ok
  staged : p.staged.Ok

/-- A sector record's reads hold at 255 (R87), its weak count is at most 3,084 and its weak list has at most 32 entries
(section 5.1, R111). -/
structure Record.Ok (r : Record) : Prop where
  reads : r.reads ≤ 255
  weakCount : r.weakCount ≤ 3084
  weakList : r.weakList.length ≤ 32

/-- The seven counters hold at 65,535 (R50). -/
structure Counters.Ok (c : Counters) : Prop where
  passes : c.passes ≤ 65535
  revolutions : c.revolutions ≤ 65535
  headerCaptures : c.headerCaptures ≤ 65535
  blindUsed : c.blindUsed ≤ 65535
  strays : c.strays ≤ 65535
  recalibrations : c.recalibrations ≤ 65535
  ambiguous : c.ambiguous ≤ 65535

/-- A job has an end cause exactly while it is DRAINING, only a DRAINING job is finalized (R51, R54), and its budget and
counts stand in their ranges (section 3.1, R50, R66). -/
structure Job.Ok (x : Job) : Prop where
  budget : x.budget ≤ 65535
  passCount : x.passCount ≤ 255
  draining : x.state = .draining ↔ x.endCause.isSome = true
  finalized : x.finalized = true → x.state = .draining
  fruitless : x.fruitless ≤ 255
  counters : x.counters.Ok
  records : ∀ r ∈ x.records, r.Ok

/-- A data field has at most 257 words (section 1.1, R33). -/
def FieldFits (f : Option DataField) : Prop := ∀ x, f = some x → x.words.length ≤ 257

/-- A slab's accumulators, at most 3,084, stand in -63 to +63 (R94); its folds and ambiguity count hold at 255, and at
most every bit is weak (section 6.1). -/
structure Slab.Ok (x : Slab) : Prop where
  acc : ∀ a ∈ x.acc, -63 ≤ a ∧ a ≤ 63
  bits : x.acc.length ≤ 3084
  weakCount : x.weakCount ≤ 3084
  folds : x.folds ≤ 255
  ambiguity : x.ambiguity ≤ 255

/-- The channel's strobe shift is -2 to +2 (R24); the slot set and the deferred candidates name slots 0 to 31, each once
(R32, R36); a candidate has at most 257 words, and a header whose window is open has no data yet (R33). -/
structure Channel.Ok (c : Channel) : Prop where
  strobe : c.strobe.natAbs ≤ 2
  slotSet : ∀ k ∈ c.slotSet, k < 32
  slotOnce : c.slotSet.Nodup
  deferred : ∀ x ∈ c.deferred, x.slot < 32 ∧ FieldFits x.capture.data
  deferredOnce : (c.deferred.map (·.slot)).Nodup
  openHeader : ∀ h, c.openHeader = some h → h.capture.data = none

/-- A flag in the owed set is set, and its notice is enabled (R157, R162). -/
structure FlagUnit.Ok (f : FlagUnit) : Prop where
  set : ∀ k, f.owed.getLsbD k = true → f.set.getLsbD k = true
  enabled : ∀ k, f.owed.getLsbD k = true → f.enabled.getLsbD k = true

/-- The remap list is in strictly ascending order of unit and block (R135). -/
def remapsSorted (rs : List Remap) : Prop := rs.Pairwise (fun a b => a.before b = true)

/-- A job's track lies within its unit's descriptor, and it has a record for each sector (section 3.1, R44, R74). -/
def State.JobFits (s : State) (x : Job) : Prop :=
  ∃ d, (s.drive x.unit).descriptor = some d ∧ x.cylinder < d.cylinders ∧ x.head < d.heads ∧
    x.records.length = d.sectors

/-- Every block of a unit's extents maps inside its geometry (R131). -/
def extentsWithin (es : List Extent) (d : Descriptor) : Prop :=
  ∀ k e, es[k]? = some e → (1 ≤ e.heads ∧ e.heads ≤ d.heads) ∧ ∀ b, firstBlock es k ≤ b → b ≤ e.ending →
    e.cylinder + (b - firstBlock es k) / d.sectors / e.heads < d.cylinders

/-- An address lies inside a geometry (R136). -/
def Address.Within (a : Address) (d : Descriptor) : Prop :=
  a.cylinder < d.cylinders ∧ a.head < d.heads ∧ a.sector < d.sectors

/-- The items of State stand in the ranges their chapters give them: those of the drives, profiles, jobs and records,
slabs, channel, quirks, flags, extents, remap list and delivery queue, as the structures above list them. -/
structure State.InRange (s : State) : Prop where
  drives : ∀ n, (s.drive n).Ok
  profiles : ∀ n, (s.unitProfiles n).Ok
  jobs : ∀ j x, s.job j = some x → x.Ok
  tracks : ∀ j x, s.job j = some x → s.JobFits x
  slabs : ∀ i x, s.slab i = some x → x.Ok
  channel : s.channel.Ok
  quirks : ∀ (k : Fin 16) q, s.quirks[k] = some q → q.Ok
  flags : s.flags.Ok
  extents : ∀ n, (s.extentsOf n).length ≤ Config.extentCapacity
  remaps : s.remaps.length ≤ Config.remapCapacity
  sorted : remapsSorted s.remaps
  described : ∀ n, (s.drive n).descriptor = none → s.extentsOf n = [] ∧ ∀ r ∈ s.remaps, r.unit ≠ n
  within : ∀ n d, (s.drive n).descriptor = some d → extentsWithin (s.extentsOf n) d
  alternates : ∀ r ∈ s.remaps, ∀ d, (s.drive r.unit).descriptor = some d → r.alternate.Within d
  queue : s.queue.length ≤ Config.deliveryCapacity

/-- The link holds no more than its room: two frames and eight replies (R170, R173). -/
structure State.LinkBounded (s : State) : Prop where
  buffer : s.link.buffer.length ≤ Config.bufferCapacity
  replies : s.link.replies.length ≤ Config.replyCapacity

/-- Between commands the channel is IDLE only while no unit requests it (R27). -/
def State.Granted (s : State) : Prop := s.channel.state = .idle → ∀ n, s.requesting n = false

/-- Between commands a frame waits in the receive buffer only while no request may run (R171). -/
def State.FramesTaken (s : State) : Prop := s.link.buffer = [] ∨ s.mayTakeFrame = false

/-- Between commands the line is idle only if nothing can be sent or request-to-send is dropped (R174). -/
def State.LineBusy (s : State) : Prop := s.link.tx = none → s.link.rts = true → s.nextMessage = none

/-- The gap is measured exactly while a frame is in progress and clear-to-send is asserted (R168). -/
def State.GapMeasured (s : State) : Prop :=
  s.link.gapFrom.isSome = true ↔ (s.link.inProgress = true ∧ s.clearToSend = true)

/-- The message in transmission is that of the head of the reply queue or of the delivery queue, which stays there
until the message completes (R146, R173). -/
def State.TxStands (s : State) : Prop :=
  ∀ m, s.link.tx = some m →
    match m.source with
    | .reply => s.link.replies.head?.map (·.frame) = some m.frame
    | .notice => True
    | .delivery e => s.queue.head? = some e

/-- What the Link Interface and the arbiter leave standing between commands. -/
structure State.LineStands (s : State) : Prop where
  bounded : s.LinkBounded
  taken : s.FramesTaken
  busy : s.LineBusy
  measured : s.GapMeasured
  sending : s.TxStands
  granted : s.Granted

/-- What the jobs, the units and the delivery queue say of each other between commands: a unit's held job is its one job
that is POSITIONING or READING; a unit that cannot hold a job holds none, and one that settles or tracks holds one (section
1.4); an IDLE unit has no QUEUED job (R10, R46, R48); the channel is reserved or captures for a TRACKING unit alone (R25, R29, R41), and a capture has its revolution (R30); and a job's one
JOB-END entry names a DRAINING job (R55). -/
structure State.JobsStand (s : State) : Prop where
  held : s.JobsHeld
  free : ∀ n, (s.drive n).state ∈ [.undefined, .notReady, .idle, .unloading, .retracted] → (s.drive n).heldJob = none
  busy : ∀ n, (s.drive n).state ∈ [.settling, .tracking] → (s.drive n).heldJob ≠ none
  taken : ∀ n, (s.drive n).state = .idle → ¬ s.HasQueued n
  channel : ∀ n, s.channel.state.holds n = true → (s.drive n).state = .tracking
  capture : ∀ n, s.channel.state = .capturing n → s.channel.rev ≠ none
  ends : ∀ j, .jobEnd j ∈ s.queue → ∃ x, s.job j = some x ∧ x.finalized = true
  once : ∀ j, s.queue.count (.jobEnd j) ≤ 1
  sending : s.TxStands

/-- What the repair unit and the vote store keep between commands: the repair FIFO holds the QUEUED slabs, each once; the
SEARCHING slab is the search's; the unit is at work while the FIFO holds a slab (R99, R101); and each slab is that of a
VOTING record of a job that is not finalized (R84, R88, R91, R111). -/
structure State.RepairStands (s : State) : Prop where
  once : s.fifo.Nodup
  queued : ∀ i, i ∈ s.fifo ↔ ∃ x, s.slab i = some x ∧ x.status = .queued
  searching : ∀ i, (∃ x, s.slab i = some x ∧ x.status = .searching) ↔ ∃ f, s.search = some f ∧ f.slab = i
  busy : s.search = none → s.fifo = []
  owned : ∀ i x, s.slab i = some x → ∃ y r, s.job x.job = some y ∧ y.finalized = false ∧ y.records[x.sector]? = some r ∧
    r.state = .voting ∧ r.slab = some i

/-- What the maps keep: extents in rising order of their last blocks and inside the geometry of a described unit, remap
entries in order, for blocks inside the extents, with alternates inside the geometry, no two of a unit alike (R131 to
R136). -/
structure State.MapsStand (s : State) : Prop where
  rising : ∀ n, (s.extentsOf n).Pairwise (fun a b => a.ending < b.ending)
  described : ∀ n, s.extentsOf n ≠ [] → (s.drive n).descriptor ≠ none
  fits : ∀ n d k e, (s.drive n).descriptor = some d → (s.extentsOf n)[k]? = some e → s.ExtentFits n k e d
  sorted : remapsSorted s.remaps
  inside : ∀ r ∈ s.remaps, s.Inside r.unit r.block ∧ ∀ d, (s.drive r.unit).descriptor = some d →
    r.alternate.cylinder < d.cylinders ∧ r.alternate.head < d.heads ∧ r.alternate.sector < d.sectors
  alternates : s.remaps.Pairwise (fun a b => a.unit = b.unit → a.alternate ≠ b.alternate)

end Sys2Proof.Machine
end

