-- ==== Sys2Proof/Certificates/Slice0/Obligations.lean ====
section
/-! DEFINITION. The statements about the 612, each a proposition over its commands and states. `finish` is what follows
every command: the arbiter, the gap test and the transmitter's choice (R27, R168, R174; log entry 8). Where a statement
gives a drive's next value whole, the items at rest outside the states they belong to are the model's (log entry 14). -/

open Sys2Proof Sys2Proof.Machine

/-! ### The machine -/

/-- The command at the front of the queue is the one that runs, on the state with the queue's rest. On an empty queue
one tick of the time base passes and nothing else: the model's choice (log entry 2). -/
def Obligations.StepRunsTheQueue : Prop :=
  (∀ (c : Instr) (rest : List Instr) (s : State),
    step { s with pending := c :: rest } = exec c { s with pending := rest }) ∧
  (∀ s : State, s.pending = [] → step s = .next { s with clock := s.clock + 1 })

/-- Every command gives a next state from every state, for the spec gives the 612 no stopping fault, and none changes
the queue of commands that wait. That POWER_ON and a RESET ALL keep that queue is the model's choice (log entries 17
and 21), and so is the next state of a command that finds nothing to act on (log entry 11). -/
def Obligations.EveryCommandCompletes : Prop :=
  ∀ (c : Instr) (s : State), ∃ t, exec c s = .next t ∧ t.pending = s.pending

/-! ### Frames (R166 to R171) -/

/-- A frame read from its first byte to its last, on a line that stands as between commands, is offered to the receive
buffer as the frame it is, for every kind, tag and body; so the bytes of a request do what that request's own command
does (R166, R167, R170). Bytes read in two runs do what they do in one: what a byte brings about is complete before
the next (R166, R174). -/
def Obligations.FrameBytesAreTheFrame : Prop :=
  (∀ (f : Frame) (s : State), f.body.length ≤ 1024 → s.LineStands → s.link.phase = .hunt → s.link.assembly = [] →
    exec (.frameComplete f.bytes) s = .next (s.offerFrame f).finish ∧
    ∀ c : Instr, requestFrame c = some f → exec (.frameComplete f.bytes) s = exec c s) ∧
  (∀ (a b : List Byte) (s t : State), exec (.frameComplete a) s = .next t →
    exec (.frameComplete (a ++ b)) s = exec (.frameComplete b) t)

/-- A frame in progress is discarded, LINK_ERROR raised and the receiver in HUNT in three cases: two CRC bytes that
are not the frame's CRC, a length outside 3 to 1027 at its second byte, and a gap of more than 20 ms, 200,000 ticks,
while clear-to-send is asserted; the clock then stands at that moment or later (log entry 2). With no gap measured,
the gap's running out does nothing (log entry 11; R166 to R168). A break discards it too, raises no flag and releases
the hold (R153, R169). -/
def Obligations.FramesDiscarded : Prop :=
  ((∀ (f : Frame) (crc : BitVec 16) (s : State), f.body.length ≤ 1024 → crc ≠ crc16 f.covered → s.LineStands →
    s.link.phase = .hunt →
    exec (.frameComplete (startByte :: (f.covered ++ beBytes 2 crc.toNat))) s =
      .next ({ s with link := { s.link with phase := .hunt, assembly := [], gapFrom := none } }.raise 16).finish) ∧
  (∀ (high low : Byte) (s : State), high.toNat * 256 + low.toNat < 3 ∨ 1027 < high.toNat * 256 + low.toNat →
    s.LineStands → s.link.phase = .hunt →
    exec (.frameLengthOutOfRange high low) s =
      .next ({ s with link := { s.link with phase := .hunt, assembly := [], gapFrom := none } }.raise 16).finish) ∧
  (∀ (start : Nat) (s : State), s.link.gapFrom = some start → s.link.phase ≠ .hunt → s.link.buffer.length < 2 →
    exec .frameGapTimeout s =
      .next ({ s with
        clock := max s.clock (start + 200001)
        link := { s.link with phase := .hunt, assembly := [], gapFrom := none } }.raise 16).finish) ∧
  (∀ s : State, s.link.gapFrom = none → exec .frameGapTimeout s = .next s)) ∧
  (∀ s : State, exec .lineBreak s =
    .next ({ s with hold := none, link := { s.link with phase := .hunt, assembly := [], gapFrom := none } }.finish))

/-- A request whose frame completes while no frame waits and a request may run is run whole at once, and its one reply
joins the tail of the reply queue (R171 to R173). While eight replies wait or a RESET ALL waits, no request runs: its
frame joins the receive buffer if that holds fewer than two frames, and is discarded otherwise (R170, R173, R182). -/
def Obligations.RequestsRunInTurn : Prop :=
  (∀ (c : Instr) (f : Frame) (s : State), requestFrame c = some f → s.link.buffer = [] → s.link.replies.length < 8 →
    s.link.resetWaiting = false →
    exec c s = .next (s.runFrame f).finish ∧
    (s.runFrame f).link.replies.map (·.frame) =
      s.link.replies.map (·.frame) ++
        [{ kind := 0x80, tag := f.tag, body := f.kind :: BitVec.ofNat 8 (serve f s).status.code :: (serve f s).fields }]) ∧
  (∀ (c : Instr) (f : Frame) (s : State), requestFrame c = some f →
    8 ≤ s.link.replies.length ∨ s.link.resetWaiting = true →
    (s.link.buffer.length < 2 →
      exec c s = .next ({ s with link := { s.link with buffer := s.link.buffer ++ [f] } }.finish)) ∧
    (2 ≤ s.link.buffer.length → exec c s = .next s.finish))

/-- A request that is refused changes nothing and has no reply fields. A kind outside 0x01 to 0x1A is answered
UNKNOWN-KIND with the kind received, and a body of the wrong length BAD-LENGTH, the kind being checked first;
SET-PROFILE's length is 13 bytes and two for each pass its count names (R114, R172). A unit above 3 is refused
BAD-FIELD by every request whose body begins with a unit, apart from RESET (R1, R19, R21, R44, R114, R117, R118, R131,
R133, R136 to R139, R179). -/
def Obligations.RequestsChecked : Prop :=
  (∀ (f : Frame) (s : State), (serve f s).status ≠ .ok → (serve f s).status ≠ .clamped →
     (serve f s).state = s ∧ (serve f s).fields = []) ∧
  ((∀ (tag : Tag) (kind : Byte) (body : List Byte) (s : State), kind = 0 ∨ 0x1A < kind.toNat → s.takesAtOnce →
     exec (.unknownKind tag kind body) s = .next (s.answered kind tag .unknownKind []).finish) ∧
   (∀ (f : Frame) (s : State), 1 ≤ f.kind.toNat → f.kind.toNat ≤ 0x1A → f.kind ≠ 6 →
     f.body.length ≠ [0, 20, 1, 1, 1, 13, 1, 2, 14, 1, 1, 10, 1, 8, 5, 4, 11, 9, 2, 1, 2, 2, 0, 3, 3, 1].getD
       (f.kind.toNat - 1) 0 →
     (serve f s).status = .badLength) ∧
   (∀ (f : Frame) (s : State), f.kind = 6 →
     f.body.length < 2 ∨ f.body.length ≠ 13 + 2 * (f.body.getD 1 0).toNat → (serve f s).status = .badLength)) ∧
  (∀ (f : Frame) (s : State),
     f.kind ∈ [0x02#8, 0x03#8, 0x04#8, 0x05#8, 0x06#8, 0x07#8, 0x08#8, 0x0C#8, 0x0D#8, 0x0E#8, 0x0F#8, 0x10#8, 0x11#8, 0x12#8] →
     lengthOk f.kind.toNat f.body = true → 3 < (f.body.headD 0).toNat → (serve f s).status = .badField)

/-! ### Requests about drives (R1, R2, R19 to R21, R178, R179) -/

/-- IDENTIFY gives the family code, the revision, the rate code and the capacities (R178), DRIVE-STATUS its fourteen
fields in 22 bytes for every unit in every state (R179), and neither changes anything. -/
def Obligations.IdentifyAndStatusAnswer : Prop :=
  (∀ (tag : Tag) (s : State), s.takesAtOnce →
    exec (.identify tag) s =
      .next (s.answered 0x01 tag .ok [0x4C, 0x01, BitVec.ofNat 8 s.link.rate.val, 4, 32, 64, 24, 16, 8, 32, 4]).finish) ∧
  (∀ (tag : Tag) (n : UnitId) (s : State), s.takesAtOnce →
    ∃ fields : List Byte,
      exec (.driveStatus tag (unitByte n)) s = .next (s.answered 0x03 tag .ok fields).finish ∧
      fields.length = 22 ∧
      fields =
        [unitByte n, BitVec.ofNat 8 (s.drive n).state.code] ++
        beBytes 2 ((s.drive n).cylinder.getD 0xFFFF) ++
        [BitVec.ofInt 8 (s.drive n).offset] ++
        beBytes 4 ((s.drive n).monitor.lastPeriod.getD 0) ++
        beBytes 4 (BitVec.ofInt 32 (s.drive n).monitor.deviation).toNat ++
        [BitVec.ofInt 8 (s.drive n).monitor.trimTarget, BitVec.ofInt 8 (s.drive n).monitor.currentTrim,
         if (s.drive n).monitor.locked then 1 else 0,
         match (s.drive n).heldJob with | some j => idByte j | none => 0,
         BitVec.ofNat 8 (if (s.drive n).state = .settling then (s.drive n).settleCount
           else if (s.drive n).state = .tracking then (s.drive n).waiting else 0),
         BitVec.ofNat 8 (s.drive n).deferral,
         if (s.unitProfiles n).swapPending then 1 else 0] ++
        beBytes 2 (s.drive n).matchedSlots.toNat)

/-- The checks of DEFINE-DRIVE, in order, each with its status (R1). An accepted one installs the descriptor: the unit
starts afresh in IDLE or NOT_READY by its ready line with the index timer at three nominal periods, or stays
RETRACTED; its matched slots and positioning settle are emptied (R2, R128, R129). -/
def Obligations.DefineDriveActs : Prop :=
  (∀ (tag : Tag) (n : UnitId) (f : DriveFields) (s : State), s.takesAtOnce →
     (¬ LegalDriveFields f →
       exec (.defineDrive tag (unitByte n) f) s = .next (s.answered 0x02 tag .badField []).finish) ∧
     (LegalDriveFields f → s.HasJob n →
       exec (.defineDrive tag (unitByte n) f) s = .next (s.answered 0x02 tag .driveBusy []).finish) ∧
     (LegalDriveFields f → ¬ s.HasJob n → s.MapForbids n f →
       exec (.defineDrive tag (unitByte n) f) s = .next (s.answered 0x02 tag .conflict []).finish) ∧
     (LegalDriveFields f → ¬ s.HasJob n → ¬ s.MapForbids n f →
       (s.drive n).state ∈ [.seeking, .recalibrating, .unloading] →
       exec (.defineDrive tag (unitByte n) f) s = .next (s.answered 0x02 tag .wrongState []).finish) ∧
     (LegalDriveFields f → ¬ s.HasJob n → ¬ s.MapForbids n f →
       (s.drive n).state ∉ [.seeking, .recalibrating, .unloading] →
       ∃ t : State, exec (.defineDrive tag (unitByte n) f) s = .next (t.answered 0x02 tag .ok []).finish)) ∧
  (∀ (tag : Tag) (n : UnitId) (f : DriveFields) (s : State), s.takesAtOnce → LegalDriveFields f → ¬ s.HasJob n →
     ¬ s.MapForbids n f →
     ((s.drive n).state ∉ [.seeking, .recalibrating, .unloading, .retracted] →
       exec (.defineDrive tag (unitByte n) f) s =
         .next ((s.setDrive n
           { (s.drive n).afresh (if (s.drive n).ready then .idle else .notReady) (some (s.clock + 3 * f.period.toNat)) with
             descriptor := some (Descriptor.ofFields f), deadRevs := 0, matchedSlots := 0,
             positioningSettle := 0 }).answered 0x02 tag .ok []).finish) ∧
     ((s.drive n).state = .retracted →
       exec (.defineDrive tag (unitByte n) f) s =
         .next ((s.setDrive n
           { s.drive n with
             descriptor := some (Descriptor.ofFields f), deadRevs := 0, matchedSlots := 0,
             positioningSettle := 0 }).answered 0x02 tag .ok []).finish))

/-- UNLOAD begins the unload in the seven states that allow it: with no held job nothing else changes; a held job ends
ABORTED and the channel is released. In the other three states it is refused WRONG-STATE (R19). RELOAD of a RETRACTED
unit drives the load line and waits in NOT_READY with the index timer running, or goes on to IDLE where ready is
asserted; in every other state it is refused WRONG-STATE (R21). -/
def Obligations.UnloadAndReloadAct : Prop :=
  (∀ (tag : Tag) (n : UnitId) (s : State), s.takesAtOnce →
     ((s.drive n).state ∉ [.undefined, .unloading, .retracted] → (s.drive n).heldJob = none →
       exec (.unload tag (unitByte n)) s =
         .next ((s.setDrive n (s.drive n).unloadBegun).answered 0x04 tag .ok []).finish) ∧
     (∀ j x, (s.drive n).state ∉ [.undefined, .unloading, .retracted] → (s.drive n).heldJob = some j →
       s.job j = some x → x.unit = n → x.state ≠ .draining →
       ∃ (t : State) (y : Job), exec (.unload tag (unitByte n)) s = .next (t.answered 0x04 tag .ok []).finish ∧
         t.drive n = { (s.drive n).unloadBegun with heldJob := none } ∧
         t.job j = some y ∧ y.state = .draining ∧ y.endCause = some .aborted ∧ t.channel.state.holds n = false) ∧
     ((s.drive n).state ∈ [.undefined, .unloading, .retracted] →
       exec (.unload tag (unitByte n)) s = .next (s.answered 0x04 tag .wrongState []).finish)) ∧
  (∀ (tag : Tag) (n : UnitId) (s : State), s.takesAtOnce →
     (∀ d, (s.drive n).state = .retracted → (s.drive n).descriptor = some d → (s.drive n).ready = false →
       exec (.reload tag (unitByte n)) s =
         .next ((s.setDrive n
           { s.drive n with
             state := .notReady, loadLine := true, unloadLine := false, indexTimer := some (s.clock + 3 * d.period),
             motion := .still, settleCount := 0, deferral := 0, prepared := none, waiting := 0,
             passStrays := 0 }).answered 0x05 tag .ok []).finish) ∧
     (∀ d, (s.drive n).state = .retracted → (s.drive n).descriptor = some d → (s.drive n).ready = true →
       ¬ s.HasJob n →
       exec (.reload tag (unitByte n)) s =
         .next ((s.setDrive n
           { (s.drive n).afresh .idle (some (s.clock + 3 * d.period)) with
             offset := (s.drive n).offset }).answered 0x05 tag .ok []).finish) ∧
     ((s.drive n).state ≠ .retracted →
       exec (.reload tag (unitByte n)) s = .next (s.answered 0x05 tag .wrongState []).finish))

/-! ### Profiles and quirks (R113 to R128) -/

/-- SET-PROFILE writes the staged profile with each field at the nearer end of its range, CLAMPED where that changed
one; a bad count or mark is BAD-FIELD, and a pending swap SWAP-PENDING (R114 to R116). -/
def Obligations.SetProfileStages : Prop :=
  ∀ (tag : Tag) (n : UnitId) (f : ProfileFields) (s : State), s.takesAtOnce → f.entries.length < 256 →
    (¬ LegalProfileFields f →
      exec (.setProfile tag (unitByte n) f) s = .next (s.answered 0x06 tag .badField []).finish) ∧
    (LegalProfileFields f → (s.unitProfiles n).swapPending = true →
      exec (.setProfile tag (unitByte n) f) s = .next (s.answered 0x06 tag .swapPending []).finish) ∧
    (LegalProfileFields f → (s.unitProfiles n).swapPending = false →
      exec (.setProfile tag (unitByte n) f) s =
        .next ((s.setProfiles n { s.unitProfiles n with staged := Profile.ofFieldsClamped f }).answered 0x06 tag
          (if Profile.ofFieldsClamped f = Profile.ofFields f then .ok else .clamped) []).finish)

/-- SWAP-PROFILE sets the swap-pending mark in every drive state, and changes nothing else (R118). READ-PROFILE gives
the chosen profile with that mark and changes nothing; a choice other than active and staged is BAD-FIELD (R117). -/
def Obligations.ProfilesSwapAndRead : Prop :=
  (∀ (tag : Tag) (n : UnitId) (s : State), s.takesAtOnce →
    exec (.swapProfile tag (unitByte n)) s =
      .next ((s.setProfiles n { s.unitProfiles n with swapPending := true }).answered 0x07 tag .ok []).finish) ∧
  (∀ (tag : Tag) (n : UnitId) (choice : Byte) (s : State), s.takesAtOnce →
    (∀ p, (choice = 0 ∧ p = (s.unitProfiles n).active) ∨ (choice = 1 ∧ p = (s.unitProfiles n).staged) →
      exec (.readProfile tag (unitByte n) choice) s =
        .next (s.answered 0x08 tag .ok
          ([choice, if (s.unitProfiles n).swapPending then 1 else 0, BitVec.ofNat 8 p.passes.length] ++
            p.passes.flatMap (fun e => [BitVec.ofInt 8 e.offset, BitVec.ofInt 8 e.strobe]) ++
            [p.passLimit, p.backoff, p.recalibrate, p.quorum, p.weak, p.repair].map (BitVec.ofNat 8) ++
            [if p.blindAllowed then 1 else 0, BitVec.ofNat 8 p.strayLimit, if p.keepStrays then 1 else 0,
             BitVec.ofNat 8 p.dead, BitVec.ofNat 8 p.deferral])).finish) ∧
    (choice ≠ 0 → choice ≠ 1 →
      exec (.readProfile tag (unitByte n) choice) s = .next (s.answered 0x08 tag .badField []).finish))

/-- SET-QUIRK writes the entry its fields name into the slot, whole; where they name none, or the slot is above 15, it
is BAD-FIELD and writes nothing (R123). CLEAR-QUIRK empties its slot; READ-QUIRK gives it, occupied or not, and
changes nothing; a slot above 15 is BAD-FIELD (R124). -/
def Obligations.QuirkSlotsServed : Prop :=
  (∀ (tag : Tag) (slot : Byte) (f : QuirkFields) (s : State), s.takesAtOnce →
     (∀ (k : Fin 16) (q : Quirk), slot = BitVec.ofNat 8 k.val → q.NamedBy f →
       exec (.setQuirk tag slot f) s =
         .next ({ s with quirks := s.quirks.set k (some q) }.answered 0x09 tag .ok []).finish) ∧
     (15 < slot.toNat ∨ (¬ ∃ q : Quirk, q.NamedBy f) →
       exec (.setQuirk tag slot f) s = .next (s.answered 0x09 tag .badField []).finish)) ∧
  (∀ (tag : Tag) (slot : Byte) (s : State), s.takesAtOnce →
     (∀ k : Fin 16, slot = BitVec.ofNat 8 k.val →
       exec (.clearQuirk tag slot) s = .next ({ s with quirks := s.quirks.set k none }.answered 0x0A tag .ok []).finish ∧
       (s.quirks[k] = none → exec (.readQuirk tag slot) s = .next (s.answered 0x0B tag .ok [slot, 0]).finish) ∧
       (∀ q, s.quirks[k] = some q →
         exec (.readQuirk tag slot) s =
           .next (s.answered 0x0B tag .ok
             ([slot, 1, BitVec.ofNat 8 q.model] ++
               (match q.heads with | some set => 1 :: beBytes 2 set.toNat | none => [0, 0, 0]) ++
               (match q.cylinders with | some (low, high) => 1 :: (beBytes 2 low ++ beBytes 2 high) | none => [0, 0, 0, 0, 0]) ++
               (match q.condition with
                 | some .positive => [1, 1] | some .negative => [1, 2] | some .nonzero => [1, 3] | none => [0, 0]) ++
               (match q.action with
                 | .clampOffset c => [1, BitVec.ofNat 8 c] | .extraSettle e => [2, BitVec.ofNat 8 e]
                 | .headerMask m => [3, BitVec.ofNat 8 m] | .weightCap w => [4, BitVec.ofNat 8 w]
                 | .noBlind => [5, 0] | .noVote => [6, 0]))).finish)) ∧
     (15 < slot.toNat →
       exec (.clearQuirk tag slot) s = .next (s.answered 0x0A tag .badField []).finish ∧
       exec (.readQuirk tag slot) s = .next (s.answered 0x0B tag .badField []).finish))

/-- An evaluation finds the slots that match a unit's model and a track under an offset, and combines their actions
toward the cautious side: the least clamp, the greatest settle, the least mask, the least cap, and the refusals that
any of them carries (R125, R126). A positioning evaluation for a job is made at offset 0; its EXTRA_SETTLE becomes the
positioning settle and its slots the matched ones, and nothing else changes (R128). -/
def Obligations.QuirksCombine : Prop :=
  (∀ (s : State) (n : UnitId) (cylinder head : Nat) (offset : Int),
    s.Combines n cylinder head offset (slotSet (s.evaluate n cylinder head offset))
      (s.combined (s.evaluate n cylinder head offset))) ∧
  (∀ (s : State) (n : UnitId) (j : JobIx) (x : Job), s.job j = some x →
    ∃ slots a, s.Combines n x.cylinder x.head 0 slots a ∧
      s.evaluatePositioning n j = s.setDrive n ((s.drive n).evaluated slots a))

/-! ### The maps (R130 to R138) -/

/-- The checks of DEFINE-EXTENT, in order, each with its status (R131). An accepted DEFINE-EXTENT writes its entry, in
place or as one more, removes the unit's remap entries whose block is now outside its extents, and answers their
number (R132). CLEAR-EXTENTS empties a unit's extents and removes its remap entries, with both counts; it is refused
NO-DRIVE for an UNDEFINED unit and DRIVE-BUSY while a job created from blocks is live (R133). -/
def Obligations.ExtentsServed : Prop :=
  (∀ (tag : Tag) (u entry : Byte) (ending : BitVec 24) (cylinder : BitVec 16) (heads interleave skew : Byte) (s : State),
     s.takesAtOnce →
     (3 < u.toNat ∨ 7 < entry.toNat →
       exec (.defineExtent tag u entry ending cylinder heads interleave skew) s =
         .next (s.answered 0x0C tag .badField []).finish) ∧
     ∀ n : UnitId, u = unitByte n → entry.toNat ≤ 7 →
       ((s.drive n).descriptor = none →
         exec (.defineExtent tag u entry ending cylinder heads interleave skew) s =
           .next (s.answered 0x0C tag .noDrive []).finish) ∧
       ∀ d e, (s.drive n).descriptor = some d →
         e = { ending := ending.toNat, cylinder := cylinder.toNat, heads := heads.toNat, interleave := interleave.toNat,
               skew := skew.toNat : Extent } →
         ((s.extentsOf n).length < entry.toNat ∨ ¬ s.ExtentOrdered n entry.toNat e.ending →
           exec (.defineExtent tag u entry ending cylinder heads interleave skew) s =
             .next (s.answered 0x0C tag .outOfOrder []).finish) ∧
         (entry.toNat ≤ (s.extentsOf n).length → s.ExtentOrdered n entry.toNat e.ending →
           ¬ s.ExtentFits n entry.toNat e d →
           exec (.defineExtent tag u entry ending cylinder heads interleave skew) s =
             .next (s.answered 0x0C tag .badField []).finish) ∧
         (entry.toNat ≤ (s.extentsOf n).length → s.ExtentOrdered n entry.toNat e.ending → s.ExtentFits n entry.toNat e d →
           s.HasBlockJob n →
           exec (.defineExtent tag u entry ending cylinder heads interleave skew) s =
             .next (s.answered 0x0C tag .driveBusy []).finish)) ∧
  ((∀ (tag : Tag) (n : UnitId) (entry : Byte) (ending : BitVec 24) (cylinder : BitVec 16) (heads interleave skew : Byte)
     (s : State) (d : Descriptor) (e : Extent) (es : List Extent) (kept : List Remap),
     s.takesAtOnce → (s.drive n).descriptor = some d →
     e = { ending := ending.toNat, cylinder := cylinder.toNat, heads := heads.toNat, interleave := interleave.toNat,
           skew := skew.toNat } →
     entry.toNat ≤ 7 → entry.toNat ≤ (s.extentsOf n).length → s.ExtentOrdered n entry.toNat e.ending →
     s.ExtentFits n entry.toNat e d → ¬ s.HasBlockJob n →
     es = (if entry.toNat < (s.extentsOf n).length then (s.extentsOf n).set entry.toNat e else s.extentsOf n ++ [e]) →
     kept = s.remaps.filter (fun r : Remap => r.unit ≠ n ∨ es.getLast?.any (fun last => r.block ≤ last.ending)) →
     exec (.defineExtent tag (unitByte n) entry ending cylinder heads interleave skew) s =
       .next ({ s.setExtents n es with remaps := kept }.answered 0x0C tag .ok
         [BitVec.ofNat 8 (s.remaps.length - kept.length)]).finish) ∧
   (∀ (tag : Tag) (n : UnitId) (s : State), s.takesAtOnce →
     ((s.drive n).state = .undefined →
       exec (.clearExtents tag (unitByte n)) s = .next (s.answered 0x0D tag .noDrive []).finish) ∧
     ((s.drive n).state ≠ .undefined → s.HasBlockJob n →
       exec (.clearExtents tag (unitByte n)) s = .next (s.answered 0x0D tag .driveBusy []).finish) ∧
     ((s.drive n).state ≠ .undefined → ¬ s.HasBlockJob n →
       exec (.clearExtents tag (unitByte n)) s =
         .next ({ s.setExtents n [] with remaps := s.remaps.filter (fun r : Remap => r.unit ≠ n) }.answered 0x0D tag .ok
           [BitVec.ofNat 8 (s.extentsOf n).length,
            BitVec.ofNat 8 (s.remaps.filter (fun r : Remap => r.unit = n)).length]).finish)))

/-- SET-REMAP: its checks in order, and the entry put at its place in the ordered list (R135, R136). CLEAR-REMAP
removes the entry of a block, or every entry of the unit, keeps the others in their order and answers the number
removed; a mark other than 0 and 1 is BAD-FIELD (R137). -/
def Obligations.RemapsSetAndCleared : Prop :=
  (∀ (tag : Tag) (n : UnitId) (block : BitVec 24) (cylinder : BitVec 16) (head sector : Byte) (s : State) (r : Remap),
    s.takesAtOnce →
    r = { unit := n, block := block.toNat,
          alternate := { cylinder := cylinder.toNat, head := head.toNat, sector := sector.toNat } } →
    ((s.drive n).descriptor = none →
      exec (.setRemap tag (unitByte n) block cylinder head sector) s = .next (s.answered 0x0E tag .noDrive []).finish) ∧
    ∀ d, (s.drive n).descriptor = some d →
      (d.cylinders ≤ cylinder.toNat ∨ d.heads ≤ head.toNat ∨ d.sectors ≤ sector.toNat →
        exec (.setRemap tag (unitByte n) block cylinder head sector) s = .next (s.answered 0x0E tag .badField []).finish) ∧
      (cylinder.toNat < d.cylinders → head.toNat < d.heads → sector.toNat < d.sectors →
        (¬ s.Inside n block.toNat →
          exec (.setRemap tag (unitByte n) block cylinder head sector) s =
            .next (s.answered 0x0E tag .outOfMap []).finish) ∧
        (s.Inside n block.toNat →
          ((∃ x ∈ s.remaps, x.unit = n ∧ (x.block = r.block ∨ x.alternate = r.alternate)) →
            exec (.setRemap tag (unitByte n) block cylinder head sector) s =
              .next (s.answered 0x0E tag .conflict []).finish) ∧
          ((∀ x ∈ s.remaps, x.unit = n → x.block ≠ r.block ∧ x.alternate ≠ r.alternate) →
            (32 ≤ s.remaps.length →
              exec (.setRemap tag (unitByte n) block cylinder head sector) s =
                .next (s.answered 0x0E tag .tableFull []).finish) ∧
            (s.remaps.length < 32 → remapsSorted s.remaps →
              ∃ (place : Nat) (rs : List Remap),
                exec (.setRemap tag (unitByte n) block cylinder head sector) s =
                  .next ({ s with remaps := rs }.answered 0x0E tag .ok [BitVec.ofNat 8 place]).finish ∧
                place ≤ s.remaps.length ∧ rs = s.remaps.take place ++ r :: s.remaps.drop place ∧ remapsSorted rs))))) ∧
  (∀ (tag : Tag) (n : UnitId) (mark : Byte) (block : BitVec 24) (s : State), s.takesAtOnce →
    (mark = 0 →
      exec (.clearRemap tag (unitByte n) mark block) s =
        .next ({ s with remaps := s.remaps.filter (fun r : Remap => r.unit ≠ n ∨ r.block ≠ block.toNat) }.answered 0x0F tag .ok
          [BitVec.ofNat 8 (s.remaps.filter (fun r : Remap => r.unit = n ∧ r.block = block.toNat)).length]).finish) ∧
    (mark = 1 →
      exec (.clearRemap tag (unitByte n) mark block) s =
        .next ({ s with remaps := s.remaps.filter (fun r : Remap => r.unit ≠ n) }.answered 0x0F tag .ok
          [BitVec.ofNat 8 (s.remaps.filter (fun r : Remap => r.unit = n)).length]).finish) ∧
    (mark ≠ 0 → mark ≠ 1 →
      exec (.clearRemap tag (unitByte n) mark block) s = .next (s.answered 0x0F tag .badField []).finish))

/-- MAP-BLOCK gives the address its remap entry or its extent gives, with the extent's number and address, and changes
nothing; NO-DRIVE for an UNDEFINED unit, OUT-OF-MAP for a block outside the extents (R134, R138). -/
def Obligations.MapBlockTranslates : Prop :=
  ∀ (tag : Tag) (n : UnitId) (block : BitVec 24) (s : State), s.takesAtOnce →
    ((s.drive n).descriptor = none →
      exec (.mapBlock tag (unitByte n) block) s = .next (s.answered 0x10 tag .noDrive []).finish) ∧
    ∀ d, (s.drive n).descriptor = some d →
      (¬ s.Inside n block.toNat →
        exec (.mapBlock tag (unitByte n) block) s = .next (s.answered 0x10 tag .outOfMap []).finish) ∧
      ∀ k e r t p, s.Inside n block.toNat → s.HoldsBlock n k e block.toNat →
        r = block.toNat - firstBlock (s.extentsOf n) k → t = r / d.sectors → p = r % d.sectors →
        let home : List Byte :=
          beBytes 2 (e.cylinder + t / e.heads) ++
            [BitVec.ofNat 8 (t % e.heads), BitVec.ofNat 8 ((p * e.interleave + t * e.skew) % d.sectors)]
        ((∀ x ∈ s.remaps, x.unit = n → x.block ≠ block.toNat) →
          exec (.mapBlock tag (unitByte n) block) s =
            .next (s.answered 0x10 tag .ok (0 :: (home ++ BitVec.ofNat 8 k :: home))).finish) ∧
        (∀ x ∈ s.remaps, x.unit = n → x.block = block.toNat →
          (∀ y ∈ s.remaps, y.unit = n → y.block = block.toNat → y = x) →
          exec (.mapBlock tag (unitByte n) block) s =
            .next (s.answered 0x10 tag .ok
              (1 :: (beBytes 2 x.alternate.cylinder ++
                [BitVec.ofNat 8 x.alternate.head, BitVec.ofNat 8 x.alternate.sector] ++
                BitVec.ofNat 8 k :: home))).finish)

/-! ### Jobs (R43 to R48, R54 to R57, R111, R139, R140, R180) -/

/-- The checks of RECOVER-TRACK, in order, each with its status (R44). An accepted one, for a unit that is not IDLE,
admits the job into the lowest free entry with the next arrival number, its sectors WANTED as named, and answers its
id, CLAMPED where a sector the track does not have was dropped (R43 to R46). -/
def Obligations.RecoverTrackServed : Prop :=
  (∀ (tag : Tag) (n : UnitId) (cylinder : BitVec 16) (head cls : Byte) (budget : BitVec 16) (wanted : BitVec 32) (s : State),
     s.takesAtOnce →
     (1 < cls.toNat →
       exec (.recoverTrack tag (unitByte n) cylinder head cls budget wanted) s =
         .next (s.answered 0x11 tag .badField []).finish) ∧
     (cls.toNat ≤ 1 → (s.drive n).descriptor = none →
       exec (.recoverTrack tag (unitByte n) cylinder head cls budget wanted) s =
         .next (s.answered 0x11 tag .noDrive []).finish) ∧
     ∀ d, cls.toNat ≤ 1 → (s.drive n).descriptor = some d →
       (d.cylinders ≤ cylinder.toNat ∨ d.heads ≤ head.toNat ∨ (∀ i, i < d.sectors → wanted.getLsbD i = false) →
         exec (.recoverTrack tag (unitByte n) cylinder head cls budget wanted) s =
           .next (s.answered 0x11 tag .badField []).finish) ∧
       (cylinder.toNat < d.cylinders → head.toNat < d.heads → (∃ i, i < d.sectors ∧ wanted.getLsbD i = true) →
         (s.TrackTaken n cylinder.toNat head.toNat →
           exec (.recoverTrack tag (unitByte n) cylinder head cls budget wanted) s =
             .next (s.answered 0x11 tag .trackBusy []).finish) ∧
         (¬ s.TrackTaken n cylinder.toNat head.toNat → (∀ j, s.job j ≠ none) →
           exec (.recoverTrack tag (unitByte n) cylinder head cls budget wanted) s =
             .next (s.answered 0x11 tag .tableFull []).finish))) ∧
  (∀ (tag : Tag) (n : UnitId) (cylinder : BitVec 16) (head cls : Byte) (budget : BitVec 16) (wanted : BitVec 32) (s : State)
     (d : Descriptor) (c : JobClass) (j : JobIx),
     s.takesAtOnce → (s.drive n).descriptor = some d → (cls = 0 ∧ c = .bulk) ∨ (cls = 1 ∧ c = .urgent) →
     cylinder.toNat < d.cylinders → head.toNat < d.heads → (∃ i, i < d.sectors ∧ wanted.getLsbD i = true) →
     ¬ s.TrackTaken n cylinder.toNat head.toNat → s.LowestFree j → (s.drive n).state ≠ .idle →
     ∃ st : Status,
       exec (.recoverTrack tag (unitByte n) cylinder head cls budget wanted) s =
         .next (({ s.setJob j (some (jobAdmitted n cylinder.toNat head.toNat c tag budget.toNat
           ((List.range d.sectors).map (fun i => recordAdmitted (wanted.getLsbD i) none)) s.arrival)) with
             arrival := s.arrival + 1 }).answered 0x11 tag st [idByte j]).finish ∧
       (st = .clamped ↔ ∃ i, d.sectors ≤ i ∧ wanted.getLsbD i = true) ∧ (st = .ok ∨ st = .clamped))

/-- An IDLE unit with no other job is handed the job that RECOVER-TRACK admits, and evaluates the quirks of its track
at offset 0. It restores from an unknown cylinder and seeks from another one, with the offset lines at 0 and the time
limits of R11 and R12; on the job's cylinder it settles for the EXTRA_SETTLE, or tracks and starts a pass at once
where there is none. A BULK job that lies behind reverses the elevator; an URGENT one does not (R10 to R12, R14, R46
to R48, R59 to R62, R125, R126, R128). -/
def Obligations.IdleUnitTakesJob : Prop :=
  ∀ (tag : Tag) (n : UnitId) (cylinder : BitVec 16) (head cls : Byte) (budget : BitVec 16) (wanted : BitVec 32) (s : State)
    (d : Descriptor) (c : JobClass) (j : JobIx) (x : Job),
    s.takesAtOnce → (s.drive n).descriptor = some d → (cls = 0 ∧ c = .bulk) ∨ (cls = 1 ∧ c = .urgent) →
    cylinder.toNat < d.cylinders → head.toNat < d.heads → (∃ i, i < d.sectors ∧ wanted.getLsbD i = true) →
    ¬ s.HasJob n → s.LowestFree j → (s.drive n).state = .idle →
    (s.unitProfiles n).active.passes ≠ [] → 1 ≤ (s.unitProfiles n).active.passLimit →
    x = jobAdmitted n cylinder.toNat head.toNat c tag budget.toNat
      ((List.range d.sectors).map (fun i => recordAdmitted (wanted.getLsbD i) none)) s.arrival →
    ∃ (st : Status) (t : State) (slots : BitVec 16) (a : Actions) (e : Drive),
      exec (.recoverTrack tag (unitByte n) cylinder head cls budget wanted) s =
        .next (t.answered 0x11 tag st [idByte j]).finish ∧
      s.Combines n cylinder.toNat head.toNat 0 slots a ∧
      e = ({ s.drive n with heldJob := some j, target := some cylinder.toNat } : Drive).evaluated slots a ∧
      ((s.drive n).cylinder = none →
        t.drive n = e.restoring s.clock ∧ t.job j = some { x with state := .positioning }) ∧
      (∀ at_, (s.drive n).cylinder = some at_ → at_ ≠ cylinder.toNat →
        t.drive n = e.seeking s.clock ∧ t.job j = some { x with state := .positioning }) ∧
      ((s.drive n).cylinder = some cylinder.toNat → a.extraSettle.getD 0 ≠ 0 →
        t.drive n = e.settling (a.extraSettle.getD 0) ∧ t.job j = some { x with state := .positioning }) ∧
      ((s.drive n).cylinder = some cylinder.toNat → a.extraSettle.getD 0 = 0 →
        ∃ p, s.PassPrepared n x p ∧ t.drive n = e.tracked.started p ∧ t.job j = some { x with state := .reading }) ∧
      (∀ m, m ≠ n → t.drive m = s.drive m) ∧ (∀ i, i ≠ j → t.job i = s.job i) ∧ t.channel = s.channel ∧
      (c = .urgent → t.directions[n] = s.directions[n]) ∧
      (c = .bulk → ∀ at_, at_ = (s.drive n).cylinder.getD 0 →
        (s.directions[n] = .up → (t.directions[n] = .down ↔ cylinder.toNat < at_)) ∧
        (s.directions[n] = .down → (t.directions[n] = .up ↔ at_ < cylinder.toNat)))

/-- The checks of RECOVER-BLOCKS, in order, each with its status: the unit, the class and the count; the descriptor;
every block of the run inside the extents; no two of them on one sector; no live job on a track of the run; a free
entry for each such track (R139). The tracks are those of the blocks, each once. -/
def Obligations.RecoverBlocksChecks : Prop :=
  ∀ (tag : Tag) (u : Byte) (first : BitVec 24) (count : BitVec 16) (cls : Byte) (budget : BitVec 16) (s : State),
    s.takesAtOnce →
    (3 < u.toNat ∨ 1 < cls.toNat ∨ count.toNat < 1 ∨ 256 < count.toNat →
      exec (.recoverBlocks tag u first count cls budget) s = .next (s.answered 0x12 tag .badField []).finish) ∧
    ∀ n, u = unitByte n → cls.toNat ≤ 1 → 1 ≤ count.toNat → count.toNat ≤ 256 →
      ((s.drive n).descriptor = none →
        exec (.recoverBlocks tag u first count cls budget) s = .next (s.answered 0x12 tag .noDrive []).finish) ∧
      ∀ d, (s.drive n).descriptor = some d →
        ((∃ b, first.toNat ≤ b ∧ b < first.toNat + count.toNat ∧ ¬ s.Inside n b) →
          exec (.recoverBlocks tag u first count cls budget) s = .next (s.answered 0x12 tag .outOfMap []).finish) ∧
        ((∀ b, first.toNat ≤ b → b < first.toNat + count.toNat → s.Inside n b) →
          ((∃ a b, first.toNat ≤ a ∧ a < b ∧ b < first.toNat + count.toNat ∧
              s.translate n d.sectors a = s.translate n d.sectors b) →
            exec (.recoverBlocks tag u first count cls budget) s = .next (s.answered 0x12 tag .conflict []).finish) ∧
          ((∀ a b, first.toNat ≤ a → a < b → b < first.toNat + count.toNat →
              s.translate n d.sectors a ≠ s.translate n d.sectors b) →
            ((∃ b a, first.toNat ≤ b ∧ b < first.toNat + count.toNat ∧ s.translate n d.sectors b = some a ∧
                s.TrackTaken n a.cylinder a.head) →
              exec (.recoverBlocks tag u first count cls budget) s =
                .next (s.answered 0x12 tag .trackBusy []).finish) ∧
            ∀ tracks : List (Nat × Nat), tracks.Nodup →
              (∀ t, t ∈ tracks ↔ ∃ b a, first.toNat ≤ b ∧ b < first.toNat + count.toNat ∧
                s.translate n d.sectors b = some a ∧ t = (a.cylinder, a.head)) →
              (∀ t, t ∈ tracks → ¬ s.TrackTaken n t.1 t.2) → s.freeJobs < tracks.length →
              exec (.recoverBlocks tag u first count cls budget) s =
                .next (s.answered 0x12 tag .tableFull []).finish))

/-- RECOVER-BLOCKS makes one QUEUED job for each track that its blocks land on, in the lowest free entries, which
rise, with consecutive arrival numbers; then, where the unit is IDLE, selection runs and hands it one of them. Every
block of the run is wanted in exactly the record of its sector, with its number; no other record is wanted; no other
entry changes (R43, R46, R48, R139, R140). -/
def Obligations.RecoverBlocksCoversTheRun : Prop :=
  ∀ (tag : Tag) (n : UnitId) (first : BitVec 24) (count : BitVec 16) (cls : Byte) (budget : BitVec 16) (s : State)
    (d : Descriptor) (c : JobClass) (tracks : List (Nat × Nat)),
    s.takesAtOnce → (s.drive n).descriptor = some d → (cls = 0 ∧ c = .bulk) ∨ (cls = 1 ∧ c = .urgent) →
    1 ≤ count.toNat → count.toNat ≤ 256 → s.Inside n (first.toNat + count.toNat - 1) →
    (∀ a b, first.toNat ≤ a → a < b → b < first.toNat + count.toNat →
      s.translate n d.sectors a ≠ s.translate n d.sectors b) →
    (∀ b a, first.toNat ≤ b → b < first.toNat + count.toNat → s.translate n d.sectors b = some a →
      a.sector < d.sectors ∧ ¬ s.TrackTaken n a.cylinder a.head) →
    tracks = tracksOf (s.landings n d.sectors first.toNat count.toNat) → tracks.length ≤ s.freeJobs →
    ∃ (ids : List JobIx) (t : State),
      exec (.recoverBlocks tag (unitByte n) first count cls budget) s =
        .next ((t.runSelection n).answered 0x12 tag .ok (BitVec.ofNat 8 ids.length :: ids.map idByte)).finish ∧
      ids.length = tracks.length ∧ ids.Pairwise (fun a b => a < b) ∧
      (∀ j, j ∈ ids → ∀ k, k < j → k ∉ ids → s.job k ≠ none) ∧
      ((s.drive n).state ≠ .idle → t.runSelection n = t) ∧
      ((s.drive n).state = .idle → ¬ s.HasQueued n → 1 ≤ (s.unitProfiles n).active.passLimit →
        ∃ j dir y, t.select n = some (j, dir) ∧ j ∈ ids ∧ ((t.runSelection n).drive n).heldJob = some j ∧
          (t.runSelection n).directions[n] = dir ∧ (t.runSelection n).job j = some y ∧
          (y.state = .positioning ∨ y.state = .reading) ∧
          ∀ i, i ≠ j → (t.runSelection n).job i = t.job i) ∧
      t.arrival = s.arrival + BitVec.ofNat 32 ids.length ∧
      (∀ j, j ∉ ids → t.job j = s.job j) ∧ t.drives = s.drives ∧
      (∀ i j, ids[i]? = some j → s.job j = none ∧ ∃ track records, tracks[i]? = some track ∧
        t.job j = some (jobAdmitted n track.1 track.2 c tag budget.toNat records (s.arrival + BitVec.ofNat 32 i)) ∧
        records.length = d.sectors ∧
        ∀ sec r, records[sec]? = some r → ∃ block, r = recordAdmitted block.isSome block ∧
          ∀ b, block = some b ↔
            (first.toNat ≤ b ∧ b < first.toNat + count.toNat ∧
              s.translate n d.sectors b = some { cylinder := track.1, head := track.2, sector := sec })) ∧
      ∀ b, first.toNat ≤ b → b < first.toNat + count.toNat →
        ∃ a j x r, s.translate n d.sectors b = some a ∧ j ∈ ids ∧ t.job j = some x ∧ x.cylinder = a.cylinder ∧
          x.head = a.head ∧ x.records[a.sector]? = some r ∧ r.wanted = true ∧ r.block = some b

/-- ABORT of one job: it ends ABORTED with its counters and budget as they stood. A QUEUED job leaves its unit alone;
of a held one the unit lets go, and from SETTLING or TRACKING, with no other job QUEUED, it enters IDLE, while from
another state a motion in flight runs on. No other unit's job changes (R15, R51, R53, R56). ABORT with id 0 ends every
job of the unit that is QUEUED, POSITIONING or READING, answers their number, leaves the DRAINING ones and the other
units' jobs, and sends a unit that was SETTLING or TRACKING with a job to IDLE with none; a unit above 3 is BAD-FIELD
(R56). -/
def Obligations.AbortEndsJobs : Prop :=
  (∀ (tag : Tag) (id u : Byte) (s : State), s.takesAtOnce →
     (32 < id.toNat → exec (.abort tag id u) s = .next (s.answered 0x13 tag .badField []).finish) ∧
     ∀ j, id = idByte j →
       (s.job j = none → exec (.abort tag id u) s = .next (s.answered 0x13 tag .noJob []).finish) ∧
       ∀ x, s.job j = some x →
         (x.state = .draining → exec (.abort tag id u) s = .next (s.answered 0x13 tag .wrongState []).finish) ∧
         (x.state ≠ .draining →
           ∃ (t : State) (y : Job),
             exec (.abort tag id u) s = .next (t.answered 0x13 tag .ok [1]).finish ∧
             t.job j = some y ∧ y.state = .draining ∧ y.endCause = some .aborted ∧ y.counters = x.counters ∧
             y.budget = x.budget ∧ (∀ i z, s.job i = some z → z.unit ≠ x.unit → t.job i = some z) ∧
             ((s.drive x.unit).heldJob ≠ some j → t.drives = s.drives ∧ t.channel = s.channel) ∧
             ((s.drive x.unit).heldJob = some j →
               (t.drive x.unit).heldJob ≠ some j ∧
               ((s.drive x.unit).state ∉ [.settling, .tracking] →
                 t.drive x.unit =
                   { s.drive x.unit with heldJob := none, prepared := none, waiting := 0, passStrays := 0 }) ∧
               ((s.drive x.unit).state ∈ [.settling, .tracking] →
                 (∀ i z, s.job i = some z → z.unit = x.unit → z.state = .queued → i = j) →
                 t.drive x.unit = (s.drive x.unit).idled)))) ∧
  (∀ (tag : Tag) (s : State), s.takesAtOnce →
     (∀ u : Byte, 3 < u.toNat → exec (.abort tag 0 u) s = .next (s.answered 0x13 tag .badField []).finish) ∧
     ∀ n, s.JobsHeld →
       ∃ (t : State) (ended : List JobIx),
         exec (.abort tag 0 (unitByte n)) s =
           .next (t.answered 0x13 tag .ok [BitVec.ofNat 8 ended.length]).finish ∧
         ended.Nodup ∧ (∀ j, j ∈ ended ↔ s.Unended n j) ∧ (∀ j, j ∈ ended → t.Ended j .aborted) ∧
         (∀ j, j ∉ ended → t.job j = s.job j) ∧ (t.drive n).heldJob = none ∧
         ((s.drive n).heldJob ≠ none → (s.drive n).state ∈ [.settling, .tracking] → t.drive n = (s.drive n).idled) ∧
         ((s.drive n).heldJob = none → t.drives = s.drives ∧ t.channel = s.channel))

/-- A job that ends with no slab in a search is finalized at once: here one ended by ABORT. A VOTING record becomes
BEST_EFFORT with its slab's voted image, weak count and first 32 weak bits in weak order; a WANTED one BEST_EFFORT
with its raw image, or MISSING without one; the others stand. The job's slabs are freed, and the BEST_EFFORT records
are offered in ascending order and the JOB-END after them, or wait where the delivery queue is full (R52, R53, R54,
R96, R110, R111, R143, R145). -/
def Obligations.JobsAreFinalized : Prop :=
  ∀ (tag : Tag) (j : JobIx) (u : Byte) (s : State) (x : Job), s.takesAtOnce → s.job j = some x → x.state ≠ .draining →
    x.finalized = false → s.RepairStands → (∀ i k, s.slab i = some k → k.job = j → k.status ≠ .searching) →
    (∀ r ∈ x.records, r.state ≠ .bestEffort ∧ r.delivery ≠ .awaiting ∧
      (r.state ∈ [.wanted, .voting] → r.delivery = .none)) →
    (∀ r ∈ x.records, r.state = .voting → ∃ i k, r.slab = some i ∧ s.slab i = some k) →
    .jobEnd j ∉ s.queue → (∀ i z, s.job i = some z → z.unit = x.unit → z.state = .queued → i = j) →
    ∃ (t : State) (z : Job) (offered : List Nat),
      exec (.abort tag (idByte j) u) s = .next (t.answered 0x13 tag .ok [1]).finish ∧
      t.job j = some z ∧ z.state = .draining ∧ z.endCause = some .aborted ∧ z.finalized = true ∧
      z.records.length = x.records.length ∧
      (∀ (sec : Nat) r q, x.records[sec]? = some r → z.records[sec]? = some q → r.Finalized q (r.slab.bind s.slab)) ∧
      (∀ i k, s.slab i = some k → k.job = j → t.slab i = none) ∧
      offered.Pairwise (fun a b => a < b) ∧
      (∀ sec, sec ∈ offered ↔ ∃ q, z.records[sec]? = some q ∧ q.state = .bestEffort) ∧
      (s.queue.length + offered.length < 24 → t.queue = s.queue ++ offered.map (Entry.sector j) ++ [.jobEnd j] ∧
        ∀ (sec : Nat) q, z.records[sec]? = some q → q.state = .bestEffort → q.delivery = .queued) ∧
      (24 ≤ s.queue.length → t.queue = s.queue ∧
        ∀ (sec : Nat) q, z.records[sec]? = some q → q.state = .bestEffort → q.delivery = .awaiting)

/-- JOB-STATUS gives a live job's fields as they stand, PEEK-SECTOR one record's, with its slab's and its packed
image; both change nothing, and make their checks in order (R57, R150, R180). -/
def Obligations.JobReadsAnswer : Prop :=
  ∀ (tag : Tag) (id sector : Byte) (s : State), s.takesAtOnce →
    (id = 0 ∨ 32 < id.toNat →
      exec (.jobStatus tag id) s = .next (s.answered 0x14 tag .badField []).finish ∧
      exec (.peekSector tag id sector) s = .next (s.answered 0x15 tag .badField []).finish) ∧
    ∀ j, id = idByte j →
      (s.job j = none →
        exec (.jobStatus tag id) s = .next (s.answered 0x14 tag .noJob []).finish ∧
        exec (.peekSector tag id sector) s =
          .next (s.answered 0x15 tag (if 31 < sector.toNat then .badField else .noJob) []).finish) ∧
      ∀ x, s.job j = some x →
        exec (.jobStatus tag id) s =
          .next (s.answered 0x14 tag .ok
            ([id, unitByte x.unit] ++ beBytes 2 x.cylinder ++ [BitVec.ofNat 8 x.head, BitVec.ofNat 8 x.cls.code] ++
              beBytes 2 x.tag.toNat ++ beBytes 4 x.arrival.toNat ++ [BitVec.ofNat 8 x.state.code] ++
              beBytes 2 x.budget ++ [BitVec.ofNat 8 x.passCount, BitVec.ofNat 8 x.fruitless,
              BitVec.ofNat 8 ((x.endCause.map EndCause.code).getD 0xFF), if x.finalized then 1 else 0] ++
              beBytes 2 x.counters.passes ++ beBytes 2 x.counters.revolutions ++
              beBytes 2 x.counters.headerCaptures ++ beBytes 2 x.counters.blindUsed ++ beBytes 2 x.counters.strays ++
              beBytes 2 x.counters.recalibrations ++ beBytes 2 x.counters.ambiguous ++
              BitVec.ofNat 8 x.records.length ::
              x.records.flatMap (fun r => [BitVec.ofNat 8 r.state.code, BitVec.ofNat 8 r.delivery.code]))).finish ∧
        (31 < sector.toNat ∨ x.records.length ≤ sector.toNat →
          exec (.peekSector tag id sector) s = .next (s.answered 0x15 tag .badField []).finish) ∧
        ∀ r, sector.toNat ≤ 31 → x.records[sector.toNat]? = some r →
          exec (.peekSector tag id sector) s =
            .next (s.answered 0x15 tag .ok
              ([id, sector, BitVec.ofNat 8 r.state.code, BitVec.ofNat 8 r.reads,
                BitVec.ofNat 8 ((r.image.map (fun im => im.kind.code)).getD 0xFF),
                if r.block.isSome then 1 else 0] ++ beBytes 3 (r.block.getD 0) ++ [BitVec.ofNat 8 r.delivery.code] ++
                beBytes 2 r.weakCount ++ beBytes 4 (r.lastSync.getD 0xFFFFFFFF) ++
                (match r.slab.bind s.slab with
                  | some k => [1, BitVec.ofNat 8 k.folds, BitVec.ofNat 8 k.status.code, BitVec.ofNat 8 k.ambiguity] ++
                      beBytes 2 k.weakCount ++ [if k.pending.isSome then 1 else 0]
                  | none => [0, 0, 0, 0, 0, 0, 0]) ++
                packData ((r.image.map (fun im => im.words)).getD []))).finish

/-! ### The hold and the flags (R151 to R164) -/

/-- HOLD replaces the hold: d above 0 holds for d x 10 ms, 100,000 ticks each, from the moment the request runs, and d
= 0 releases it; the reply gives what remained of the former hold in units of 10 ms, rounded up (R151). When the time
runs out the hold is released (R153), and the clock stands at that moment or later (log entry 2); with no hold nothing
happens (log entry 11). -/
def Obligations.HoldSetsAndExpires : Prop :=
  (∀ (tag : Tag) (time : BitVec 16) (s : State), s.takesAtOnce →
    exec (.hold tag time) s =
      .next ({ s with hold := if time = 0 then none else some (s.clock + time.toNat * 100000) }.answered 0x16 tag .ok
        (beBytes 2 (match s.hold with | some ends => (ends - s.clock + 99999) / 100000 | none => 0))).finish) ∧
  (∀ (ends : Nat) (s : State), s.hold = some ends →
    exec .holdExpires s = .next ({ s with clock := max s.clock ends, hold := none }.finish)) ∧
  (∀ s : State, s.hold = none → exec .holdExpires s = .next s)

/-- READ-FLAGS reports the three sets and changes nothing (R163). CLEAR-FLAGS clears the flags it names, with their
owed notices, but for a SPINDLE_LOST whose index-lost mark is set, and answers every flag then set (R159, R160).
SET-NOTICES replaces the enables, withdraws the owed notices of those turned off, and answers the set and their number
(R162). A flag number above 17 is BAD-FIELD. -/
def Obligations.FlagRequestsAct : Prop :=
  ∀ (tag : Tag) (named : BitVec 24) (s : State), s.takesAtOnce →
    exec (.readFlags tag) s =
      .next (s.answered 0x17 tag .ok
        (beBytes 3 s.flags.set.toNat ++ beBytes 3 s.flags.enabled.toNat ++ beBytes 3 s.flags.owed.toNat)).finish ∧
    ((∃ k, 17 < k ∧ named.getLsbD k = true) →
      exec (.clearFlags tag named) s = .next (s.answered 0x18 tag .badField []).finish ∧
      exec (.setNotices tag named) s = .next (s.answered 0x19 tag .badField []).finish) ∧
    ((∀ k, 17 < k → named.getLsbD k = false) →
      (∃ fs : FlagUnit,
        exec (.clearFlags tag named) s =
          .next ({ s with flags := fs }.answered 0x18 tag .ok (beBytes 3 fs.set.toNat)).finish ∧
        fs.enabled = s.flags.enabled ∧
        ∀ k, k < 18 →
          (fs.set.getLsbD k = true ↔ s.flags.set.getLsbD k = true ∧ (named.getLsbD k = false ∨ s.HeldFlag k)) ∧
          (fs.owed.getLsbD k = true ↔ s.flags.owed.getLsbD k = true ∧ (named.getLsbD k = false ∨ s.HeldFlag k))) ∧
      ∃ fs : FlagUnit,
        exec (.setNotices tag named) s =
          .next ({ s with flags := fs }.answered 0x19 tag .ok
            (beBytes 3 named.toNat ++ [BitVec.ofNat 8 ((List.range 18).filter (fun k =>
              s.flags.owed.getLsbD k && !named.getLsbD k)).length])).finish ∧
        fs.set = s.flags.set ∧
        ∀ k, k < 18 →
          fs.enabled.getLsbD k = named.getLsbD k ∧
          fs.owed.getLsbD k = (s.flags.owed.getLsbD k && named.getLsbD k))

/-! ### Resets (R22, R23, R58, R181 to R183) -/

/-- RESET of a unit ends its jobs DRIVE_RESET, sets its elevator UP, takes back its pending swap, clears its flags but
a held SPINDLE_LOST, and sends the drive to IDLE or NOT_READY by its ready line with its position unknown and its
index timer afresh, stopped while the index-lost mark is set. The other units, the hold and the maps stay (R23, R58,
R160, R181). -/
def Obligations.ResetUnitActs : Prop :=
  ∀ (tag : Tag) (n : UnitId) (s : State) (d : Drive), s.takesAtOnce → s.JobsHeld → d = s.drive n →
    ∃ t : State,
      exec (.resetUnit tag (unitByte n)) s = .next (t.answered 0x1A tag .ok []).finish ∧
      (∀ j, s.Unended n j → t.Ended j .driveReset) ∧ (∀ j, ¬ s.Unended n j → t.job j = s.job j) ∧
      t.directions[n] = .up ∧ t.unitProfiles n = { s.unitProfiles n with swapPending := false } ∧
      t.flags.enabled = s.flags.enabled ∧
      (∀ k, k < 18 →
        (t.flags.set.getLsbD k = true ↔
          s.flags.set.getLsbD k = true ∧ (k / 4 ≠ n.val ∨ (k = 4 * n.val ∧ d.indexLost = true))) ∧
        (t.flags.owed.getLsbD k = true ↔
          s.flags.owed.getLsbD k = true ∧ (k / 4 ≠ n.val ∨ (k = 4 * n.val ∧ d.indexLost = true)))) ∧
      (d.state ∉ [.undefined, .unloading, .retracted] →
        t.drive n =
          { d.afresh (if d.ready then .idle else .notReady)
              (if d.indexLost then none else d.descriptor.map (fun x => s.clock + 3 * x.period)) with
            heldJob := none, deadRevs := 0, matchedSlots := 0, positioningSettle := 0 }) ∧
      (d.state ∈ [.undefined, .unloading, .retracted] → d.heldJob = none →
        t.drive n = { d with deferral := 0, deadRevs := 0, matchedSlots := 0, positioningSettle := 0 }) ∧
      (∀ m, m ≠ n → t.unitProfiles m = s.unitProfiles m ∧ t.directions[m] = s.directions[m] ∧
        t.drive m = { s.drive m with deferral := (t.drive m).deferral }) ∧
      t.hold = s.hold ∧ t.quirks = s.quirks ∧ t.extents = s.extents ∧ t.remaps = s.remaps ∧ t.link = s.link

/-- POWER_ON, from every state, gives each block its power-on values, with the line rate that the straps say; and the
reset state holds them too. The input lines keep their levels and the clock goes on (log entry 17; R22, R42, R58, R92,
R113, R129, R130, R135, R154, R164, R165, R183). RESET with another scope is BAD-FIELD. RESET ALL is answered OK and
then waits: until its reply has been sent, nothing else changes but that no request runs (R181, R182). -/
def Obligations.PowerOnAndResetAll : Prop :=
  ((∀ (straps : Fin 4) (s : State), ∃ t,
     exec (.powerOn straps) s = .next t ∧ t.PoweredOn ∧ t.link.rate = straps ∧ t.link.rts = s.link.rts ∧
     (∀ n, (t.drive n).ready = (s.drive n).ready) ∧ t.clock = s.clock) ∧
   State.reset.PoweredOn) ∧
  (∀ (tag : Tag) (s : State), s.takesAtOnce →
     (∀ scope : Byte, 3 < scope.toNat → scope ≠ 0xFF →
       exec (.resetUnit tag scope) s = .next (s.answered 0x1A tag .badField []).finish) ∧
     exec (.resetAll tag) s =
       .next ({ s with link := { s.link with
         resetWaiting := true
         replies := s.link.replies ++
           [({ frame := { kind := 0x80, tag := tag, body := [0x1A, 0] }, resetAll := true } : Reply)] } }.finish))

/-! ### The transmitter and the delivery queue (R142 to R149, R171 to R176) -/

/-- Dropping request-to-send begins no message and ends none; while it stays dropped nothing completes, unless the
byte under way was the last of its message, and dropping it again does nothing (log entry 12; R174, R175). When
request-to-send is asserted, an idle line takes the reply at the head of the reply queue, or else the notice of the
lowest-numbered owed flag, which leaves the owed set, or else, with no hold in force, the head of the delivery queue,
which stays there. A message under way goes on (R146, R152, R158, R174, R175). -/
def Obligations.LineGoverned : Prop :=
  ((∀ (lastByte : Bool) (s : State), s.link.rts = true → ∃ t,
     exec (.requestToSendDropped lastByte) s = .next t ∧ t.link.rts = false ∧ t.link.tx = s.link.tx ∧
     t.link.lastByte = (lastByte && s.link.tx.isSome) ∧ t.link.replies = s.link.replies ∧
     t.link.buffer = s.link.buffer ∧ t.queue = s.queue ∧ t.flags = s.flags ∧ t.jobs = s.jobs) ∧
   (∀ (lastByte : Bool) (s : State), s.link.rts = false → exec (.requestToSendDropped lastByte) s = .next s) ∧
   (∀ (c : Instr) (s : State), c ∈ [.replySent, .noticeSent, .sectorSent, .straySent, .jobEndSent] →
     s.link.rts = false → s.link.lastByte = false → exec c s = .next s)) ∧
  (∀ s : State, ∃ t,
     exec .requestToSendAsserted s = .next t ∧ t.link.rts = true ∧ t.queue = s.queue ∧
     t.link.replies = s.link.replies ∧ t.flags.set = s.flags.set ∧
     (∀ m, s.link.tx = some m → t.link.tx = some m ∧ t.flags = s.flags) ∧
     (s.link.tx = none →
       (∀ r rs, s.link.replies = r :: rs →
         t.link.tx = some { source := .reply, frame := r.frame } ∧ t.flags = s.flags) ∧
       (s.link.replies = [] →
         (∀ k, s.flags.owed.getLsbD k = true → (∀ i, i < k → s.flags.owed.getLsbD i = false) →
           (∃ f, t.link.tx = some { source := .notice, frame := f } ∧ f.kind = 0x84 ∧ f.tag = 0 ∧
             (16 ≤ k → f.body = [BitVec.ofNat 8 k, 0xFF, 0xFF]) ∧
             ∀ n : UnitId, k / 4 = n.val →
               f.body = [BitVec.ofNat 8 k, unitByte n, BitVec.ofNat 8 (s.drive n).state.code]) ∧
           ∀ i, i < 18 → (t.flags.owed.getLsbD i = true ↔ i ≠ k ∧ s.flags.owed.getLsbD i = true)) ∧
         (s.flags.owed = 0 →
           (∀ e es f, s.hold = none → s.queue = e :: es → s.compose e = some f →
             t.link.tx = some { source := .delivery e, frame := f }) ∧
           (s.hold ≠ none ∨ s.queue = [] → t.link.tx = none)))))

/-- The bodies of the SECTOR, STRAY and JOB-END messages, from the record, buffer and job as they stand (R148, R149).
-/
def Obligations.MessagesCarry : Prop :=
  (∀ (s : State) (j : JobIx) (x : Job) (sec : Nat) (r : Record), s.job j = some x → x.records[sec]? = some r →
    s.compose (.sector j sec) =
      some { kind := 0x81, tag := x.tag, body :=
        [idByte j, unitByte x.unit] ++ beBytes 2 x.cylinder ++ [BitVec.ofNat 8 x.head, BitVec.ofNat 8 sec,
         BitVec.ofNat 8 r.state.code, BitVec.ofNat 8 r.reads, if r.block.isSome then 1 else 0] ++
        beBytes 3 (r.block.getD 0) ++ beBytes 2 r.weakCount ++ BitVec.ofNat 8 r.weakList.length ::
        (r.weakList.flatMap (fun e => beBytes 2 (e.1 * 16 + e.2)) ++ packData ((r.image.map (·.words)).getD [])) }) ∧
  (∀ (s : State) (b : Fin 4) (x : Stray), s.strays[b] = some x →
    s.compose (.stray b) =
      some { kind := 0x82, tag := x.tag, body :=
        unitByte x.unit :: (beBytes 2 x.h1.toNat ++ beBytes 2 x.h2.toNat ++ beBytes 2 x.h3.toNat ++ packData x.words) }) ∧
  (∀ (s : State) (j : JobIx) (x : Job) (cause : EndCause), s.job j = some x → x.endCause = some cause →
    s.compose (.jobEnd j) =
      some { kind := 0x83, tag := x.tag, body :=
        [idByte j, unitByte x.unit] ++ beBytes 2 x.cylinder ++ [BitVec.ofNat 8 x.head, BitVec.ofNat 8 cause.code] ++
        beBytes 2 x.counters.passes ++ beBytes 2 x.counters.revolutions ++ beBytes 2 x.counters.headerCaptures ++
        beBytes 2 x.counters.blindUsed ++ beBytes 2 x.counters.strays ++ beBytes 2 x.counters.recalibrations ++
        beBytes 2 x.counters.ambiguous ++
        BitVec.ofNat 8 x.records.length :: x.records.map (fun r => BitVec.ofNat 8 r.state.code) })

/-- A reply sent leaves the reply queue, and the oldest frame that waited for its place runs. At the completion of a
RESET ALL reply every block takes its power-on values, the line rate kept; that the ready lines and request-to-send
keep their levels is the model's choice (log entry 17). A notice sent only frees the line. A completion that names no
message in transmission does nothing (log entry 11; R171, R173, R174, R175, R182). -/
def Obligations.RepliesAndNoticesComplete : Prop :=
  (∀ (s : State) (r : Reply) (rs : List Reply), s.Ends .reply → s.link.replies = r :: rs →
    (r.resetAll = false → s.link.buffer = [] ∨ s.link.resetWaiting = true →
      exec .replySent s =
        .next ({ s with link := { s.link with tx := none, lastByte := false, replies := rs } }.finish)) ∧
    (∀ f fs, r.resetAll = false → s.link.buffer = f :: fs → s.link.resetWaiting = false → rs.length = 7 →
      exec .replySent s =
        .next (({ s with link := { s.link with tx := none, lastByte := false, replies := rs, buffer := fs } }.runFrame
          f).finish)) ∧
    (r.resetAll = true →
      ∃ t, exec .replySent s = .next t ∧ t.PoweredOn ∧ t.link.rate = s.link.rate ∧ t.link.rts = s.link.rts ∧
        ∀ n, (t.drive n).ready = (s.drive n).ready)) ∧
  (∀ s : State, s.Ends .notice →
    exec .noticeSent s = .next ({ s with link := { s.link with tx := none, lastByte := false } }.finish)) ∧
  (∀ s : State, ¬ s.Ends .reply → exec .replySent s = .next s) ∧
  (∀ s : State, ¬ s.Ends .notice → exec .noticeSent s = .next s)

/-- With nothing waiting for the freed place, a SECTOR sent leaves its record SENT, a STRAY sent frees its buffer, a
JOB-END sent frees its job's entry, and the entry leaves the head of the delivery queue. A completion that names no
message in transmission does nothing (log entry 11; R55, R146, R147). A place freed in a full delivery queue admits
one waiting item of the oldest job that has one: the lowest sector that is AWAITING, or else its JOB-END (R144, R145).
-/
def Obligations.DeliveriesComplete : Prop :=
  (∀ (s : State) (e : Entry) (rest : List Entry), s.Ends (.delivery e) → s.queue = e :: rest → (∀ j, ¬ s.Waits j) →
     (∀ j sec x r, e = .sector j sec → s.job j = some x → x.records[sec]? = some r →
       exec .sectorSent s =
         .next ({ s.setJob j (some { x with records := x.records.set sec { r with delivery := .sent } }) with
           queue := rest, link := { s.link with tx := none, lastByte := false } }.finish) ∧
       exec .straySent s = .next s ∧ exec .jobEndSent s = .next s) ∧
     (∀ b, e = .stray b →
       exec .straySent s =
         .next ({ s with
           strays := s.strays.set b none, queue := rest,
           link := { s.link with tx := none, lastByte := false } }.finish) ∧
       exec .sectorSent s = .next s ∧ exec .jobEndSent s = .next s) ∧
     (∀ j, e = .jobEnd j →
       exec .jobEndSent s =
         .next ({ s.setJob j none with queue := rest, link := { s.link with tx := none, lastByte := false } }.finish) ∧
       exec .sectorSent s = .next s ∧ exec .straySent s = .next s)) ∧
  (∀ (s : State) (c : Instr) (e : Entry) (rest : List Entry) (j : JobIx) (x : Job),
     s.Ends (.delivery e) → e.Sent c → s.queue = e :: rest → rest.length = 23 → e ≠ .jobEnd j →
     s.job j = some x → s.Waits j →
     (∀ k y, k ≠ j → s.Waits k → s.job k = some y →
       0 < (y.arrival - x.arrival).toNat ∧ (y.arrival - x.arrival).toNat < 2147483648) →
     ∃ t, exec c s = .next t ∧
       (∀ sec r, x.records[sec]? = some r → r.delivery = .awaiting → e ≠ .sector j sec →
         (∀ i q, i < sec → x.records[i]? = some q → q.delivery ≠ .awaiting) →
         t.queue = rest ++ [.sector j sec] ∧
         ∃ y, t.job j = some y ∧ y.records[sec]? = some { r with delivery := .queued }) ∧
       ((∀ r ∈ x.records, r.delivery ≠ .awaiting) → t.queue = rest ++ [.jobEnd j]))

/-! ### Events of the drives (R8 to R20) -/

/-- An index timeout raises SPINDLE_LOST, sets the index-lost mark and stops the timer, and the clock stands at that
moment or later (log entry 2). A NOT_READY unit stays so; in the other states in which the timer runs the unload
begins and a held job ends DRIVE_RETRACTED. With the timer stopped nothing happens (log entry 11; R8, R17). The
heads-unloaded report ends an unload in RETRACTED, with RETRACTED raised, and is ignored in every other state (R20).
-/
def Obligations.SpindleLossUnloads : Prop :=
  ∀ (n : UnitId) (s : State),
    (∀ limit, (s.drive n).indexTimer = some limit →
      ((s.drive n).state = .notReady →
        exec (.indexTimeout n) s =
          .next (({ s with clock := max s.clock limit }.raise (4 * n.val)).setDrive n
            { s.drive n with indexTimer := none, indexLost := true }).finish) ∧
      ((s.drive n).state.Ready → (s.drive n).heldJob = none →
        exec (.indexTimeout n) s =
          .next (({ s with clock := max s.clock limit }.raise (4 * n.val)).setDrive n
            { (s.drive n).unloadBegun with indexLost := true }).finish) ∧
      (∀ j x, (s.drive n).state.Ready → (s.drive n).heldJob = some j → s.job j = some x → x.unit = n →
        x.state ≠ .draining →
        ∃ t : State, exec (.indexTimeout n) s = .next t.finish ∧
          t.drive n = { (s.drive n).unloadBegun with indexLost := true, heldJob := none } ∧ t.Ended j .driveRetracted ∧
          t.channel.state.holds n = false ∧ t.flags = s.flags.raise (4 * n.val) ∧ t.clock = max s.clock limit)) ∧
    ((s.drive n).indexTimer = none → exec (.indexTimeout n) s = .next s) ∧
    ((s.drive n).state = .unloading →
      exec (.headsUnloaded n) s =
        .next ((s.raise (4 * n.val + 2)).setDrive n
          { (s.drive n).quieted with state := .retracted, cylinder := none, offset := 0, indexTimer := none }).finish) ∧
    ((s.drive n).state ≠ .unloading → exec (.headsUnloaded n) s = .next s)

/-- Ready rising takes a NOT_READY unit to IDLE with the cylinder unknown, the monitor cleared and the index timer
restarted, and a QUEUED job of the unit is handed over at once: the one that selection chooses, for which the unit restores
(R10, R12, R46, R48, R128). Ready falling takes a ready unit to NOT_READY with its position lost and its timer kept, and ends a held
job DRIVE_LOST. In every other state only the level changes (R9). -/
def Obligations.ReadyLineFollowed : Prop :=
  ∀ (n : UnitId) (s : State),
    (∀ d, (s.drive n).state = .notReady →
      d = { (s.drive n).afresh .idle ((s.drive n).descriptor.map (fun x => s.clock + 3 * x.period)) with
            ready := true, offset := (s.drive n).offset } →
      (¬ s.HasQueued n → exec (.readyRise n) s = .next (s.setDrive n d).finish) ∧
      (s.HasQueued n → ∃ (j : JobIx) (dir : Direction) (x : Job) (slots : BitVec 16) (a : Actions),
        (s.setDrive n d).select n = some (j, dir) ∧ s.QueuedIn n x.cls j x ∧ s.Combines n x.cylinder x.head 0 slots a ∧
        exec (.readyRise n) s =
          .next (((s.setDirection n dir).setJob j (some { x with state := .positioning })).setDrive n
            ((({ d with heldJob := some j, target := some x.cylinder } : Drive).evaluated slots a).restoring
              s.clock)).finish)) ∧
    ((s.drive n).state ≠ .notReady →
      exec (.readyRise n) s = .next (s.setDrive n { s.drive n with ready := true }).finish) ∧
    ((s.drive n).state.Ready → (s.drive n).heldJob = none →
      exec (.readyFall n) s =
        .next (s.setDrive n
          { (s.drive n).afresh .notReady (s.drive n).indexTimer with
            ready := false, seekErrors := (s.drive n).seekErrors }).finish) ∧
    (∀ j x, (s.drive n).state.Ready → (s.drive n).heldJob = some j → s.job j = some x → x.unit = n →
      x.state ≠ .draining →
      ∃ t : State, exec (.readyFall n) s = .next t.finish ∧
        t.drive n =
          { (s.drive n).afresh .notReady (s.drive n).indexTimer with
            ready := false, seekErrors := (s.drive n).seekErrors, heldJob := none } ∧
        t.Ended j .driveLost ∧ t.channel.state.holds n = false) ∧
    (¬ (s.drive n).state.Ready →
      exec (.readyFall n) s = .next (s.setDrive n { s.drive n with ready := false }).finish)

/-- A completed seek makes the target the known cylinder, a completed restore makes it 0. The unit enters SPEED_FAULT
where the speed is OUT; with a job held it settles for the seek settle revolutions and the positioning settle, or
seeks on from cylinder 0 to its target with 500 ms, 5,000,000 ticks; with none it enters IDLE (R3, R11, R12). An
indication with no motion in flight is ignored (R3); that a seek's completion does nothing during a restore, nor a
restore's during a seek, is the model's choice (log entry 11). -/
def Obligations.PositioningCompletes : Prop :=
  (∀ (n : UnitId) (s : State) (d : Drive) (x : Descriptor) (c : Instr) (arrived : Option Nat),
    d = s.drive n → d.descriptor = some x →
    (c = .seekComplete n ∧ (∃ limit, d.motion = .seek limit) ∧ arrived = d.target) ∨
      (c = .restoreComplete n ∧ (∃ limit, d.motion = .restore limit) ∧ arrived = some 0) → d.state.timed = true →
    (d.monitor.speed = .out →
      exec c s = .next (s.setDrive n { d.quieted with state := .speedFault, cylinder := arrived }).finish) ∧
    (d.monitor.speed = .inTolerance →
      (d.heldJob = none → ¬ s.HasQueued n →
        exec c s = .next (s.setDrive n { d.idled with cylinder := arrived }).finish) ∧
      (d.heldJob ≠ none → arrived = d.target → 0 < x.settle + d.positioningSettle →
        exec c s =
          .next (s.setDrive n
            { d.quieted with
              state := .settling, cylinder := arrived, settleCount := x.settle + d.positioningSettle }).finish) ∧
      (d.heldJob ≠ none → arrived ≠ d.target →
        exec c s =
          .next (s.setDrive n
            { d.quieted with
              state := .seeking, cylinder := arrived, offset := 0, motion := .seek (s.clock + 5000000) }).finish))) ∧
  (∀ (n : UnitId) (s : State),
    ((∀ limit, (s.drive n).motion ≠ .seek limit) → exec (.seekComplete n) s = .next s) ∧
    ((∀ limit, (s.drive n).motion ≠ .restore limit) → exec (.restoreComplete n) s = .next s))

/-- A positioning with no revolutions to settle goes on to TRACKING at once, where its job is READING and the pass
start prepares the pass list's entry of the pass count: the slots that match it with their combined actions, the
offset limited by the unit's steps and by CLAMP_OFFSET, the strobe shift, and 1 revolution and the EXTRA_SETTLE to
wait where the offset changes. A pass limit already reached ends the job PASSES_EXHAUSTED (R14, R48, R59 to R63, R125
to R128). -/
def Obligations.TrackingStartsPass : Prop :=
  ∀ (n : UnitId) (s : State) (d : Drive) (x : Descriptor) (j : JobIx) (y : Job) (limit : Nat),
    d = s.drive n → d.descriptor = some x → d.motion = .seek limit → d.monitor.speed = .inTolerance →
    d.heldJob = some j → s.job j = some y → y.unit = n → y.state ≠ .draining → x.settle + d.positioningSettle = 0 →
    (s.unitProfiles n).active.passes ≠ [] →
    (y.passCount < (s.unitProfiles n).active.passLimit →
      ∃ p, s.PassPrepared n y p ∧
        exec (.seekComplete n) s =
          .next ((s.setJob j (some { y with state := if y.state = .positioning then .reading else y.state })).setDrive n
            (({ d with cylinder := d.target } : Drive).tracked.started p)).finish) ∧
    ((s.unitProfiles n).active.passLimit ≤ y.passCount →
      (∀ i z, s.job i = some z → z.unit = n → z.state = .queued → i = j) →
      ∃ t : State, exec (.seekComplete n) s = .next t.finish ∧ t.Ended j .passesExhausted ∧
        (t.drive n).state = .idle ∧ (t.drive n).heldJob = none ∧ (t.drive n).cylinder = d.target)

/-- At a seek error, indicated or timed out, the cylinder becomes unknown, SEEK_ERROR is raised and the count goes up;
at a time limit the clock stands at that moment or later (log entry 2). A unit with a held job restores, with 2,000
ms, 20,000,000 ticks, at the first and second; at the third the job ends SEEK_FAILED and the unit enters IDLE, as one
with no job does at once. With no motion in flight nothing happens (log entry 11; R11 to R13). -/
def Obligations.SeekErrorsHandled : Prop :=
  ∀ (n : UnitId) (s : State) (d : Drive), d = s.drive n → d.state.timed = true →
    (∀ c now, SeekErrorAt n s c now →
      (d.heldJob = none → ¬ s.HasQueued n →
        exec c s =
          .next (({ s with clock := now }.raise (4 * n.val + 3)).setDrive n
            { d.idled with cylinder := none }).finish) ∧
      (d.heldJob ≠ none → d.seekErrors + 1 < 3 →
        exec c s =
          .next (({ s with clock := now }.raise (4 * n.val + 3)).setDrive n
            { d.quieted with
              state := .recalibrating, cylinder := none, seekErrors := d.seekErrors + 1, offset := 0,
              motion := .restore (now + 20000000) }).finish) ∧
      (∀ j x, d.heldJob = some j → 3 ≤ d.seekErrors + 1 → s.job j = some x → x.unit = n → x.state ≠ .draining →
        d.state ≠ .tracking → (∀ i y, s.job i = some y → y.unit = n → y.state = .queued → i = j) →
        ∃ t : State, exec c s = .next t.finish ∧ t.drive n = { d.idled with cylinder := none } ∧
          t.Ended j .seekFailed ∧ t.flags = s.flags.raise (4 * n.val + 3))) ∧
    (d.motion = .still →
      exec (.seekErrorIndication n) s = .next s ∧ exec (.seekTimeout n) s = .next s ∧
      exec (.restoreTimeout n) s = .next s)

/-! ### Index pulses (R4 to R8, R14 to R18, R25 to R30, R39, R40, R49, R63 to R72, R119, R120) -/

/-- An index pulse. Of a unit that is IDLE or in SPEED_FAULT with no job: the deviation in ppm truncated toward zero,
the trim target rounded half away from zero and limited to 63, the current trim one step nearer, the speed status OUT
above the tolerance and IN again at the second period within it, with the drive state after it (R4, R5, R6, R8, R16). The
monitor does the same in every state that measures periods: an IDLE unit whose speed it makes or finds OUT enters
SPEED_FAULT, one that seeks, restores or stays in SPEED_FAULT keeps its state, and a held job uses a revolution of its
budget, whose end leaves the unit there without a job (R11, R12, R15, R16, R49). In NOT_READY, UNLOADING and RETRACTED
nothing is measured: the index-lost mark is cleared, the timer restarted in NOT_READY and stopped in the other two; in
UNDEFINED nothing happens (R4, R8, R22). A pending swap is taken but in UNDEFINED (R119, R120). The clock moves by the
command's operand (log entry 2), and the count of free index orders goes up by 1 (log entry 1).
-/
def Obligations.IndexMeasures : Prop :=
  (∀ (n : UnitId) (elapsed now : Nat) (cut : CutField) (s u : State) (d : Drive) (x : Descriptor),
    d = s.drive n → d.descriptor = some x → now = s.clock + elapsed →
    u = { s with clock := now, choices := s.choices + 1 } →
    (d.state = .idle ∧ d.monitor.speed = .inTolerance) ∨ (d.state = .speedFault ∧ d.monitor.speed = .out) →
    d.heldJob = none → ¬ s.HasQueued n → (s.unitProfiles n).swapPending = false → s.Granted →
    s.channel.state.holds n = false →
    (d.monitor.prevIndex = none →
      exec (.indexPulse n elapsed cut) s =
        .next (u.setDrive n
          { d with
            indexLost := false, indexTimer := some (now + 3 * x.period),
            monitor := { d.monitor with prevIndex := some now } }).finish) ∧
    (∀ before (dev target trim : Int) (m : Monitor), d.monitor.prevIndex = some before →
      dev = Int.tdiv ((((now - before : Nat) : Int) - x.period) * 1000000) x.period →
      target = max (-63) (min 63 (Int.sign dev * ((dev.natAbs + 50) / 100 : Nat))) →
      trim = (if d.monitor.locked then d.monitor.currentTrim + Int.sign (target - d.monitor.currentTrim) else target) →
      m = { prevIndex := some now, lastPeriod := some (now - before), deviation := dev, trimTarget := target,
            currentTrim := trim, locked := true, speed := .inTolerance, run := 0 } →
      (d.state = .idle → dev.natAbs ≤ x.tolerance →
        exec (.indexPulse n elapsed cut) s =
          .next (u.setDrive n
            { d with indexLost := false, indexTimer := some (now + 3 * x.period), monitor := m }).finish) ∧
      (d.state = .idle → x.tolerance < dev.natAbs →
        exec (.indexPulse n elapsed cut) s =
          .next ((u.raise (4 * n.val + 1)).setDrive n
            { d.quieted with
              state := .speedFault, indexLost := false, indexTimer := some (now + 3 * x.period),
              monitor := { m with speed := .out } }).finish) ∧
      (d.state = .speedFault → x.tolerance < dev.natAbs →
        exec (.indexPulse n elapsed cut) s =
          .next (u.setDrive n
            { d with
              indexLost := false, indexTimer := some (now + 3 * x.period),
              monitor := { m with speed := .out } }).finish) ∧
      (d.state = .speedFault → dev.natAbs ≤ x.tolerance → d.monitor.run = 0 →
        exec (.indexPulse n elapsed cut) s =
          .next (u.setDrive n
            { d with
              indexLost := false, indexTimer := some (now + 3 * x.period),
              monitor := { m with speed := .out, run := 1 } }).finish) ∧
      (d.state = .speedFault → dev.natAbs ≤ x.tolerance → 1 ≤ d.monitor.run →
        exec (.indexPulse n elapsed cut) s =
          .next (u.setDrive n
            { d.idled with
              indexLost := false, indexTimer := some (now + 3 * x.period), monitor := m }).finish))) ∧
  (∀ (m : Monitor) (x : Descriptor) (now : Nat),
    (m.prevIndex = none → m.index x now = { m with prevIndex := some now }) ∧
    (∀ before (dev target : Int), m.prevIndex = some before →
      dev = Int.tdiv ((((now - before : Nat) : Int) - x.period) * 1000000) x.period →
      target = max (-63) (min 63 (Int.sign dev * ((dev.natAbs + 50) / 100 : Nat))) →
      m.index x now =
        { prevIndex := some now, lastPeriod := some (now - before), deviation := dev, trimTarget := target, locked := true
          currentTrim := if m.locked then m.currentTrim + Int.sign (target - m.currentTrim) else target
          speed := if x.tolerance < dev.natAbs ∨ (m.speed = .out ∧ m.run = 0) then .out else .inTolerance
          run := if dev.natAbs ≤ x.tolerance ∧ m.speed = .out ∧ m.run = 0 then 1 else 0 })) ∧
  (∀ (n : UnitId) (elapsed now : Nat) (cut : CutField) (s u : State) (d e : Drive) (x : Descriptor),
    d = s.drive n → d.descriptor = some x → now = s.clock + elapsed → e = d.indexed x now →
    s.Granted → s.channel.state.holds n = false →
    u = (if d.monitor.speed = .inTolerance ∧ e.monitor.speed = .out then (s.swapped n now).raise (4 * n.val + 1)
      else s.swapped n now) →
    (d.state = .idle → d.heldJob = none →
      exec (.indexPulse n elapsed cut) s =
        .next (u.setDrive n
          (if e.monitor.speed = .out then { e.quieted with state := .speedFault } else e)).finish) ∧
    (d.state ∈ [.seeking, .recalibrating] ∨ (d.state = .speedFault ∧ e.monitor.speed = .out) →
      (d.heldJob = none → exec (.indexPulse n elapsed cut) s = .next (u.setDrive n e).finish) ∧
      (∀ j y, d.heldJob = some j → s.job j = some y → 2 ≤ y.budget →
        exec (.indexPulse n elapsed cut) s = .next ((u.setJob j (some y.spent)).setDrive n e).finish) ∧
      (∀ j y, d.heldJob = some j → s.job j = some y → y.budget = 1 → y.unit = n → y.state ≠ .draining →
        ∃ (t : State) (z : Job), exec (.indexPulse n elapsed cut) s = .next t.finish ∧ t.drive n = e.jobless ∧
          t.job j = some z ∧ z.budget = 0 ∧ z.state = .draining ∧ z.endCause = some .budgetExhausted ∧
          z.counters = y.spent.counters))) ∧
  (∀ (n : UnitId) (elapsed now : Nat) (cut : CutField) (s : State) (d : Drive), d = s.drive n → now = s.clock + elapsed →
    (d.state = .undefined →
      exec (.indexPulse n elapsed cut) s = .next ({ s with clock := now, choices := s.choices + 1 } : State).finish) ∧
    (d.state ∈ [.notReady, .unloading, .retracted] →
      exec (.indexPulse n elapsed cut) s =
        .next ((s.swapped n now).setDrive n
          { d with
            indexLost := false
            indexTimer := if d.state = .notReady then d.descriptor.map (fun x => now + 3 * x.period) else none }).finish))

/-- An index that makes or finds the speed OUT takes a unit that settles or tracks with a job to SPEED_FAULT: the job
stays held and uses a revolution of its budget, the pass loop is discarded, the offset and cylinder stay, and the
channel holds nothing for the unit, a reservation being returned with no capture; SPEED_FAULT is raised where the
speed was IN. At the index at which the speed is IN again the unit settles for 1 revolution on its target, seeks from
another cylinder, or restores from an unknown one, with the quirks of the job's track evaluated for these two (R16,
R49, R128). Where the index that finds the speed OUT also closes the unit's captured revolution, the closing stages run and
the pass is accounted (R38 to R40, R66). With the speed fault taken first there is no pass start and the pass stray count
goes to 0: a recalibration that is due makes the cylinder unknown, and the pass limit, where reached, ends the job
PASSES_EXHAUSTED. With the pass end taken first the unit is still TRACKING: it restores where a recalibration is due; where
the pass limit ends the job it goes through IDLE to SPEED_FAULT, said of a unit with no job QUEUED (log entry 23 has the
other case); and else it has the pass that it prepared discarded, with the offset applied (R68 to R70). Which is first is free (log entry 1); the clock moves by the command's operand (log entry 2).
-/
def Obligations.SpeedFaultHoldsTheJob : Prop :=
  (∀ (n : UnitId) (elapsed now : Nat) (cut : CutField) (s : State) (d e : Drive) (x : Descriptor) (j : JobIx) (y : Job),
    d = s.drive n → d.descriptor = some x → now = s.clock + elapsed → d.heldJob = some j → s.job j = some y →
    2 ≤ y.budget → (s.unitProfiles n).swapPending = false → s.channel.state ≠ .capturing n → e = d.indexed x now →
    (d.state ∈ [.settling, .tracking] → e.monitor.speed = .out →
      ∃ t : State, exec (.indexPulse n elapsed cut) s = .next t.finish ∧
        t.drive n = { e.quieted with state := .speedFault } ∧ t.job j = some y.spent ∧
        t.channel.state.holds n = false ∧
        t.flags = (if d.monitor.speed = .out then s.flags else s.flags.raise (4 * n.val + 1))) ∧
    (d.state = .speedFault → e.monitor.speed = .inTolerance →
      (d.cylinder = none → ∃ (t : State) (slots : BitVec 16) (a : Actions),
        exec (.indexPulse n elapsed cut) s = .next t.finish ∧ s.Combines n y.cylinder y.head 0 slots a ∧
        t.drive n = (e.evaluated slots a).restoring now ∧ t.job j = some y.spent) ∧
      (d.cylinder ≠ none → d.cylinder = d.target → ∃ t : State,
        exec (.indexPulse n elapsed cut) s = .next t.finish ∧ t.drive n = e.settling 1 ∧ t.job j = some y.spent) ∧
      (d.cylinder ≠ none → d.cylinder ≠ d.target → ∃ (t : State) (slots : BitVec 16) (a : Actions),
        exec (.indexPulse n elapsed cut) s = .next t.finish ∧ s.Combines n y.cylinder y.head 0 slots a ∧
        t.drive n = (e.evaluated slots a).seeking now ∧ t.job j = some y.spent))) ∧
  (∀ (n : UnitId) (elapsed now f k strays : Nat) (cut : CutField) (s u : State) (d e : Drive) (x : Descriptor) (j : JobIx)
    (y z w : Job) (rev : Revolution) (live : Bool) (due : Prop),
    now = s.clock + elapsed → s.Closes n d x j y rev now .out → StageOne s n cut j y d.passStrays z strays live →
    (s.unitProfiles n).swapPending = false → s.channel.deferred = [] → rev.profile.dead ≤ 8 → y.passCount < 255 →
    k = (if live then 0 else d.deadRevs + 1) → live = true ∨ k < rev.profile.dead →
    f = (if y.mark then 0 else min 255 (y.fruitless + 1)) →
    due = (rev.profile.strayLimit ≤ strays ∨ (0 < rev.profile.recalibrate ∧ rev.profile.recalibrate ≤ f)) →
    e = { d.indexed x now with deadRevs := k } → w = (z.passed 0).spent.recalibratedOnce →
    u = { s with clock := now, choices := s.choices + 1 } →
    exec (.indexPulse n elapsed cut) s = .next (u.indexIn n cut (Config.indexOrder s.choices)).finish ∧
    ∀ (order : IndexOrder) (t : State), t = u.indexIn n cut order →
      t.channel.rev = none ∧ t.channel.state.holds n = false ∧ t.flags = s.flags.raise (4 * n.val + 1) ∧
      (order.faultFirst = true →
        (due → ∃ (slots : BitVec 16) (a : Actions), s.Combines n y.cylinder y.head 0 slots a ∧
          t.drive n = ({ e.quieted with state := .speedFault, cylinder := none } : Drive).evaluated slots a ∧
          t.job j = some w) ∧
        (¬ due → (s.unitProfiles n).active.passLimit ≤ y.passCount + 1 →
          t.Ended j .passesExhausted ∧ t.drive n = { e.quieted with state := .speedFault, heldJob := none }) ∧
        (¬ due → y.passCount + 1 < (s.unitProfiles n).active.passLimit →
          t.drive n = { e.quieted with state := .speedFault } ∧ t.job j = some (z.passed f).spent)) ∧
      (order.faultFirst = false →
        (due → ∃ (slots : BitVec 16) (a : Actions), s.Combines n y.cylinder y.head 0 slots a ∧
          t.drive n = (e.evaluated slots a).restoring now ∧ t.job j = some w) ∧
        (¬ due → (s.unitProfiles n).active.passLimit ≤ y.passCount + 1 →
          t.Ended j .passesExhausted ∧ (¬ s.HasQueued n → t.drive n = { e.idled with state := .speedFault })) ∧
        (¬ due → y.passCount + 1 < (s.unitProfiles n).active.passLimit → (s.unitProfiles n).active.passes ≠ [] →
          ∃ p, s.PassPrepared n (z.passed f) p ∧ t.job j = some (z.passed f).spent ∧
            t.drive n = { e.quieted with state := .speedFault, offset := p.offset, matchedSlots := p.slots })))

/-- At an index in tolerance a held job uses one revolution of its budget, a TRACKING unit that waits and one that
settles count one revolution down, and a unit the channel is reserved for has its capture opened, with the trim,
pitch, window, match settings and profile fixed for the revolution. A waiting count that reaches 0 leaves the unit
READY; a settle count that reaches 0 takes it to TRACKING and its pass start; a budget that runs out ends the job
BUDGET_EXHAUSTED, and the unit enters IDLE (R14, R15, R30, R49, R60 to R63). While the channel serves another unit, the
deferral count of a requesting unit goes up by 1, holding at 255, and that of one that does not request stays (R7, R25,
R26); of a unit that begins or ceases to request at this index it does the one or the other, by the order that log entry 1
leaves free. The clock moves by the command's operand (log entry 2), and the count of free index orders goes up by 1. -/
def Obligations.IndexStartsWork : Prop :=
  ∀ (n : UnitId) (elapsed now w : Nat) (cut : CutField) (s u : State) (d e : Drive) (x : Descriptor) (j : JobIx) (y : Job),
    d = s.drive n → d.descriptor = some x → now = s.clock + elapsed → d.heldJob = some j → s.job j = some y →
    e = d.indexed x now → d.monitor.speed = .inTolerance → e.monitor.speed = .inTolerance →
    (s.unitProfiles n).swapPending = false → s.Granted →
    u = { s with clock := now, choices := s.choices + 1 }.setJob j (some y.spent) →
    (2 ≤ y.budget → d.state = .tracking → d.waiting = w + 2 → s.channel.state.holds n = false →
      exec (.indexPulse n elapsed cut) s = .next (u.setDrive n { e with waiting := w + 1 }).finish) ∧
    (2 ≤ y.budget → d.state = .settling → d.settleCount = w + 2 → s.channel.state.holds n = false →
      exec (.indexPulse n elapsed cut) s = .next (u.setDrive n { e with settleCount := w + 1 }).finish) ∧
    (∀ p, 2 ≤ y.budget → d.state = .tracking → s.channel.state = .reserved n → d.prepared = some p →
      exec (.indexPulse n elapsed cut) s =
        .next ({ u with
          channel :=
            { state := .capturing n, lastGranted := s.channel.lastGranted, strobe := p.strobe, slotSet := [],
              deferred := [],
              rev := some
                { job := j, trim := e.monitor.currentTrim, pitch := e.monitor.lastPeriod.getD 0 / x.sectors,
                  window := e.monitor.lastPeriod.getD 0 / x.sectors / 4, cylinder := y.cylinder, head := y.head,
                  headerMask := p.actions.headerMask, noBlind := p.actions.noBlind,
                  weightCap := p.actions.weightCap, noVote := p.actions.noVote,
                  profile := (s.unitProfiles n).active },
              openHeader := none, liveSeen := false } }.setDrive n { e with passStrays := 0 }).finish) ∧
    (2 ≤ y.budget → d.state = .tracking → d.waiting = 1 → s.channel.state.holds n = false →
      ∃ t : State, exec (.indexPulse n elapsed cut) s = .next t ∧ t.job j = some y.spent ∧
        t.drive n = { e with waiting := 0, deferral := (t.drive n).deferral } ∧
        ∀ m, m ≠ n → s.ServedTo m →
          (t.drive n).deferral = d.deferral ∨ (t.drive n).deferral = min 255 (d.deferral + 1)) ∧
    (∀ m, 2 ≤ y.budget → d.state = .tracking → d.waiting = 0 → m ≠ n → s.ServedTo m →
      (d.monitor.Settled → e.monitor.Settled → y.passCount < (s.unitProfiles n).active.passLimit →
        exec (.indexPulse n elapsed cut) s = .next (u.setDrive n { e with deferral := min 255 (d.deferral + 1) }).finish) ∧
      (¬ d.monitor.Settled → ¬ e.monitor.Settled →
        exec (.indexPulse n elapsed cut) s = .next (u.setDrive n e).finish) ∧
      ((d.monitor.Settled ↔ ¬ e.monitor.Settled) → y.passCount < (s.unitProfiles n).active.passLimit →
        exec (.indexPulse n elapsed cut) s = .next (u.setDrive n e).finish ∨
          exec (.indexPulse n elapsed cut) s =
            .next (u.setDrive n { e with deferral := min 255 (d.deferral + 1) }).finish)) ∧
    (2 ≤ y.budget → d.state = .settling → d.settleCount = 1 → s.channel.state.holds n = false →
      (s.unitProfiles n).active.passes ≠ [] → y.passCount < (s.unitProfiles n).active.passLimit →
      ∃ (t : State) (p : Prepared), exec (.indexPulse n elapsed cut) s = .next t ∧ s.PassPrepared n y p ∧
        t.job j = some { y.spent with state := if y.state = .positioning then .reading else y.state } ∧
        t.drive n = { e.tracked.started p with deferral := (t.drive n).deferral }) ∧
    (y.budget = 1 → y.unit = n → y.state ≠ .draining → d.state = .tracking → d.waiting = w + 2 →
      s.channel.state.holds n = false → (∀ i z, s.job i = some z → z.unit = n → z.state = .queued → i = j) →
      ∃ (t : State) (z : Job), exec (.indexPulse n elapsed cut) s = .next t ∧ t.job j = some z ∧ z.budget = 0 ∧
        z.state = .draining ∧ z.endCause = some .budgetExhausted ∧ z.counters = y.spent.counters ∧
        t.drive n = e.idled)

/-- The index that closes a live captured revolution, with no recalibration due. First a capture whose window is open is
complete without data, and a GOOD one is handed over, counted as a header capture or as a stray; a header or data field cut
off by the index counts in the dead-revolution test by the amplitude it showed (R35, R37, R38, R39). Then the pass is
counted, the fruitless count goes up, or to 0 where the pass recovered a sector, the back-off of 2 to the lesser of
that count and the limit, less 1, joins the waiting count, the next pass is prepared, a revolution of the budget is
used and the channel gives up the revolution (R39, R40, R49, R60 to R63, R66 to R68). It holds in every order that log
entry 1 leaves open; the index comes the operand's ticks later (log entry 2). -/
def Obligations.PassEndAccounts : Prop :=
  ∀ (n : UnitId) (elapsed f k strays : Nat) (cut : CutField) (s : State) (d : Drive) (x : Descriptor) (j : JobIx)
    (y z : Job) (rev : Revolution),
    s.Closes n d x j y rev (s.clock + elapsed) .inTolerance → StageOne s n cut j y d.passStrays z strays true →
    (s.unitProfiles n).swapPending = false → s.channel.deferred = [] → f = (if y.mark then 0 else min 255 (y.fruitless + 1)) →
    k = 2 ^ min f rev.profile.backoff - 1 → strays < rev.profile.strayLimit →
    rev.profile.recalibrate = 0 ∨ f < rev.profile.recalibrate → (s.unitProfiles n).active.passes ≠ [] →
    y.passCount < 255 → y.passCount + 1 < (s.unitProfiles n).active.passLimit →
    ∃ (t : State) (p : Prepared),
      exec (.indexPulse n elapsed cut) s = .next t ∧ t.job j = some (z.passed f).spent ∧
      s.PassPrepared n (z.passed f) p ∧
      t.drive n =
        { ({ d.indexed x (s.clock + elapsed) with
              deadRevs := 0, passStrays := strays, waiting := min 255 (d.waiting + k) } : Drive).started p with
          deferral := (t.drive n).deferral } ∧
      t.channel.rev = none ∧ t.channel.state ≠ .capturing n

/-- At the index that closes a captured revolution, once a capture whose window is open and a field cut off by the index
are settled (R35, R37, R38): strays at the stray limit, or a fruitless count at a recalibrate threshold above 0, order a
recalibration: the pass is counted, the fruitless count goes to 0, the quirks of the job's track are evaluated and the unit
restores with no pass start (R66, R68, R69). A revolution in which no field came at full amplitude, those settled by the
index among them, is dead: the dead count goes up and the pass ends as usual, but at the dead limit the unit unloads, the
job ends DRIVE_RETRACTED and there is no pass end (R18, R39). It holds in every order that log entry 1 leaves open; the
index comes the operand's ticks later (log entry 2). -/
def Obligations.RecalibrationsAndDeadRevolutions : Prop :=
  ∀ (n : UnitId) (elapsed f strays : Nat) (cut : CutField) (s : State) (d : Drive) (x : Descriptor) (j : JobIx)
    (y z : Job) (rev : Revolution) (live : Bool),
    s.Closes n d x j y rev (s.clock + elapsed) .inTolerance → StageOne s n cut j y d.passStrays z strays live →
    (s.unitProfiles n).swapPending = false → s.channel.deferred = [] →
    f = (if y.mark then 0 else min 255 (y.fruitless + 1)) → y.passCount < 255 → rev.profile.dead ≤ 8 →
    (live = true →
      rev.profile.strayLimit ≤ strays ∨ (0 < rev.profile.recalibrate ∧ rev.profile.recalibrate ≤ f) →
      ∃ (t : State) (slots : BitVec 16) (a : Actions),
        exec (.indexPulse n elapsed cut) s = .next t ∧ s.Combines n y.cylinder y.head 0 slots a ∧
        t.drive n =
          (({ d.indexed x (s.clock + elapsed) with deadRevs := 0 } : Drive).evaluated slots a).restoring
            (s.clock + elapsed) ∧
        t.job j = some (z.passed 0).spent.recalibratedOnce ∧
        t.channel.rev = none ∧ t.channel.state ≠ .capturing n) ∧
    (live = false → d.deadRevs + 1 < rev.profile.dead → strays < rev.profile.strayLimit →
      rev.profile.recalibrate = 0 ∨ f < rev.profile.recalibrate →
      y.passCount + 1 < (s.unitProfiles n).active.passLimit →
      ∃ t : State, exec (.indexPulse n elapsed cut) s = .next t ∧ t.job j = some (z.passed f).spent ∧
        (t.drive n).deadRevs = d.deadRevs + 1 ∧ (t.drive n).state = .tracking ∧ (t.drive n).heldJob = some j) ∧
    (live = false → rev.profile.dead ≤ d.deadRevs + 1 →
      ∃ (t : State) (q : Job), exec (.indexPulse n elapsed cut) s = .next t ∧
        t.drive n = { (d.indexed x (s.clock + elapsed)).unloadBegun with heldJob := none } ∧
        t.job j = some q ∧ q.state = .draining ∧ q.endCause = some .driveRetracted ∧ q.passCount = y.passCount ∧
        t.channel.state.holds n = false)

/-- A pending swap is taken at the unit's next index in every state but UNDEFINED: the staged profile becomes the
active one and the active one the staged, and the mark is cleared; no other unit's profiles change (R119, R120). A
pass loop that waits has its pass start run again under the new profile, with its waiting kept, or ends the job
PASSES_EXHAUSTED at the new limit; and at the index that closes a captured revolution the next pass is prepared under
the new profile, the pass having been accounted (R40, R60 to R63, R72). It holds in every order that log entry 1
leaves open; the index comes the operand's ticks later (log entry 2). -/
def Obligations.IndexSwapsProfiles : Prop :=
  (∀ (n : UnitId) (elapsed : Nat) (cut : CutField) (s : State), ∃ t,
    exec (.indexPulse n elapsed cut) s = .next t ∧
    ((s.unitProfiles n).swapPending = true → (s.drive n).state ≠ .undefined →
      t.unitProfiles n = (s.unitProfiles n).exchanged) ∧
    ((s.unitProfiles n).swapPending = false ∨ (s.drive n).state = .undefined → t.unitProfiles n = s.unitProfiles n) ∧
    ∀ m, m ≠ n → t.unitProfiles m = s.unitProfiles m) ∧
  (∀ (n : UnitId) (elapsed w : Nat) (cut : CutField) (s u : State) (d e : Drive) (x : Descriptor) (j : JobIx) (y : Job),
    d = s.drive n → d.descriptor = some x → d.heldJob = some j → s.job j = some y → 2 ≤ y.budget →
    e = d.indexed x (s.clock + elapsed) → d.monitor.speed = .inTolerance → e.monitor.speed = .inTolerance →
    (s.unitProfiles n).swapPending = true → u = s.setProfiles n (s.unitProfiles n).exchanged →
    d.state = .tracking → d.prepared ≠ none → d.waiting = w + 2 → s.channel.state.holds n = false →
    (s.unitProfiles n).staged.passes ≠ [] →
    (y.passCount < (s.unitProfiles n).staged.passLimit →
      ∃ (t : State) (p : Prepared), exec (.indexPulse n elapsed cut) s = .next t ∧ u.PassPrepared n y p ∧
        t.job j = some y.spent ∧ (t.drive n).state = .tracking ∧ (t.drive n).prepared = some p ∧
        (t.drive n).offset = p.offset ∧ (t.drive n).matchedSlots = p.slots ∧
        (p.offset = d.offset → (t.drive n).waiting = w + 1) ∧
        (p.offset ≠ d.offset → w + 3 + p.actions.extraSettle.getD 0 ≤ 255 →
          (t.drive n).waiting = w + 2 + p.actions.extraSettle.getD 0)) ∧
    ((s.unitProfiles n).staged.passLimit ≤ y.passCount → y.unit = n → y.state ≠ .draining →
      (∀ i z, s.job i = some z → z.unit = n → z.state = .queued → i = j) →
      ∃ t : State, exec (.indexPulse n elapsed cut) s = .next t ∧ t.Ended j .passesExhausted ∧
        (t.drive n).state = .idle ∧ (t.drive n).heldJob = none)) ∧
  (∀ (n : UnitId) (elapsed f strays : Nat) (cut : CutField) (s u : State) (d : Drive) (x : Descriptor) (j : JobIx)
    (y z : Job) (rev : Revolution),
    s.Closes n d x j y rev (s.clock + elapsed) .inTolerance → StageOne s n cut j y d.passStrays z strays true →
    (s.unitProfiles n).swapPending = true → u = s.setProfiles n (s.unitProfiles n).exchanged → s.channel.deferred = [] →
    f = (if y.mark then 0 else min 255 (y.fruitless + 1)) → strays < rev.profile.strayLimit →
    rev.profile.recalibrate = 0 ∨ f < rev.profile.recalibrate → (s.unitProfiles n).staged.passes ≠ [] →
    y.passCount < 255 → y.passCount + 1 < (s.unitProfiles n).active.passLimit →
    y.passCount + 1 < (s.unitProfiles n).staged.passLimit →
    ∃ (t : State) (p : Prepared), exec (.indexPulse n elapsed cut) s = .next t ∧
      u.PassPrepared n (z.passed f) p ∧ t.job j = some (z.passed f).spent ∧ (t.drive n).state = .tracking ∧
      (t.drive n).prepared = some p ∧ (t.drive n).offset = p.offset ∧ (t.drive n).matchedSlots = p.slots)

/-- What follows every command (log entry 8). With the channel IDLE the arbiter grants it: of the requesting units, to
one overdue with the highest deferral count, or else one with an URGENT job, or else any, in round-robin order from
the unit after the last granted; the channel is RESERVED for it and its deferral count is 0. With the channel held or
no unit requesting, neither changes (R27, R28, R29). Nothing else of State changes but the gap's start, the message in
transmission and the owed set. -/
def Obligations.FollowUpGrants : Prop :=
  (∀ (s : State) (rank : UnitId → Nat) (overdue urgent : UnitId → Prop) (n : UnitId),
    rank = (fun m => (m.val + 3 - s.channel.lastGranted.val) % 4) →
    overdue = (fun m => 0 < (s.unitProfiles m).active.deferral ∧
      (s.unitProfiles m).active.deferral ≤ (s.drive m).deferral) →
    urgent = (fun m => ∃ j x, (s.drive m).heldJob = some j ∧ s.job j = some x ∧ x.cls = .urgent) →
    s.channel.state = .idle → s.requesting n = true →
    (overdue n ∧ ∀ m, m ≠ n → s.requesting m = true → overdue m →
        (s.drive m).deferral < (s.drive n).deferral ∨
          ((s.drive m).deferral = (s.drive n).deferral ∧ rank n < rank m)) ∨
      ((∀ m, s.requesting m = true → ¬ overdue m) ∧
        ((urgent n ∧ ∀ m, m ≠ n → s.requesting m = true → urgent m → rank n < rank m) ∨
          ((∀ m, s.requesting m = true → ¬ urgent m) ∧ ∀ m, m ≠ n → s.requesting m = true → rank n < rank m))) →
    s.finish.channel = { s.channel with state := .reserved n, lastGranted := n } ∧
    s.finish.drives = (s.setDrive n { s.drive n with deferral := 0 }).drives) ∧
  (∀ s : State, s.channel.state ≠ .idle ∨ (∀ n, s.requesting n = false) →
    s.finish.channel = s.channel ∧ s.finish.drives = s.drives) ∧
  (∀ s : State, s.finish =
    { s with
      channel := s.finish.channel, drives := s.finish.drives,
      link := { s.link with
        gapFrom := s.finish.link.gapFrom, tx := s.finish.link.tx, lastByte := s.finish.link.lastByte },
      flags := { s.flags with owed := s.finish.flags.owed } })

/-! ### Jobs: selection (R47) -/

/-- Selection takes the oldest URGENT job where one is QUEUED, and keeps the elevator's direction; else the nearest
BULK job ahead, the older of two on one cylinder; where none lies ahead the elevator turns first; with none QUEUED it
takes none (R43, R47). -/
def Obligations.ElevatorChooses : Prop :=
  ∀ (s : State) (n : UnitId) (at_ : Nat), at_ = (s.drive n).cylinder.getD 0 →
    (∀ j x, s.QueuedIn n .urgent j x → (∀ k y, k ≠ j → s.QueuedIn n .urgent k y → x.OlderThan y) →
      s.select n = some (j, s.directions[n])) ∧
    (∀ (dir : Direction) (j : JobIx) (x : Job), (∀ k y, ¬ s.QueuedIn n .urgent k y) → s.QueuedIn n .bulk j x →
      dir.Ahead at_ x.cylinder →
      (∀ k y, k ≠ j → s.QueuedIn n .bulk k y → dir.Ahead at_ y.cylinder →
        ((x.cylinder : Int) - at_).natAbs < ((y.cylinder : Int) - at_).natAbs ∨
          (x.cylinder = y.cylinder ∧ x.OlderThan y)) →
      dir = s.directions[n] ∨ (∀ k y, s.QueuedIn n .bulk k y → ¬ (s.directions[n]).Ahead at_ y.cylinder) →
      s.select n = some (j, dir)) ∧
    ((∀ c k y, ¬ s.QueuedIn n c k y) → s.select n = none)

/-! ### Captures, votes and repair (R31 to R39, R76 to R111) -/

/-- A header read while a revolution is captured first closes a window that is open, as its close alone would, and
starts a capture: GOOD where its three words pass their check, identified where they match the job's track, a repeat
where its sector is in the slot set, which it joins (R31, R32, R33); its window opens at the later of its two ticks
(log entry 20). A window that closes without data hands a GOOD capture over without data, and leaves another to the
dead-revolution test alone (R33, R35, R39, R76, R81); with no revolution captured, fields are not read (R24) and a
window's close does nothing (log entry 11). -/
def Obligations.HeadersAreRead : Prop :=
  (∀ (n : UnitId) (sync last : Nat) (h1 h2 h3 : Word12) (low : Bool) (s u : State) (rev : Revolution) (x : Descriptor)
    (c : Capture) (named : Bool),
    s.channel.state = .capturing n → s.channel.rev = some rev → u = s.closeWindow rev →
    (∀ h, s.channel.openHeader = some h → h.capture.data = none) →
    (s.drive n).descriptor = some x →
    (named = true ↔ WordsPass [h1, h2, h3] ∧ h2.toNat / 64 = rev.head ∧ h2.toNat % 64 < x.sectors ∧
      (∀ m, rev.headerMask = some m → h1.toNat % 2 ^ m = rev.cylinder % 2 ^ m) ∧
      (rev.headerMask = none → h1.toNat = rev.cylinder)) →
    (c.status = .good ↔ WordsPass [h1, h2, h3]) → (c.status = .badCheck ↔ ¬ WordsPass [h1, h2, h3]) →
    c = { unit := n, job := rev.job, ident := if named then some .header else none,
          sector := if named then some (h2.toNat % 64) else none,
          repeated := named && s.channel.slotSet.contains (h2.toNat % 64), status := c.status,
          header := some (h1, h2, h3), data := none, low := low } →
    exec .dataWindowCloses s = .next u.finish ∧ (s.channel.openHeader = none → u = s) ∧
    ∃ slots : List Nat,
      exec (.headerFieldRead sync last h1 h2 h3 low) s =
        .next ({ u with channel :=
          { u.channel with
            slotSet := slots, openHeader := some { capture := c, last := max sync last } } }.finish) ∧
      ∀ k, k ∈ slots ↔ k ∈ s.channel.slotSet ∨ (named = true ∧ k = h2.toNat % 64)) ∧
  (∀ (n : UnitId) (s : State) (rev : Revolution) (h : OpenHeader),
    s.channel.state = .capturing n → s.channel.rev = some rev → s.channel.openHeader = some h →
    (h.capture.status ≠ .good →
      exec .dataWindowCloses s =
        .next ({ s with channel :=
          { s.channel with openHeader := none, liveSeen := s.channel.liveSeen || !h.capture.low } }.finish)) ∧
    (∀ x sec, h.capture.status = .good → h.capture.ident = some .header → h.capture.repeated = false →
      h.capture.sector = some sec → h.capture.data = none → s.job h.capture.job = some x → x.state ≠ .draining →
      exec .dataWindowCloses s =
        .next ({ s.setJob h.capture.job (some { x with counters :=
            { x.counters with headerCaptures := min 65535 (x.counters.headerCaptures + 1) } }) with
          channel :=
            { s.channel with openHeader := none, liveSeen := s.channel.liveSeen || !h.capture.low } }.finish))) ∧
  (∀ (s : State), (∀ n, s.channel.state ≠ .capturing n) →
    (∀ sync last h1 h2 h3 low, exec (.headerFieldRead sync last h1 h2 h3 low) s = .next s) ∧
    (∀ sync words timing low, exec (.dataFieldRead sync words timing low) s = .next s) ∧
    exec .dataWindowCloses s = .next s)

/-- A data field that passes its check, in the window of a GOOD header of a wanted record, the window's last tick
being inside it (log entry 15), makes the record GOOD with that image: a read more, offered for delivery, AWAITING
where the queue is full, the job marked, the header capture counted, the sync time kept (R33, R76, R80, R87, R88, R97,
R143, R180). The job goes on while another record is outstanding. So does a passing field of a VOTING record, whose slab is
freed, a pending capture discarded unfolded: a QUEUED slab leaves the repair FIFO; a SEARCHING one has its search abandoned,
and the repair unit begins on the next slab of the FIFO, or is IDLE where there is none (R80, R88, R91, R101, R102, R108).
-/
def Obligations.GoodDataRecovers : Prop :=
  (∀ (n : UnitId) (sync sec : Nat) (words : List Word12) (timing : List (List Transition)) (low : Bool) (s : State)
    (rev : Revolution) (h : OpenHeader) (d : Descriptor) (x : Job) (r : Record),
    s.Hears n rev h d x sync words → h.capture.Names x sec r → WordsPass words → r.wanted = true → r.state = .wanted →
    r.slab = none → (∃ (i : Nat) (q : Record), i ≠ sec ∧ x.records[i]? = some q ∧ q.Outstanding) →
    ∀ u : DeliveryStatus → State, (∀ delivery, u delivery =
      { s.setJob h.capture.job (some { x.heard with
          mark := true
          records := x.records.set sec { r with
            state := .good, reads := min 255 (r.reads + 1), image := some { kind := .final, words := words },
            delivery := delivery, lastSync := some sync } }) with
        channel := s.channel.afterField (h.capture.low && low) }) →
    (s.queue.length < 24 →
      exec (.dataFieldRead sync words timing low) s =
        .next ({ u .queued with queue := s.queue ++ [Entry.sector h.capture.job sec] }.finish)) ∧
    (24 ≤ s.queue.length → exec (.dataFieldRead sync words timing low) s = .next (u .awaiting).finish)) ∧
  (∀ (n : UnitId) (sync sec : Nat) (words : List Word12) (timing : List (List Transition)) (low : Bool) (s : State)
    (rev : Revolution) (h : OpenHeader) (d : Descriptor) (x : Job) (r : Record) (i : SlabId) (k : Slab) (u : State → State),
    s.Hears n rev h d x sync words → h.capture.Names x sec r → WordsPass words → r.wanted = true → r.state = .voting →
    r.slab = some i → s.slab i = some k → s.RepairStands →
    (∃ (m : Nat) (q : Record), m ≠ sec ∧ x.records[m]? = some q ∧ q.Outstanding) →
    (∀ v : State, u v =
      { (v.setSlab i none).setJob h.capture.job (some { x.heard with
          mark := true
          records := x.records.set sec { r with
            state := .good, reads := min 255 (r.reads + 1), image := some { kind := .final, words := words }, slab := none,
            delivery := if s.queue.length < 24 then .queued else .awaiting, lastSync := some sync } }) with
        channel := s.channel.afterField (h.capture.low && low)
        queue := if s.queue.length < 24 then s.queue ++ [Entry.sector h.capture.job sec] else s.queue }) →
    (k.status = .idle → exec (.dataFieldRead sync words timing low) s = .next (u s).finish) ∧
    (k.status = .queued →
      exec (.dataFieldRead sync words timing low) s = .next (u { s with fifo := s.fifo.filter (fun m => m ≠ i) }).finish) ∧
    (k.status = .searching → s.fifo = [] →
      exec (.dataFieldRead sync words timing low) s = .next (u { s with search := none }).finish) ∧
    (∀ m z rest, k.status = .searching → s.fifo = m :: rest → s.slab m = some z →
      (z.acc.filter (fun a => a.natAbs < z.thresholds.weak)).length ≤ 3 →
      ∃ f : Search, f.Of m z ∧
        exec (.dataFieldRead sync words timing low) s =
          .next (u ({ s with search := some f, fifo := rest }.setSlab m (some { z with status := .searching }))).finish))

/-- A recovery of the last outstanding record completes the job: it ends COMPLETE and is finalized at once, its unit lets go
of it and enters IDLE where it settled or tracked, and the channel is released. Its SECTOR joins the delivery queue and the
JOB-END after it; where one place is free the JOB-END is held back, and where none is the record is AWAITING (R15, R41, R51,
R52, R54, R80, R88, R143, R145). The recovery is a passing data field of a WANTED record, or of a VOTING one; a failing one
whose fold makes it VOTED; the end of a search that makes it REPAIRED; or the fold of the capture that such a search held,
where the outcome is NONE or AMBIGUOUS (R71, R98, R104, R107). A VOTING record's slab is freed. A window's last tick is
inside it (log entry 15). -/
def Obligations.JobsComplete : Prop :=
  (∀ (n : UnitId) (sync sec : Nat) (words : List Word12) (timing : List (List Transition)) (low : Bool) (s : State)
    (rev : Revolution) (h : OpenHeader) (d : Descriptor) (x : Job) (r : Record) (j : JobIx),
    s.Hears n rev h d x sync words → h.capture.Names x sec r → WordsPass words → r.wanted = true → r.state = .wanted →
    r.slab = none → j = h.capture.job → x.unit = n → (s.drive n).heldJob = some j → (s.drive n).state = .tracking →
    (∀ (i : Nat) q, i ≠ sec → x.records[i]? = some q →
      q.state ∈ [.notWanted, .good, .voted, .repaired] ∧ q.delivery ≠ .awaiting) →
    (∀ i k, s.slab i = some k → k.job ≠ j) → ¬ s.HasQueued n → .jobEnd j ∉ s.queue →
    ∃ t : State, exec (.dataFieldRead sync words timing low) s = .next t.finish ∧
      t.job j = some { x.heard with
        mark := true, state := .draining, endCause := some .complete, finalized := true
        records := x.records.set sec { r with
          state := .good, reads := min 255 (r.reads + 1), image := some { kind := .final, words := words },
          delivery := if s.queue.length < 24 then .queued else .awaiting, lastSync := some sync } } ∧
      t.queue = (if s.queue.length < 23 then s.queue ++ [.sector j sec, .jobEnd j]
        else if s.queue.length < 24 then s.queue ++ [.sector j sec] else s.queue) ∧
      t.drive n = (s.drive n).idled ∧ t.channel.state.holds n = false ∧ t.channel.rev = none ∧ t.slabs = s.slabs) ∧
  (∀ (n : UnitId) (sync sec : Nat) (words : List Word12) (timing : List (List Transition)) (low : Bool) (s : State)
    (rev : Revolution) (h : OpenHeader) (d : Descriptor) (x : Job) (r q : Record) (j : JobIx) (i : SlabId) (k : Slab),
    s.Hears n rev h d x sync words → h.capture.Names x sec r → j = h.capture.job → r.wanted = true → r.state = .voting →
    r.slab = some i → s.slab i = some k → s.RepairStands → (s.drive n).state = .tracking → s.Last n j x sec (some i) →
    q = { r with reads := min 255 (r.reads + 1), lastSync := some sync } →
    (WordsPass words →
      ∃ t : State, exec (.dataFieldRead sync words timing low) s = .next t.finish ∧ t.slab i = none ∧ t.channel.rev = none ∧
        s.Completed t n j x.heard sec (s.recovers q .good words)) ∧
    (¬ WordsPass words → rev.noVote = false → k.status = .idle → k.job = j → k.sector = sec →
      k.acc.length = 12 * words.length →
      ∃ (gs : List (Fin 4)) (y : Slab), FieldGraded timing rev.trim s.channel.strobe words.length gs ∧
        y = k.fold words (gs.map (weightOf .header rev.weightCap))
          { quorum := rev.profile.quorum, weak := rev.profile.weak, repair := rev.profile.repair } ∧
        (rev.profile.quorum ≤ y.folds → WordsPass y.votedImage →
          ∃ t : State, exec (.dataFieldRead sync words timing low) s = .next t.finish ∧ t.slab i = none ∧
            t.channel.rev = none ∧ s.Completed t n j x.heard sec (s.recovers q .voted y.votedImage)))) ∧
  (∀ (s : State) (n : UnitId) (i : SlabId) (bits : List Nat) (candidates : List (List Word12)) (x : Slab) (y : Job)
    (r : Record), s.search = some { slab := i, bits := bits, candidates := candidates } → s.slab i = some x →
    s.job x.job = some y → s.RepairStands → y.InHand → y.records[x.sector]? = some r → r.slab = some i →
    (s.drive n).state ∈ [.settling, .tracking, .seeking, .recalibrating, .speedFault] →
    s.Last n x.job y x.sector (some i) →
    (∀ c, OnlyPasses candidates c →
      ∃ t : State, exec .searchEnd s = .next t.finish ∧ t.slab i = none ∧
        s.Completed t n x.job y x.sector (s.recovers r .repaired c)) ∧
    (∀ k z p l, Inconclusive candidates x y k z → x.pending = some p →
      l = { k with pending := none }.fold p.words (p.margins.map (weightOf p.ident p.weightCap)) p.thresholds →
      p.thresholds.quorum ≤ l.folds → WordsPass l.votedImage →
      ∃ t : State, exec .searchEnd s = .next t.finish ∧ t.slab i = none ∧
        s.Completed t n x.job z x.sector
          (s.recovers { r with reads := min 255 (r.reads + 1) } .voted l.votedImage)))

/-- A data field that fails its check, in the window of a GOOD header of a WANTED record, the window's last tick being
inside it (log entry 15), begins voting: the lowest free slab is given to the record and the words are folded at their
weights, each word's margin class plus 1 under the pass's cap, so that with no raw image held the voted image is the
words themselves; a raw image that the record holds is folded before them at weight 1. Each word's class is that of
its worst transition at the revolution's trim and strobe shift, a free value where no transitions are given (log entry
20; R33, R34, R76, R83, R84, R87, R91, R93, R94, R95, R180). -/
def Obligations.FailingDataVotes : Prop :=
  ∀ (n : UnitId) (sync sec : Nat) (words : List Word12) (timing : List (List Transition)) (low : Bool) (s : State)
    (rev : Revolution) (h : OpenHeader) (d : Descriptor) (x : Job) (r : Record) (i : SlabId),
    s.Hears n rev h d x sync words → h.capture.Names x sec r → ¬ WordsPass words → r.state = .wanted →
    rev.noVote = false → (∀ c, rev.weightCap = some c → 1 ≤ c) → s.slab i = none → (∀ k, k < i → s.slab k ≠ none) →
    ∃ gs, FieldGraded timing rev.trim s.channel.strobe words.length gs ∧
    ∀ folds : Nat,
      (r.image = none ∧ folds = 1) ∨
        (∃ im, r.image = some im ∧ im.words.length = words.length ∧ folds = 2) → folds < rev.profile.quorum →
      ∃ (t : State) (k : Slab),
        exec (.dataFieldRead sync words timing low) s = .next t.finish ∧
        t.job h.capture.job = some { x.heard with
          records := x.records.set sec { r with
            state := .voting, reads := min 255 (r.reads + 1), image := some { kind := .voted, words := k.votedImage },
            slab := some i, lastSync := some sync } } ∧
        (folds = 1 → k.votedImage = words) ∧
        t.slab i = some k ∧ k.job = h.capture.job ∧ k.sector = sec ∧ k.folds = folds ∧ k.lastRaw = words ∧
        k.status = .idle ∧ k.pending = none ∧ k.ambiguity = 0 ∧
        k.thresholds = { quorum := rev.profile.quorum, weak := rev.profile.weak, repair := rev.profile.repair } ∧
        k.acc.length = 12 * words.length ∧
        (∀ (a b : Nat) (w : Word12) (g : Fin 4), words[a]? = some w → gs[a]? = some g → b < 12 →
          (r.image = none →
            k.acc[12 * a + b]? = some (voteOn 0 (w.getLsbD b) (weightOf .header rev.weightCap g))) ∧
          ∀ im (v : Word12), r.image = some im → im.words[a]? = some v →
            k.acc[12 * a + b]? =
              some (voteOn (voteOn 0 (v.getLsbD b) 1) (w.getLsbD b) (weightOf .header rev.weightCap g))) ∧
        t.queue = s.queue ∧ t.drives = s.drives ∧ t.fifo = s.fifo ∧ t.search = s.search ∧ t.flags = s.flags

/-- A data field in the window of a GOOD header that is not folded: under NO_VOTE a failing one becomes a WANTED
record's raw image, and leaves a VOTING record alone (R82); with every slab in use it becomes the raw image and raises
SLAB_SHORTAGE (R85); for a record whose slab is QUEUED or SEARCHING it becomes the slab's pending capture, or is
discarded behind one (R83, R106); and a record that is neither WANTED nor VOTING ignores every capture (R79). The
header capture is counted and the sync time kept each time (R76, R180), and reads goes up only where the words are put
to use (R87). The window's last tick is inside it (log entry 15). -/
def Obligations.FailingDataWaits : Prop :=
  ∀ (n : UnitId) (sync sec : Nat) (words : List Word12) (timing : List (List Transition)) (low : Bool) (s : State)
    (rev : Revolution) (h : OpenHeader) (d : Descriptor) (x : Job) (r : Record) (u : Record → State),
    s.Hears n rev h d x sync words → h.capture.Names x sec r →
    (∀ q, u q = { s.setJob h.capture.job (some { x.heard with records := x.records.set sec q }) with
      channel := s.channel.afterField (h.capture.low && low) }) →
    (r.state ∉ [.wanted, .voting] →
      exec (.dataFieldRead sync words timing low) s = .next (u { r with lastSync := some sync }).finish) ∧
    (¬ WordsPass words → rev.noVote = true → r.state = .wanted →
      exec (.dataFieldRead sync words timing low) s =
        .next (u { r with
          reads := min 255 (r.reads + 1), image := some { kind := .raw, words := words },
          lastSync := some sync }).finish) ∧
    (¬ WordsPass words → rev.noVote = true → r.state = .voting →
      exec (.dataFieldRead sync words timing low) s = .next (u { r with lastSync := some sync }).finish) ∧
    (¬ WordsPass words → rev.noVote = false → r.state = .wanted → (∀ i, s.slab i ≠ none) →
      exec (.dataFieldRead sync words timing low) s =
        .next (((u { r with
          reads := min 255 (r.reads + 1), image := some { kind := .raw, words := words },
          lastSync := some sync }).raise 17).finish)) ∧
    (∀ i k, ¬ WordsPass words → rev.noVote = false → r.state = .voting → r.slab = some i → s.slab i = some k →
      k.status ≠ .idle →
      (k.pending = none → ∃ gs, FieldGraded timing rev.trim s.channel.strobe words.length gs ∧
        exec (.dataFieldRead sync words timing low) s =
          .next (((u { r with lastSync := some sync }).setSlab i
            (some { k with pending := some (heldPending words gs .header rev) })).finish)) ∧
      (k.pending ≠ none →
        exec (.dataFieldRead sync words timing low) s = .next (u { r with lastSync := some sync }).finish))

/-- A fold adds each bit's weight to its accumulator or takes it away, limited to 63 either way; the voted image has a
1 where the accumulator is positive, a 0 where it is negative, and the folded word's own bit where it is 0; the folds
hold at 255; and the weak bits are those below the threshold (R94, R95, R96). -/
def Obligations.FoldsVote : Prop :=
  ∀ (x y : Slab) (words : List Word12) (weights : List Nat) (th : Thresholds),
    x.acc.length = 12 * words.length → weights.length = words.length → y = x.fold words weights th →
    y.acc.length = x.acc.length ∧ y.folds = min 255 (x.folds + 1) ∧ y.lastRaw = words ∧ y.thresholds = th ∧
    y.weakCount = (y.acc.filter (fun a => a.natAbs < th.weak)).length ∧ y.votedImage.length = words.length ∧
    ∀ (i b q : Nat) (w v : Word12) (old : Int), words[i]? = some w → weights[i]? = some q → b < 12 →
      x.acc[12 * i + b]? = some old → y.votedImage[i]? = some v →
      y.acc[12 * i + b]? = some (voteOn old (w.getLsbD b) q) ∧
      (0 < voteOn old (w.getLsbD b) q → v.getLsbD b = true) ∧
      (voteOn old (w.getLsbD b) q < 0 → v.getLsbD b = false) ∧
      (voteOn old (w.getLsbD b) q = 0 → v.getLsbD b = w.getLsbD b)

/-- A failing data field of a VOTING record whose slab is IDLE is folded into it, and the voted check follows: below
the quorum the record stays VOTING; at or above it, a voted image that passes makes the record VOTED with that image,
frees the slab and offers the record for delivery (R143); one that fails sends the slab to the tail of the repair FIFO where its weak bits number 1 to the
repair limit, and an idle repair unit begins its search at once, with its candidates in order; otherwise the slab
stays IDLE. The window's last tick is inside it (log entry 15; R83, R87, R88, R91, R94, R98 to R102). -/
def Obligations.FoldsAreJudged : Prop :=
  ∀ (n : UnitId) (sync sec : Nat) (words : List Word12) (timing : List (List Transition)) (low : Bool) (s : State)
    (rev : Revolution) (h : OpenHeader) (d : Descriptor) (x : Job) (r : Record) (i : SlabId) (k : Slab),
    s.Hears n rev h d x sync words → h.capture.Names x sec r → ¬ WordsPass words → r.state = .voting →
    rev.noVote = false → r.slab = some i → s.slab i = some k → k.status = .idle → k.job = h.capture.job → k.sector = sec →
    k.acc.length = 12 * words.length → s.RepairStands →
    ∃ (gs : List (Fin 4)) (y : Slab) (u : Slab → State),
      FieldGraded timing rev.trim s.channel.strobe words.length gs ∧
      y = k.fold words (gs.map (weightOf .header rev.weightCap))
        { quorum := rev.profile.quorum, weak := rev.profile.weak, repair := rev.profile.repair } ∧
      (∀ z, u z =
        { (s.setSlab i (some z)).setJob h.capture.job (some { x.heard with
            records := x.records.set sec { r with
              reads := min 255 (r.reads + 1), image := some { kind := .voted, words := y.votedImage },
              lastSync := some sync } }) with
          channel := s.channel.afterField (h.capture.low && low) }) ∧
      (y.folds < rev.profile.quorum → exec (.dataFieldRead sync words timing low) s = .next (u y).finish) ∧
      (rev.profile.quorum ≤ y.folds → WordsPass y.votedImage → r.wanted = true →
        x.WantsMore sec →
        exec (.dataFieldRead sync words timing low) s =
          .next ({ (s.setSlab i none).setJob h.capture.job (some (x.heard.gains sec
              (s.recovers { r with reads := min 255 (r.reads + 1), lastSync := some sync } .voted y.votedImage))) with
            queue := s.offerQueue h.capture.job sec
            channel := s.channel.afterField (h.capture.low && low) }.finish)) ∧
      (rev.profile.quorum ≤ y.folds → ¬ WordsPass y.votedImage →
        (y.weakCount = 0 ∨ rev.profile.repair < y.weakCount →
          exec (.dataFieldRead sync words timing low) s = .next (u y).finish) ∧
        (1 ≤ y.weakCount → y.weakCount ≤ rev.profile.repair →
          (s.search ≠ none →
            exec (.dataFieldRead sync words timing low) s =
              .next ({ u { y with status := .queued } with fifo := s.fifo ++ [i] }.finish)) ∧
          (s.search = none → rev.profile.repair ≤ 3 → ∃ f : Search, f.Of i y ∧
            exec (.dataFieldRead sync words timing low) s =
              .next ({ u { y with status := .searching } with search := some f }.finish))))

/-- A capture whose GOOD header names no sector of the job's track, or is a repeat, is a stray when its data field is
read or its window closes: the job's and the unit's stray counts go up, holding at their limits, and no record changes
(R35, R64, R76, R77). It is kept where the profile keeps strays, its data passes, a stray buffer is free and the
delivery queue has room: copied into the lowest free buffer, whose entry joins the tail (R78, R147); otherwise it is
only counted. The window's last tick is inside it (log entry 15). -/
def Obligations.StraysJudged : Prop :=
  (∀ (n : UnitId) (sync : Nat) (words : List Word12) (timing : List (List Transition)) (low : Bool) (s : State)
    (rev : Revolution) (h : OpenHeader) (d : Descriptor) (x y : Job) (u : State),
    s.Hears n rev h d x sync words → h.capture.IsStray →
    y = (if h.capture.ident = some .header then x.heard else x) →
    u = { (s.setJob h.capture.job (some { y with counters :=
          { y.counters with strays := min 65535 (y.counters.strays + 1) } })).setDrive n
        { s.drive n with passStrays := min 255 ((s.drive n).passStrays + 1) } with
      channel := s.channel.afterField (h.capture.low && low) } →
    (∀ (h1 h2 h3 : Word12) (b : Fin 4), rev.profile.keepStrays = true → WordsPass words → h.capture.header = some (h1, h2, h3) →
      s.strays[b] = none → (∀ a : Fin 4, a < b → s.strays[a] ≠ none) → s.queue.length < 24 →
      exec (.dataFieldRead sync words timing low) s =
        .next ({ u with
          strays := s.strays.set b (some { unit := n, tag := x.tag, h1 := h1, h2 := h2, h3 := h3, words := words })
          queue := s.queue ++ [Entry.stray b] }.finish)) ∧
    (rev.profile.keepStrays = false ∨ ¬ WordsPass words ∨ (∀ b : Fin 4, s.strays[b] ≠ none) ∨ 24 ≤ s.queue.length →
      exec (.dataFieldRead sync words timing low) s = .next u.finish)) ∧
  (∀ (n : UnitId) (s : State) (rev : Revolution) (h : OpenHeader) (x y : Job),
    s.channel.state = .capturing n → s.channel.rev = some rev → s.channel.openHeader = some h → h.capture.unit = n →
    h.capture.status = .good → h.capture.IsStray → h.capture.data = none → s.job h.capture.job = some x →
    x.state ≠ .draining → y = (if h.capture.ident = some .header then x.heard else x) →
    exec .dataWindowCloses s =
      .next ({ (s.setJob h.capture.job (some { y with counters :=
            { y.counters with strays := min 65535 (y.counters.strays + 1) } })).setDrive n
          { s.drive n with passStrays := min 255 ((s.drive n).passStrays + 1) } with
        channel := s.channel.afterField h.capture.low }.finish))

/-- A data field with no GOOD header before it, bare or in the window of a header that failed its check, is a blind
candidate: the slot of its sync time, where valid, keeps the first and is marked shared by a second; one with no valid
slot is discarded (R33, R36). One that falls past an open window closes that window first (R33), the window's last
tick being inside it (log entry 15). At the closing index, once what is outstanding is settled (R37), an unshared candidate whose slot no header took is handed
over as BLIND, where the profile and the quirks allow it: here one for a WANTED record is counted and folded at weight
1; otherwise it is discarded (R38, R84, R86, R93). -/
def Obligations.BlindCandidates : Prop :=
  (∀ (n : UnitId) (sync : Nat) (words : List Word12) (timing : List (List Transition)) (low : Bool) (s : State)
    (rev : Revolution) (d : Descriptor) (c : Capture),
    s.channel.state = .capturing n → s.channel.rev = some rev → (s.drive n).descriptor = some d →
    words.length = d.words + 1 →
    (s.channel.openHeader = none ∧
        c = { unit := n, job := rev.job, ident := none, sector := none, repeated := false, status := .noSync,
              header := none, data := none, low := low }) ∨
      (∃ h, s.channel.openHeader = some h ∧ h.capture.status ≠ .good ∧ sync ≤ h.last + rev.window ∧
        c = { h.capture with low := h.capture.low && low }) →
    ∃ gs, FieldGraded timing rev.trim s.channel.strobe words.length gs ∧
      (∀ k, d.dataOffset ≤ sync → 0 < rev.pitch → k = (sync - d.dataOffset) / rev.pitch → k < d.sectors →
        ((∀ e ∈ s.channel.deferred, e.slot ≠ k) →
          exec (.dataFieldRead sync words timing low) s =
            .next ({ s with channel := { s.channel.afterField c.low with
              deferred := s.channel.deferred ++ [({ slot := k, shared := false, capture := { c with
                data := some { words := words, margins := gs, sync := sync } } } : Deferred)] } }.finish)) ∧
        ((∃ e ∈ s.channel.deferred, e.slot = k) → (s.channel.deferred.map (·.slot)).Nodup →
          exec (.dataFieldRead sync words timing low) s =
            .next ({ s with channel := { s.channel.afterField c.low with
              deferred := s.channel.deferred.map (fun e : Deferred => if e.slot = k then { e with shared := true } else e) }
              }.finish))) ∧
      (sync < d.dataOffset ∨ rev.pitch = 0 ∨ d.sectors ≤ (sync - d.dataOffset) / rev.pitch →
        exec (.dataFieldRead sync words timing low) s =
          .next ({ s with channel := s.channel.afterField c.low }.finish))) ∧
  (∀ (n : UnitId) (sync : Nat) (words : List Word12) (timing : List (List Transition)) (low : Bool) (s : State)
    (rev : Revolution) (h : OpenHeader),
    s.channel.state = .capturing n → s.channel.rev = some rev → s.channel.openHeader = some h →
    h.capture.data = none → h.last + rev.window < sync →
    exec (.dataFieldRead sync words timing low) s = exec (.dataFieldRead sync words timing low) (s.closeWindow rev)) ∧
  (∀ (n : UnitId) (elapsed strays : Nat) (cut : CutField) (s : State) (d : Drive) (x : Descriptor) (j : JobIx) (y w : Job)
    (rev : Revolution) (e : Deferred) (f : DataField),
    s.Closes n d x j y rev (s.clock + elapsed) .inTolerance → StageOne s n cut j y d.passStrays w strays true →
    (s.unitProfiles n).swapPending = false →
    y.passCount < 255 → y.passCount + 1 < (s.unitProfiles n).active.passLimit → s.channel.deferred = [e] → e.slot < 32 →
    e.capture.unit = n → e.capture.job = j → e.capture.status ≠ .good → e.capture.data = some f →
    (e.shared = true ∨ e.slot ∈ s.channel.slotSet ∨ rev.profile.blindAllowed = false ∨ rev.noBlind = true →
      ∃ (t : State) (z : Job), exec (.indexPulse n elapsed cut) s = .next t ∧ t.job j = some z ∧
        z.records = y.records ∧ z.counters.blindUsed = y.counters.blindUsed ∧ t.slabs = s.slabs) ∧
    (∀ r i, e.shared = false → e.slot ∉ s.channel.slotSet → rev.profile.blindAllowed = true → rev.noBlind = false →
      y.records[e.slot]? = some r → r.state = .wanted → r.image = none → rev.noVote = false → 2 ≤ rev.profile.quorum →
      (∀ c, rev.weightCap = some c → 1 ≤ c) → s.slab i = none → (∀ m, m < i → s.slab m ≠ none) →
      f.margins.length = f.words.length →
      ∃ (t : State) (z : Job) (k : Slab), exec (.indexPulse n elapsed cut) s = .next t ∧ t.job j = some z ∧
        z.counters.blindUsed = min 65535 (y.counters.blindUsed + 1) ∧
        z.counters.headerCaptures = w.counters.headerCaptures ∧
        z.records = y.records.set e.slot { r with
          state := .voting, reads := min 255 (r.reads + 1), image := some { kind := .voted, words := f.words },
          slab := some i } ∧
        t.slab i = some k ∧ k.job = j ∧ k.sector = e.slot ∧ k.folds = 1 ∧ k.lastRaw = f.words ∧
        (∀ (a b : Nat) (w : Word12), f.words[a]? = some w → b < 12 →
          k.acc[12 * a + b]? = some (voteOn 0 (w.getLsbD b) 1))))

/-- A search that ends with one passing candidate makes its record REPAIRED with that image, frees the slab and discards its
pending capture. With none, or with more than one, which is counted as ambiguous, the slab becomes IDLE, and its pending
capture is then folded and judged under its own thresholds: VOTED, to the FIFO again, or neither (R98, R99, R103 to R107).
The next slab of the FIFO is searched (R101, R102). A job that ended PASSES_EXHAUSTED or BUDGET_EXHAUSTED has each outcome
applied alike, and is finalized when none of its slabs is left in the repair unit: a record that is not recovered becomes
BEST_EFFORT with its voted image (R52, R54, R109, R111). The outcome of a search withdrawn by any other end is discarded with
the pending capture, and the job finalized (R53, R110). With no search in progress nothing happens (log entry 11). -/
def Obligations.SearchEnds : Prop :=
  (∀ (s : State) (i : SlabId) (bits : List Nat) (candidates : List (List Word12)) (x : Slab) (y : Job),
    s.search = some { slab := i, bits := bits, candidates := candidates } → s.slab i = some x → s.job x.job = some y →
    s.Searchable i →
    ∃ u, s.NextSearch u ∧
      (∀ c r, OnlyPasses candidates c → y.records[x.sector]? = some r → r.slab = some i → i ∉ s.fifo →
        ((y.InHand ∧ y.WantsMore x.sector) ∨ (y.Lingers ∧ u.Works i x.job) →
          exec .searchEnd s =
            .next ({ (u.setSlab i none).setJob x.job (some (y.gains x.sector (s.recovers r .repaired c))) with
              queue := s.offerQueue x.job x.sector }.finish)) ∧
        (y.Lingers → ¬ u.Works i x.job →
          ∃ t : State, exec .searchEnd s = .next t.finish ∧
            s.FinalizesTo t i x.job y.endCause y.counters x.sector (s.recovers r .repaired c) ∧
            s.offerQueue x.job x.sector <+: t.queue)) ∧
      (∀ k z, Inconclusive candidates x y k z →
        (x.pending = none →
          (y.InHand ∨ (y.Lingers ∧ u.Works i x.job) →
            exec .searchEnd s = .next ((u.setSlab i (some k)).setJob x.job (some z)).finish) ∧
          (∀ r, y.Lingers → ¬ u.Works i x.job → y.records[x.sector]? = some r → r.slab = some i → r.state = .voting →
            r.delivery = .none →
            ∃ (t : State) (q : Record), exec .searchEnd s = .next t.finish ∧
              s.FinalizesTo t i x.job y.endCause z.counters x.sector q ∧ r.Finalized q (some k) ∧
              (q.delivery = .queued ∨ q.delivery = .awaiting))) ∧
        (∀ (p : Pending) (l : Slab) (r q : Record) (v : Slab → State), x.pending = some p → y.records[x.sector]? = some r →
          l = { k with pending := none }.fold p.words (p.margins.map (weightOf p.ident p.weightCap)) p.thresholds →
          q = { r with reads := min 255 (r.reads + 1), image := some { kind := .voted, words := l.votedImage } } →
          (∀ m, v m = (u.setSlab i (some m)).setJob x.job (some { z with records := z.records.set x.sector q })) →
          (l.Undecided →
            (y.InHand ∨ (y.Lingers ∧ u.Works i x.job) → exec .searchEnd s = .next (v l).finish) ∧
            (y.Lingers → ¬ u.Works i x.job → r.slab = some i → r.state = .voting → r.delivery = .none →
              ∃ (t : State) (w : Record), exec .searchEnd s = .next t.finish ∧
                s.FinalizesTo t i x.job y.endCause z.counters x.sector w ∧ q.Finalized w (some l) ∧
                (w.delivery = .queued ∨ w.delivery = .awaiting))) ∧
          (p.thresholds.quorum ≤ l.folds → ¬ WordsPass l.votedImage → 1 ≤ l.weakCount →
            l.weakCount ≤ p.thresholds.repair → y.InHand ∨ y.Lingers →
            (u.search ≠ none →
              exec .searchEnd s = .next ({ v { l with status := .queued } with fifo := u.fifo ++ [i] }.finish)) ∧
            (u.search = none → p.thresholds.repair ≤ 3 → ∃ f : Search, f.Of i l ∧
              exec .searchEnd s = .next ({ v { l with status := .searching } with search := some f }.finish))) ∧
          (p.thresholds.quorum ≤ l.folds → WordsPass l.votedImage → r.slab = some i → i ∉ s.fifo →
            ((y.InHand ∧ y.WantsMore x.sector) ∨ (y.Lingers ∧ u.Works i x.job) →
              exec .searchEnd s =
                .next ({ (u.setSlab i none).setJob x.job (some (z.gains x.sector (s.recovers q .voted l.votedImage))) with
                  queue := s.offerQueue x.job x.sector }.finish)) ∧
            (y.Lingers → ¬ u.Works i x.job →
              ∃ t : State, exec .searchEnd s = .next t.finish ∧
                s.FinalizesTo t i x.job y.endCause z.counters x.sector (s.recovers q .voted l.votedImage) ∧
                s.offerQueue x.job x.sector <+: t.queue)))) ∧
      (∀ cause, y.state = .draining → y.endCause = some cause → y.finalized = false →
        cause ∈ [.aborted, .driveRetracted, .driveLost, .seekFailed, .driveReset] →
        (u.Works i x.job →
          exec .searchEnd s = .next (u.setSlab i (some { x with status := .idle, pending := none })).finish) ∧
        (∀ r, ¬ u.Works i x.job → y.records[x.sector]? = some r → r.state = .voting → r.slab = some i →
          r.delivery = .none →
          ∃ (t : State) (q : Record), exec .searchEnd s = .next t.finish ∧
            s.FinalizesTo t i x.job (some cause) y.counters x.sector q ∧ r.Finalized q (some x) ∧
            (q.delivery = .queued ∨ q.delivery = .awaiting)))) ∧
  (∀ s : State, s.search = none → exec .searchEnd s = .next s.finish)

/-! ### What every step keeps -/

/-- Every step keeps the items of State that InRange names in the ranges their chapters give them: the drives, their
monitors, motions, counts and prepared passes, the profiles, the jobs with their tracks, budgets, counts and records,
the slabs, the channel, the quirks, the flags, the extents and remap entries within their geometry, and the delivery
queue (sections 1.1 to 10.1). -/
def Obligations.StepKeepsRanges : Prop :=
  ∀ s t : State, s.InRange → step s = .next t → t.InRange

/-- Every step leaves the link and the arbiter as between commands they stand: room never exceeded, no frame waiting
that may run, no message waiting that may be sent, the gap measured exactly when it is to be, the message in
transmission at the head of its queue, and no request waiting for an IDLE channel (R27, R146, R168, R170, R171, R173,
R174). -/
def Obligations.StepKeepsLine : Prop :=
  ∀ s t : State, s.LineStands → step s = .next t → t.LineStands

/-- Every step keeps the jobs and the units in accord: the held job is the one POSITIONING or READING, the channel
serves a TRACKING unit alone, an IDLE unit has no QUEUED job, and a JOB-END waits for a finalized job alone (section 1.4, R10, R25, R29, R30, R41,
R46, R48, R51, R55, R145). -/
def Obligations.StepKeepsJobs : Prop :=
  ∀ s t : State, s.InRange → s.JobsStand → step s = .next t → t.JobsStand

/-- Every step keeps the maps consistent: extents in order and inside the geometry, remap entries in order, inside the
extents and unambiguous (R1, R131 to R137). -/
def Obligations.StepKeepsMaps : Prop :=
  ∀ s t : State, s.MapsStand → step s = .next t → t.MapsStand

/-- Every step keeps the repair unit and the vote store in accord with the records: the FIFO holds exactly the QUEUED
slabs, each once and so at most 64, the SEARCHING slab is the search's, the unit works while the FIFO holds a slab,
and each slab is that of a VOTING record (R84, R88, R91, R99 to R101, R108, R110, R111). -/
def Obligations.StepKeepsRepair : Prop :=
  ∀ s t : State, s.InRange → s.JobsStand → s.RepairStands → step s = .next t →
    t.RepairStands ∧ t.fifo.length ≤ 64

/-- The state after reset satisfies every invariant that steps keep. -/
def Obligations.ResetStands : Prop :=
  State.reset.InRange ∧ State.reset.LineStands ∧ State.reset.JobsStand ∧ State.reset.MapsStand ∧ State.reset.RepairStands
end

