-- ==== Sys2Proof/Laws/State.lean ====
section
/-! SUPPORT. One lemma per field per update of State, so that no later proof unfolds a record update, and the reads
of a table after a write. -/

namespace Sys2Proof.Machine

@[simp] theorem State.setDrive_clock (s : State) (n : UnitId) (d : Drive) : (s.setDrive n d).clock = s.clock := rfl
@[simp] theorem State.setDrive_choices (s : State) (n : UnitId) (d : Drive) : (s.setDrive n d).choices = s.choices := rfl
@[simp] theorem State.setDrive_pending (s : State) (n : UnitId) (d : Drive) : (s.setDrive n d).pending = s.pending := rfl
@[simp] theorem State.setDrive_profiles (s : State) (n : UnitId) (d : Drive) : (s.setDrive n d).profiles = s.profiles := rfl
@[simp] theorem State.setDrive_directions (s : State) (n : UnitId) (d : Drive) : (s.setDrive n d).directions = s.directions := rfl
@[simp] theorem State.setDrive_extents (s : State) (n : UnitId) (d : Drive) : (s.setDrive n d).extents = s.extents := rfl
@[simp] theorem State.setDrive_channel (s : State) (n : UnitId) (d : Drive) : (s.setDrive n d).channel = s.channel := rfl
@[simp] theorem State.setDrive_jobs (s : State) (n : UnitId) (d : Drive) : (s.setDrive n d).jobs = s.jobs := rfl
@[simp] theorem State.setDrive_arrival (s : State) (n : UnitId) (d : Drive) : (s.setDrive n d).arrival = s.arrival := rfl
@[simp] theorem State.setDrive_slabs (s : State) (n : UnitId) (d : Drive) : (s.setDrive n d).slabs = s.slabs := rfl
@[simp] theorem State.setDrive_fifo (s : State) (n : UnitId) (d : Drive) : (s.setDrive n d).fifo = s.fifo := rfl
@[simp] theorem State.setDrive_search (s : State) (n : UnitId) (d : Drive) : (s.setDrive n d).search = s.search := rfl
@[simp] theorem State.setDrive_quirks (s : State) (n : UnitId) (d : Drive) : (s.setDrive n d).quirks = s.quirks := rfl
@[simp] theorem State.setDrive_remaps (s : State) (n : UnitId) (d : Drive) : (s.setDrive n d).remaps = s.remaps := rfl
@[simp] theorem State.setDrive_queue (s : State) (n : UnitId) (d : Drive) : (s.setDrive n d).queue = s.queue := rfl
@[simp] theorem State.setDrive_strays (s : State) (n : UnitId) (d : Drive) : (s.setDrive n d).strays = s.strays := rfl
@[simp] theorem State.setDrive_hold (s : State) (n : UnitId) (d : Drive) : (s.setDrive n d).hold = s.hold := rfl
@[simp] theorem State.setDrive_flags (s : State) (n : UnitId) (d : Drive) : (s.setDrive n d).flags = s.flags := rfl
@[simp] theorem State.setDrive_link (s : State) (n : UnitId) (d : Drive) : (s.setDrive n d).link = s.link := rfl

@[simp] theorem State.setProfiles_clock (s : State) (n : UnitId) (p : UnitProfiles) : (s.setProfiles n p).clock = s.clock := rfl
@[simp] theorem State.setProfiles_choices (s : State) (n : UnitId) (p : UnitProfiles) : (s.setProfiles n p).choices = s.choices := rfl
@[simp] theorem State.setProfiles_pending (s : State) (n : UnitId) (p : UnitProfiles) : (s.setProfiles n p).pending = s.pending := rfl
@[simp] theorem State.setProfiles_drives (s : State) (n : UnitId) (p : UnitProfiles) : (s.setProfiles n p).drives = s.drives := rfl
@[simp] theorem State.setProfiles_directions (s : State) (n : UnitId) (p : UnitProfiles) : (s.setProfiles n p).directions = s.directions := rfl
@[simp] theorem State.setProfiles_extents (s : State) (n : UnitId) (p : UnitProfiles) : (s.setProfiles n p).extents = s.extents := rfl
@[simp] theorem State.setProfiles_channel (s : State) (n : UnitId) (p : UnitProfiles) : (s.setProfiles n p).channel = s.channel := rfl
@[simp] theorem State.setProfiles_jobs (s : State) (n : UnitId) (p : UnitProfiles) : (s.setProfiles n p).jobs = s.jobs := rfl
@[simp] theorem State.setProfiles_arrival (s : State) (n : UnitId) (p : UnitProfiles) : (s.setProfiles n p).arrival = s.arrival := rfl
@[simp] theorem State.setProfiles_slabs (s : State) (n : UnitId) (p : UnitProfiles) : (s.setProfiles n p).slabs = s.slabs := rfl
@[simp] theorem State.setProfiles_fifo (s : State) (n : UnitId) (p : UnitProfiles) : (s.setProfiles n p).fifo = s.fifo := rfl
@[simp] theorem State.setProfiles_search (s : State) (n : UnitId) (p : UnitProfiles) : (s.setProfiles n p).search = s.search := rfl
@[simp] theorem State.setProfiles_quirks (s : State) (n : UnitId) (p : UnitProfiles) : (s.setProfiles n p).quirks = s.quirks := rfl
@[simp] theorem State.setProfiles_remaps (s : State) (n : UnitId) (p : UnitProfiles) : (s.setProfiles n p).remaps = s.remaps := rfl
@[simp] theorem State.setProfiles_queue (s : State) (n : UnitId) (p : UnitProfiles) : (s.setProfiles n p).queue = s.queue := rfl
@[simp] theorem State.setProfiles_strays (s : State) (n : UnitId) (p : UnitProfiles) : (s.setProfiles n p).strays = s.strays := rfl
@[simp] theorem State.setProfiles_hold (s : State) (n : UnitId) (p : UnitProfiles) : (s.setProfiles n p).hold = s.hold := rfl
@[simp] theorem State.setProfiles_flags (s : State) (n : UnitId) (p : UnitProfiles) : (s.setProfiles n p).flags = s.flags := rfl
@[simp] theorem State.setProfiles_link (s : State) (n : UnitId) (p : UnitProfiles) : (s.setProfiles n p).link = s.link := rfl

@[simp] theorem State.setExtents_clock (s : State) (n : UnitId) (es : List Extent) : (s.setExtents n es).clock = s.clock := rfl
@[simp] theorem State.setExtents_choices (s : State) (n : UnitId) (es : List Extent) : (s.setExtents n es).choices = s.choices := rfl
@[simp] theorem State.setExtents_pending (s : State) (n : UnitId) (es : List Extent) : (s.setExtents n es).pending = s.pending := rfl
@[simp] theorem State.setExtents_drives (s : State) (n : UnitId) (es : List Extent) : (s.setExtents n es).drives = s.drives := rfl
@[simp] theorem State.setExtents_profiles (s : State) (n : UnitId) (es : List Extent) : (s.setExtents n es).profiles = s.profiles := rfl
@[simp] theorem State.setExtents_directions (s : State) (n : UnitId) (es : List Extent) : (s.setExtents n es).directions = s.directions := rfl
@[simp] theorem State.setExtents_channel (s : State) (n : UnitId) (es : List Extent) : (s.setExtents n es).channel = s.channel := rfl
@[simp] theorem State.setExtents_jobs (s : State) (n : UnitId) (es : List Extent) : (s.setExtents n es).jobs = s.jobs := rfl
@[simp] theorem State.setExtents_arrival (s : State) (n : UnitId) (es : List Extent) : (s.setExtents n es).arrival = s.arrival := rfl
@[simp] theorem State.setExtents_slabs (s : State) (n : UnitId) (es : List Extent) : (s.setExtents n es).slabs = s.slabs := rfl
@[simp] theorem State.setExtents_fifo (s : State) (n : UnitId) (es : List Extent) : (s.setExtents n es).fifo = s.fifo := rfl
@[simp] theorem State.setExtents_search (s : State) (n : UnitId) (es : List Extent) : (s.setExtents n es).search = s.search := rfl
@[simp] theorem State.setExtents_quirks (s : State) (n : UnitId) (es : List Extent) : (s.setExtents n es).quirks = s.quirks := rfl
@[simp] theorem State.setExtents_remaps (s : State) (n : UnitId) (es : List Extent) : (s.setExtents n es).remaps = s.remaps := rfl
@[simp] theorem State.setExtents_queue (s : State) (n : UnitId) (es : List Extent) : (s.setExtents n es).queue = s.queue := rfl
@[simp] theorem State.setExtents_strays (s : State) (n : UnitId) (es : List Extent) : (s.setExtents n es).strays = s.strays := rfl
@[simp] theorem State.setExtents_hold (s : State) (n : UnitId) (es : List Extent) : (s.setExtents n es).hold = s.hold := rfl
@[simp] theorem State.setExtents_flags (s : State) (n : UnitId) (es : List Extent) : (s.setExtents n es).flags = s.flags := rfl
@[simp] theorem State.setExtents_link (s : State) (n : UnitId) (es : List Extent) : (s.setExtents n es).link = s.link := rfl

@[simp] theorem State.setDirection_clock (s : State) (n : UnitId) (d : Direction) : (s.setDirection n d).clock = s.clock := rfl
@[simp] theorem State.setDirection_choices (s : State) (n : UnitId) (d : Direction) : (s.setDirection n d).choices = s.choices := rfl
@[simp] theorem State.setDirection_pending (s : State) (n : UnitId) (d : Direction) : (s.setDirection n d).pending = s.pending := rfl
@[simp] theorem State.setDirection_drives (s : State) (n : UnitId) (d : Direction) : (s.setDirection n d).drives = s.drives := rfl
@[simp] theorem State.setDirection_profiles (s : State) (n : UnitId) (d : Direction) : (s.setDirection n d).profiles = s.profiles := rfl
@[simp] theorem State.setDirection_extents (s : State) (n : UnitId) (d : Direction) : (s.setDirection n d).extents = s.extents := rfl
@[simp] theorem State.setDirection_channel (s : State) (n : UnitId) (d : Direction) : (s.setDirection n d).channel = s.channel := rfl
@[simp] theorem State.setDirection_jobs (s : State) (n : UnitId) (d : Direction) : (s.setDirection n d).jobs = s.jobs := rfl
@[simp] theorem State.setDirection_arrival (s : State) (n : UnitId) (d : Direction) : (s.setDirection n d).arrival = s.arrival := rfl
@[simp] theorem State.setDirection_slabs (s : State) (n : UnitId) (d : Direction) : (s.setDirection n d).slabs = s.slabs := rfl
@[simp] theorem State.setDirection_fifo (s : State) (n : UnitId) (d : Direction) : (s.setDirection n d).fifo = s.fifo := rfl
@[simp] theorem State.setDirection_search (s : State) (n : UnitId) (d : Direction) : (s.setDirection n d).search = s.search := rfl
@[simp] theorem State.setDirection_quirks (s : State) (n : UnitId) (d : Direction) : (s.setDirection n d).quirks = s.quirks := rfl
@[simp] theorem State.setDirection_remaps (s : State) (n : UnitId) (d : Direction) : (s.setDirection n d).remaps = s.remaps := rfl
@[simp] theorem State.setDirection_queue (s : State) (n : UnitId) (d : Direction) : (s.setDirection n d).queue = s.queue := rfl
@[simp] theorem State.setDirection_strays (s : State) (n : UnitId) (d : Direction) : (s.setDirection n d).strays = s.strays := rfl
@[simp] theorem State.setDirection_hold (s : State) (n : UnitId) (d : Direction) : (s.setDirection n d).hold = s.hold := rfl
@[simp] theorem State.setDirection_flags (s : State) (n : UnitId) (d : Direction) : (s.setDirection n d).flags = s.flags := rfl
@[simp] theorem State.setDirection_link (s : State) (n : UnitId) (d : Direction) : (s.setDirection n d).link = s.link := rfl

@[simp] theorem State.setJob_clock (s : State) (j : JobIx) (x : Option Job) : (s.setJob j x).clock = s.clock := rfl
@[simp] theorem State.setJob_choices (s : State) (j : JobIx) (x : Option Job) : (s.setJob j x).choices = s.choices := rfl
@[simp] theorem State.setJob_pending (s : State) (j : JobIx) (x : Option Job) : (s.setJob j x).pending = s.pending := rfl
@[simp] theorem State.setJob_drives (s : State) (j : JobIx) (x : Option Job) : (s.setJob j x).drives = s.drives := rfl
@[simp] theorem State.setJob_profiles (s : State) (j : JobIx) (x : Option Job) : (s.setJob j x).profiles = s.profiles := rfl
@[simp] theorem State.setJob_directions (s : State) (j : JobIx) (x : Option Job) : (s.setJob j x).directions = s.directions := rfl
@[simp] theorem State.setJob_extents (s : State) (j : JobIx) (x : Option Job) : (s.setJob j x).extents = s.extents := rfl
@[simp] theorem State.setJob_channel (s : State) (j : JobIx) (x : Option Job) : (s.setJob j x).channel = s.channel := rfl
@[simp] theorem State.setJob_arrival (s : State) (j : JobIx) (x : Option Job) : (s.setJob j x).arrival = s.arrival := rfl
@[simp] theorem State.setJob_slabs (s : State) (j : JobIx) (x : Option Job) : (s.setJob j x).slabs = s.slabs := rfl
@[simp] theorem State.setJob_fifo (s : State) (j : JobIx) (x : Option Job) : (s.setJob j x).fifo = s.fifo := rfl
@[simp] theorem State.setJob_search (s : State) (j : JobIx) (x : Option Job) : (s.setJob j x).search = s.search := rfl
@[simp] theorem State.setJob_quirks (s : State) (j : JobIx) (x : Option Job) : (s.setJob j x).quirks = s.quirks := rfl
@[simp] theorem State.setJob_remaps (s : State) (j : JobIx) (x : Option Job) : (s.setJob j x).remaps = s.remaps := rfl
@[simp] theorem State.setJob_queue (s : State) (j : JobIx) (x : Option Job) : (s.setJob j x).queue = s.queue := rfl
@[simp] theorem State.setJob_strays (s : State) (j : JobIx) (x : Option Job) : (s.setJob j x).strays = s.strays := rfl
@[simp] theorem State.setJob_hold (s : State) (j : JobIx) (x : Option Job) : (s.setJob j x).hold = s.hold := rfl
@[simp] theorem State.setJob_flags (s : State) (j : JobIx) (x : Option Job) : (s.setJob j x).flags = s.flags := rfl
@[simp] theorem State.setJob_link (s : State) (j : JobIx) (x : Option Job) : (s.setJob j x).link = s.link := rfl

@[simp] theorem State.setSlab_clock (s : State) (i : SlabId) (x : Option Slab) : (s.setSlab i x).clock = s.clock := rfl
@[simp] theorem State.setSlab_choices (s : State) (i : SlabId) (x : Option Slab) : (s.setSlab i x).choices = s.choices := rfl
@[simp] theorem State.setSlab_pending (s : State) (i : SlabId) (x : Option Slab) : (s.setSlab i x).pending = s.pending := rfl
@[simp] theorem State.setSlab_drives (s : State) (i : SlabId) (x : Option Slab) : (s.setSlab i x).drives = s.drives := rfl
@[simp] theorem State.setSlab_profiles (s : State) (i : SlabId) (x : Option Slab) : (s.setSlab i x).profiles = s.profiles := rfl
@[simp] theorem State.setSlab_directions (s : State) (i : SlabId) (x : Option Slab) : (s.setSlab i x).directions = s.directions := rfl
@[simp] theorem State.setSlab_extents (s : State) (i : SlabId) (x : Option Slab) : (s.setSlab i x).extents = s.extents := rfl
@[simp] theorem State.setSlab_channel (s : State) (i : SlabId) (x : Option Slab) : (s.setSlab i x).channel = s.channel := rfl
@[simp] theorem State.setSlab_jobs (s : State) (i : SlabId) (x : Option Slab) : (s.setSlab i x).jobs = s.jobs := rfl
@[simp] theorem State.setSlab_arrival (s : State) (i : SlabId) (x : Option Slab) : (s.setSlab i x).arrival = s.arrival := rfl
@[simp] theorem State.setSlab_fifo (s : State) (i : SlabId) (x : Option Slab) : (s.setSlab i x).fifo = s.fifo := rfl
@[simp] theorem State.setSlab_search (s : State) (i : SlabId) (x : Option Slab) : (s.setSlab i x).search = s.search := rfl
@[simp] theorem State.setSlab_quirks (s : State) (i : SlabId) (x : Option Slab) : (s.setSlab i x).quirks = s.quirks := rfl
@[simp] theorem State.setSlab_remaps (s : State) (i : SlabId) (x : Option Slab) : (s.setSlab i x).remaps = s.remaps := rfl
@[simp] theorem State.setSlab_queue (s : State) (i : SlabId) (x : Option Slab) : (s.setSlab i x).queue = s.queue := rfl
@[simp] theorem State.setSlab_strays (s : State) (i : SlabId) (x : Option Slab) : (s.setSlab i x).strays = s.strays := rfl
@[simp] theorem State.setSlab_hold (s : State) (i : SlabId) (x : Option Slab) : (s.setSlab i x).hold = s.hold := rfl
@[simp] theorem State.setSlab_flags (s : State) (i : SlabId) (x : Option Slab) : (s.setSlab i x).flags = s.flags := rfl
@[simp] theorem State.setSlab_link (s : State) (i : SlabId) (x : Option Slab) : (s.setSlab i x).link = s.link := rfl

@[simp] theorem State.enqueue_clock (s : State) (e : Entry) : (s.enqueue e).clock = s.clock := rfl
@[simp] theorem State.enqueue_choices (s : State) (e : Entry) : (s.enqueue e).choices = s.choices := rfl
@[simp] theorem State.enqueue_pending (s : State) (e : Entry) : (s.enqueue e).pending = s.pending := rfl
@[simp] theorem State.enqueue_drives (s : State) (e : Entry) : (s.enqueue e).drives = s.drives := rfl
@[simp] theorem State.enqueue_profiles (s : State) (e : Entry) : (s.enqueue e).profiles = s.profiles := rfl
@[simp] theorem State.enqueue_directions (s : State) (e : Entry) : (s.enqueue e).directions = s.directions := rfl
@[simp] theorem State.enqueue_extents (s : State) (e : Entry) : (s.enqueue e).extents = s.extents := rfl
@[simp] theorem State.enqueue_channel (s : State) (e : Entry) : (s.enqueue e).channel = s.channel := rfl
@[simp] theorem State.enqueue_jobs (s : State) (e : Entry) : (s.enqueue e).jobs = s.jobs := rfl
@[simp] theorem State.enqueue_arrival (s : State) (e : Entry) : (s.enqueue e).arrival = s.arrival := rfl
@[simp] theorem State.enqueue_slabs (s : State) (e : Entry) : (s.enqueue e).slabs = s.slabs := rfl
@[simp] theorem State.enqueue_fifo (s : State) (e : Entry) : (s.enqueue e).fifo = s.fifo := rfl
@[simp] theorem State.enqueue_search (s : State) (e : Entry) : (s.enqueue e).search = s.search := rfl
@[simp] theorem State.enqueue_quirks (s : State) (e : Entry) : (s.enqueue e).quirks = s.quirks := rfl
@[simp] theorem State.enqueue_remaps (s : State) (e : Entry) : (s.enqueue e).remaps = s.remaps := rfl
@[simp] theorem State.enqueue_strays (s : State) (e : Entry) : (s.enqueue e).strays = s.strays := rfl
@[simp] theorem State.enqueue_hold (s : State) (e : Entry) : (s.enqueue e).hold = s.hold := rfl
@[simp] theorem State.enqueue_flags (s : State) (e : Entry) : (s.enqueue e).flags = s.flags := rfl
@[simp] theorem State.enqueue_link (s : State) (e : Entry) : (s.enqueue e).link = s.link := rfl

@[simp] theorem State.raise_clock (s : State) (flag : Nat) : (s.raise flag).clock = s.clock := rfl
@[simp] theorem State.raise_choices (s : State) (flag : Nat) : (s.raise flag).choices = s.choices := rfl
@[simp] theorem State.raise_pending (s : State) (flag : Nat) : (s.raise flag).pending = s.pending := rfl
@[simp] theorem State.raise_drives (s : State) (flag : Nat) : (s.raise flag).drives = s.drives := rfl
@[simp] theorem State.raise_profiles (s : State) (flag : Nat) : (s.raise flag).profiles = s.profiles := rfl
@[simp] theorem State.raise_directions (s : State) (flag : Nat) : (s.raise flag).directions = s.directions := rfl
@[simp] theorem State.raise_extents (s : State) (flag : Nat) : (s.raise flag).extents = s.extents := rfl
@[simp] theorem State.raise_channel (s : State) (flag : Nat) : (s.raise flag).channel = s.channel := rfl
@[simp] theorem State.raise_jobs (s : State) (flag : Nat) : (s.raise flag).jobs = s.jobs := rfl
@[simp] theorem State.raise_arrival (s : State) (flag : Nat) : (s.raise flag).arrival = s.arrival := rfl
@[simp] theorem State.raise_slabs (s : State) (flag : Nat) : (s.raise flag).slabs = s.slabs := rfl
@[simp] theorem State.raise_fifo (s : State) (flag : Nat) : (s.raise flag).fifo = s.fifo := rfl
@[simp] theorem State.raise_search (s : State) (flag : Nat) : (s.raise flag).search = s.search := rfl
@[simp] theorem State.raise_quirks (s : State) (flag : Nat) : (s.raise flag).quirks = s.quirks := rfl
@[simp] theorem State.raise_remaps (s : State) (flag : Nat) : (s.raise flag).remaps = s.remaps := rfl
@[simp] theorem State.raise_queue (s : State) (flag : Nat) : (s.raise flag).queue = s.queue := rfl
@[simp] theorem State.raise_strays (s : State) (flag : Nat) : (s.raise flag).strays = s.strays := rfl
@[simp] theorem State.raise_hold (s : State) (flag : Nat) : (s.raise flag).hold = s.hold := rfl
@[simp] theorem State.raise_link (s : State) (flag : Nat) : (s.raise flag).link = s.link := rfl

@[simp] theorem State.setDrive_unitProfiles (s : State) (n : UnitId) (d : Drive) (m : UnitId) : (s.setDrive n d).unitProfiles m = s.unitProfiles m := rfl
@[simp] theorem State.setDrive_extentsOf (s : State) (n : UnitId) (d : Drive) (m : UnitId) : (s.setDrive n d).extentsOf m = s.extentsOf m := rfl
@[simp] theorem State.setDrive_job (s : State) (n : UnitId) (d : Drive) (k : JobIx) : (s.setDrive n d).job k = s.job k := rfl
@[simp] theorem State.setDrive_slab (s : State) (n : UnitId) (d : Drive) (k : SlabId) : (s.setDrive n d).slab k = s.slab k := rfl
@[simp] theorem State.setDrive_active (s : State) (n : UnitId) (d : Drive) (m : UnitId) : (s.setDrive n d).active m = s.active m := rfl

@[simp] theorem State.setProfiles_drive (s : State) (n : UnitId) (p : UnitProfiles) (m : UnitId) : (s.setProfiles n p).drive m = s.drive m := rfl
@[simp] theorem State.setProfiles_extentsOf (s : State) (n : UnitId) (p : UnitProfiles) (m : UnitId) : (s.setProfiles n p).extentsOf m = s.extentsOf m := rfl
@[simp] theorem State.setProfiles_job (s : State) (n : UnitId) (p : UnitProfiles) (k : JobIx) : (s.setProfiles n p).job k = s.job k := rfl
@[simp] theorem State.setProfiles_slab (s : State) (n : UnitId) (p : UnitProfiles) (k : SlabId) : (s.setProfiles n p).slab k = s.slab k := rfl

@[simp] theorem State.setExtents_drive (s : State) (n : UnitId) (es : List Extent) (m : UnitId) : (s.setExtents n es).drive m = s.drive m := rfl
@[simp] theorem State.setExtents_unitProfiles (s : State) (n : UnitId) (es : List Extent) (m : UnitId) : (s.setExtents n es).unitProfiles m = s.unitProfiles m := rfl
@[simp] theorem State.setExtents_job (s : State) (n : UnitId) (es : List Extent) (k : JobIx) : (s.setExtents n es).job k = s.job k := rfl
@[simp] theorem State.setExtents_slab (s : State) (n : UnitId) (es : List Extent) (k : SlabId) : (s.setExtents n es).slab k = s.slab k := rfl
@[simp] theorem State.setExtents_active (s : State) (n : UnitId) (es : List Extent) (m : UnitId) : (s.setExtents n es).active m = s.active m := rfl

@[simp] theorem State.setDirection_drive (s : State) (n : UnitId) (d : Direction) (m : UnitId) : (s.setDirection n d).drive m = s.drive m := rfl
@[simp] theorem State.setDirection_unitProfiles (s : State) (n : UnitId) (d : Direction) (m : UnitId) : (s.setDirection n d).unitProfiles m = s.unitProfiles m := rfl
@[simp] theorem State.setDirection_extentsOf (s : State) (n : UnitId) (d : Direction) (m : UnitId) : (s.setDirection n d).extentsOf m = s.extentsOf m := rfl
@[simp] theorem State.setDirection_job (s : State) (n : UnitId) (d : Direction) (k : JobIx) : (s.setDirection n d).job k = s.job k := rfl
@[simp] theorem State.setDirection_slab (s : State) (n : UnitId) (d : Direction) (k : SlabId) : (s.setDirection n d).slab k = s.slab k := rfl
@[simp] theorem State.setDirection_active (s : State) (n : UnitId) (d : Direction) (m : UnitId) : (s.setDirection n d).active m = s.active m := rfl

@[simp] theorem State.setJob_drive (s : State) (j : JobIx) (x : Option Job) (m : UnitId) : (s.setJob j x).drive m = s.drive m := rfl
@[simp] theorem State.setJob_unitProfiles (s : State) (j : JobIx) (x : Option Job) (m : UnitId) : (s.setJob j x).unitProfiles m = s.unitProfiles m := rfl
@[simp] theorem State.setJob_extentsOf (s : State) (j : JobIx) (x : Option Job) (m : UnitId) : (s.setJob j x).extentsOf m = s.extentsOf m := rfl
@[simp] theorem State.setJob_slab (s : State) (j : JobIx) (x : Option Job) (k : SlabId) : (s.setJob j x).slab k = s.slab k := rfl
@[simp] theorem State.setJob_active (s : State) (j : JobIx) (x : Option Job) (m : UnitId) : (s.setJob j x).active m = s.active m := rfl

@[simp] theorem State.setSlab_drive (s : State) (i : SlabId) (x : Option Slab) (m : UnitId) : (s.setSlab i x).drive m = s.drive m := rfl
@[simp] theorem State.setSlab_unitProfiles (s : State) (i : SlabId) (x : Option Slab) (m : UnitId) : (s.setSlab i x).unitProfiles m = s.unitProfiles m := rfl
@[simp] theorem State.setSlab_extentsOf (s : State) (i : SlabId) (x : Option Slab) (m : UnitId) : (s.setSlab i x).extentsOf m = s.extentsOf m := rfl
@[simp] theorem State.setSlab_job (s : State) (i : SlabId) (x : Option Slab) (k : JobIx) : (s.setSlab i x).job k = s.job k := rfl
@[simp] theorem State.setSlab_active (s : State) (i : SlabId) (x : Option Slab) (m : UnitId) : (s.setSlab i x).active m = s.active m := rfl

@[simp] theorem State.enqueue_drive (s : State) (e : Entry) (m : UnitId) : (s.enqueue e).drive m = s.drive m := rfl
@[simp] theorem State.enqueue_unitProfiles (s : State) (e : Entry) (m : UnitId) : (s.enqueue e).unitProfiles m = s.unitProfiles m := rfl
@[simp] theorem State.enqueue_extentsOf (s : State) (e : Entry) (m : UnitId) : (s.enqueue e).extentsOf m = s.extentsOf m := rfl
@[simp] theorem State.enqueue_job (s : State) (e : Entry) (k : JobIx) : (s.enqueue e).job k = s.job k := rfl
@[simp] theorem State.enqueue_slab (s : State) (e : Entry) (k : SlabId) : (s.enqueue e).slab k = s.slab k := rfl
@[simp] theorem State.enqueue_active (s : State) (e : Entry) (m : UnitId) : (s.enqueue e).active m = s.active m := rfl

@[simp] theorem State.raise_drive (s : State) (flag : Nat) (m : UnitId) : (s.raise flag).drive m = s.drive m := rfl
@[simp] theorem State.raise_unitProfiles (s : State) (flag : Nat) (m : UnitId) : (s.raise flag).unitProfiles m = s.unitProfiles m := rfl
@[simp] theorem State.raise_extentsOf (s : State) (flag : Nat) (m : UnitId) : (s.raise flag).extentsOf m = s.extentsOf m := rfl
@[simp] theorem State.raise_job (s : State) (flag : Nat) (k : JobIx) : (s.raise flag).job k = s.job k := rfl
@[simp] theorem State.raise_slab (s : State) (flag : Nat) (k : SlabId) : (s.raise flag).slab k = s.slab k := rfl
@[simp] theorem State.raise_active (s : State) (flag : Nat) (m : UnitId) : (s.raise flag).active m = s.active m := rfl

@[simp] theorem State.setDrive_drive_self (s : State) (n : UnitId) (d : Drive) : (s.setDrive n d).drive n = d := by
  simp [State.setDrive, State.drive]

theorem State.setDrive_drive_other (s : State) (n m : UnitId) (d : Drive) (h : n ≠ m) : (s.setDrive n d).drive m = s.drive m := by
  simp only [State.setDrive, State.drive, Fin.getElem_fin]
  exact Vector.getElem_set_ne _ _ (fun e => h (Fin.ext e))

theorem State.setDrive_drive (s : State) (n m : UnitId) (d : Drive) : (s.setDrive n d).drive m = if n = m then d else s.drive m := by
  split
  · next h => rw [← h, State.setDrive_drive_self]
  · next h => exact State.setDrive_drive_other s n m d h

@[simp] theorem State.setProfiles_unitProfiles_self (s : State) (n : UnitId) (d : UnitProfiles) : (s.setProfiles n d).unitProfiles n = d := by
  simp [State.setProfiles, State.unitProfiles]

theorem State.setProfiles_unitProfiles_other (s : State) (n m : UnitId) (d : UnitProfiles) (h : n ≠ m) : (s.setProfiles n d).unitProfiles m = s.unitProfiles m := by
  simp only [State.setProfiles, State.unitProfiles, Fin.getElem_fin]
  exact Vector.getElem_set_ne _ _ (fun e => h (Fin.ext e))

theorem State.setProfiles_unitProfiles (s : State) (n m : UnitId) (d : UnitProfiles) : (s.setProfiles n d).unitProfiles m = if n = m then d else s.unitProfiles m := by
  split
  · next h => rw [← h, State.setProfiles_unitProfiles_self]
  · next h => exact State.setProfiles_unitProfiles_other s n m d h

@[simp] theorem State.setExtents_extentsOf_self (s : State) (n : UnitId) (d : List Extent) : (s.setExtents n d).extentsOf n = d := by
  simp [State.setExtents, State.extentsOf]

theorem State.setExtents_extentsOf_other (s : State) (n m : UnitId) (d : List Extent) (h : n ≠ m) : (s.setExtents n d).extentsOf m = s.extentsOf m := by
  simp only [State.setExtents, State.extentsOf, Fin.getElem_fin]
  exact Vector.getElem_set_ne _ _ (fun e => h (Fin.ext e))

theorem State.setExtents_extentsOf (s : State) (n m : UnitId) (d : List Extent) : (s.setExtents n d).extentsOf m = if n = m then d else s.extentsOf m := by
  split
  · next h => rw [← h, State.setExtents_extentsOf_self]
  · next h => exact State.setExtents_extentsOf_other s n m d h

@[simp] theorem State.setJob_job_self (s : State) (n : JobIx) (d : Option Job) : (s.setJob n d).job n = d := by
  simp [State.setJob, State.job]

theorem State.setJob_job_other (s : State) (n m : JobIx) (d : Option Job) (h : n ≠ m) : (s.setJob n d).job m = s.job m := by
  simp only [State.setJob, State.job, Fin.getElem_fin]
  exact Vector.getElem_set_ne _ _ (fun e => h (Fin.ext e))

theorem State.setJob_job (s : State) (n m : JobIx) (d : Option Job) : (s.setJob n d).job m = if n = m then d else s.job m := by
  split
  · next h => rw [← h, State.setJob_job_self]
  · next h => exact State.setJob_job_other s n m d h

@[simp] theorem State.setSlab_slab_self (s : State) (n : SlabId) (d : Option Slab) : (s.setSlab n d).slab n = d := by
  simp [State.setSlab, State.slab]

theorem State.setSlab_slab_other (s : State) (n m : SlabId) (d : Option Slab) (h : n ≠ m) : (s.setSlab n d).slab m = s.slab m := by
  simp only [State.setSlab, State.slab, Fin.getElem_fin]
  exact Vector.getElem_set_ne _ _ (fun e => h (Fin.ext e))

theorem State.setSlab_slab (s : State) (n m : SlabId) (d : Option Slab) : (s.setSlab n d).slab m = if n = m then d else s.slab m := by
  split
  · next h => rw [← h, State.setSlab_slab_self]
  · next h => exact State.setSlab_slab_other s n m d h

@[simp] theorem State.modDrive_clock (s : State) (n : UnitId) (f : Drive → Drive) : (s.modDrive n f).clock = s.clock := rfl
@[simp] theorem State.modDrive_choices (s : State) (n : UnitId) (f : Drive → Drive) : (s.modDrive n f).choices = s.choices := rfl
@[simp] theorem State.modDrive_pending (s : State) (n : UnitId) (f : Drive → Drive) : (s.modDrive n f).pending = s.pending := rfl
@[simp] theorem State.modDrive_profiles (s : State) (n : UnitId) (f : Drive → Drive) : (s.modDrive n f).profiles = s.profiles := rfl
@[simp] theorem State.modDrive_directions (s : State) (n : UnitId) (f : Drive → Drive) : (s.modDrive n f).directions = s.directions := rfl
@[simp] theorem State.modDrive_extents (s : State) (n : UnitId) (f : Drive → Drive) : (s.modDrive n f).extents = s.extents := rfl
@[simp] theorem State.modDrive_channel (s : State) (n : UnitId) (f : Drive → Drive) : (s.modDrive n f).channel = s.channel := rfl
@[simp] theorem State.modDrive_jobs (s : State) (n : UnitId) (f : Drive → Drive) : (s.modDrive n f).jobs = s.jobs := rfl
@[simp] theorem State.modDrive_arrival (s : State) (n : UnitId) (f : Drive → Drive) : (s.modDrive n f).arrival = s.arrival := rfl
@[simp] theorem State.modDrive_slabs (s : State) (n : UnitId) (f : Drive → Drive) : (s.modDrive n f).slabs = s.slabs := rfl
@[simp] theorem State.modDrive_fifo (s : State) (n : UnitId) (f : Drive → Drive) : (s.modDrive n f).fifo = s.fifo := rfl
@[simp] theorem State.modDrive_search (s : State) (n : UnitId) (f : Drive → Drive) : (s.modDrive n f).search = s.search := rfl
@[simp] theorem State.modDrive_quirks (s : State) (n : UnitId) (f : Drive → Drive) : (s.modDrive n f).quirks = s.quirks := rfl
@[simp] theorem State.modDrive_remaps (s : State) (n : UnitId) (f : Drive → Drive) : (s.modDrive n f).remaps = s.remaps := rfl
@[simp] theorem State.modDrive_queue (s : State) (n : UnitId) (f : Drive → Drive) : (s.modDrive n f).queue = s.queue := rfl
@[simp] theorem State.modDrive_strays (s : State) (n : UnitId) (f : Drive → Drive) : (s.modDrive n f).strays = s.strays := rfl
@[simp] theorem State.modDrive_hold (s : State) (n : UnitId) (f : Drive → Drive) : (s.modDrive n f).hold = s.hold := rfl
@[simp] theorem State.modDrive_flags (s : State) (n : UnitId) (f : Drive → Drive) : (s.modDrive n f).flags = s.flags := rfl
@[simp] theorem State.modDrive_link (s : State) (n : UnitId) (f : Drive → Drive) : (s.modDrive n f).link = s.link := rfl

@[simp] theorem State.modDrive_drive_self (s : State) (n : UnitId) (f : Drive → Drive) :
    (s.modDrive n f).drive n = f (s.drive n) := by
  simp [State.modDrive]

theorem State.modDrive_drive_other (s : State) (n m : UnitId) (f : Drive → Drive) (h : n ≠ m) :
    (s.modDrive n f).drive m = s.drive m := by
  simp [State.modDrive, State.setDrive_drive_other _ _ _ _ h]

@[simp] theorem State.modDrive_unitProfiles (s : State) (n : UnitId) (f : Drive → Drive) (m : UnitId) : (s.modDrive n f).unitProfiles m = s.unitProfiles m := rfl
@[simp] theorem State.modDrive_extentsOf (s : State) (n : UnitId) (f : Drive → Drive) (m : UnitId) : (s.modDrive n f).extentsOf m = s.extentsOf m := rfl
@[simp] theorem State.modDrive_job (s : State) (n : UnitId) (f : Drive → Drive) (k : JobIx) : (s.modDrive n f).job k = s.job k := rfl
@[simp] theorem State.modDrive_slab (s : State) (n : UnitId) (f : Drive → Drive) (k : SlabId) : (s.modDrive n f).slab k = s.slab k := rfl
@[simp] theorem State.modDrive_active (s : State) (n : UnitId) (f : Drive → Drive) (m : UnitId) : (s.modDrive n f).active m = s.active m := rfl

@[simp] theorem State.modJob_clock (s : State) (j : JobIx) (f : Job → Job) : (s.modJob j f).clock = s.clock := by
  unfold State.modJob; split <;> rfl
@[simp] theorem State.modJob_choices (s : State) (j : JobIx) (f : Job → Job) : (s.modJob j f).choices = s.choices := by
  unfold State.modJob; split <;> rfl
@[simp] theorem State.modJob_pending (s : State) (j : JobIx) (f : Job → Job) : (s.modJob j f).pending = s.pending := by
  unfold State.modJob; split <;> rfl
@[simp] theorem State.modJob_drives (s : State) (j : JobIx) (f : Job → Job) : (s.modJob j f).drives = s.drives := by
  unfold State.modJob; split <;> rfl
@[simp] theorem State.modJob_profiles (s : State) (j : JobIx) (f : Job → Job) : (s.modJob j f).profiles = s.profiles := by
  unfold State.modJob; split <;> rfl
@[simp] theorem State.modJob_directions (s : State) (j : JobIx) (f : Job → Job) : (s.modJob j f).directions = s.directions := by
  unfold State.modJob; split <;> rfl
@[simp] theorem State.modJob_extents (s : State) (j : JobIx) (f : Job → Job) : (s.modJob j f).extents = s.extents := by
  unfold State.modJob; split <;> rfl
@[simp] theorem State.modJob_channel (s : State) (j : JobIx) (f : Job → Job) : (s.modJob j f).channel = s.channel := by
  unfold State.modJob; split <;> rfl
@[simp] theorem State.modJob_arrival (s : State) (j : JobIx) (f : Job → Job) : (s.modJob j f).arrival = s.arrival := by
  unfold State.modJob; split <;> rfl
@[simp] theorem State.modJob_slabs (s : State) (j : JobIx) (f : Job → Job) : (s.modJob j f).slabs = s.slabs := by
  unfold State.modJob; split <;> rfl
@[simp] theorem State.modJob_fifo (s : State) (j : JobIx) (f : Job → Job) : (s.modJob j f).fifo = s.fifo := by
  unfold State.modJob; split <;> rfl
@[simp] theorem State.modJob_search (s : State) (j : JobIx) (f : Job → Job) : (s.modJob j f).search = s.search := by
  unfold State.modJob; split <;> rfl
@[simp] theorem State.modJob_quirks (s : State) (j : JobIx) (f : Job → Job) : (s.modJob j f).quirks = s.quirks := by
  unfold State.modJob; split <;> rfl
@[simp] theorem State.modJob_remaps (s : State) (j : JobIx) (f : Job → Job) : (s.modJob j f).remaps = s.remaps := by
  unfold State.modJob; split <;> rfl
@[simp] theorem State.modJob_queue (s : State) (j : JobIx) (f : Job → Job) : (s.modJob j f).queue = s.queue := by
  unfold State.modJob; split <;> rfl
@[simp] theorem State.modJob_strays (s : State) (j : JobIx) (f : Job → Job) : (s.modJob j f).strays = s.strays := by
  unfold State.modJob; split <;> rfl
@[simp] theorem State.modJob_hold (s : State) (j : JobIx) (f : Job → Job) : (s.modJob j f).hold = s.hold := by
  unfold State.modJob; split <;> rfl
@[simp] theorem State.modJob_flags (s : State) (j : JobIx) (f : Job → Job) : (s.modJob j f).flags = s.flags := by
  unfold State.modJob; split <;> rfl
@[simp] theorem State.modJob_link (s : State) (j : JobIx) (f : Job → Job) : (s.modJob j f).link = s.link := by
  unfold State.modJob; split <;> rfl
@[simp] theorem State.modJob_drive (s : State) (j : JobIx) (f : Job → Job) (m : UnitId) : (s.modJob j f).drive m = s.drive m := by
  unfold State.modJob; split <;> rfl
@[simp] theorem State.modJob_unitProfiles (s : State) (j : JobIx) (f : Job → Job) (m : UnitId) : (s.modJob j f).unitProfiles m = s.unitProfiles m := by
  unfold State.modJob; split <;> rfl
@[simp] theorem State.modJob_extentsOf (s : State) (j : JobIx) (f : Job → Job) (m : UnitId) : (s.modJob j f).extentsOf m = s.extentsOf m := by
  unfold State.modJob; split <;> rfl
@[simp] theorem State.modJob_slab (s : State) (j : JobIx) (f : Job → Job) (k : SlabId) : (s.modJob j f).slab k = s.slab k := by
  unfold State.modJob; split <;> rfl
@[simp] theorem State.modJob_active (s : State) (j : JobIx) (f : Job → Job) (m : UnitId) : (s.modJob j f).active m = s.active m := by
  unfold State.modJob; split <;> rfl

@[simp] theorem State.modSlab_clock (s : State) (i : SlabId) (f : Slab → Slab) : (s.modSlab i f).clock = s.clock := by
  unfold State.modSlab; split <;> rfl
@[simp] theorem State.modSlab_choices (s : State) (i : SlabId) (f : Slab → Slab) : (s.modSlab i f).choices = s.choices := by
  unfold State.modSlab; split <;> rfl
@[simp] theorem State.modSlab_pending (s : State) (i : SlabId) (f : Slab → Slab) : (s.modSlab i f).pending = s.pending := by
  unfold State.modSlab; split <;> rfl
@[simp] theorem State.modSlab_drives (s : State) (i : SlabId) (f : Slab → Slab) : (s.modSlab i f).drives = s.drives := by
  unfold State.modSlab; split <;> rfl
@[simp] theorem State.modSlab_profiles (s : State) (i : SlabId) (f : Slab → Slab) : (s.modSlab i f).profiles = s.profiles := by
  unfold State.modSlab; split <;> rfl
@[simp] theorem State.modSlab_directions (s : State) (i : SlabId) (f : Slab → Slab) : (s.modSlab i f).directions = s.directions := by
  unfold State.modSlab; split <;> rfl
@[simp] theorem State.modSlab_extents (s : State) (i : SlabId) (f : Slab → Slab) : (s.modSlab i f).extents = s.extents := by
  unfold State.modSlab; split <;> rfl
@[simp] theorem State.modSlab_channel (s : State) (i : SlabId) (f : Slab → Slab) : (s.modSlab i f).channel = s.channel := by
  unfold State.modSlab; split <;> rfl
@[simp] theorem State.modSlab_jobs (s : State) (i : SlabId) (f : Slab → Slab) : (s.modSlab i f).jobs = s.jobs := by
  unfold State.modSlab; split <;> rfl
@[simp] theorem State.modSlab_arrival (s : State) (i : SlabId) (f : Slab → Slab) : (s.modSlab i f).arrival = s.arrival := by
  unfold State.modSlab; split <;> rfl
@[simp] theorem State.modSlab_fifo (s : State) (i : SlabId) (f : Slab → Slab) : (s.modSlab i f).fifo = s.fifo := by
  unfold State.modSlab; split <;> rfl
@[simp] theorem State.modSlab_search (s : State) (i : SlabId) (f : Slab → Slab) : (s.modSlab i f).search = s.search := by
  unfold State.modSlab; split <;> rfl
@[simp] theorem State.modSlab_quirks (s : State) (i : SlabId) (f : Slab → Slab) : (s.modSlab i f).quirks = s.quirks := by
  unfold State.modSlab; split <;> rfl
@[simp] theorem State.modSlab_remaps (s : State) (i : SlabId) (f : Slab → Slab) : (s.modSlab i f).remaps = s.remaps := by
  unfold State.modSlab; split <;> rfl
@[simp] theorem State.modSlab_queue (s : State) (i : SlabId) (f : Slab → Slab) : (s.modSlab i f).queue = s.queue := by
  unfold State.modSlab; split <;> rfl
@[simp] theorem State.modSlab_strays (s : State) (i : SlabId) (f : Slab → Slab) : (s.modSlab i f).strays = s.strays := by
  unfold State.modSlab; split <;> rfl
@[simp] theorem State.modSlab_hold (s : State) (i : SlabId) (f : Slab → Slab) : (s.modSlab i f).hold = s.hold := by
  unfold State.modSlab; split <;> rfl
@[simp] theorem State.modSlab_flags (s : State) (i : SlabId) (f : Slab → Slab) : (s.modSlab i f).flags = s.flags := by
  unfold State.modSlab; split <;> rfl
@[simp] theorem State.modSlab_link (s : State) (i : SlabId) (f : Slab → Slab) : (s.modSlab i f).link = s.link := by
  unfold State.modSlab; split <;> rfl
@[simp] theorem State.modSlab_drive (s : State) (i : SlabId) (f : Slab → Slab) (m : UnitId) : (s.modSlab i f).drive m = s.drive m := by
  unfold State.modSlab; split <;> rfl
@[simp] theorem State.modSlab_unitProfiles (s : State) (i : SlabId) (f : Slab → Slab) (m : UnitId) : (s.modSlab i f).unitProfiles m = s.unitProfiles m := by
  unfold State.modSlab; split <;> rfl
@[simp] theorem State.modSlab_extentsOf (s : State) (i : SlabId) (f : Slab → Slab) (m : UnitId) : (s.modSlab i f).extentsOf m = s.extentsOf m := by
  unfold State.modSlab; split <;> rfl
@[simp] theorem State.modSlab_job (s : State) (i : SlabId) (f : Slab → Slab) (k : JobIx) : (s.modSlab i f).job k = s.job k := by
  unfold State.modSlab; split <;> rfl
@[simp] theorem State.modSlab_active (s : State) (i : SlabId) (f : Slab → Slab) (m : UnitId) : (s.modSlab i f).active m = s.active m := by
  unfold State.modSlab; split <;> rfl

@[simp] theorem State.modRecord_clock (s : State) (j : JobIx) (sec : Nat) (f : Record → Record) : (s.modRecord j sec f).clock = s.clock := State.modJob_clock _ _ _
@[simp] theorem State.modRecord_choices (s : State) (j : JobIx) (sec : Nat) (f : Record → Record) : (s.modRecord j sec f).choices = s.choices := State.modJob_choices _ _ _
@[simp] theorem State.modRecord_pending (s : State) (j : JobIx) (sec : Nat) (f : Record → Record) : (s.modRecord j sec f).pending = s.pending := State.modJob_pending _ _ _
@[simp] theorem State.modRecord_drives (s : State) (j : JobIx) (sec : Nat) (f : Record → Record) : (s.modRecord j sec f).drives = s.drives := State.modJob_drives _ _ _
@[simp] theorem State.modRecord_profiles (s : State) (j : JobIx) (sec : Nat) (f : Record → Record) : (s.modRecord j sec f).profiles = s.profiles := State.modJob_profiles _ _ _
@[simp] theorem State.modRecord_directions (s : State) (j : JobIx) (sec : Nat) (f : Record → Record) : (s.modRecord j sec f).directions = s.directions := State.modJob_directions _ _ _
@[simp] theorem State.modRecord_extents (s : State) (j : JobIx) (sec : Nat) (f : Record → Record) : (s.modRecord j sec f).extents = s.extents := State.modJob_extents _ _ _
@[simp] theorem State.modRecord_channel (s : State) (j : JobIx) (sec : Nat) (f : Record → Record) : (s.modRecord j sec f).channel = s.channel := State.modJob_channel _ _ _
@[simp] theorem State.modRecord_arrival (s : State) (j : JobIx) (sec : Nat) (f : Record → Record) : (s.modRecord j sec f).arrival = s.arrival := State.modJob_arrival _ _ _
@[simp] theorem State.modRecord_slabs (s : State) (j : JobIx) (sec : Nat) (f : Record → Record) : (s.modRecord j sec f).slabs = s.slabs := State.modJob_slabs _ _ _
@[simp] theorem State.modRecord_fifo (s : State) (j : JobIx) (sec : Nat) (f : Record → Record) : (s.modRecord j sec f).fifo = s.fifo := State.modJob_fifo _ _ _
@[simp] theorem State.modRecord_search (s : State) (j : JobIx) (sec : Nat) (f : Record → Record) : (s.modRecord j sec f).search = s.search := State.modJob_search _ _ _
@[simp] theorem State.modRecord_quirks (s : State) (j : JobIx) (sec : Nat) (f : Record → Record) : (s.modRecord j sec f).quirks = s.quirks := State.modJob_quirks _ _ _
@[simp] theorem State.modRecord_remaps (s : State) (j : JobIx) (sec : Nat) (f : Record → Record) : (s.modRecord j sec f).remaps = s.remaps := State.modJob_remaps _ _ _
@[simp] theorem State.modRecord_queue (s : State) (j : JobIx) (sec : Nat) (f : Record → Record) : (s.modRecord j sec f).queue = s.queue := State.modJob_queue _ _ _
@[simp] theorem State.modRecord_strays (s : State) (j : JobIx) (sec : Nat) (f : Record → Record) : (s.modRecord j sec f).strays = s.strays := State.modJob_strays _ _ _
@[simp] theorem State.modRecord_hold (s : State) (j : JobIx) (sec : Nat) (f : Record → Record) : (s.modRecord j sec f).hold = s.hold := State.modJob_hold _ _ _
@[simp] theorem State.modRecord_flags (s : State) (j : JobIx) (sec : Nat) (f : Record → Record) : (s.modRecord j sec f).flags = s.flags := State.modJob_flags _ _ _
@[simp] theorem State.modRecord_link (s : State) (j : JobIx) (sec : Nat) (f : Record → Record) : (s.modRecord j sec f).link = s.link := State.modJob_link _ _ _

/-! ### What a drive keeps when it takes a state -/

@[simp] theorem Drive.enter_descriptor (d : Drive) (st : DriveState) : (d.enter st).descriptor = d.descriptor := rfl
@[simp] theorem Drive.enter_cylinder (d : Drive) (st : DriveState) : (d.enter st).cylinder = d.cylinder := rfl
@[simp] theorem Drive.enter_target (d : Drive) (st : DriveState) : (d.enter st).target = d.target := rfl
@[simp] theorem Drive.enter_offset (d : Drive) (st : DriveState) : (d.enter st).offset = d.offset := rfl
@[simp] theorem Drive.enter_heldJob (d : Drive) (st : DriveState) : (d.enter st).heldJob = d.heldJob := rfl
@[simp] theorem Drive.enter_seekErrors (d : Drive) (st : DriveState) : (d.enter st).seekErrors = d.seekErrors := rfl
@[simp] theorem Drive.enter_deadRevs (d : Drive) (st : DriveState) : (d.enter st).deadRevs = d.deadRevs := rfl
@[simp] theorem Drive.enter_monitor (d : Drive) (st : DriveState) : (d.enter st).monitor = d.monitor := rfl
@[simp] theorem Drive.enter_indexLost (d : Drive) (st : DriveState) : (d.enter st).indexLost = d.indexLost := rfl
@[simp] theorem Drive.enter_ready (d : Drive) (st : DriveState) : (d.enter st).ready = d.ready := rfl
@[simp] theorem Drive.enter_positioningSettle (d : Drive) (st : DriveState) : (d.enter st).positioningSettle = d.positioningSettle := rfl
@[simp] theorem Drive.enter_matchedSlots (d : Drive) (st : DriveState) : (d.enter st).matchedSlots = d.matchedSlots := rfl
@[simp] theorem Drive.enter_state (d : Drive) (st : DriveState) : (d.enter st).state = st := rfl
@[simp] theorem Drive.enter_motion (d : Drive) (st : DriveState) : (d.enter st).motion = .still := rfl

end Sys2Proof.Machine
end

