-- ==== Sys2Proof/Laws/Evolves.lean ====
section
/-! SUPPORT. Everything the blocks inside the 612 can do to a state, said once: a chain of elementary updates, each
keeping the item it writes in its range. Every operation of the drives, the channel, the jobs, the passes, the
Recovery Engine and the index pulse is such a chain (Laws/Engine.lean), so what holds of the elementary updates holds
of all of them. -/

namespace Sys2Proof.Machine

/-- An entry of the vote store in its range. -/
def SlabSlotOk (x : Option Slab) : Prop := ∀ y, x = some y → y.Ok

/-- A state reached from another by elementary updates, each of which keeps what it writes in its range wherever Q holds,
the chain began in range and the update finds the state in range. -/
inductive EvolvesIf (Q : Prop) (s : State) : State → Prop where
  | refl : EvolvesIf Q s s
  | drive {t : State} (n : UnitId) (d : Drive) :
      EvolvesIf Q s t → (Q → s.InRange → t.InRange → d.Ok) → d.descriptor = (t.drive n).descriptor →
      EvolvesIf Q s (t.setDrive n d)
  | profiles {t : State} (n : UnitId) (p : UnitProfiles) :
      EvolvesIf Q s t → ((t.unitProfiles n).Ok → p.Ok) → EvolvesIf Q s (t.setProfiles n p)
  | direction {t : State} (n : UnitId) (d : Direction) : EvolvesIf Q s t → EvolvesIf Q s (t.setDirection n d)
  | job {t : State} (j : JobIx) (x : Option Job) :
      EvolvesIf Q s t → (Q → s.InRange → t.InRange → ∀ y, x = some y → y.Ok ∧ t.JobFits y) →
      EvolvesIf Q s (t.setJob j x)
  | slab {t : State} (i : SlabId) (x : Option Slab) :
      EvolvesIf Q s t → (Q → s.InRange → t.InRange → SlabSlotOk x) → EvolvesIf Q s (t.setSlab i x)
  | slabs {t : State} (v : Vector (Option Slab) 64) :
      EvolvesIf Q s t → (∀ i : SlabId, SlabSlotOk (t.slab i) → SlabSlotOk v[i]) → EvolvesIf Q s { t with slabs := v }
  | channel {t : State} (c : Channel) :
      EvolvesIf Q s t → (Q → s.InRange → t.InRange → c.Ok) → EvolvesIf Q s { t with channel := c }
  | repair {t : State} (fifo : List SlabId) (search : Option Search) :
      EvolvesIf Q s t → EvolvesIf Q s { t with fifo := fifo, search := search }
  | arrival {t : State} (a : BitVec 32) : EvolvesIf Q s t → EvolvesIf Q s { t with arrival := a }
  | enqueue {t : State} (e : Entry) : EvolvesIf Q s t → t.queueRoom = true → EvolvesIf Q s (t.enqueue e)
  | strays {t : State} (v : Vector (Option Stray) 4) : EvolvesIf Q s t → EvolvesIf Q s { t with strays := v }
  | raise {t : State} (k : Nat) : EvolvesIf Q s t → EvolvesIf Q s (t.raise k)
  | clear {t : State} (named : FlagSet) : EvolvesIf Q s t → EvolvesIf Q s { t with flags := t.flags.clear named }

/-- A state reached from another by elementary updates that keep it in range. -/
abbrev Evolves (s t : State) : Prop := EvolvesIf True s t

/-- What no elementary update touches. -/
structure SameOutside (s t : State) : Prop where
  clock : t.clock = s.clock
  choices : t.choices = s.choices
  pending : t.pending = s.pending
  extents : t.extents = s.extents
  quirks : t.quirks = s.quirks
  remaps : t.remaps = s.remaps
  hold : t.hold = s.hold
  link : t.link = s.link

theorem EvolvesIf.same {Q : Prop} {s t : State} (h : EvolvesIf Q s t) : SameOutside s t := by
  induction h with
  | refl => exact ⟨rfl, rfl, rfl, rfl, rfl, rfl, rfl, rfl⟩
  | drive _ _ _ _ _ ih => exact ⟨ih.1, ih.2, ih.3, ih.4, ih.5, ih.6, ih.7, ih.8⟩
  | profiles _ _ _ _ ih => exact ⟨ih.1, ih.2, ih.3, ih.4, ih.5, ih.6, ih.7, ih.8⟩
  | direction _ _ _ ih => exact ⟨ih.1, ih.2, ih.3, ih.4, ih.5, ih.6, ih.7, ih.8⟩
  | job _ _ _ _ ih => exact ⟨ih.1, ih.2, ih.3, ih.4, ih.5, ih.6, ih.7, ih.8⟩
  | slab _ _ _ _ ih => exact ⟨ih.1, ih.2, ih.3, ih.4, ih.5, ih.6, ih.7, ih.8⟩
  | slabs _ _ _ ih => exact ⟨ih.1, ih.2, ih.3, ih.4, ih.5, ih.6, ih.7, ih.8⟩
  | channel _ _ _ ih => exact ⟨ih.1, ih.2, ih.3, ih.4, ih.5, ih.6, ih.7, ih.8⟩
  | repair _ _ _ ih => exact ⟨ih.1, ih.2, ih.3, ih.4, ih.5, ih.6, ih.7, ih.8⟩
  | arrival _ _ ih => exact ⟨ih.1, ih.2, ih.3, ih.4, ih.5, ih.6, ih.7, ih.8⟩
  | enqueue _ _ _ ih => exact ⟨ih.1, ih.2, ih.3, ih.4, ih.5, ih.6, ih.7, ih.8⟩
  | strays _ _ ih => exact ⟨ih.1, ih.2, ih.3, ih.4, ih.5, ih.6, ih.7, ih.8⟩
  | raise _ _ ih => exact ⟨ih.1, ih.2, ih.3, ih.4, ih.5, ih.6, ih.7, ih.8⟩
  | clear _ _ ih => exact ⟨ih.1, ih.2, ih.3, ih.4, ih.5, ih.6, ih.7, ih.8⟩

/-! ### Flags -/

theorem FlagUnit.raise_ok {f : FlagUnit} (h : f.Ok) (k : Nat) : (f.raise k).Ok := by
  unfold FlagUnit.raise
  split
  · exact h
  · constructor
    · intro i hi
      simp only [BitVec.getLsbD_or, BitVec.getLsbD_and, Bool.or_eq_true, Bool.and_eq_true] at hi ⊢
      rcases hi with hi | hi
      · exact .inl (h.set i hi)
      · exact .inr hi.2
    · intro i hi
      simp only [BitVec.getLsbD_or, BitVec.getLsbD_and, Bool.or_eq_true, Bool.and_eq_true] at hi
      rcases hi with hi | hi
      · exact h.enabled i hi
      · exact hi.1

theorem FlagUnit.clear_ok {f : FlagUnit} (h : f.Ok) (named : FlagSet) : (f.clear named).Ok := by
  constructor
  · intro i hi
    simp only [FlagUnit.clear, BitVec.getLsbD_and, Bool.and_eq_true] at hi ⊢
    exact ⟨h.set i hi.1, hi.2⟩
  · intro i hi
    simp only [FlagUnit.clear, BitVec.getLsbD_and, Bool.and_eq_true] at hi ⊢
    exact h.enabled i hi.1

theorem FlagUnit.enable_ok {f : FlagUnit} (h : f.Ok) (named : FlagSet) : (f.enable named).Ok := by
  constructor
  · intro i hi
    simp only [FlagUnit.enable, BitVec.getLsbD_and, Bool.and_eq_true] at hi ⊢
    exact h.set i hi.1
  · intro i hi
    simp only [FlagUnit.enable, BitVec.getLsbD_and, Bool.and_eq_true] at hi ⊢
    exact hi.2

theorem FlagUnit.takeOwed_ok {f : FlagUnit} (h : f.Ok) : f.takeOwed.Ok := by
  unfold FlagUnit.takeOwed
  split
  · constructor
    · intro i hi
      simp only [BitVec.getLsbD_and, Bool.and_eq_true] at hi ⊢
      exact h.set i hi.1
    · intro i hi
      simp only [BitVec.getLsbD_and, Bool.and_eq_true] at hi ⊢
      exact h.enabled i hi.1
  · exact h

/-! ### Ranges -/

/-- A job fits wherever its track and the number of its records stand and its unit's descriptor does. -/
theorem State.JobFits.mono {s t : State} {x y : Job} (h : s.JobFits x)
    (hd : ∀ n, (t.drive n).descriptor = (s.drive n).descriptor)
    (hk : y.unit = x.unit ∧ y.cylinder = x.cylinder ∧ y.head = x.head ∧ y.records.length = x.records.length) :
    t.JobFits y := by
  obtain ⟨d, h1, h2, h3, h4⟩ := h
  obtain ⟨k1, k2, k3, k4⟩ := hk
  exact ⟨d, by rw [hd, k1, h1], k2 ▸ h2, k3 ▸ h3, k4 ▸ h4⟩

/-- A chain keeps every item in its range. -/
theorem EvolvesIf.inRange {Q : Prop} {s t : State} (h : EvolvesIf Q s t) (hq : Q) (hs : s.InRange) : t.InRange := by
  induction h with
  | refl => exact hs
  | @drive u n d _ hd hn ih =>
    have hm : ∀ m, ((u.setDrive n d).drive m).descriptor = (u.drive m).descriptor := fun m => by
      rw [State.setDrive_drive]
      split
      · next e => exact e ▸ hn
      · rfl
    refine { ih with
      drives := fun m => ?_
      tracks := fun j x hx => (ih.tracks j x hx).mono hm ⟨rfl, rfl, rfl, rfl⟩
      described := fun m e => ih.described m (by rw [← hm m, e])
      within := fun m x e => ih.within m x (by rw [← hm m, e])
      alternates := fun r hr x e => ih.alternates r hr x (by rw [← hm r.unit, e]) }
    rw [State.setDrive_drive]
    split
    · exact hd hq hs ih
    · exact ih.drives m
  | profiles n p _ hp ih =>
    refine { ih with profiles := fun m => ?_ }
    rw [State.setProfiles_unitProfiles]
    split
    · next e => subst e; exact hp (ih.profiles _)
    · exact ih.profiles m
  | direction n d _ ih => exact { ih with }
  | job j x _ hx ih =>
    refine { ih with jobs := fun k y hy => ?_, tracks := fun k y hy => ?_ }
    · rw [State.setJob_job] at hy
      split at hy
      · exact (hx hq hs ih y hy).1
      · exact ih.jobs k y hy
    · rw [State.setJob_job] at hy
      split at hy
      · exact (hx hq hs ih y hy).2
      · exact ih.tracks k y hy
  | slab i x _ hx ih =>
    refine { ih with slabs := fun k y hy => ?_ }
    rw [State.setSlab_slab] at hy
    split at hy
    · exact hx hq hs ih y hy
    · exact ih.slabs k y hy
  | slabs v _ hv ih => exact { ih with slabs := fun k y hy => hv k (fun z hz => ih.slabs k z hz) y hy }
  | channel c _ hc ih => exact { ih with channel := hc hq hs ih }
  | repair f g _ ih => exact { ih with }
  | arrival a _ ih => exact { ih with }
  | enqueue e _ he ih =>
    refine { ih with queue := ?_ }
    simp only [State.queueRoom, decide_eq_true_eq] at he
    simp only [State.enqueue, List.length_append, List.length_cons, List.length_nil]
    omega
  | strays v _ ih => exact { ih with }
  | raise k _ ih => exact { ih with flags := FlagUnit.raise_ok ih.flags k }
  | clear m _ ih => exact { ih with flags := FlagUnit.clear_ok ih.flags m }

theorem Evolves.inRange {s t : State} (h : Evolves s t) (hs : s.InRange) : t.InRange := EvolvesIf.inRange h trivial hs

/-- A chain under one condition is a chain under another that gives it wherever the chain began in range. -/
theorem EvolvesIf.under {P Q : Prop} {s t : State} (h : EvolvesIf Q s t) (hq : P → s.InRange → Q) : EvolvesIf P s t := by
  induction h with
  | refl => exact .refl
  | drive n d _ hd hn ih => exact .drive n d ih (fun a b => hd (hq a b) b) hn
  | profiles n p _ hp ih => exact .profiles n p ih hp
  | direction n d _ ih => exact .direction n d ih
  | job j x _ hx ih => exact .job j x ih (fun a b => hx (hq a b) b)
  | slab i x _ hx ih => exact .slab i x ih (fun a b => hx (hq a b) b)
  | slabs v _ hv ih => exact .slabs v ih hv
  | channel c _ hc ih => exact .channel c ih (fun a b => hc (hq a b) b)
  | repair f g _ ih => exact .repair f g ih
  | arrival a _ ih => exact .arrival a ih
  | enqueue e _ he ih => exact .enqueue e ih he
  | strays v _ ih => exact .strays v ih
  | raise k _ ih => exact .raise k ih
  | clear m _ ih => exact .clear m ih

/-- A chain that needs no condition. -/
theorem EvolvesIf.any {P : Prop} {s t : State} (h : Evolves s t) : EvolvesIf P s t := EvolvesIf.under h fun _ _ => trivial

/-- Chains compose. -/
theorem EvolvesIf.trans {Q : Prop} {s t u : State} (h : EvolvesIf Q s t) (g : EvolvesIf Q t u) : EvolvesIf Q s u := by
  induction g with
  | refl => exact h
  | drive n d _ hd hn ih => exact .drive n d ih (fun a b => hd a (h.inRange a b)) hn
  | profiles n p _ hp ih => exact .profiles n p ih hp
  | direction n d _ ih => exact .direction n d ih
  | job j x _ hx ih => exact .job j x ih (fun a b => hx a (h.inRange a b))
  | slab i x _ hx ih => exact .slab i x ih (fun a b => hx a (h.inRange a b))
  | slabs v _ hv ih => exact .slabs v ih hv
  | channel c _ hc ih => exact .channel c ih (fun a b => hc a (h.inRange a b))
  | repair f g _ ih => exact .repair f g ih
  | arrival a _ ih => exact .arrival a ih
  | enqueue e _ he ih => exact .enqueue e ih he
  | strays v _ ih => exact .strays v ih
  | raise k _ ih => exact .raise k ih
  | clear m _ ih => exact .clear m ih

/-! ### Steps of a chain in the form the operations use -/

section
variable {Q : Prop} {s t : State}

/-- A drive is changed and stays in its range. -/
theorem EvolvesIf.modDrive (h : EvolvesIf Q s t) (n : UnitId) (f : Drive → Drive)
    (hf : (t.drive n).Ok → (f (t.drive n)).Ok)
    (hd : (f (t.drive n)).descriptor = (t.drive n).descriptor := by rfl) : EvolvesIf Q s (t.modDrive n f) :=
  .drive n _ h (fun _ _ g => hf (g.drives n)) hd

/-- A drive is changed and stays in its range, by what else stands in range. -/
theorem EvolvesIf.modDriveIn (h : EvolvesIf Q s t) (n : UnitId) (f : Drive → Drive)
    (hf : Q → t.InRange → (f (t.drive n)).Ok)
    (hd : (f (t.drive n)).descriptor = (t.drive n).descriptor := by rfl) : EvolvesIf Q s (t.modDrive n f) :=
  .drive n _ h (fun q _ g => hf q g) hd

/-- A live job is replaced by one of the same track that stays in its range. -/
theorem EvolvesIf.setLive (h : EvolvesIf Q s t) {j : JobIx} {x : Job} (hx : t.job j = some x) (y : Job)
    (hf : t.InRange → x.Ok → y.Ok)
    (hk : y.unit = x.unit ∧ y.cylinder = x.cylinder ∧ y.head = x.head ∧ y.records.length = x.records.length
      := by exact ⟨rfl, rfl, rfl, rfl⟩) : EvolvesIf Q s (t.setJob j (some y)) :=
  .job j _ h fun _ _ g z hz => by
    cases hz
    exact ⟨hf g (g.jobs j x hx), (g.tracks j x hx).mono (fun _ => rfl) hk⟩

/-- A job is changed and stays in its range. -/
theorem EvolvesIf.modJob (h : EvolvesIf Q s t) (j : JobIx) (f : Job → Job)
    (hf : ∀ x, t.job j = some x → x.Ok → (f x).Ok)
    (hk : ∀ x, (f x).unit = x.unit ∧ (f x).cylinder = x.cylinder ∧ (f x).head = x.head ∧
      (f x).records.length = x.records.length := by exact fun _ => ⟨rfl, rfl, rfl, rfl⟩) :
    EvolvesIf Q s (t.modJob j f) := by
  unfold State.modJob
  split
  · next x hx => exact h.setLive hx _ (fun _ => hf x hx) (hk x)
  · exact h

/-- A slab is changed and stays in its range. -/
theorem EvolvesIf.modSlab (h : EvolvesIf Q s t) (i : SlabId) (f : Slab → Slab)
    (hf : ∀ x, t.slab i = some x → x.Ok → (f x).Ok) : EvolvesIf Q s (t.modSlab i f) := by
  unfold State.modSlab
  split
  · next x hx => exact .slab i _ h fun _ _ g y hy => by cases hy; exact hf x hx (g.slabs i x hx)
  · exact h

/-- A member of a list changed at one place is a former member or a changed one. -/
theorem mem_modify {α : Type} {f : α → α} {l : List α} {k : Nat} {a : α} (h : a ∈ l.modify k f) :
    a ∈ l ∨ ∃ b ∈ l, a = f b := by
  obtain ⟨i, hi, rfl⟩ := List.mem_iff_getElem.mp h
  simp only [List.length_modify] at hi
  rw [List.getElem_modify]
  split
  · exact .inr ⟨_, List.getElem_mem hi, rfl⟩
  · exact .inl (List.getElem_mem hi)

/-- A record is changed and stays in its range. -/
theorem EvolvesIf.modRecord (h : EvolvesIf Q s t) (j : JobIx) (sec : Nat) (f : Record → Record)
    (hf : ∀ r : Record, r.Ok → (f r).Ok) : EvolvesIf Q s (t.modRecord j sec f) :=
  h.modJob j _ (fun _ _ hx => { hx with
    records := fun r hr => by
      rcases mem_modify hr with hr | ⟨q, hq, rfl⟩
      · exact hx.records r hr
      · exact hf q (hx.records q hq) })
    (fun _ => ⟨rfl, rfl, rfl, List.length_modify ..⟩)

end

end Sys2Proof.Machine
end

