-- ==== Sys2Proof/Laws/Engine.lean ====
section
/-! SUPPORT. What each operation of the blocks can do, said once: it is a chain of elementary updates. -/

namespace Sys2Proof.Machine

/-! ### Numbers -/

theorem clampTo_range (limit : Nat) (x : Int) : -(limit : Int) ≤ clampTo limit x ∧ clampTo limit x ≤ limit := by
  unfold clampTo
  split
  · omega
  · split <;> omega

theorem holdAt_le (limit n : Nat) : holdAt limit n ≤ limit := by unfold holdAt; omega

theorem bump_le (n : Nat) : bump n ≤ 65535 := holdAt_le _ _

theorem trimTargetOf_range (d : Int) : -63 ≤ trimTargetOf d ∧ trimTargetOf d ≤ 63 := clampTo_range 63 _

/-! ### Drives -/

theorem Monitor.cleared_ok : Monitor.cleared.Ok := ⟨by decide, by decide, by decide⟩

theorem speedAfter_run (speed : SpeedStatus) (run : Nat) (out : Bool) : (speedAfter speed run out).2 ≤ 2 := by
  unfold speedAfter
  split
  · exact Nat.zero_le _
  · exact Nat.zero_le _
  · exact Nat.zero_le _
  · split
    · exact Nat.zero_le _
    · dsimp only
      omega

theorem Monitor.measure_ok {m : Monitor} (h : m.Ok) (x : Descriptor) (now period : Nat) : (m.measure x now period).Ok := by
  have ht := trimTargetOf_range (deviationOf period x.period)
  constructor
  · exact ht
  · simp only [Monitor.measure]
    split
    · unfold trimStep
      have := h.current
      split
      · omega
      · split <;> omega
    · exact ht
  · exact speedAfter_run _ _ _

theorem Monitor.index_ok {m : Monitor} (h : m.Ok) (x : Descriptor) (now : Nat) : (m.index x now).Ok := by
  unfold Monitor.index
  split
  · exact { h with }
  · exact Monitor.measure_ok h _ _ _

theorem Drive.enter_ok {d : Drive} (h : d.Ok) (st : DriveState) (hst : st ≠ .unloading ∧ st ≠ .retracted) :
    (d.enter st).Ok :=
  { h with
    seek := fun _ e => by cases e
    restore := fun _ e => by cases e
    unloadLine := by
      simp only [Drive.enter, Bool.and_eq_true, beq_iff_eq]
      exact ⟨fun e => e.2, fun e => absurd e hst.1⟩
    loadLine := by simp [Drive.enter]
    timer := by
      simp only [Drive.enter]
      split
      · intro _; assumption
      · simp
    settle := fun e => by simp only [Drive.enter] at e ⊢; simp [e]
    deferral := fun e => by simp only [Drive.enter] at e ⊢; simp [e]
    loop := fun e => by simp only [Drive.enter] at e ⊢; simp [e]
    deferralLimit := by simp only [Drive.enter]; split <;> simp [h.deferralLimit]
    waitingLimit := by simp only [Drive.enter]; split <;> simp [h.waitingLimit]
    straysLimit := by simp only [Drive.enter]; split <;> simp [h.straysLimit]
    settleLimit := by simp only [Drive.enter]; split <;> simp [h.settleLimit]
    preparedOk := fun p e => by
      simp only [Drive.enter] at e
      split at e
      · exact h.preparedOk p e
      · cases e
    unloaded := fun e => by
      rcases e with e | e
      · exact absurd e hst.1
      · exact absurd e hst.2
    retracted := fun e => absurd e hst.2 }

theorem Drive.unload_ok {d : Drive} (h : d.Ok) :
    Drive.Ok { d.enter .unloading with
      unloadLine := true, target := none, monitor := .cleared, deadRevs := 0 } :=
  { h with
    monitor := Monitor.cleared_ok
    seek := fun _ e => by cases e
    restore := fun _ e => by cases e
    unloadLine := ⟨fun _ => rfl, fun _ => rfl⟩
    loadLine := fun e => by simp [Drive.enter] at e
    timer := fun e => by simp [Drive.enter, DriveState.timed] at e
    settle := fun _ => rfl
    deferral := fun _ => rfl
    loop := fun _ => ⟨rfl, rfl⟩
    deferralLimit := Nat.zero_le _
    waitingLimit := Nat.zero_le _
    straysLimit := Nat.zero_le _
    settleLimit := Nat.zero_le _
    deadLimit := Nat.zero_le _
    preparedOk := fun _ e => by cases e
    target := fun _ _ e => by cases e
    unloaded := fun _ => rfl
    retracted := fun e => by cases e }

theorem Drive.enterIdle_ok {d : Drive} (h : d.Ok) : d.enterIdle.Ok :=
  { Drive.enter_ok h .idle (by decide) with
    errorsLimit := Nat.zero_le _
    target := fun _ _ e => by cases e
    unloaded := fun _ => rfl }

theorem Drive.dropJob_ok {d : Drive} (h : d.Ok) : d.dropJob.Ok :=
  { h with loop := fun _ => ⟨rfl, rfl⟩, waitingLimit := Nat.zero_le _, straysLimit := Nat.zero_le _
           preparedOk := fun _ e => by cases e }

theorem Drive.losePosition_ok {d : Drive} (h : d.Ok) : d.losePosition.Ok :=
  { h with
    monitor := Monitor.cleared_ok
    offset := (by decide : (0 : Int).natAbs ≤ 4)
    cylinder := fun _ _ e => by cases e
    target := fun _ _ e => by cases e
    unloaded := fun _ => rfl
    retracted := fun _ => rfl }

theorem State.beginUnload_evolves (s : State) (n : UnitId) : Evolves s (s.beginUnload n) :=
  .modDrive .refl n _ Drive.unload_ok

theorem State.issueSeek_evolves (s : State) (n : UnitId) : Evolves s (s.issueSeek n) :=
  .modDrive .refl n _ fun h =>
    { Drive.enter_ok h .seeking (by decide) with
      offset := (by decide : (0 : Int).natAbs ≤ 4)
      seek := fun _ _ => rfl
      restore := fun _ e => by cases e }

theorem State.issueRestore_evolves (s : State) (n : UnitId) : Evolves s (s.issueRestore n) :=
  .modDrive .refl n _ fun h =>
    { Drive.enter_ok h .recalibrating (by decide) with
      offset := (by decide : (0 : Int).natAbs ≤ 4)
      seek := fun _ e => by cases e
      restore := fun _ _ => rfl }

/-! ### Quirks -/

theorem leastOf_ok {x c : Nat} {o : Option Nat} {P : Nat → Prop} (hx : P x) (ho : ∀ z, o = some z → P z)
    (e : leastOf x o = some c) : P c := by
  cases o with
  | none => cases e; exact hx
  | some z =>
    simp only [leastOf, Option.some.injEq] at e
    subst e
    rcases Nat.le_total x z with h | h
    · rw [Nat.min_eq_left h]; exact hx
    · rw [Nat.min_eq_right h]; exact ho z rfl

theorem greatestOf_ok {x c : Nat} {o : Option Nat} {P : Nat → Prop} (hx : P x) (ho : ∀ z, o = some z → P z)
    (e : greatestOf x o = some c) : P c := by
  cases o with
  | none => cases e; exact hx
  | some z =>
    simp only [greatestOf, Option.some.injEq] at e
    subst e
    rcases Nat.le_total x z with h | h
    · rw [Nat.max_eq_right h]; exact ho z rfl
    · rw [Nat.max_eq_left h]; exact hx

theorem Actions.none_ok : Actions.none.Ok where
  clampOffset := fun _ e => by cases e
  extraSettle := fun _ e => by cases e
  headerMask := fun _ e => by cases e
  weightCap := fun _ e => by cases e

theorem Actions.combine_ok {a : Actions} (h : a.Ok) (q : QuirkAction) (hq : q.Ok) : (a.combine q).Ok := by
  cases q with
  | clampOffset c => exact { h with clampOffset := fun _ e => leastOf_ok (P := fun c => c ≤ 4) hq h.clampOffset e }
  | extraSettle c =>
    exact { h with extraSettle := fun _ e => greatestOf_ok (P := fun e => 1 ≤ e ∧ e ≤ 15) hq h.extraSettle e }
  | headerMask c =>
    exact { h with headerMask := fun _ e => leastOf_ok (P := fun m => 1 ≤ m ∧ m ≤ 11) hq h.headerMask e }
  | weightCap c =>
    exact { h with weightCap := fun _ e => leastOf_ok (P := fun w => 1 ≤ w ∧ w ≤ 4) hq h.weightCap e }
  | noBlind => exact { h with }
  | noVote => exact { h with }

/-- The actions that slots combine to stand in the ranges of the quirks that carry them. -/
theorem State.combined_ok {s : State} (h : s.InRange) (ks : List (Fin 16)) : (s.combined ks).Ok := by
  have g : ∀ (l : List (Fin 16)) (a : Actions), a.Ok →
      (l.foldl (fun a k => match s.quirks[k] with | some q => a.combine q.action | none => a) a).Ok := by
    intro l
    induction l with
    | nil => exact fun _ ha => ha
    | cons k l ih =>
      intro a ha
      refine ih _ ?_
      dsimp only
      split
      · next q hq => exact Actions.combine_ok ha _ (h.quirks k q hq).action
      · exact ha
  exact g ks _ Actions.none_ok

theorem Actions.settle_le {a : Actions} (h : a.Ok) : a.extraSettle.getD 0 ≤ 15 := by
  cases e : a.extraSettle with
  | none => exact Nat.zero_le _
  | some c => exact (h.extraSettle c e).2

theorem State.evaluatePositioning_evolves (s : State) (n : UnitId) (j : JobIx) :
    Evolves s (s.evaluatePositioning n j) := by
  unfold State.evaluatePositioning
  split
  · exact .modDriveIn .refl n _ fun _ h =>
      { h.drives n with positioningLimit := Actions.settle_le (State.combined_ok h _) }
  · exact .refl

/-! ### Delivery -/

theorem State.setDelivery_evolves (s : State) (j : JobIx) (sec : Nat) (d : DeliveryStatus) :
    Evolves s (s.setDelivery j sec d) := EvolvesIf.modRecord .refl j sec _ fun _ h => { h with }

theorem State.offer_evolves (s : State) (j : JobIx) (sec : Nat) : Evolves s (s.offer j sec) := by
  unfold State.offer
  split
  · next h => exact (EvolvesIf.enqueue _ .refl h).trans (State.setDelivery_evolves _ _ _ _)
  · exact State.setDelivery_evolves _ _ _ _

theorem State.queueJobEnd_evolves (s : State) (j : JobIx) : Evolves s (s.queueJobEnd j) := by
  unfold State.queueJobEnd
  split
  · next h => exact .enqueue _ .refl (Bool.and_eq_true_iff.mp h).2
  · exact .refl

/-- Where the queue has room, admission is such a chain. -/
theorem State.admit_evolves (s : State) (h : s.queueRoom = true) : Evolves s s.admitWaiting := by
  unfold State.admitWaiting
  split
  · exact .refl
  · split
    · exact ((EvolvesIf.enqueue _ .refl h).trans (State.setDelivery_evolves _ _ _ _)).trans
        (State.queueJobEnd_evolves _ _)
    · exact .enqueue _ .refl h

theorem State.keepStray_evolves (s : State) (b : Fin 4) (x : Stray) (h : s.queueRoom = true) :
    Evolves s (s.keepStray b x) := .enqueue _ (.strays _ .refl) h

/-! ### The vote store and the repair unit -/

theorem State.startSearch_evolves (s : State) : Evolves s s.startSearch := by
  unfold State.startSearch
  split
  · split
    · next x hx =>
      exact .repair _ _ (.slab _ _ .refl fun _ _ h y hy => by
        cases hy
        exact { h.slabs _ x hx with })
    · exact .repair _ _ .refl
  · exact .refl

theorem State.queueRepair_evolves (s : State) (i : SlabId) : Evolves s (s.queueRepair i) := by
  unfold State.queueRepair
  exact (EvolvesIf.repair _ _ (EvolvesIf.modSlab .refl i (fun x => { x with status := .queued })
    fun _ _ h => { h with })).trans (State.startSearch_evolves _)

theorem State.freeSlab_evolves (s : State) (i : SlabId) : Evolves s (s.freeSlab i) :=
  (EvolvesIf.repair _ _ (EvolvesIf.slab (t := s) i none .refl fun _ _ _ _ hy => by cases hy)).trans
    (State.startSearch_evolves _)

/-- The FIFO and the slabs are written together. -/
theorem Evolves.fifoSlabs (s : State) (fifo : List SlabId) (v : Vector (Option Slab) 64)
    (h : ∀ i : SlabId, SlabSlotOk (s.slab i) → SlabSlotOk v[i]) : Evolves s { s with fifo := fifo, slabs := v } := by
  have g : Evolves s { s with fifo := fifo, search := s.search } := .repair _ _ .refl
  exact .slabs v g h

/-- A withdrawn slab stays in its range. -/
theorem SlabSlotOk.withdrawn {x : Option Slab} (h : SlabSlotOk x) (c : Bool) :
    SlabSlotOk (if c then x.map (fun y => { y with status := .idle, pending := none }) else x) := by
  cases c
  · exact h
  · intro y hy
    obtain ⟨z, hz, rfl⟩ := Option.map_eq_some_iff.mp hy
    exact { h z hz with }

theorem State.withdrawSlabs_evolves (s : State) (j : JobIx) : Evolves s (s.withdrawSlabs j) := by
  unfold State.withdrawSlabs
  apply Evolves.fifoSlabs
  intro i hi
  simp only [Fin.getElem_fin, Vector.getElem_mapFinIdx]
  exact SlabSlotOk.withdrawn hi _

/-! ### The channel -/

theorem Channel.toIdle_ok (c : Channel) : c.toIdle.Ok where
  strobe := (by decide : (0 : Int).natAbs ≤ 2)
  slotSet := fun _ h => by simp [Channel.toIdle] at h
  slotOnce := List.Pairwise.nil
  deferred := fun _ h => by simp [Channel.toIdle] at h
  deferredOnce := List.Pairwise.nil
  openHeader := fun _ e => by cases e

theorem State.grant_evolves (s : State) (n : UnitId) : Evolves s (s.grant n) := by
  unfold State.grant
  refine .modDrive (.channel _ .refl fun _ _ h => ?_) n _ fun h => ?_
  · exact { h.channel with }
  · exact { h with deferral := fun _ => rfl, deferralLimit := Nat.zero_le _ }

theorem State.arbitrate_evolves (s : State) : Evolves s s.arbitrate := by
  unfold State.arbitrate
  split
  · split
    · exact State.grant_evolves _ _
    · exact .refl
  · exact .refl

theorem State.channelIdle_evolves (s : State) : Evolves s s.channelIdle :=
  (EvolvesIf.channel _ .refl fun _ _ _ => Channel.toIdle_ok _).trans (State.arbitrate_evolves _)

theorem State.releaseEarly_evolves (s : State) (n : UnitId) : Evolves s (s.releaseEarly n) := by
  unfold State.releaseEarly
  split
  · exact State.channelIdle_evolves _
  · exact .refl

/-- A capture opens with the strobe shift of a pass that stands in its range. -/
theorem State.openCapture_evolves (s : State) (n : UnitId) (j : JobIx) (x : Job) (p : Prepared) (d : Descriptor) :
    EvolvesIf p.Ok s (s.openCapture n j x p d) := by
  unfold State.openCapture
  refine .modDrive (.channel _ .refl fun hp _ _ => ?_) n _ fun h => { h with straysLimit := Nat.zero_le _ }
  exact {
    strobe := hp.strobe
    slotSet := fun _ h => by cases h
    slotOnce := List.Pairwise.nil
    deferred := fun _ h => by cases h
    deferredOnce := List.Pairwise.nil
    openHeader := fun _ e => by cases e }

/-! ### Jobs -/

theorem Record.fresh_ok (wanted : Bool) (block : Option Nat) : (Record.fresh wanted block).Ok :=
  ⟨Nat.zero_le _, Nat.zero_le _, Nat.zero_le _⟩

theorem Job.fresh_ok (n : UnitId) (cylinder head : Nat) (cls : JobClass) (tag : Tag) (budget : Nat)
    (records : List Record) (arrival : BitVec 32) (h : ∀ r ∈ records, r.Ok) (hb : budget ≤ 65535) :
    (Job.fresh n cylinder head cls tag budget records arrival).Ok :=
  { budget := by
      simp only [Job.fresh, Config.defaultBudget]
      split <;> omega
    passCount := Nat.zero_le _
    draining := by simp [Job.fresh]
    finalized := by simp [Job.fresh]
    fruitless := Nat.zero_le _
    counters := ⟨Nat.zero_le _, Nat.zero_le _, Nat.zero_le _, Nat.zero_le _, Nat.zero_le _, Nat.zero_le _, Nat.zero_le _⟩
    records := h }

theorem State.finalRecord_ok {s : State} (hs : s.InRange) {r : Record} (h : r.Ok) : (s.finalRecord r).Ok := by
  unfold State.finalRecord
  split
  · split
    · next x hx =>
      obtain ⟨i, _, hi⟩ := Option.bind_eq_some_iff.mp hx
      exact ⟨h.reads, (hs.slabs i x hi).weakCount, by simp only [List.length_map, List.length_take]; omega⟩
    · exact { h with }
  · split
    · exact { h with }
    · exact { h with }
  all_goals exact h

/-- A fold of chains is a chain. -/
theorem Evolves.foldl {α : Type} (f : State → α → State) (hf : ∀ s a, Evolves s (f s a)) (l : List α) (s : State) :
    Evolves s (l.foldl f s) := by
  induction l generalizing s with
  | nil => exact .refl
  | cons a l ih => exact (hf s a).trans (ih _)

theorem State.finalize_evolves (s : State) (j : JobIx) (hd : ∀ x, s.job j = some x → x.state = .draining) :
    Evolves s (s.finalize j) := by
  unfold State.finalize
  split
  · exact .refl
  · next x hx =>
    refine EvolvesIf.trans (t := s.setJob j (some { x with records := x.records.map s.finalRecord, finalized := true })) ?_ ?_
    · exact EvolvesIf.setLive .refl hx _ (fun h g => { g with
        finalized := fun _ => hd x hx
        records := fun r hr => by
          obtain ⟨q, hq, rfl⟩ := List.mem_map.mp hr
          exact State.finalRecord_ok h (g.records q hq) }) ⟨rfl, rfl, rfl, List.length_map ..⟩
    · exact ((Evolves.foldl _ (fun t i => State.freeSlab_evolves t i) _ _).trans
        (Evolves.foldl _ (fun t sec => State.offer_evolves t j sec) _ _)).trans (State.queueJobEnd_evolves _ _)

theorem State.finalizeIfDone_evolves (s : State) (j : JobIx) : Evolves s (s.finalizeIfDone j) := by
  unfold State.finalizeIfDone
  split
  · next x hx =>
    split
    · next h => exact State.finalize_evolves s j fun y hy => by rw [hx] at hy; cases hy; exact h.1
    · exact .refl
  · exact .refl

theorem State.letGo_evolves (s : State) (j : JobIx) (n : UnitId) : Evolves s (s.letGo j n) := by
  unfold State.letGo
  split
  · exact (EvolvesIf.modDrive .refl n _ Drive.dropJob_ok).trans (State.releaseEarly_evolves _ _)
  · exact .refl

theorem State.endJob_evolves (s : State) (j : JobIx) (cause : EndCause) : Evolves s (s.endJob j cause) := by
  unfold State.endJob
  split
  · exact .refl
  · next x hx =>
    split
    · exact .refl
    · refine EvolvesIf.trans ?_ (State.finalizeIfDone_evolves _ _)
      have h : Evolves s ((s.setJob j (some { x with state := .draining, endCause := some cause })).letGo j x.unit) :=
        (EvolvesIf.setLive .refl hx { x with state := .draining, endCause := some cause } fun _ h =>
          { h with draining := ⟨fun _ => rfl, fun _ => rfl⟩, finalized := fun _ => rfl }).trans
          (State.letGo_evolves _ _ _)
      split
      · exact h.trans (State.withdrawSlabs_evolves _ _)
      · exact h

theorem State.endHeld_evolves (s : State) (n : UnitId) (cause : EndCause) : Evolves s (s.endHeld n cause) := by
  unfold State.endHeld
  split
  · exact State.endJob_evolves _ _ _
  · exact .refl

end Sys2Proof.Machine
end

