-- ==== Sys2Proof/Laws/Work.lean ====
section
/-! SUPPORT. What the pass loop, selection, the Recovery Engine, the separator, the index pulse and the drive events
can do, said once: each is a chain of elementary updates. -/

namespace Sys2Proof.Machine

/-! ### Passes -/

theorem clampOffset_le (steps : Nat) (clamp : Option Nat) (x : Int) : (clampOffset steps clamp x).natAbs ≤ steps := by
  have h := clampTo_range steps x
  unfold clampOffset
  split
  · next c _ =>
    generalize clampTo steps x = y at h
    unfold clampTo
    split
    · omega
    · split <;> omega
  · omega

theorem Profile.passAt_ok {p : Profile} (h : p.Ok) (count : Nat) :
    (p.passAt count).offset.natAbs ≤ 4 ∧ (p.passAt count).strobe.natAbs ≤ 2 := by
  unfold Profile.passAt
  rw [List.getD_eq_getElem?_getD]
  cases e : p.passes[count % p.passes.length]? with
  | none => decide
  | some x => exact h.entries x (List.mem_of_getElem? e)

/-- A pass prepared in a state in range stands in its ranges. -/
theorem State.preparePass_ok {s : State} (h : s.InRange) (n : UnitId) (x : Job) : (s.preparePass n x).Ok where
  position := by
    have hp := (h.profiles n).active.passes
    have := Nat.mod_lt x.passCount hp.1
    simp only [State.preparePass, State.active]
    omega
  requested := (Profile.passAt_ok (h.profiles n).active _).1
  strobe := (Profile.passAt_ok (h.profiles n).active _).2
  actions := State.combined_ok h _
  offset := by
    refine Nat.le_trans (clampOffset_le _ _ _) ?_
    cases hd : (s.drive n).descriptor with
    | none => exact Nat.zero_le _
    | some d =>
      have := (h.drives n).descriptor d hd
      simp only [Descriptor.inRange, decide_eq_true_eq] at this
      simp only [Option.map_some, Option.getD_some]
      omega

theorem Drive.applyPass_ok {d : Drive} (h : d.Ok) {p : Prepared} (hp : p.Ok) (ht : d.state = .tracking) :
    (d.applyPass p).Ok :=
  { h with
    offset := hp.offset
    loop := fun e => absurd ht e
    preparedOk := fun q e => by cases e; exact hp
    waitingLimit := by
      simp only [Drive.applyPass]
      split
      · exact h.waitingLimit
      · omega }

theorem State.passStartCore_evolves (s : State) (n : UnitId) (ht : (s.drive n).state = .tracking) :
    Evolves s (s.passStartCore n).1 := by
  unfold State.passStartCore
  split
  · exact .refl
  · split
    · exact .refl
    · split
      · exact State.endJob_evolves _ _ _
      · next x _ _ =>
        exact .modDriveIn .refl n (fun d => d.applyPass (s.preparePass n x)) fun _ h =>
          Drive.applyPass_ok (h.drives n) (State.preparePass_ok h n x) ht

theorem Job.startReading_ok {x : Job} (h : x.Ok) : x.startReading.Ok := by
  unfold Job.startReading
  split
  · next e =>
    exact { h with
      draining := by
        rw [← h.draining, e]
        exact ⟨fun a => (by cases a), fun a => (by cases a)⟩
      finalized := fun a => by have := h.finalized a; rw [e] at this; cases this }
  · exact h

theorem Job.startPositioning_ok {x : Job} (h : x.Ok) : x.startPositioning.Ok := by
  unfold Job.startPositioning
  split
  · next e =>
    exact { h with
      draining := by
        rw [← h.draining, e]
        exact ⟨fun a => (by cases a), fun a => (by cases a)⟩
      finalized := fun a => by have := h.finalized a; rw [e] at this; cases this }
  · exact h

theorem State.enterTracking_evolves (s : State) (n : UnitId) : Evolves s (s.enterTracking n).1 := by
  unfold State.enterTracking
  have h : Evolves s (s.modDrive n (fun d =>
      { d.enter .tracking with seekErrors := 0, prepared := none, waiting := 0, passStrays := 0 })) :=
    .modDrive .refl n _ fun h =>
      { Drive.enter_ok h .tracking (by decide) with
        loop := fun _ => ⟨rfl, rfl⟩, waitingLimit := Nat.zero_le _, straysLimit := Nat.zero_le _
        errorsLimit := Nat.zero_le _, preparedOk := fun _ e => by cases e }
  split
  · exact (EvolvesIf.modJob h _ _ fun _ _ hx => Job.startReading_ok hx).trans (State.passStartCore_evolves _ n (by simp))
  · exact h.trans (State.passStartCore_evolves _ n (by simp))

/-! ### Selection -/

theorem oldest_mem (s : State) : ∀ (l : List JobIx) (j : JobIx), s.oldest l = some j → j ∈ l
  | [], j, h => by simp [State.oldest] at h
  | m :: rest, j, h => by
    unfold State.oldest at h
    split at h
    · cases h; simp
    · next k hk =>
      split at h
      · cases h; simp
      · cases h; exact List.mem_cons_of_mem _ (oldest_mem s rest _ hk)

theorem mem_queuedJobs (s : State) (n : UnitId) (c) (j) : j ∈ s.queuedJobs n c ↔ ∃ x, s.job j = some x ∧ x.unit = n ∧
    x.state = .queued ∧ x.cls = c := by
  simp only [State.queuedJobs, List.mem_filter, List.mem_finRange, true_and]
  cases s.job j with
  | none => simp
  | some x => simp [and_assoc]

theorem nearest_sub (s : State) (c d) (l : List JobIx) : ∀ j, j ∈ s.nearest c d l → j ∈ l := by
  intro j h; simp only [State.nearest, List.mem_filter] at h; exact h.1.1

theorem select_queued (s : State) (n : UnitId) (j) (dir) (h : s.select n = some (j, dir)) : ∃ x, s.job j = some x ∧
    x.unit = n ∧ x.state = .queued := by
  have key : ∀ c, j ∈ s.queuedJobs n c → ∃ x, s.job j = some x ∧ x.unit = n ∧ x.state = .queued := fun c hm => by
    obtain ⟨x, a, b, c, _⟩ := (mem_queuedJobs s n c j).1 hm; exact ⟨x, a, b, c⟩
  unfold State.select at h
  dsimp only at h
  split at h
  · next k hk => cases h; exact key _ (oldest_mem _ _ _ hk)
  · split at h
    · next k hk => cases h; exact key _ (nearest_sub _ _ _ _ _ (oldest_mem _ _ _ hk))
    · cases ho : s.oldest (s.nearest ((s.drive n).cylinder.getD 0) s.directions[n].reverse (s.queuedJobs n .bulk))
        with
      | none => rw [ho] at h; cases h
      | some k => rw [ho] at h; cases h; exact key _ (nearest_sub _ _ _ _ _ (oldest_mem _ _ _ ho))

/-- Where a state is in range, a job of a unit names a cylinder that the unit has. -/
theorem State.cylinderOf_lt {s : State} (h : s.InRange) {n : UnitId} {j : JobIx} (hj : ∀ x, s.job j = some x → x.unit = n)
    {d : Descriptor} (hd : (s.drive n).descriptor = some d) : s.cylinderOf j < d.cylinders := by
  unfold State.cylinderOf
  cases e : s.job j with
  | none =>
    have := (h.drives n).descriptor d hd
    simp only [Descriptor.inRange, decide_eq_true_eq] at this
    simp only [Option.map_none, Option.getD_none]
    omega
  | some x =>
    obtain ⟨g, hg, hc, _⟩ := h.tracks j x e
    rw [hj x e, hd] at hg
    cases hg
    exact hc

/-- Hand-over of a job of the unit to a unit that is IDLE. -/
theorem State.handOver_evolves (s : State) (n : UnitId) (j : JobIx) (dir : Direction) :
    EvolvesIf ((s.drive n).state = .idle ∧ ∀ x, s.job j = some x → x.unit = n) s (s.handOver n j dir) := by
  unfold State.handOver
  have ht : EvolvesIf ((s.drive n).state = .idle ∧ ∀ x, s.job j = some x → x.unit = n) s
      ((s.setDirection n dir).modJob j Job.startPositioning) :=
    EvolvesIf.modJob (.direction n dir .refl) j _ fun _ _ h => Job.startPositioning_ok h
  have hd : ((s.setDirection n dir).modJob j Job.startPositioning).drive n = s.drive n := by simp
  have hu := EvolvesIf.drive n { s.drive n with heldJob := some j, target := some (s.cylinderOf j) } ht (fun q hs _ =>
    { hs.drives n with
      target := fun c x e hx => by cases e; exact State.cylinderOf_lt hs q.2 hx
      unloaded := fun e => by rcases e with e | e <;> · rw [q.1] at e; cases e }) (by rw [hd])
  have he : ((s.setDirection n dir).modJob j Job.startPositioning).modDrive n
      (fun d => { d with heldJob := some j, target := some (s.cylinderOf j) }) =
    ((s.setDirection n dir).modJob j Job.startPositioning).setDrive n
      { s.drive n with heldJob := some j, target := some (s.cylinderOf j) } := by
    unfold State.modDrive
    rw [hd]
  dsimp only
  rw [he]
  exact hu.trans (.any (State.evaluatePositioning_evolves _ _ _))

theorem State.settleFor_evolves (s : State) (n : UnitId) (count : Nat) :
    EvolvesIf (count ≤ 30) s (s.settleFor n count).1 := by
  unfold State.settleFor
  split
  · exact .any (State.enterTracking_evolves _ _)
  · exact .modDriveIn .refl n (fun d => { d.enter .settling with settleCount := count }) fun q h =>
      { Drive.enter_ok (h.drives n) .settling (by decide) with settle := fun e => absurd rfl e, settleLimit := q }

theorem State.leaveIdle_evolves (s : State) (n : UnitId) : Evolves s (s.leaveIdle n).1 := by
  unfold State.leaveIdle
  dsimp only
  split
  · exact State.issueRestore_evolves _ _
  · split
    · exact (State.settleFor_evolves _ _ _).under fun _ h => Nat.le_trans (h.drives n).positioningLimit (by decide)
    · exact State.issueSeek_evolves _ _

theorem State.selection_evolves (fuel : Nat) (s : State) (n : UnitId) (hi : (s.drive n).state = .idle) :
    Evolves s (State.selection fuel s n) := by
  induction fuel generalizing s with
  | zero => exact .refl
  | succ fuel ih =>
    unfold State.selection
    split
    · exact .refl
    · next j dir hsel =>
      have hu : ∀ x, s.job j = some x → x.unit = n := fun x hx => by
        obtain ⟨y, hy, hn, _⟩ := select_queued s n j dir hsel
        rw [hx] at hy
        cases hy
        exact hn
      have h := ((State.handOver_evolves s n j dir).under fun _ _ => ⟨hi, hu⟩).trans
        (State.leaveIdle_evolves (s.handOver n j dir) n)
      split
      · next t e => rw [e] at h; exact h
      · next t e =>
        rw [e] at h
        exact (EvolvesIf.modDrive h n _ Drive.enterIdle_ok).trans
          (ih _ (by simp [Drive.enterIdle, Drive.enter]))

theorem State.runSelection_evolves (s : State) (n : UnitId) : Evolves s (s.runSelection n) := by
  unfold State.runSelection
  split
  · next hi => exact State.selection_evolves _ _ _ hi
  · exact .refl

theorem State.toIdle_evolves (s : State) (n : UnitId) : Evolves s (s.toIdle n) :=
  (EvolvesIf.modDrive .refl n _ Drive.enterIdle_ok).trans (State.runSelection_evolves _ _)

theorem State.orIdle_evolves {Q : Prop} {s : State} {r : State × Bool} (h : EvolvesIf Q s r.1) (n : UnitId) :
    EvolvesIf Q s (State.orIdle r n) := by
  unfold State.orIdle
  split
  · exact h.trans (.any (State.toIdle_evolves _ _))
  · exact h

theorem State.passStart_evolves (s : State) (n : UnitId) (ht : (s.drive n).state = .tracking) :
    Evolves s (s.passStart n) := State.orIdle_evolves (State.passStartCore_evolves s n ht) n

theorem State.track_evolves (s : State) (n : UnitId) : Evolves s (s.track n) :=
  State.orIdle_evolves (State.enterTracking_evolves s n) n

theorem State.settle_evolves (s : State) (n : UnitId) (count : Nat) : EvolvesIf (count ≤ 30) s (s.settle n count) :=
  State.orIdle_evolves (State.settleFor_evolves s n count) n

theorem State.goOn_evolves (s : State) (n : UnitId) : Evolves s (s.goOn n) := by
  unfold State.goOn
  split <;> first | exact State.toIdle_evolves _ _ | exact .refl

theorem State.endJobAndGoOn_evolves (s : State) (j : JobIx) (cause : EndCause) : Evolves s (s.endJobAndGoOn j cause) := by
  unfold State.endJobAndGoOn
  split
  · exact .refl
  · split
    · exact .refl
    · split
      · exact (State.endJob_evolves _ _ _).trans (State.goOn_evolves _ _)
      · exact State.endJob_evolves _ _ _

theorem Job.passEnded_ok {x : Job} (h : x.Ok) : x.passEnded.Ok :=
  { h with
    passCount := holdAt_le _ _
    fruitless := by
      simp only [Job.passEnded]
      split
      · omega
      · exact holdAt_le _ _
    counters := { h.counters with passes := bump_le _ } }

theorem Job.recalibrated_ok {x : Job} (h : x.Ok) : x.recalibrated.Ok :=
  { h with fruitless := Nat.zero_le _, counters := { h.counters with recalibrations := bump_le _ } }

theorem State.passEnd_evolves (s : State) (n : UnitId) (p : Profile) : Evolves s (s.passEnd n p) := by
  unfold State.passEnd
  split
  · exact .refl
  · next j hj =>
    split
    · exact .refl
    · next x hx =>
      have ht : Evolves s ((s.setJob j (some x.passEnded)).modDrive n (fun d => { d with prepared := none })) :=
        EvolvesIf.modDrive (EvolvesIf.setLive .refl hx _ fun _ => Job.passEnded_ok) n _ fun h =>
          { h with loop := fun e => ⟨rfl, (h.loop e).2⟩, preparedOk := fun _ e => by cases e }
      dsimp only
      split
      · next hs =>
        split
        · refine ((EvolvesIf.setLive ht (x := x.passEnded) (by simp) _ fun _ => Job.recalibrated_ok).trans
            (State.evaluatePositioning_evolves _ _ _)).trans (State.issueRestore_evolves _ _)
        · refine (EvolvesIf.modDrive ht n _ fun h => ?_).trans (State.passStart_evolves _ n (by simpa using hs))
          exact { h with
            loop := fun e => absurd (by simpa using hs) e
            waitingLimit := Nat.min_le_left _ _ }
      · have hu := EvolvesIf.modDrive ht n (fun d => { d with passStrays := 0 }) fun h =>
          { h with straysLimit := Nat.zero_le _ }
        split
        · refine (EvolvesIf.modDrive (EvolvesIf.setLive hu (x := x.passEnded) (by simp) _ fun _ => Job.recalibrated_ok) n _
            fun h => ?_).trans (State.evaluatePositioning_evolves _ _ _)
          exact { h with cylinder := fun _ _ e => (by cases e), retracted := fun _ => rfl }
        · split
          · exact hu.trans (State.endJob_evolves _ _ _)
          · exact hu

theorem State.takeSwap_evolves (s : State) (n : UnitId) : Evolves s (s.takeSwap n) := by
  unfold State.takeSwap
  split
  · have h : Evolves s (s.setProfiles n (s.unitProfiles n).swap) :=
      .profiles n _ .refl fun h => ⟨h.staged, h.active⟩
    split
    · next g => exact h.trans (State.passStart_evolves _ n g.1)
    · exact h
  · exact .refl

/-! ### The Recovery Engine -/

theorem State.freeSlabOf_evolves (s : State) (r : Option Record) : Evolves s (s.freeSlabOf r) := by
  unfold State.freeSlabOf
  split
  · exact State.freeSlab_evolves _ _
  · exact .refl

theorem State.completeIfDone_evolves (s : State) (j : JobIx) : Evolves s (s.completeIfDone j) := by
  unfold State.completeIfDone
  split
  · split
    · exact State.endJobAndGoOn_evolves _ _ _
    · exact .refl
  · exact .refl

theorem State.recover_evolves (s : State) (j : JobIx) (sec : Nat) (st : RecordState) (words : List Word12) :
    Evolves s (s.recover j sec st words) := by
  unfold State.recover
  refine .trans (.trans (.modJob (.trans ?_ (State.freeSlabOf_evolves _ _)) j _ ?_) (State.offer_evolves _ _ _))
    (State.completeIfDone_evolves _ _)
  · exact .modRecord .refl j sec _ fun _ h => { h with }
  · exact fun _ _ h => { h with }

theorem Record.read_ok {r : Record} (h : r.Ok) : r.read.Ok := { h with reads := holdAt_le _ _ }

theorem foldVotes_range (acc : List Int) (words : List Word12) (weights : List Nat) :
    ∀ a ∈ foldVotes acc words weights, -63 ≤ a ∧ a ≤ 63 := by
  intro a ha
  unfold foldVotes at ha
  obtain ⟨i, hi, rfl⟩ := List.mem_iff_getElem.mp ha
  rw [List.getElem_zipWith]
  exact clampTo_range 63 _

theorem foldVotes_length (acc : List Int) (words : List Word12) (weights : List Nat) :
    (foldVotes acc words weights).length ≤ acc.length := by
  unfold foldVotes
  rw [List.length_zipWith]
  exact Nat.min_le_left _ _

theorem Slab.fold_ok {x : Slab} (h : x.Ok) (words : List Word12) (weights : List Nat) (th : Thresholds) :
    (x.fold words weights th).Ok :=
  { h with
    acc := foldVotes_range _ _ _
    bits := Nat.le_trans (foldVotes_length _ _ _) h.bits
    weakCount := Nat.le_trans (Nat.le_trans (List.length_filter_le _ _) (foldVotes_length _ _ _)) h.bits
    folds := holdAt_le _ _ }

theorem State.foldInto_evolves (s : State) (i : SlabId) (words : List Word12) (weights : List Nat) (th : Thresholds) :
    Evolves s (s.foldInto i words weights th) := by
  unfold State.foldInto
  split
  · exact .refl
  · next x hx =>
    exact EvolvesIf.modRecord
      (EvolvesIf.slab i _ .refl fun _ _ h y hy => by cases hy; exact Slab.fold_ok (h.slabs i x hx) _ _ _) _ _ _
      fun _ h => { h with }

theorem State.votedCheck_evolves (s : State) (i : SlabId) : Evolves s (s.votedCheck i) := by
  unfold State.votedCheck
  split
  · exact .refl
  · split
    · exact .refl
    · split
      · exact State.recover_evolves _ _ _ _ _
      · split
        · exact State.queueRepair_evolves _ _
        · exact .refl

theorem State.foldCapture_evolves (s : State) (i : SlabId) (p : Pending) : Evolves s (s.foldCapture i p) := by
  unfold State.foldCapture
  split
  · exact .refl
  · exact ((EvolvesIf.modRecord .refl _ _ _ fun _ h => Record.read_ok h).trans
      (State.foldInto_evolves _ _ _ _ _)).trans (State.votedCheck_evolves _ _)

theorem State.countBlind_evolves (s : State) (j : JobIx) (ident : Identification) : Evolves s (s.countBlind j ident) := by
  unfold State.countBlind
  split
  · exact .modJob .refl j _ fun _ _ h => { h with counters := { h.counters with blindUsed := bump_le _ } }
  · exact .refl

theorem State.allocate_evolves (s : State) (j : JobIx) (sec : Nat) (i : SlabId) (r : Record) (p : Pending) :
    EvolvesIf (p.words.length ≤ 257) s (s.allocate j sec i r p) := by
  unfold State.allocate
  have h : EvolvesIf (p.words.length ≤ 257) s
      ((s.setSlab i (some (Slab.fresh j sec p.words.length p.thresholds))).modRecord j sec
        (fun x => { x with state := .voting, slab := some i })) := by
    refine EvolvesIf.modRecord (.slab i _ .refl fun q _ _ y hy => ?_) j sec _ fun _ h => { h with }
    cases hy
    exact {
      acc := fun a ha => by rw [List.eq_of_mem_replicate ha]; decide
      bits := by simp only [Slab.fresh, List.length_replicate]; omega
      weakCount := Nat.zero_le _
      folds := Nat.zero_le _
      ambiguity := Nat.zero_le _ }
  split
  · exact (h.trans (.any (State.foldInto_evolves _ _ _ _ _))).trans (.any (State.foldCapture_evolves _ _ _))
  · exact h.trans (.any (State.foldCapture_evolves _ _ _))

theorem Record.takeRaw_ok {r : Record} (h : r.Ok) (words : List Word12) : (r.takeRaw words).Ok :=
  { Record.read_ok h with }

theorem State.takeFailing_evolves (s : State) (j : JobIx) (sec : Nat) (r : Record) (p : Pending) (noVote : Bool) :
    EvolvesIf (p.words.length ≤ 257) s (s.takeFailing j sec r p noVote) := by
  have hb := State.countBlind_evolves s j p.ident
  have hr : Evolves s ((s.countBlind j p.ident).modRecord j sec (fun x => x.takeRaw p.words)) :=
    EvolvesIf.modRecord hb _ _ _ fun _ h => Record.takeRaw_ok h _
  unfold State.takeFailing
  split
  · split
    · exact .any hr
    · split
      · exact (EvolvesIf.any hb).trans (State.allocate_evolves _ _ _ _ _ _)
      · exact .any (hr.raise _)
  · split
    · exact .refl
    · split
      · exact .refl
      · split
        · exact .refl
        · split
          · exact .any (hb.trans (State.foldCapture_evolves _ _ _))
          · split
            · exact .any (EvolvesIf.modSlab hb _ _ fun _ _ h => { h with })
            · exact .refl
  all_goals exact .refl

theorem State.countStray_evolves (s : State) (j : JobIx) (n : UnitId) : Evolves s (s.countStray j n) := by
  unfold State.countStray
  refine .modDrive (.modJob .refl j _ ?_) n _ fun h => { h with straysLimit := holdAt_le _ _ }
  exact fun _ _ h => { h with counters := { h.counters with strays := bump_le _ } }

theorem State.stray_evolves (s : State) (c : Capture) (x : Job) (keep : Bool) : Evolves s (s.stray c x keep) := by
  unfold State.stray
  have h := State.countStray_evolves s c.job c.unit
  dsimp only
  split
  · split
    · next g => exact h.trans (State.keepStray_evolves _ _ _ (Bool.and_eq_true_iff.mp g).2)
    · exact h
  · exact h

theorem State.takeHeader_evolves (s : State) (j : JobIx) (sec : Nat) (data : Option DataField) (rev : Revolution) :
    EvolvesIf (FieldFits data) s (s.takeHeader j sec data rev) := by
  unfold State.takeHeader
  split
  · exact .refl
  · next f =>
    have h : Evolves s (s.modRecord j sec (fun x => { x with lastSync := some f.sync })) :=
      EvolvesIf.modRecord .refl j sec _ fun _ h => { h with }
    dsimp only
    split
    · exact .any h
    · split
      · exact .any ((EvolvesIf.modRecord h _ _ _ fun _ h => Record.read_ok h).trans (State.recover_evolves _ _ _ _ _))
      · exact (EvolvesIf.any h).trans ((State.takeFailing_evolves _ _ _ _ _ _).under fun q _ => q f rfl)

theorem State.takeBlind_evolves (s : State) (j : JobIx) (sec : Nat) (data : Option DataField) (rev : Revolution) :
    EvolvesIf (FieldFits data) s (s.takeBlind j sec data rev) := by
  unfold State.takeBlind
  split
  · next f _ _ => exact (State.takeFailing_evolves _ _ _ _ _ _).under fun q _ => q f rfl
  · exact .refl

theorem State.countHeader_evolves (s : State) (c : Capture) : Evolves s (s.countHeader c) := by
  unfold State.countHeader
  split
  · exact .modJob .refl _ _ fun _ _ h => { h with counters := { h.counters with headerCaptures := bump_le _ } }
  · exact .refl
  · exact .refl

theorem State.applyCapture_evolves (s : State) (c : Capture) (rev : Revolution) :
    EvolvesIf (FieldFits c.data) s (s.applyCapture c rev) := by
  unfold State.applyCapture
  split
  · exact .refl
  · split
    · exact .refl
    · have h := State.countHeader_evolves s c
      split
      · exact .any (h.trans (State.stray_evolves _ _ _ _))
      · split
        · exact (EvolvesIf.any h).trans (State.takeHeader_evolves _ _ _ _ _)
        · exact (EvolvesIf.any h).trans (State.takeBlind_evolves _ _ _ _ _)
        · exact .any h

theorem State.foldPending_evolves (s : State) (i : SlabId) : Evolves s (s.foldPending i) := by
  unfold State.foldPending
  split
  · refine .trans ?_ (State.foldCapture_evolves _ _ _)
    exact .modSlab .refl i _ fun _ _ h => { h with }
  · exact .refl

theorem State.applyOutcome_evolves (s : State) (i : SlabId) (x : Slab) (passing : List (List Word12)) :
    Evolves s (s.applyOutcome i x passing) := by
  unfold State.applyOutcome
  split
  · exact State.recover_evolves _ _ _ _ _
  · refine .trans ?_ (State.foldPending_evolves _ _)
    exact .modSlab .refl i _ fun _ _ h => { h with }
  · refine .trans (.modJob (.modSlab .refl i _ ?_) _ _ ?_) (State.foldPending_evolves _ _)
    · exact fun _ _ h => { h with ambiguity := holdAt_le _ _ }
    · exact fun _ _ h => { h with counters := { h.counters with ambiguous := bump_le _ } }

theorem State.endSearch_evolves (s : State) : Evolves s s.endSearch := by
  unfold State.endSearch
  split
  · exact .refl
  · have h : Evolves s ({ s with search := none } : State).startSearch :=
      EvolvesIf.trans (t := { s with search := none }) (.repair s.fifo none .refl) (State.startSearch_evolves _)
    dsimp only
    split
    · exact h
    · next x _ =>
      refine EvolvesIf.trans ?_ (State.finalizeIfDone_evolves _ _)
      split
      · split
        · exact EvolvesIf.modSlab h _ _ fun _ _ g => { g with }
        · exact h.trans (State.applyOutcome_evolves _ _ _ _)
      · exact h

/-! ### The separator -/

theorem State.noteField_evolves (s : State) (low : Bool) : Evolves s (s.noteField low) :=
  .channel _ .refl fun _ _ h => { h.channel with }

/-- A window that closes keeps what else the channel keeps. -/
theorem State.dropHeader_evolves (s : State) : Evolves s { s with channel := { s.channel with openHeader := none } } :=
  .channel _ .refl fun _ _ h => { h.channel with openHeader := fun _ e => by cases e }

theorem State.completeAbsent_evolves (s : State) (c : Capture) (rev : Revolution) :
    EvolvesIf (FieldFits c.data) s (s.completeAbsent c rev) := by
  unfold State.completeAbsent
  have h : Evolves s (State.noteField { s with channel := { s.channel with openHeader := none } } c.low) :=
    (State.dropHeader_evolves s).trans (State.noteField_evolves _ _)
  split
  · exact (EvolvesIf.any h).trans (State.applyCapture_evolves _ _ _)
  · exact .any h

theorem State.closeWindow_evolves (s : State) (rev : Revolution) : Evolves s (s.closeWindow rev) := by
  unfold State.closeWindow
  split
  · next h hh => exact (State.completeAbsent_evolves _ _ _).under fun _ g x e => absurd e (by simp [g.channel.openHeader h hh])
  · exact .refl

theorem State.sectorsOf_le {s : State} (h : s.InRange) (n : UnitId) : s.sectorsOf n ≤ 32 := by
  unfold State.sectorsOf
  cases hd : (s.drive n).descriptor with
  | none => exact Nat.zero_le _
  | some d =>
    have := (h.drives n).descriptor d hd
    simp only [Descriptor.inRange, decide_eq_true_eq] at this
    simp only [Option.map_some, Option.getD_some]
    omega

theorem addSlot_ok {slots : List Nat} (h : (∀ k ∈ slots, k < 32) ∧ slots.Nodup) (sec : Option Nat)
    (hs : ∀ k, sec = some k → k < 32) : (∀ k ∈ addSlot slots sec, k < 32) ∧ (addSlot slots sec).Nodup := by
  unfold addSlot
  split
  · next k =>
    split
    · exact h
    · next hc =>
      refine ⟨fun i hi => ?_, ?_⟩
      · rcases List.mem_append.mp hi with hi | hi
        · exact h.1 i hi
        · rw [List.mem_singleton.mp hi]; exact hs k rfl
      · rw [List.nodup_append]
        refine ⟨h.2, List.nodup_singleton _, fun a ha b hb e => ?_⟩
        rw [List.mem_singleton.mp hb] at e
        subst e
        simp [ha] at hc
  · exact h

theorem State.readHeader_evolves (s : State) (n : UnitId) (rev : Revolution) (last : Nat) (h1 h2 h3 : Word12)
    (low : Bool) : Evolves s (s.readHeader n rev last h1 h2 h3 low) := by
  refine .channel _ (State.closeWindow_evolves _ _) fun _ _ h => ?_
  have g := addSlot_ok ⟨h.channel.slotSet, h.channel.slotOnce⟩
    (((s.closeWindow rev).headerCapture n rev h1 h2 h3 low).sector) (fun k hk => by
      have hle := State.sectorsOf_le h n
      simp only [State.headerCapture] at hk
      split at hk
      · next hn =>
        cases hk
        simp only [Revolution.matches, Bool.and_eq_true, decide_eq_true_eq] at hn
        omega
      · cases hk)
  exact { h.channel with
    slotSet := g.1
    slotOnce := g.2
    openHeader := fun x e => by
      cases e
      rfl }

theorem slotOf_lt {dataOffset sectors pitch sync slot : Nat} (h : slotOf dataOffset sectors pitch sync = some slot) :
    slot < sectors := by
  unfold slotOf at h
  split at h
  · next g => cases h; exact g.2.2
  · cases h

theorem deferCandidate_mem {c : Capture} {slot : Nat} {l : List Deferred} {x : Deferred}
    (h : x ∈ deferCandidate c slot l) : (x.slot = slot ∧ x.capture = c) ∨ ∃ y ∈ l, x.slot = y.slot ∧ x.capture = y.capture := by
  induction l with
  | nil =>
    rw [List.mem_singleton.mp h]
    exact .inl ⟨rfl, rfl⟩
  | cons d l ih =>
    unfold deferCandidate at h
    split at h
    · rcases List.mem_cons.mp h with rfl | h
      · exact .inr ⟨d, List.mem_cons_self .., rfl, rfl⟩
      · exact .inr ⟨x, List.mem_cons_of_mem _ h, rfl, rfl⟩
    · rcases List.mem_cons.mp h with rfl | h
      · exact .inr ⟨x, List.mem_cons_self .., rfl, rfl⟩
      · rcases ih h with h | ⟨y, hy, e⟩
        · exact .inl h
        · exact .inr ⟨y, List.mem_cons_of_mem _ hy, e⟩

theorem deferCandidate_once (c : Capture) (slot : Nat) (l : List Deferred) (h : (l.map (·.slot)).Nodup) :
    ((deferCandidate c slot l).map (·.slot)).Nodup := by
  induction l with
  | nil => exact List.nodup_singleton _
  | cons d l ih =>
    rw [List.map_cons, List.nodup_cons] at h
    unfold deferCandidate
    split
    · rw [List.map_cons, List.nodup_cons]; exact h
    · next hs =>
      rw [List.map_cons, List.nodup_cons]
      refine ⟨fun hm => ?_, ih h.2⟩
      obtain ⟨x, hx, e⟩ := List.mem_map.mp hm
      rcases deferCandidate_mem hx with g | ⟨y, hy, g⟩
      · exact hs (e.symm.trans g.1)
      · exact h.1 (List.mem_map.mpr ⟨y, hy, by rw [← g.1, e]⟩)

theorem State.blindCandidate_evolves (s : State) (n : UnitId) (rev : Revolution) (c : Capture) (sync : Nat) :
    EvolvesIf (FieldFits c.data) s (s.blindCandidate n rev c sync) := by
  unfold State.blindCandidate
  dsimp only
  split
  · next slot hslot =>
    refine .channel _ (.any (State.noteField_evolves _ _)) fun q hs h => ?_
    exact { h.channel with
      deferred := fun x hx => by
        rcases deferCandidate_mem hx with g | ⟨y, hy, g⟩
        · exact ⟨by rw [g.1]; exact Nat.lt_of_lt_of_le (slotOf_lt hslot) (State.sectorsOf_le hs n), by rw [g.2]; exact q⟩
        · have := h.channel.deferred y hy
          exact ⟨by rw [g.1]; exact this.1, by rw [g.2]; exact this.2⟩
      deferredOnce := deferCandidate_once _ _ _ h.channel.deferredOnce }
  · exact .any (State.noteField_evolves _ _)

theorem State.completeWithData_evolves (s : State) (n : UnitId) (rev : Revolution) (c : Capture) (sync : Nat) :
    EvolvesIf (FieldFits c.data) s (s.completeWithData n rev c sync) := by
  unfold State.completeWithData
  have h := State.dropHeader_evolves s
  split
  · exact (EvolvesIf.any (h.trans (State.noteField_evolves _ _))).trans (State.applyCapture_evolves _ _ _)
  · exact (EvolvesIf.any h).trans (State.blindCandidate_evolves _ _ _ _ _)

theorem FieldFits.some {f : DataField} (h : f.words.length ≤ 257) : FieldFits (some f) := fun x e => by cases e; exact h

theorem State.readData_evolves (s : State) (n : UnitId) (rev : Revolution) (f : DataField) (low : Bool) :
    EvolvesIf (f.words.length ≤ 257) s (s.readData n rev f low) := by
  unfold State.readData
  split
  · split
    · exact (State.completeWithData_evolves _ _ _ _ _).under fun q _ => FieldFits.some q
    · exact (EvolvesIf.any (State.closeWindow_evolves _ _)).trans
        ((State.completeWithData_evolves _ _ _ _ _).under fun q _ => FieldFits.some q)
  · exact (State.completeWithData_evolves _ _ _ _ _).under fun q _ => FieldFits.some q

theorem State.settleCut_evolves (s : State) (rev : Revolution) (cut : CutField) : Evolves s (s.settleCut rev cut) := by
  unfold State.settleCut
  split
  · exact State.closeWindow_evolves _ _
  · exact (State.closeWindow_evolves _ _).trans (State.noteField_evolves _ _)
  · split
    · next h hh => exact (State.completeAbsent_evolves _ _ _).under fun _ g x e => absurd e (by simp [g.channel.openHeader h hh])
    · exact State.noteField_evolves _ _

theorem State.handSlot_evolves (s : State) (n : UnitId) (slot : Nat) : Evolves s (s.handSlot n slot) := by
  unfold State.handSlot
  split
  · next d _ _ hd =>
    split
    · exact (State.applyCapture_evolves _ _ _).under fun _ g => (g.channel.deferred _ (List.mem_of_find?_eq_some hd)).2
    · exact .refl
  · exact .refl

theorem State.protectionUnload_evolves (s : State) (n : UnitId) : Evolves s (s.protectionUnload n) :=
  (State.beginUnload_evolves s n).trans (State.endHeld_evolves _ _ _)

theorem State.stageIdle_evolves (s : State) (n : UnitId) : Evolves s (s.stageIdle n) := by
  unfold State.stageIdle
  split
  · exact State.channelIdle_evolves _
  · exact .refl

theorem State.closingStages_evolves (s : State) (n : UnitId) (rev : Revolution) : Evolves s (s.closingStages n rev) := by
  unfold State.closingStages
  split
  · exact ((EvolvesIf.modDrive .refl n _ fun h => { h with deadLimit := Nat.zero_le _ }).trans (State.passEnd_evolves _ _ _)).trans
      (State.stageIdle_evolves _ _)
  · have h : Evolves s (s.modDrive n (fun d => { d with deadRevs := holdAt 8 d.deadRevs })) :=
      EvolvesIf.modDrive .refl n _ fun h => { h with deadLimit := holdAt_le _ _ }
    dsimp only
    split
    · exact (h.trans (State.protectionUnload_evolves _ _)).trans (State.stageIdle_evolves _ _)
    · exact (h.trans (State.passEnd_evolves _ _ _)).trans (State.stageIdle_evolves _ _)

theorem State.closeRevolution_evolves (s : State) (n : UnitId) (cut : CutField) : Evolves s (s.closeRevolution n cut) := by
  unfold State.closeRevolution
  split
  · next m rev _ =>
    split
    · have h : Evolves s ((s.settleCut rev cut).handBlind n) :=
        (State.settleCut_evolves _ _ _).trans (Evolves.foldl _ (fun t k => State.handSlot_evolves t n k) _ _)
      dsimp only
      split
      · exact h.trans (State.closingStages_evolves _ _ _)
      · exact h
    · exact .refl
  · exact .refl

/-! ### The index pulse -/

theorem State.stageMonitor_evolves (s : State) (n : UnitId) : Evolves s (s.stageMonitor n) := by
  unfold State.stageMonitor
  split
  · exact .refl
  · next d _ =>
    have h : Evolves s (s.modDrive n (fun x => { x with monitor := x.monitor.index d s.clock })) :=
      EvolvesIf.modDrive .refl n _ fun h => { h with monitor := Monitor.index_ok h.monitor _ _ }
    dsimp only
    split
    · exact h.raise _
    · exact h

theorem State.enterSpeedFault_evolves (s : State) (n : UnitId) (at_ : Situation) : Evolves s (s.enterSpeedFault n at_) := by
  unfold State.enterSpeedFault
  split
  · exact .modDrive .refl n _ fun h =>
      { Drive.enter_ok h .speedFault (by decide) with straysLimit := h.straysLimit }
  · exact (EvolvesIf.modDrive .refl n _ fun h => Drive.enter_ok h .speedFault (by decide)).trans
      (State.releaseEarly_evolves _ _)

theorem State.leaveSpeedFault_evolves (s : State) (n : UnitId) : Evolves s (s.leaveSpeedFault n) := by
  unfold State.leaveSpeedFault
  split
  · exact State.toIdle_evolves _ _
  · split
    · exact (State.evaluatePositioning_evolves _ _ _).trans (State.issueRestore_evolves _ _)
    · split
      · exact .modDrive .refl n (fun d => { d.enter .settling with settleCount := 1 }) fun h =>
          { Drive.enter_ok h .settling (by decide) with
            settle := fun e => absurd rfl e, settleLimit := (by decide : 1 ≤ 30) }
      · exact (State.evaluatePositioning_evolves _ _ _).trans (State.issueSeek_evolves _ _)

theorem State.stageSpeed_evolves (s : State) (n : UnitId) (at_ : Situation) : Evolves s (s.stageSpeed n at_) := by
  unfold State.stageSpeed
  split
  · exact State.enterSpeedFault_evolves _ _ _
  · exact State.enterSpeedFault_evolves _ _ _
  · exact State.enterSpeedFault_evolves _ _ _
  · exact State.leaveSpeedFault_evolves _ _
  · exact .refl

theorem State.stageOpen_evolves (s : State) (n : UnitId) : Evolves s (s.stageOpen n) := by
  unfold State.stageOpen
  have h := State.takeSwap_evolves s n
  dsimp only
  split
  · split
    · split
      · exact h.trans ((State.openCapture_evolves _ _ _ _ _ _).under fun _ g => (g.drives n).preparedOk _ ‹_›)
      · exact h
    · exact h
  · exact h

theorem State.stageWaiting_evolves (s : State) (n : UnitId) : Evolves s (s.stageWaiting n) := by
  unfold State.stageWaiting
  split
  · next g =>
    exact .modDrive .refl n _ fun h =>
      { h with
        loop := fun e => absurd g.1 e
        waitingLimit := Nat.le_trans (Nat.sub_le _ _) h.waitingLimit }
  · exact .refl

theorem State.stageSettle_evolves (s : State) (n : UnitId) : Evolves s (s.stageSettle n) := by
  unfold State.stageSettle
  split
  · next g =>
    split
    · exact State.track_evolves _ _
    · exact .modDrive .refl n _ fun h =>
        { h with settle := fun e => absurd g.1 e, settleLimit := Nat.le_trans (Nat.sub_le _ _) h.settleLimit }
  · exact .refl

theorem State.stageTrack_evolves (s : State) (n : UnitId) (at_ : Situation) (held : Option JobIx) (cut : CutField) :
    Evolves s (s.stageTrack n at_ held cut) := by
  unfold State.stageTrack
  split
  · exact State.closeRevolution_evolves _ _ _
  · split
    · exact State.stageOpen_evolves _ _
    · exact .refl
  · split
    · exact State.stageWaiting_evolves _ _
    · exact .refl
  · split
    · exact State.stageSettle_evolves _ _
    · exact .refl
  · exact .refl

theorem State.stageBudget_evolves (s : State) (n : UnitId) (held : Option JobIx) : Evolves s (s.stageBudget n held) := by
  unfold State.stageBudget
  split
  · exact .refl
  · split
    · split
      · next x hx =>
        have h : Evolves s (s.setJob _ (some x.revolution)) :=
          EvolvesIf.setLive .refl hx _ fun _ h =>
            { h with
              budget := Nat.le_trans (Nat.sub_le _ _) h.budget
              counters := { h.counters with revolutions := bump_le _ } }
        split
        · exact h.trans (State.endJobAndGoOn_evolves _ _ _)
        · exact h
      · exact .refl
    · exact .refl

theorem State.stageDeferral_evolves (s : State) (n : UnitId) : Evolves s (s.stageDeferral n) := by
  unfold State.stageDeferral
  split
  · next g =>
    have ht : (s.drive n).state = .tracking := by
      simp only [State.requesting, Bool.and_eq_true, beq_iff_eq] at g
      exact g.1.1.1.1
    exact .modDrive .refl n _ fun h =>
      { h with deferral := fun e => absurd ht e, deferralLimit := holdAt_le _ _ }
  · exact .refl

theorem State.stageSwap_evolves (s : State) (n : UnitId) (at_ : Situation) (held : Option JobIx) :
    Evolves s (s.stageSwap n at_ held) := by
  unfold State.stageSwap
  split
  · have h : Evolves s { s with channel := { s.channel with state := .idle } } :=
      .channel _ .refl fun _ _ h => { h.channel with }
    exact h.trans (State.takeSwap_evolves _ _)
  · exact State.takeSwap_evolves _ _

theorem State.indexStage_evolves (n : UnitId) (at_ : Situation) (held : Option JobIx) (cut : CutField) (s : State)
    (stage : IndexStage) : Evolves s (State.indexStage n at_ held cut s stage) := by
  unfold State.indexStage
  split
  · exact (State.stageMonitor_evolves _ _).trans (State.arbitrate_evolves _)
  · exact (State.stageSpeed_evolves _ _ _).trans (State.arbitrate_evolves _)
  · exact (State.stageTrack_evolves _ _ _ _ _).trans (State.arbitrate_evolves _)
  · exact (State.stageBudget_evolves _ _ _).trans (State.arbitrate_evolves _)
  · exact (State.stageDeferral_evolves _ _).trans (State.arbitrate_evolves _)
  · exact (State.stageSwap_evolves _ _ _ _).trans (State.arbitrate_evolves _)

theorem Drive.indexSeen_ok {d : Drive} (h : d.Ok) (now : Nat) : (d.indexSeen now).Ok :=
  { h with
    timer := by
      simp only [Drive.indexSeen]
      split
      · intro _; assumption
      · simp }

/-- An index pulse in any order of its stages. -/
theorem State.indexIn_evolves (s : State) (n : UnitId) (cut : CutField) (order : IndexOrder) :
    Evolves s (s.indexIn n cut order) := by
  unfold State.indexIn
  split
  · exact .refl
  · have h : Evolves s (s.modDrive n (fun d => d.indexSeen s.clock)) :=
      EvolvesIf.modDrive .refl n _ fun h => Drive.indexSeen_ok h _
    split
    · exact h.trans (Evolves.foldl _ (fun t st => State.indexStage_evolves n _ _ cut t st) _ _)
    · exact h.trans (State.takeSwap_evolves _ _)

/-! ### Drive events -/

theorem State.readyInNotReady_evolves (s : State) (n : UnitId) (h : (s.drive n).state = .notReady) :
    Evolves s (s.readyInNotReady n) :=
  (EvolvesIf.modDrive .refl n _ fun g =>
    { g with
      monitor := Monitor.cleared_ok
      timer := fun _ => by simp [h, DriveState.timed]
      cylinder := fun _ _ e => by cases e
      retracted := fun _ => rfl }).trans
    (State.toIdle_evolves _ _)

theorem State.readyRise_evolves (s : State) (n : UnitId) : Evolves s (s.readyRise n) := by
  unfold State.readyRise
  have h : Evolves s (s.modDrive n (fun d => { d with ready := true })) :=
    EvolvesIf.modDrive .refl n _ fun h => { h with }
  split
  · next g => exact h.trans (State.readyInNotReady_evolves _ n (by simpa using g))
  · exact h

theorem State.readyFall_evolves (s : State) (n : UnitId) : Evolves s (s.readyFall n) := by
  unfold State.readyFall
  have h : Evolves s (s.modDrive n (fun d => { d with ready := false })) :=
    EvolvesIf.modDrive .refl n _ fun h => { h with }
  split
  · exact (EvolvesIf.modDrive h n _ fun g => Drive.enter_ok (Drive.losePosition_ok g) .notReady (by decide)).trans
      (State.endHeld_evolves _ _ _)
  · exact h

theorem State.arrivalSettle_le {s : State} (h : s.InRange) (n : UnitId) : s.arrivalSettle n ≤ 30 := by
  unfold State.arrivalSettle
  have hp := (h.drives n).positioningLimit
  cases hd : (s.drive n).descriptor with
  | none => simp only [Option.map_none, Option.getD_none]; omega
  | some d =>
    have := (h.drives n).descriptor d hd
    simp only [Descriptor.inRange, decide_eq_true_eq] at this
    simp only [Option.map_some, Option.getD_some]
    omega

theorem State.arrive_evolves (s : State) (n : UnitId) : Evolves s (s.arrive n) := by
  unfold State.arrive
  split
  · exact (State.settle_evolves _ _ _).under fun _ h => State.arrivalSettle_le h n
  · exact State.toIdle_evolves _ _

theorem State.seekDone_evolves (s : State) (n : UnitId) : Evolves s (s.seekDone n) := by
  unfold State.seekDone
  have h : Evolves s (s.modDrive n (fun d => { d with motion := .still, cylinder := d.target })) :=
    EvolvesIf.modDrive .refl n _ fun h => { h with
      seek := fun _ e => (by cases e)
      restore := fun _ e => (by cases e)
      cylinder := h.target
      retracted := fun e => h.unloaded (.inr e) }
  split
  · exact EvolvesIf.modDrive h n _ fun g => Drive.enter_ok g .speedFault (by decide)
  · exact h.trans (State.arrive_evolves _ _)

theorem State.restoreDone_evolves (s : State) (n : UnitId) {limit : Nat} (hm : (s.drive n).motion = .restore limit) :
    Evolves s (s.restoreDone n) := by
  unfold State.restoreDone
  have h : Evolves s (s.modDrive n (fun d => { d with motion := .still, cylinder := some 0 })) :=
    EvolvesIf.modDrive .refl n _ fun h => { h with
      seek := fun _ e => (by cases e)
      restore := fun _ e => (by cases e)
      cylinder := fun c x e hx => by
        cases e
        have := h.descriptor x hx
        simp only [Descriptor.inRange, decide_eq_true_eq] at this
        omega
      retracted := fun e => by
        have := h.restore limit hm
        rw [this] at e
        cases e }
  split
  · exact EvolvesIf.modDrive h n _ fun g => Drive.enter_ok g .speedFault (by decide)
  · split
    · exact h.trans (State.issueSeek_evolves _ _)
    · exact h.trans (State.arrive_evolves _ _)

theorem State.seekError_evolves (s : State) (n : UnitId) : Evolves s (s.seekError n) := by
  unfold State.seekError
  have h : Evolves s ((s.modDrive n (fun d =>
      { d with motion := .still, cylinder := none, seekErrors := holdAt 3 d.seekErrors })).raise (unitFlag n .seekError)) :=
    (EvolvesIf.modDrive .refl n _ fun h =>
      { h with
        seek := fun _ e => (by cases e)
        restore := fun _ e => (by cases e)
        errorsLimit := holdAt_le _ _
        cylinder := fun _ _ e => (by cases e)
        retracted := fun _ => rfl }).raise _
  split
  dsimp only
  · split
    · exact h.trans (State.issueRestore_evolves _ _)
    · exact (h.trans (State.endHeld_evolves _ _ _)).trans (State.toIdle_evolves _ _)
  · exact h.trans (State.toIdle_evolves _ _)

theorem State.headsUnloaded_evolves (s : State) (n : UnitId) (hu : (s.drive n).state = .unloading) :
    Evolves s (s.headsUnloaded n) :=
  (EvolvesIf.modDrive .refl n _ fun h =>
    { h with
      offset := (by decide : (0 : Int).natAbs ≤ 4)
      seek := fun _ e => (by cases e)
      restore := fun _ e => (by cases e)
      unloadLine := by simp [Drive.enter]
      loadLine := by simp [Drive.enter]
      timer := fun e => by simp [Drive.enter, DriveState.timed] at e
      settle := fun _ => rfl
      deferral := fun _ => rfl
      loop := fun _ => ⟨rfl, rfl⟩
      deferralLimit := Nat.zero_le _
      waitingLimit := Nat.zero_le _
      straysLimit := Nat.zero_le _
      settleLimit := Nat.zero_le _
      preparedOk := fun _ e => (by cases e)
      cylinder := fun _ _ e => (by cases e)
      unloaded := fun _ => h.unloaded (.inl hu)
      retracted := fun _ => rfl }).raise _

end Sys2Proof.Machine
end

