-- ==== Sys2Proof/Laws/Service.lean ====
section
/-! SUPPORT. What serving a request can do, said once: the clock, the commands that wait and all of the link but its
RESET mark stay, and every item stays in its range. -/

namespace Sys2Proof.Machine

/-- What serving a request leaves and keeps. -/
structure Serves (s t : State) : Prop where
  clock : t.clock = s.clock
  choices : t.choices = s.choices
  pending : t.pending = s.pending
  link : t.link = { s.link with resetWaiting := t.link.resetWaiting }
  inRange : s.InRange → t.InRange

theorem Serves.refl (s : State) : Serves s s := ⟨rfl, rfl, rfl, rfl, id⟩

theorem Serves.trans {s t u : State} (h : Serves s t) (g : Serves t u) : Serves s u :=
  ⟨g.clock.trans h.clock, g.choices.trans h.choices, g.pending.trans h.pending,
   by rw [g.link, h.link], fun k => g.inRange (h.inRange k)⟩

theorem EvolvesIf.servesIf {Q : Prop} {s t : State} (h : EvolvesIf Q s t) (hq : s.InRange → Q) : Serves s t :=
  ⟨h.same.clock, h.same.choices, h.same.pending, by rw [h.same.link], fun k => h.inRange (hq k) k⟩

theorem EvolvesIf.serves {s t : State} (h : EvolvesIf True s t) : Serves s t := h.servesIf fun _ => trivial

/-! ### Drives -/

theorem State.idleIfReady_evolves (s : State) (n : UnitId) : Evolves s (s.idleIfReady n) := by
  unfold State.idleIfReady
  split
  · exact State.toIdle_evolves _ _
  · exact .refl

theorem Drive.forgetQuirks_ok {d : Drive} (h : d.Ok) : d.forgetQuirks.Ok := { h with positioningLimit := Nat.zero_le _ }

/-- A unit that no live job names takes a descriptor, of the same geometry where maps depend on it, and stays in range. -/
theorem State.InRange.describe {s : State} (h : s.InRange) (n : UnitId) {d : Drive} {x : Descriptor}
    (hd : d.Ok) (hx : d.descriptor = some x) (hj : s.jobsOf n = []) (hg : s.mapConflict n x = false) :
    (s.setDrive n d).InRange := by
  have ho : ∀ m, n ≠ m → (s.setDrive n d).drive m = s.drive m := fun m e => by rw [State.setDrive_drive, if_neg e]
  have hn : (s.setDrive n d).drive n = d := by rw [State.setDrive_drive, if_pos rfl]
  have hm : (s.extentsOf n = [] ∧ ∀ r ∈ s.remaps, r.unit ≠ n) ∨ ∃ old, (s.drive n).descriptor = some old ∧
      old.cylinders = x.cylinders ∧ old.heads = x.heads ∧ old.sectors = x.sectors := by
    unfold State.mapConflict at hg
    split at hg
    · next old he =>
      cases hs : s.mapped n with
      | false =>
        simp only [State.mapped, Bool.or_eq_false_iff, Bool.not_eq_false', List.isEmpty_iff, List.any_eq_false,
          beq_iff_eq] at hs
        exact .inl hs
      | true =>
        simp only [hs, Bool.true_and, Descriptor.geometryDiffers, Bool.or_eq_false_iff, bne_eq_false_iff_eq] at hg
        exact .inr ⟨old, he, hg.1.1, hg.1.2, hg.2⟩
    · next he => exact .inl (h.described n he)
  refine { h with drives := fun m => ?_, tracks := fun j y hy => ?_, described := fun m e => ?_, within := fun m y e => ?_,
                  alternates := fun r hr y e => ?_ }
  · rw [State.setDrive_drive]
    split
    · exact hd
    · exact h.drives m
  · obtain ⟨g, hg⟩ := h.tracks j y hy
    have hne : n ≠ y.unit := fun e => by
      have : j ∈ s.jobsOf n := List.mem_filter.mpr ⟨List.mem_finRange j, by
        have hy' : s.job j = some y := hy
        rw [hy']
        simp [e]⟩
      rw [hj] at this
      cases this
    exact ⟨g, by rw [ho _ hne]; exact hg⟩
  · by_cases hmn : n = m
    · subst hmn
      rw [hn, hx] at e
      cases e
    · rw [ho m hmn] at e
      exact h.described m e
  · show extentsWithin (s.extentsOf m) y
    by_cases hmn : n = m
    · subst hmn
      rw [hn, hx] at e
      cases e
      rcases hm with hm | ⟨old, ho, h1, h2, h3⟩
      · intro k z hz
        rw [hm.1] at hz
        cases hz
      · intro k z hz
        have := h.within n old ho k z hz
        rwa [h1, h2, h3] at this
    · rw [ho m hmn] at e
      exact h.within m y e
  · by_cases hmn : n = r.unit
    · rw [← hmn, hn, hx] at e
      cases e
      rcases hm with hm | ⟨old, ho, h1, h2, h3⟩
      · exact absurd hmn.symm (hm.2 r hr)
      · have := h.alternates r hr old (by rw [← hmn, ho])
        unfold Address.Within at this ⊢
        rwa [h1, h2, h3] at this
    · rw [ho _ hmn] at e
      exact h.alternates r hr y e

theorem State.install_serves (s : State) (n : UnitId) (x : Descriptor) (hx : x.inRange = true) (hj : s.jobsOf n = [])
    (hg : s.mapConflict n x = false) : Serves s (s.install n x) := by
  unfold State.install
  split
  · next hs =>
    refine ⟨rfl, rfl, rfl, rfl, fun h => h.describe n ?_ rfl hj hg⟩
    have g := h.drives n
    exact { Drive.forgetQuirks_ok g with
      descriptor := fun y e => by cases e; exact hx
      deadLimit := Nat.zero_le _
      cylinder := fun c _ e => by
        have : (s.drive n).cylinder = some c := e
        rw [g.retracted hs] at this
        cases this
      target := fun c _ e => by
        have : (s.drive n).target = some c := e
        rw [g.unloaded (.inr hs)] at this
        cases this }
  · refine Serves.trans (t := s.modDrive n _) ⟨rfl, rfl, rfl, rfl, fun h => h.describe n ?_ rfl hj hg⟩
      (State.idleIfReady_evolves _ _).serves
    exact { Drive.forgetQuirks_ok (Drive.enter_ok (Drive.losePosition_ok (h.drives n)) .notReady (by decide)) with
      descriptor := fun y e => by cases e; exact hx
      deadLimit := Nat.zero_le _
      errorsLimit := Nat.zero_le _
      cylinder := fun _ _ e => by cases e
      target := fun _ _ e => by cases e
      timer := fun _ => rfl }

theorem State.resetDrive_evolves (s : State) (n : UnitId) : Evolves s (s.resetDrive n) := by
  unfold State.resetDrive
  have h : Evolves s (s.modDrive n (fun d => { d.forgetQuirks with deferral := 0, deadRevs := 0 })) :=
    .modDrive .refl n _ fun h =>
      { Drive.forgetQuirks_ok h with
        deferral := fun _ => rfl, deferralLimit := Nat.zero_le _, deadLimit := Nat.zero_le _ }
  dsimp only
  split
  · refine EvolvesIf.trans (EvolvesIf.modDrive h n _ fun g => ?_) (State.idleIfReady_evolves _ _)
    exact { Drive.enter_ok (Drive.losePosition_ok g) .notReady (by decide) with
      timer := fun _ => rfl, errorsLimit := Nat.zero_le _ }
  · exact h

theorem State.resetJobs_evolves (s : State) (n : UnitId) : Evolves s (s.resetJobs n) :=
  EvolvesIf.trans (Evolves.foldl _ (fun t j => State.endJob_evolves t j _) _ _) (State.endHeld_evolves _ _ _)

theorem State.clearFlags_evolves (s : State) (named : FlagSet) : Evolves s (s.clearFlags named) := .clear _ .refl

theorem State.resetUnit_evolves (s : State) (n : UnitId) : Evolves s (s.resetUnit n) := by
  unfold State.resetUnit
  refine EvolvesIf.trans (EvolvesIf.trans ?_ (State.resetDrive_evolves _ _)) (State.clearFlags_evolves _ _)
  exact .profiles n _ (.direction n _ (State.resetJobs_evolves _ _)) fun h => { h with }

theorem State.abortUnit_evolves (s : State) (n : UnitId) : Evolves s (s.abortUnit n) := by
  unfold State.abortUnit
  have h : Evolves s ((s.queuedByAge n).foldl (fun t j => t.endJob j .aborted) s) :=
    Evolves.foldl _ (fun t j => State.endJob_evolves t j _) _ _
  dsimp only
  split
  · exact EvolvesIf.trans h (State.endJobAndGoOn_evolves _ _ _)
  · exact h

theorem State.admitJob_evolves (s : State) (j : JobIx) (x : Job) :
    EvolvesIf (x.Ok ∧ s.JobFits x) s (s.admitJob j x) :=
  .arrival _ (.job j _ .refl fun h _ _ y e => by cases e; exact h)

theorem trackRecords_ok (wanted : BitVec 32) (sectors : Nat) : ∀ r ∈ trackRecords wanted sectors, r.Ok := by
  intro r hr
  obtain ⟨_, _, rfl⟩ := List.mem_map.mp hr
  exact Record.fresh_ok _ _

theorem blockRecords_ok (ls : List Landing) (cylinder head sectors : Nat) :
    ∀ r ∈ blockRecords ls cylinder head sectors, r.Ok := by
  intro r hr
  obtain ⟨_, _, rfl⟩ := List.mem_map.mp hr
  exact Record.fresh_ok _ _

/-- The tracks of a run lie within its unit's geometry. -/
def State.TracksFit (s : State) (n : UnitId) (sectors : Nat) (tracks : List (Nat × Nat)) : Prop :=
  ∃ d, (s.drive n).descriptor = some d ∧ d.sectors = sectors ∧ ∀ t ∈ tracks, t.1 < d.cylinders ∧ t.2 < d.heads

theorem State.admitTracks_evolves (n : UnitId) (cls : JobClass) (tag : Tag) (budget sectors : Nat) (ls : List Landing)
    (hb : budget ≤ 65535) (tracks : List (Nat × Nat)) (s : State) :
    EvolvesIf (s.TracksFit n sectors tracks) s (s.admitTracks n cls tag budget sectors ls tracks).1 := by
  induction tracks generalizing s with
  | nil => exact .refl
  | cons t rest ih =>
    unfold State.admitTracks
    split
    · exact .refl
    · refine EvolvesIf.trans ((State.admitJob_evolves s _ _).under fun h _ => ⟨?_, ?_⟩) ((ih _).under fun h _ => ?_)
      · exact Job.fresh_ok _ _ _ _ _ _ _ _ (blockRecords_ok _ _ _ _) hb
      · obtain ⟨d, h1, h2, h3⟩ := h
        exact ⟨d, h1, (h3 t (by simp)).1, (h3 t (by simp)).2, by simp [Job.fresh, blockRecords, h2]⟩
      · obtain ⟨d, h1, h2, h3⟩ := h
        exact ⟨d, h1, h2, fun u hu => h3 u (by simp [hu])⟩

/-- The first block of the lowest entry whose ending block is at least a block is not above that block (R130, R134). -/
theorem firstBlock_le {es : List Extent} {k b : Nat} (h : extentOf es b = some k) : firstBlock es k ≤ b := by
  unfold extentOf at h
  rw [List.findIdx?_eq_some_iff_getElem] at h
  obtain ⟨hk, _, hlt⟩ := h
  unfold firstBlock
  cases k with
  | zero => exact Nat.zero_le _
  | succ i =>
    have := hlt i (by omega)
    simp only [decide_eq_true_eq] at this
    simp only [List.getElem?_eq_getElem (show i < es.length by omega), Option.map_some, Option.getD_some]
    omega

/-- Where a state is in range, every block that translates lands inside the unit's geometry. -/
theorem State.translate_within {s : State} (h : s.InRange) {n : UnitId} {d : Descriptor}
    (hd : (s.drive n).descriptor = some d) {b : Nat} {a : Address} (ha : s.translate n d.sectors b = some a) :
    a.cylinder < d.cylinders ∧ a.head < d.heads := by
  unfold State.translate at ha
  split at ha
  · next r hr =>
    cases ha
    have hm := List.mem_of_find?_eq_some hr
    have hp := List.find?_some hr
    simp only [Bool.and_eq_true, beq_iff_eq] at hp
    have := h.alternates r hm d (by rw [hp.1, hd])
    exact ⟨this.1, this.2.1⟩
  · unfold extentAddress at ha
    split at ha
    · next k hk =>
      cases he : (s.extentsOf n)[k]? with
      | none => simp [he] at ha
      | some e =>
        simp only [he, Option.map_some, Option.some.injEq] at ha
        subst ha
        have hw := h.within n d hd k e he
        have hle : b ≤ e.ending := by
          have := hk
          unfold extentOf at this
          rw [List.findIdx?_eq_some_iff_getElem] at this
          obtain ⟨hlt, hp, _⟩ := this
          rw [List.getElem?_eq_getElem hlt] at he
          cases he
          simpa using hp
        exact ⟨hw.2 b (firstBlock_le hk) hle, Nat.lt_of_lt_of_le (Nat.mod_lt _ hw.1.1) hw.1.2⟩
    · cases ha

/-- The tracks of landings are the tracks of some of them. -/
theorem mem_tracksOf {ls : List Landing} {t : Nat × Nat} (h : t ∈ tracksOf ls) :
    ∃ l ∈ ls, t = (l.address.cylinder, l.address.head) := by
  suffices ∀ (l : List Landing) (acc : List (Nat × Nat)), t ∈ l.foldl (fun ts l =>
      if ts.contains (l.address.cylinder, l.address.head) then ts
      else ts ++ [(l.address.cylinder, l.address.head)]) acc →
      t ∈ acc ∨ ∃ x ∈ l, t = (x.address.cylinder, x.address.head) by
    rcases this ls [] h with h | h
    · cases h
    · exact h
  intro l
  induction l with
  | nil => exact fun acc h => .inl h
  | cons x rest ih =>
    intro acc h
    rw [List.foldl_cons] at h
    rcases ih _ h with h | ⟨y, hy, e⟩
    · split at h
      · exact .inl h
      · rcases List.mem_append.mp h with h | h
        · exact .inl h
        · exact .inr ⟨x, by simp, by simpa using h⟩
    · exact .inr ⟨y, by simp [hy], e⟩

theorem State.tracksFit {s : State} (h : s.InRange) {n : UnitId} {d : Descriptor} (hd : (s.drive n).descriptor = some d)
    (first count : Nat) : s.TracksFit n d.sectors (tracksOf (s.landings n d.sectors first count)) := by
  refine ⟨d, hd, rfl, fun t ht => ?_⟩
  obtain ⟨l, hl, rfl⟩ := mem_tracksOf ht
  obtain ⟨i, _, hi⟩ := List.mem_filterMap.mp hl
  cases e : s.translate n d.sectors (first + i) with
  | none => simp [e] at hi
  | some a =>
    simp only [e, Option.map_some, Option.some.injEq] at hi
    subst hi
    exact State.translate_within h hd e

/-- A field of two bytes is at most 65,535. -/
theorem field_two_le (body : List Byte) (off : Nat) : field body off 2 ≤ 65535 := by
  unfold field
  have hl : ((body.drop off).take 2).length ≤ 2 := by simp
  generalize (body.drop off).take 2 = l at hl
  match l, hl with
  | [], _ => exact Nat.zero_le _
  | [a], _ =>
    have := a.isLt
    simp only [beNat, List.foldl_cons, List.foldl_nil]
    omega
  | [a, b], _ =>
    have := a.isLt
    have := b.isLt
    simp only [beNat, List.foldl_cons, List.foldl_nil]
    omega

/-! ### Profiles -/

theorem clampRange_range {low high : Nat} (x : Nat) (h : low ≤ high) :
    low ≤ clampRange low high x ∧ clampRange low high x ≤ high := by
  unfold clampRange
  omega

theorem Profile.clamp_ok (p : Profile) (h : 1 ≤ p.passes.length ∧ p.passes.length ≤ 16) : p.clamp.Ok where
  passes := by simpa [Profile.clamp] using h
  entries := by
    intro e he
    simp only [Profile.clamp, List.mem_map] at he
    obtain ⟨a, _, rfl⟩ := he
    have h1 := clampTo_range 4 a.offset
    have h2 := clampTo_range 2 a.strobe
    dsimp only
    omega
  passLimit := clampRange_range _ (by decide)
  backoff := (clampRange_range _ (by decide)).2
  recalibrate := (clampRange_range _ (by decide)).2
  quorum := clampRange_range _ (by decide)
  weak := clampRange_range _ (by decide)
  repair := (clampRange_range _ (by decide)).2
  strayLimit := clampRange_range _ (by decide)
  dead := clampRange_range _ (by decide)
  deferral := (clampRange_range _ (by decide)).2

/-! ### Maps -/

theorem remapsSorted_filter {rs : List Remap} (h : remapsSorted rs) (p : Remap → Bool) : remapsSorted (rs.filter p) :=
  List.Pairwise.filter _ h

theorem Remap.before_iff (a b : Remap) :
    a.before b = true ↔ a.unit.val < b.unit.val ∨ (a.unit.val = b.unit.val ∧ a.block < b.block) := by
  simp [Remap.before, Fin.ext_iff]

theorem mem_insertRemap {r x : Remap} {rs : List Remap} (h : x ∈ insertRemap r rs) : x = r ∨ x ∈ rs := by
  induction rs with
  | nil => simpa [insertRemap] using h
  | cons y rest ih =>
    unfold insertRemap at h
    split at h
    · simpa using h
    · rcases List.mem_cons.mp h with h | h
      · exact .inr (by simp [h])
      · rcases ih h with h | h
        · exact .inl h
        · exact .inr (by simp [h])

theorem insertRemap_length (r : Remap) (rs : List Remap) : (insertRemap r rs).length = rs.length + 1 := by
  induction rs with
  | nil => rfl
  | cons y rest ih =>
    unfold insertRemap
    split
    · rfl
    · simp [ih]

/-- Insertion keeps the list strictly ascending where no entry holds the same unit and block. -/
theorem insertRemap_sorted {r : Remap} {rs : List Remap} (h : remapsSorted rs)
    (hr : ∀ x ∈ rs, ¬(x.unit.val = r.unit.val ∧ x.block = r.block)) : remapsSorted (insertRemap r rs) := by
  induction rs with
  | nil => exact List.pairwise_singleton _ _
  | cons y rest ih =>
    have hp := List.pairwise_cons.mp h
    unfold insertRemap
    split
    · next hy =>
      refine List.pairwise_cons.mpr ⟨fun x hx => ?_, h⟩
      rcases List.mem_cons.mp hx with rfl | hx
      · exact hy
      · have h1 := (Remap.before_iff _ _).mp hy
        have h2 := (Remap.before_iff _ _).mp (hp.1 x hx)
        rw [Remap.before_iff]
        omega
    · next hy =>
      refine List.pairwise_cons.mpr ⟨fun x hx => ?_, ih hp.2 fun x hx => hr x (by simp [hx])⟩
      rcases mem_insertRemap hx with rfl | hx
      · have h1 := hr y (by simp)
        rw [Remap.before_iff] at hy ⊢
        omega
      · exact hp.1 x hx

/-- A unit's extents are replaced by ones that lie in its geometry. -/
theorem State.replaceExtents_serves (s : State) (n : UnitId) (es : List Extent)
    (h : s.InRange → es.length ≤ Config.extentCapacity ∧ (es ≠ [] → (s.drive n).descriptor ≠ none) ∧
      ∀ d, (s.drive n).descriptor = some d → extentsWithin es d) : Serves s (s.replaceExtents n es) := by
  have he : ∀ m, (s.replaceExtents n es).extentsOf m = if n = m then es else s.extentsOf m := fun m =>
    State.setExtents_extentsOf s n m es
  refine ⟨rfl, rfl, rfl, rfl, fun k => { k with
    extents := fun m => ?_
    described := fun m e => ⟨?_, fun r hr => (k.described m e).2 r (List.mem_filter.mp hr).1⟩
    within := fun m d e => ?_
    remaps := Nat.le_trans (List.length_filter_le _ _) k.remaps
    sorted := remapsSorted_filter k.sorted _
    alternates := fun r hr d e => k.alternates r (List.mem_filter.mp hr).1 d e }⟩ <;> rw [he] <;> split
  · exact (h k).1
  · exact k.extents m
  · next g =>
    subst g
    exact Decidable.not_not.mp fun c => (h k).2.1 c e
  · exact (k.described m e).1
  · next g =>
    subst g
    exact (h k).2.2 d e
  · exact k.within m d e

/-- A written table lies in the geometry where the entry and the one after it do. -/
theorem writeExtent_within {es : List Extent} {k : Nat} {e : Extent} {d : Descriptor} (h : extentsWithin es d)
    (hk : k ≤ es.length) (hr : e.inRange d = true) (hf : extentsFit es k e d = true) :
    extentsWithin (writeExtent es k e) d := by
  have mono : ∀ (e : Extent) (first b : Nat), e.fits first d.cylinders d.sectors = true → b ≤ e.ending →
      e.cylinder + (b - first) / d.sectors / e.heads < d.cylinders := by
    intro e first b hf hb
    simp only [Extent.fits, decide_eq_true_eq] at hf
    have : (b - first) / d.sectors / e.heads ≤ (e.ending - first) / d.sectors / e.heads :=
      Nat.div_le_div_right (Nat.div_le_div_right (by omega))
    omega
  simp only [extentsFit, Bool.and_eq_true] at hf
  simp only [Extent.inRange, decide_eq_true_eq] at hr
  have hget : ∀ i x, (writeExtent es k e)[i]? = some x → (i = k ∧ x = e) ∨ (i ≠ k ∧ es[i]? = some x) := by
    intro i x hx
    unfold writeExtent at hx
    split at hx
    · rw [List.getElem?_set] at hx
      split at hx
      · next g =>
        subst g
        simp only [*, Option.some.injEq] at hx
        exact .inl ⟨rfl, hx.symm⟩
      · next g => exact .inr ⟨fun c => g c.symm, hx⟩
    · next g =>
      have hkl : k = es.length := by omega
      by_cases hi : i < es.length
      · rw [List.getElem?_append_left hi] at hx
        exact .inr ⟨by omega, hx⟩
      · rw [List.getElem?_append_right (by omega)] at hx
        cases hz : i - es.length with
        | zero =>
          rw [hz] at hx
          cases hx
          exact .inl ⟨by omega, rfl⟩
        | succ m =>
          rw [hz] at hx
          cases hx
  have hfirst : ∀ i, i ≠ k + 1 → i ≤ es.length → firstBlock (writeExtent es k e) i = firstBlock es i := by
    intro i hi hl
    cases i with
    | zero => rfl
    | succ m =>
      have hmk : m ≠ k := fun c => hi (by rw [c])
      have : (writeExtent es k e)[m]? = es[m]? := by
        unfold writeExtent
        split
        · rw [List.getElem?_set, if_neg (fun c => hmk c.symm)]
        · rw [List.getElem?_append_left (by omega)]
      simp only [firstBlock, this]
  have hnext : firstBlock (writeExtent es k e) (k + 1) = e.ending + 1 := by
    have : (writeExtent es k e)[k]? = some e := by
      unfold writeExtent
      split
      · next g => rw [List.getElem?_set, if_pos rfl, if_pos g]
      · next g =>
        have hkl : k = es.length := by omega
        rw [List.getElem?_append_right (by omega), hkl, Nat.sub_self]
        rfl
    simp only [firstBlock, this, Option.map_some, Option.getD_some]
  intro i x hx
  rcases hget i x hx with ⟨rfl, rfl⟩ | ⟨hi, hx⟩
  · refine ⟨⟨hr.1, hr.2.1⟩, fun b _ hb => ?_⟩
    rw [hfirst i (by omega) hk]
    exact mono _ _ _ hf.1 hb
  · refine ⟨(h i x hx).1, ?_⟩
    by_cases hk1 : i = k + 1
    · subst hk1
      rw [hnext]
      rw [hx] at hf
      exact fun b _ hb => mono _ _ _ hf.2 hb
    · have hl : i < es.length := (List.getElem?_eq_some_iff.mp hx).1
      rw [hfirst i hk1 (by omega)]
      exact (h i x hx).2

/-! ### The requests -/

theorem serveIdentify_serves (s : State) : Serves s (serveIdentify s).state := .refl _

theorem serveDefineDrive_serves (body : List Byte) (s : State) : Serves s (serveDefineDrive body s).state := by
  unfold serveDefineDrive
  dsimp only
  split
  · exact .refl _
  · split
    · exact .refl _
    · next hx =>
      split
      · exact .refl _
      · next hj =>
        split
        · exact .refl _
        · next hg =>
          split
          · exact .refl _
          · exact State.install_serves s _ _ (by simpa using hx) (by simpa using hj) (by simpa using hg)

theorem serveDriveStatus_serves (body : List Byte) (s : State) : Serves s (serveDriveStatus body s).state := by
  unfold serveDriveStatus
  split <;> exact .refl _

theorem serveUnload_serves (body : List Byte) (s : State) : Serves s (serveUnload body s).state := by
  unfold serveUnload
  split
  · exact .refl _
  · split
    · exact .refl _
    · exact (EvolvesIf.trans (State.beginUnload_evolves _ _) (State.endHeld_evolves _ _ _)).serves

theorem serveReload_serves (body : List Byte) (s : State) : Serves s (serveReload body s).state := by
  unfold serveReload
  split
  · exact .refl _
  · next n _ =>
    split
    · have h : Evolves s (s.modDrive n (fun d =>
          { d.enter .notReady with loadLine := true, indexTimer := d.timerFrom s.clock })) :=
        .modDrive .refl n _ fun h =>
          { Drive.enter_ok h .notReady (by decide) with loadLine := fun _ => rfl, timer := fun _ => rfl }
      dsimp only [accept]
      split
      · exact (EvolvesIf.trans h (State.readyInNotReady_evolves _ n (by simp))).serves
      · exact h.serves
    · exact .refl _

theorem serveSetProfile_serves (body : List Byte) (s : State) : Serves s (serveSetProfile body s).state := by
  unfold serveSetProfile
  dsimp only
  split
  · exact .refl _
  · next n _ =>
    split
    · exact .refl _
    · next hc =>
      split
      · exact .refl _
      · have hp : 1 ≤ (profileSent body).passes.length ∧ (profileSent body).passes.length ≤ 16 := by
          simp only [profileSent, List.length_map, List.length_range]
          omega
        exact EvolvesIf.serves (EvolvesIf.profiles n { s.unitProfiles n with staged := (profileSent body).clamp } .refl
          fun h => ⟨h.active, Profile.clamp_ok _ hp⟩)

theorem serveSwapProfile_serves (body : List Byte) (s : State) : Serves s (serveSwapProfile body s).state := by
  unfold serveSwapProfile
  split
  · exact .refl _
  · next n _ =>
    exact EvolvesIf.serves (EvolvesIf.profiles n { s.unitProfiles n with swapPending := true } .refl fun h => { h with })

theorem serveReadProfile_serves (body : List Byte) (s : State) : Serves s (serveReadProfile body s).state := by
  unfold serveReadProfile
  split
  · exact .refl _
  · dsimp only
    split
    · exact .refl _
    · split <;> exact .refl _

theorem actionOf_ok {code parameter : Nat} {a : QuirkAction} (h : actionOf code parameter = some a) : a.Ok := by
  unfold actionOf at h
  repeat' split at h
  all_goals cases h
  all_goals first | assumption | trivial

theorem quirkOf_ok {body : List Byte} {q : Quirk} (h : quirkOf body = some q) : q.Ok := by
  unfold quirkOf at h
  dsimp only at h
  split at h
  · cases h
  · split at h
    · cases h
    · split at h
      · cases h
      · next hr =>
        split at h
        · cases h
        · cases ha : actionOf (byteAt body 12) (byteAt body 13) with
          | none => simp [ha] at h
          | some a =>
            simp only [ha, Option.map_some, Option.some.injEq] at h
            subst h
            refine ⟨actionOf_ok ha, fun low high e => ?_⟩
            simp only at e
            split at e
            · next g =>
              cases e
              have := not_and.mp hr g
              omega
            · cases e

/-- A quirk slot written with an entry in its ranges, or emptied. -/
theorem State.setQuirk_inRange {s : State} (h : s.InRange) (k : Fin 16) (q : Option Quirk) (hq : ∀ x, q = some x → x.Ok) :
    State.InRange { s with quirks := s.quirks.set k q } :=
  { h with
    quirks := fun i x e => by
      simp only [Fin.getElem_fin, Vector.getElem_set] at e
      split at e
      · exact hq x e
      · exact h.quirks i x e }

theorem serveSetQuirk_serves (body : List Byte) (s : State) : Serves s (serveSetQuirk body s).state := by
  unfold serveSetQuirk
  split
  · next k q _ hq => exact ⟨rfl, rfl, rfl, rfl, fun h => State.setQuirk_inRange h k _ fun x e => by cases e; exact quirkOf_ok hq⟩
  · exact .refl _

theorem serveClearQuirk_serves (body : List Byte) (s : State) : Serves s (serveClearQuirk body s).state := by
  unfold serveClearQuirk
  split
  · next k _ => exact ⟨rfl, rfl, rfl, rfl, fun h => State.setQuirk_inRange h k _ fun x e => by cases e⟩
  · exact .refl _

theorem serveReadQuirk_serves (body : List Byte) (s : State) : Serves s (serveReadQuirk body s).state := by
  unfold serveReadQuirk
  split
  · exact .refl _
  · split <;> exact .refl _

/-- A table that holds at most 8 extents holds at most 8 after an entry 0 to 7 is written. -/
theorem writeExtent_length {es : List Extent} {k : Nat} (e : Extent) (hk : k < Config.extentCapacity) (hn : k ≤ es.length)
    (h : es.length ≤ Config.extentCapacity) : (writeExtent es k e).length ≤ Config.extentCapacity := by
  unfold writeExtent
  split
  · simpa using h
  · simp only [List.length_append, List.length_cons, List.length_nil]
    omega

theorem serveDefineExtent_serves (body : List Byte) (s : State) : Serves s (serveDefineExtent body s).state := by
  unfold serveDefineExtent
  dsimp only
  split
  · exact .refl _
  · next n _ =>
    split
    · exact .refl _
    · next hk =>
      split
      · exact .refl _
      · next d hd =>
        split
        · exact .refl _
        · next hn =>
          split
          · exact .refl _
          · split
            · exact .refl _
            · next hr =>
              split
              · exact .refl _
              · next hf =>
                split
                · exact .refl _
                · refine State.replaceExtents_serves s n _ fun h =>
                    ⟨writeExtent_length _ (by omega) (by omega) (h.extents n), fun _ => by rw [hd]; exact Option.some_ne_none _,
                     fun x e => ?_⟩
                  rw [hd] at e
                  cases e
                  exact writeExtent_within (h.within n _ hd) (by omega) (by simpa using hr) (by simpa using hf)

theorem serveClearExtents_serves (body : List Byte) (s : State) : Serves s (serveClearExtents body s).state := by
  unfold serveClearExtents
  split
  · exact .refl _
  · split
    · exact .refl _
    · split
      · exact .refl _
      · exact State.replaceExtents_serves s _ [] fun _ =>
          ⟨Nat.zero_le _, fun h => absurd rfl h, fun _ _ k e g => by cases g⟩

theorem serveSetRemap_serves (body : List Byte) (s : State) : Serves s (serveSetRemap body s).state := by
  unfold serveSetRemap
  split
  · exact .refl _
  · next n _ =>
    dsimp only
    split
    · exact .refl _
    · next d hd =>
      split
      · exact .refl _
      · next ha =>
        split
        · exact .refl _
        · split
          · exact .refl _
          · next hc =>
            split
            · exact .refl _
            · next hn =>
              refine ⟨rfl, rfl, rfl, rfl, fun h => { h with
                remaps := ?_
                sorted := ?_
                described := fun m e => ⟨(h.described m e).1, fun r hr => ?_⟩
                alternates := fun r hr x e => ?_ }⟩
              · simp only [accept, insertRemap_length]
                omega
              · refine insertRemap_sorted h.sorted fun x hx e => hc ?_
                rw [List.any_eq_true]
                refine ⟨x, hx, ?_⟩
                simp [Remap.clashes, Fin.ext_iff, e.1, e.2]
              · rcases mem_insertRemap hr with rfl | hr
                · rintro rfl
                  have : (s.drive n).descriptor = none := e
                  rw [hd] at this
                  cases this
                · exact (h.described m e).2 r hr
              · rcases mem_insertRemap hr with rfl | hr
                · have : (s.drive n).descriptor = some x := e
                  rw [hd] at this
                  cases this
                  exact ⟨by omega, by omega, by omega⟩
                · exact h.alternates r hr x e

theorem serveClearRemap_serves (body : List Byte) (s : State) : Serves s (serveClearRemap body s).state := by
  unfold serveClearRemap
  dsimp only
  split
  · exact .refl _
  · split
    · exact .refl _
    · exact ⟨rfl, rfl, rfl, rfl, fun h => { h with
        remaps := Nat.le_trans (List.length_filter_le _ _) h.remaps
        sorted := remapsSorted_filter h.sorted _
        described := fun m e => ⟨(h.described m e).1, fun r hr => (h.described m e).2 r (List.mem_filter.mp hr).1⟩
        alternates := fun r hr x e => h.alternates r (List.mem_filter.mp hr).1 x e }⟩

theorem serveMapBlock_serves (body : List Byte) (s : State) : Serves s (serveMapBlock body s).state := by
  unfold serveMapBlock
  dsimp only
  split
  · exact .refl _
  · split
    · exact .refl _
    · split
      · exact .refl _
      · split
        · exact .refl _
        · split <;> exact .refl _

theorem serveRecoverTrack_serves (tag : Tag) (body : List Byte) (s : State) :
    Serves s (serveRecoverTrack tag body s).state := by
  unfold serveRecoverTrack
  dsimp only
  split
  · split
    · exact .refl _
    · next d hd =>
      split
      · exact .refl _
      · next hf =>
        split
        · exact .refl _
        · split
          · exact .refl _
          · refine EvolvesIf.serves (EvolvesIf.trans ((State.admitJob_evolves s _ _).under fun _ _ => ⟨?_, ?_⟩)
              (State.runSelection_evolves _ _))
            · exact Job.fresh_ok _ _ _ _ _ _ _ _ (trackRecords_ok _ _) (field_two_le _ _)
            · exact ⟨d, hd, by simp only [Job.fresh]; omega, by simp only [Job.fresh]; omega,
                by simp [Job.fresh, trackRecords]⟩
  · exact .refl _

theorem serveRecoverBlocks_serves (tag : Tag) (body : List Byte) (s : State) :
    Serves s (serveRecoverBlocks tag body s).state := by
  unfold serveRecoverBlocks
  dsimp only
  split
  · split
    · exact .refl _
    · split
      · exact .refl _
      · next d hd =>
        split
        · exact .refl _
        · split
          · exact .refl _
          · split
            · exact .refl _
            · split
              · exact .refl _
              · refine EvolvesIf.serves (EvolvesIf.trans ((State.admitTracks_evolves _ _ _ _ _ _ (field_two_le _ _) _ _).under
                  fun _ h => State.tracksFit h hd _ _) (State.runSelection_evolves _ _))
  · exact .refl _

theorem serveAbort_serves (body : List Byte) (s : State) : Serves s (serveAbort body s).state := by
  unfold serveAbort
  split
  · split
    · exact .refl _
    · exact (State.abortUnit_evolves _ _).serves
  · split
    · exact .refl _
    · split
      · exact .refl _
      · split
        · exact .refl _
        · exact (State.endJobAndGoOn_evolves _ _ _).serves

theorem serveJobStatus_serves (body : List Byte) (s : State) : Serves s (serveJobStatus body s).state := by
  unfold serveJobStatus
  split
  · exact .refl _
  · split <;> exact .refl _

theorem servePeekSector_serves (body : List Byte) (s : State) : Serves s (servePeekSector body s).state := by
  unfold servePeekSector
  dsimp only
  split
  · exact .refl _
  · split
    · exact .refl _
    · split
      · exact .refl _
      · split <;> exact .refl _

theorem serveHold_serves (body : List Byte) (s : State) : Serves s (serveHold body s).state :=
  ⟨rfl, rfl, rfl, rfl, fun h => { h with }⟩

theorem serveReadFlags_serves (s : State) : Serves s (serveReadFlags s).state := .refl _

theorem serveClearFlags_serves (body : List Byte) (s : State) : Serves s (serveClearFlags body s).state := by
  unfold serveClearFlags
  split
  · exact .refl _
  · exact (State.clearFlags_evolves _ _).serves

theorem serveSetNotices_serves (body : List Byte) (s : State) : Serves s (serveSetNotices body s).state := by
  unfold serveSetNotices
  split
  · exact .refl _
  · exact ⟨rfl, rfl, rfl, rfl, fun h => { h with flags := FlagUnit.enable_ok h.flags _ }⟩

theorem serveReset_serves (body : List Byte) (s : State) : Serves s (serveReset body s).state := by
  unfold serveReset
  split
  · exact ⟨rfl, rfl, rfl, rfl, fun h => { h with }⟩
  · split
    · exact .refl _
    · exact (State.resetUnit_evolves _ _).serves

/-- Serving any request. -/
theorem serve_serves (f : Frame) (s : State) : Serves s (serve f s).state := by
  unfold serve
  split
  · exact .refl _
  · split
    · exact .refl _
    · unfold serveKnown
      split
      · exact serveIdentify_serves _
      · exact serveDefineDrive_serves _ _
      · exact serveDriveStatus_serves _ _
      · exact serveUnload_serves _ _
      · exact serveReload_serves _ _
      · exact serveSetProfile_serves _ _
      · exact serveSwapProfile_serves _ _
      · exact serveReadProfile_serves _ _
      · exact serveSetQuirk_serves _ _
      · exact serveClearQuirk_serves _ _
      · exact serveReadQuirk_serves _ _
      · exact serveDefineExtent_serves _ _
      · exact serveClearExtents_serves _ _
      · exact serveSetRemap_serves _ _
      · exact serveClearRemap_serves _ _
      · exact serveMapBlock_serves _ _
      · exact serveRecoverTrack_serves _ _ _
      · exact serveRecoverBlocks_serves _ _ _
      · exact serveAbort_serves _ _
      · exact serveJobStatus_serves _ _
      · exact servePeekSector_serves _ _
      · exact serveHold_serves _ _
      · exact serveReadFlags_serves _
      · exact serveClearFlags_serves _ _
      · exact serveSetNotices_serves _ _
      · exact serveReset_serves _ _
      · exact .refl _

end Sys2Proof.Machine
end

