-- ==== Sys2Proof/Laws/Link.lean ====
section
/-! SUPPORT. What the Link Interface can do, said once: the commands that wait stay, every item stays in its range, and
the receive buffer and the reply queue stay within their room. -/

namespace Sys2Proof.Machine

/-- What handling bytes, frames, replies and messages leaves and keeps. -/
structure Handles (s t : State) : Prop where
  pending : t.pending = s.pending
  inRange : s.InRange → t.InRange
  bounded : s.LinkBounded → t.LinkBounded

theorem Handles.refl (s : State) : Handles s s := ⟨rfl, id, id⟩

theorem Handles.trans {s t u : State} (h : Handles s t) (g : Handles t u) : Handles s u :=
  ⟨g.pending.trans h.pending, fun k => g.inRange (h.inRange k), fun k => g.bounded (h.bounded k)⟩

/-- A fold of what is handled is handled. -/
theorem Handles.foldl {α : Type} (f : State → α → State) (hf : ∀ s a, Handles s (f s a)) (l : List α) (s : State) :
    Handles s (l.foldl f s) := by
  induction l generalizing s with
  | nil => exact .refl _
  | cons a l ih => exact (hf s a).trans (ih _)

/-- An update of the link that keeps its buffer and its replies. -/
theorem Handles.link (s : State) (l : Link) (hb : l.buffer = s.link.buffer) (hr : l.replies = s.link.replies) :
    Handles s { s with link := l } :=
  ⟨rfl, fun h => { h with }, fun h => ⟨by simpa [hb] using h.buffer, by simpa [hr] using h.replies⟩⟩

theorem Serves.handles {s t : State} (h : Serves s t) : Handles s t :=
  ⟨h.pending, h.inRange, fun k => ⟨by rw [h.link]; exact k.buffer, by rw [h.link]; exact k.replies⟩⟩

theorem EvolvesIf.handles {s t : State} (h : EvolvesIf True s t) : Handles s t := h.serves.handles

/-! ### Requests -/

/-- A request that may run leaves no more than eight replies. -/
theorem State.runFrame_handles (s : State) (f : Frame) (h : s.mayTakeFrame = true) : Handles s (s.runFrame f) := by
  have g := serve_serves f s
  refine ⟨g.pending, fun k => { g.inRange k with }, fun k => ⟨?_, ?_⟩⟩
  · have : (s.runFrame f).link.buffer = s.link.buffer := by
      simp only [State.runFrame, State.pushReply]
      rw [g.link]
    rw [this]
    exact k.buffer
  · have : (s.runFrame f).link.replies.length = s.link.replies.length + 1 := by
      simp only [State.runFrame, State.pushReply, List.length_append, List.length_cons, List.length_nil]
      rw [g.link]
    simp only [State.mayTakeFrame, Bool.and_eq_true, decide_eq_true_eq] at h
    omega

theorem State.dropFrame_handles (s : State) (f : Frame) (rest : List Frame) (h : s.link.buffer = f :: rest) :
    Handles s { s with link := { s.link with buffer := rest } } :=
  ⟨rfl, fun k => { k with }, fun k => ⟨by have := k.buffer; rw [h] at this; simp at this ⊢; omega, k.replies⟩⟩

theorem State.takeFramesUpTo_handles (fuel : Nat) (s : State) : Handles s (State.takeFramesUpTo fuel s) := by
  induction fuel generalizing s with
  | zero => exact .refl _
  | succ fuel ih =>
    unfold State.takeFramesUpTo
    split
    · exact .refl _
    · next f rest hb =>
      split
      · next hm => exact ((State.dropFrame_handles s f rest hb).trans (State.runFrame_handles _ f hm)).trans (ih _)
      · exact .refl _

theorem State.takeFrames_handles (s : State) : Handles s s.takeFrames := State.takeFramesUpTo_handles _ _

theorem State.offerFrame_handles (s : State) (f : Frame) : Handles s (s.offerFrame f) := by
  unfold State.offerFrame
  split
  · next h =>
    refine .trans (t := { s with link := { s.link with buffer := s.link.buffer ++ [f] } })
      ⟨rfl, fun k => { k with }, fun k => ⟨?_, k.replies⟩⟩ (State.takeFrames_handles _)
    simp only [State.clearToSend, decide_eq_true_eq] at h
    simp only [List.length_append, List.length_cons, List.length_nil]
    omega
  · exact .refl _

/-! ### The receiver -/

theorem State.hunt_handles (s : State) : Handles s { s with link := s.link.hunt } := .link _ _ rfl rfl

theorem State.raise_handles (s : State) (k : Nat) : Handles s (s.raise k) := (EvolvesIf.raise k .refl).handles

theorem State.discardFrame_handles (s : State) : Handles s s.discardFrame :=
  (State.hunt_handles s).trans (State.raise_handles _ _)

theorem State.assemble_handles (s : State) (phase : RxPhase) (assembly : List Byte) :
    Handles s (s.assemble phase assembly) := .link _ _ rfl rfl

theorem State.receiveByte_handles (s : State) (b : Byte) : Handles s (s.receiveByte b) := by
  unfold State.receiveByte
  split
  · split
    · exact State.assemble_handles _ _ _
    · exact .refl _
  · unfold State.receiveLength
    split
    · exact State.assemble_handles _ _ _
    · split
      · exact State.assemble_handles _ _ _
      · exact State.discardFrame_handles _
  · unfold State.receiveContent
    split <;> exact State.assemble_handles _ _ _
  · unfold State.receiveCheck
    split
    · exact State.assemble_handles _ _ _
    · split
      · exact (State.hunt_handles s).trans (State.offerFrame_handles _ _)
      · exact State.discardFrame_handles _

/-! ### The transmitter -/

theorem State.gapSync_handles (s : State) : Handles s s.gapSync := .link _ _ rfl rfl

theorem State.begin_handles (s : State) (m : TxMessage) : Handles s (s.begin m) := by
  refine ⟨rfl, fun h => { h with flags := ?_ }, fun h => ⟨h.buffer, h.replies⟩⟩
  simp only [State.begin]
  split
  · exact FlagUnit.takeOwed_ok h.flags
  · exact h.flags

theorem State.transmit_handles (s : State) : Handles s s.transmit := by
  unfold State.transmit
  split
  · split
    · exact State.begin_handles _ _
    · exact .refl _
  · exact .refl _

theorem State.finish_handles (s : State) : Handles s s.finish :=
  ((State.arbitrate_evolves s).handles.trans (State.gapSync_handles _)).trans (State.transmit_handles _)

theorem State.receive_handles (s : State) (bytes : List Byte) : Handles s (s.receive bytes) :=
  Handles.foldl _ (fun t b => (State.receiveByte_handles t b).trans (State.finish_handles _)) _ _

/-! ### Completions and power-on -/

theorem State.endMessage_handles (s : State) : Handles s s.endMessage := .link _ _ rfl rfl

theorem Profile.default_ok : Profile.default.Ok where
  passes := by decide
  entries := by decide
  passLimit := by decide
  backoff := by decide
  recalibrate := by decide
  quorum := by decide
  weak := by decide
  repair := by decide
  strayLimit := by decide
  dead := by decide
  deferral := by decide

theorem Drive.powerOn_ok (ready : Bool) : (Drive.powerOn ready).Ok where
  monitor := Monitor.cleared_ok
  offset := (by decide : (0 : Int).natAbs ≤ 4)
  descriptor := fun _ e => by cases e
  seek := fun _ e => by cases e
  restore := fun _ e => by cases e
  unloadLine := by simp [Drive.powerOn]
  loadLine := fun e => by cases e
  timer := fun e => by cases e
  settle := fun _ => rfl
  deferral := fun _ => rfl
  loop := fun _ => ⟨rfl, rfl⟩
  deferralLimit := Nat.zero_le _
  waitingLimit := Nat.zero_le _
  straysLimit := Nat.zero_le _
  settleLimit := Nat.zero_le _
  errorsLimit := Nat.zero_le _
  deadLimit := Nat.zero_le _
  positioningLimit := Nat.zero_le _
  preparedOk := fun _ e => by cases e
  cylinder := fun _ _ e => by cases e
  target := fun _ _ e => by cases e
  unloaded := fun _ => rfl
  retracted := fun e => by cases e

/-- Every item stands in its range after power-on. -/
theorem State.powerOn_inRange (s : State) (rate : Fin 4) : (s.powerOn rate).InRange where
  drives := fun n => by
    have : (s.powerOn rate).drive n = Drive.powerOn (s.drive n).ready := by
      simp [State.powerOn, State.drive]
    rw [this]
    exact Drive.powerOn_ok _
  profiles := fun n => by
    have : (s.powerOn rate).unitProfiles n = UnitProfiles.powerOn := by
      simp [State.powerOn, State.unitProfiles, State.reset]
    rw [this]
    exact ⟨Profile.default_ok, Profile.default_ok⟩
  jobs := fun j x h => by simp [State.powerOn, State.job, State.reset] at h
  tracks := fun j x h => by simp [State.powerOn, State.job, State.reset] at h
  slabs := fun i x h => by simp [State.powerOn, State.slab, State.reset] at h
  channel :=
    { strobe := (by decide : (0 : Int).natAbs ≤ 2)
      slotSet := fun k h => by cases h
      slotOnce := List.nodup_nil
      deferred := fun x h => by cases h
      deferredOnce := List.nodup_nil
      openHeader := fun x h => by cases h }
  quirks := fun k q h => by simp [State.powerOn, State.reset] at h
  flags := ⟨fun k h => by simp [State.powerOn, State.reset, FlagUnit.powerOn] at h,
            fun k h => by simp [State.powerOn, State.reset, FlagUnit.powerOn] at h⟩
  extents := fun n => by simp [State.powerOn, State.extentsOf, State.reset]
  remaps := Nat.zero_le _
  sorted := List.Pairwise.nil
  described := fun n _ => ⟨by simp [State.powerOn, State.extentsOf, State.reset], fun r h => by cases h⟩
  within := fun n d e => by
    have : (s.powerOn rate).drive n = Drive.powerOn (s.drive n).ready := by
      simp [State.powerOn, State.drive]
    rw [this] at e
    cases e
  alternates := fun r h => by cases h
  queue := Nat.zero_le _

theorem State.powerOn_handles (s : State) (rate : Fin 4) : Handles s (s.powerOn rate) :=
  ⟨rfl, fun _ => State.powerOn_inRange s rate, fun _ => ⟨Nat.zero_le _, Nat.zero_le _⟩⟩

theorem State.replyDone_handles (s : State) : Handles s s.replyDone := by
  have h : Handles s { s.endMessage with link := { s.endMessage.link with replies := s.link.replies.tail } } :=
    ⟨rfl, fun k => { k with }, fun k => ⟨k.buffer, by
      have := k.replies
      simp only [List.length_tail]
      omega⟩⟩
  unfold State.replyDone
  dsimp only
  split
  · exact h
  · split
    · exact h.trans (State.powerOn_handles _ _)
    · exact h.trans (State.takeFrames_handles _)

/-- The head of a queue that is no longer than its room leaves room when it goes. -/
theorem State.popDelivery_room (s : State) (h : s.queue.length ≤ Config.deliveryCapacity) (hq : s.queue ≠ []) :
    s.popDelivery.queueRoom = true := by
  have : s.popDelivery.queue.length + 1 = s.queue.length := by
    simp only [State.popDelivery, List.length_tail]
    have := List.length_pos_iff.mpr hq
    omega
  simp only [State.queueRoom, decide_eq_true_eq]
  omega

theorem State.popDelivery_handles (s : State) : Handles s s.popDelivery :=
  ⟨rfl, fun k => { k with queue := (by
    have := k.queue
    simp only [State.popDelivery, List.length_tail]
    omega) }, fun k => ⟨k.buffer, k.replies⟩⟩

theorem State.queueJobEnd_same (s : State) (j : JobIx) :
    (s.queueJobEnd j).pending = s.pending ∧ (s.queueJobEnd j).link = s.link := by
  unfold State.queueJobEnd
  split <;> exact ⟨rfl, rfl⟩

/-- Admission touches neither the commands that wait nor the link. -/
theorem State.admit_same (s : State) : s.admitWaiting.pending = s.pending ∧ s.admitWaiting.link = s.link := by
  unfold State.admitWaiting
  split
  · exact ⟨rfl, rfl⟩
  · split
    · have h := State.queueJobEnd_same
      exact ⟨(h _ _).1.trans (by simp [State.setDelivery]), (h _ _).2.trans (by simp [State.setDelivery])⟩
    · exact ⟨rfl, rfl⟩

/-- A departure from the delivery queue, with the admission that follows it. -/
theorem State.depart_handles (s : State) : Handles s s.popDelivery.admitWaiting := by
  have hr : s.InRange → s.popDelivery.queueRoom = true := fun k => by
    by_cases hq : s.queue = []
    · simp [State.queueRoom, State.popDelivery, hq, Config.deliveryCapacity]
    · exact State.popDelivery_room s k.queue hq
  have e := State.admit_same s.popDelivery
  exact ⟨e.1, fun k => (State.admit_evolves _ (hr k)).inRange ((State.popDelivery_handles s).inRange k), fun k =>
    ⟨by rw [e.2]; exact k.buffer, by rw [e.2]; exact k.replies⟩⟩

theorem State.sectorDone_handles (s : State) (j : JobIx) (sec : Nat) : Handles s (s.sectorDone j sec) :=
  ((State.endMessage_handles s).trans (State.setDelivery_evolves _ _ _ _).handles).trans (State.depart_handles _)

theorem State.strayDone_handles (s : State) (b : Fin 4) : Handles s (s.strayDone b) :=
  ((State.endMessage_handles s).trans (EvolvesIf.strays _ .refl).handles).trans (State.depart_handles _)

theorem State.jobEndDone_handles (s : State) (j : JobIx) : Handles s (s.jobEndDone j) :=
  ((State.endMessage_handles s).trans
    (EvolvesIf.job j none .refl fun _ _ _ _ e => by cases e).handles).trans (State.depart_handles _)

end Sys2Proof.Machine
end

