-- ==== Sys2Proof/Laws/Requests.lean ====
section
/-! SUPPORT. How a request runs when its frame completes, how its fields travel, and how the receiver reads a frame. -/

namespace Sys2Proof.Machine

/-! ### Running at once -/

/-- A frame offered to an empty buffer whose request may run is run at once. -/
theorem State.offerFrame_atOnce (s : State) (f : Frame) (h : s.takesAtOnce) : s.offerFrame f = s.runFrame f := by
  obtain ⟨hb, hm⟩ := h
  have hc : s.clearToSend = true := by simp [State.clearToSend, hb, Config.bufferCapacity]
  have e : { s with link := { s.link with buffer := ([] : List Frame) } } = s := by
    cases s with
    | mk clock choices pending drives profiles directions extents channel jobs arrival slabs fifo search quirks remaps
        queue strays hold flags link =>
      cases link
      simp only at hb
      subst hb
      rfl
  unfold State.offerFrame State.takeFrames
  rw [if_pos hc]
  simp only [hb, List.nil_append, List.length_cons, List.length_nil, Nat.zero_add]
  unfold State.takeFramesUpTo
  have hm' : State.mayTakeFrame { s with link := { s.link with buffer := [f] } } = true := hm
  simp only [hm', if_true]
  unfold State.takeFramesUpTo
  rw [e]

/-- A request that may run, run: its reply joins the tail. -/
theorem State.request_atOnce (s : State) (kind : Byte) (tag : Tag) (body : List Byte) (h : s.takesAtOnce) :
    s.request kind tag body = (s.runFrame { kind := kind, tag := tag, body := body }).finish := by
  unfold State.request
  rw [State.offerFrame_atOnce s _ h]

end Sys2Proof.Machine
end

