-- ==== Sys2Proof/Laws/Wire.lean ====
section
/-! SUPPORT. How a request that may run is served, how the bytes of its fields read, what the flag sets hold bit by bit,
and when a message may complete: the terms of Safety.lean put against the definitions. -/

namespace Sys2Proof.Machine

theorem State.takesAtOnce.notWaiting {s : State} (h : s.takesAtOnce) : s.link.resetWaiting = false := by
  have := h.2; simp only [State.mayTakeFrame, Bool.and_eq_true, Bool.not_eq_true'] at this; exact this.2

theorem State.request_served (s : State) (kind : Byte) (tag : Tag) (body : List Byte) (h : s.takesAtOnce) (r :
    Response)
    (hs : serve { kind := kind, tag := tag, body := body } s = r) (hw : r.state.link.resetWaiting = false) :
    s.request kind tag body = (r.state.answered kind tag r.status r.fields).finish := by
  rw [State.request_atOnce s kind tag body h]
  simp only [State.runFrame, hs, State.answered, replyFrame, hw]

theorem serve_known (kind : Byte) (tag : Tag) (body : List Byte) (s : State) (k : Nat) (hk : kind.toNat = k) (h1 : 1
    ≤ k) (h2 : k ≤ 0x1A)
    (hl : lengthOk k body = true) : serve { kind := kind, tag := tag, body := body } s = serveKnown k tag body s := by
  unfold serve
  simp only [hk]
  rw [if_neg (by omega), hl]; rfl

theorem unitOf_unitByte (n : UnitId) : unitOf (unitByte n).toNat = some n := by
  revert n; decide

theorem byteAt_cons_zero (a : Byte) (l : List Byte) : byteAt (a :: l) 0 = a.toNat := by simp [byteAt, field, beNat]

theorem length_beBytes (len n : Nat) : (beBytes len n).length = len := by
  induction len with
  | zero => rfl
  | succ k ih => simp [beBytes, ih]

theorem length_optField (len a : Nat) (o : Option Nat) : (optField len a o).length = len := by
  cases o <;> simp [optField, length_beBytes]

theorem length_markByte (b : Bool) : (markByte b).length = 1 := rfl

theorem beBytes_one (k : Nat) : beBytes 1 k = [BitVec.ofNat 8 k] := by simp [beBytes]

theorem beBytes_unit (n : UnitId) : beBytes 1 n.val = [unitByte n] := beBytes_one _

theorem optField_getD (len a : Nat) (o : Option Nat) : optField len a o = beBytes len (o.getD a) := by cases o <;> rfl

theorem beBytes_two (k : Nat) : beBytes 2 k = [BitVec.ofNat 8 (k / 256), BitVec.ofNat 8 k] := by simp [beBytes]

theorem beBytes_three (k : Nat) : beBytes 3 k = [BitVec.ofNat 8 (k / 65536), BitVec.ofNat 8 (k / 256),
    BitVec.ofNat 8 k] := by
  simp [beBytes]

theorem beBytes_four (k : Nat) : beBytes 4 k = [BitVec.ofNat 8 (k / 16777216), BitVec.ofNat 8 (k / 65536),
    BitVec.ofNat 8 (k / 256), BitVec.ofNat 8 k] := by
  simp [beBytes]

/-- A request of a known kind and length whose answer is known, run at once (R171, R172). -/
theorem State.request_known (s : State) (kind : Byte) (k : Nat) (tag : Tag) (body : List Byte) (h : s.takesAtOnce) (r
    : Response)
    (hk : kind.toNat = k) (h1 : 1 ≤ k ∧ k ≤ 0x1A) (hl : lengthOk k body = true) (hr : serveKnown k tag body s = r)
    (hw : r.state.link.resetWaiting = false) :
    s.request kind tag body = (r.state.answered kind tag r.status r.fields).finish :=
  s.request_served kind tag body h r ((serve_known kind tag body s k hk h1.1 h1.2 hl).trans hr) hw

theorem descriptorOf_driveBody (f : DriveFields) (u : Byte) : descriptorOf (driveBody f u) = Descriptor.ofFields f :=
    by
  have h1 := f.cylinders.isLt
  have h2 := f.words.isLt
  have h3 := f.period.isLt
  have h4 := f.tolerance.isLt
  have h5 := f.dataOffset.isLt
  simp [descriptorOf, driveBody, bits, beBytes_two, beBytes_four, byteAt, field, beNat, Descriptor.ofFields]
  omega

theorem byteAt_driveBody (f : DriveFields) (u : Byte) : byteAt (driveBody f u) 0 = u.toNat := by
  simp [driveBody, byteAt, field, beNat]

theorem legalDrive_iff (f : DriveFields) : (Descriptor.ofFields f).inRange = true ↔ LegalDriveFields f := by
  unfold Descriptor.inRange
  rw [decide_eq_true_iff]
  constructor
  · rintro ⟨_, a, b, c, d, e, f1, g, h, i, j, k, l, m, o, p, q⟩
    exact ⟨⟨a, b⟩, ⟨c, d⟩, ⟨e, f1⟩, ⟨g, h, i⟩, ⟨j, k⟩, ⟨l, m⟩, o, p, q⟩
  · intro h
    have hm : f.model.toNat ≤ 255 := by have := f.model.isLt; omega
    exact ⟨hm, h.cylinders.1, h.cylinders.2, h.heads.1, h.heads.2, h.sectors.1, h.sectors.2, h.words.1, h.words.2.1,
        h.words.2.2, h.period.1, h.period.2, h.tolerance.1, h.tolerance.2, h.dataOffset, h.maxOffset, h.settle⟩

theorem jobsOf_isEmpty (s : State) (n : UnitId) : (s.jobsOf n).isEmpty = true ↔ ¬ s.HasJob n := by
  simp only [State.jobsOf, State.HasJob, List.isEmpty_iff, List.filter_eq_nil_iff, List.mem_finRange, true_implies]
  constructor
  · rintro h ⟨j, x, hj, hx⟩; have := h j; rw [hj] at this; simp [hx] at this
  · intro h j; cases hj : s.job j with
    | none => simp
    | some x => simp only [beq_iff_eq]; exact fun e => h ⟨j, x, hj, e⟩

theorem mapConflict_iff (s : State) (n : UnitId) (f : DriveFields) : s.mapConflict n (Descriptor.ofFields f) = true ↔
    s.MapForbids n f := by
  unfold State.mapConflict State.MapForbids State.mapped Descriptor.geometryDiffers
  cases h : (s.drive n).descriptor with
  | none => simp
  | some d => simp [Descriptor.ofFields, or_assoc]

theorem byteAt_eq (l : List Byte) (k : Nat) : byteAt l k = ((l[k]?).getD 0).toNat := by
  unfold byteAt field
  cases h : l[k]? with
  | none =>
    have : l.drop k = [] := by simpa using h
    simp [this, beNat]
  | some a =>
    have : l.drop k = a :: l.drop (k+1) := by
      obtain ⟨hk, e⟩ := List.getElem?_eq_some_iff.1 h
      rw [← e]; exact List.drop_eq_getElem_cons hk
    simp [this, beNat]

theorem jobOf_idByte (j : JobIx) : jobOf (idByte j).toNat = some j := by revert j; decide

theorem jobId_idByte (j : JobIx) : beBytes 1 (jobId j) = [idByte j] := by rw [beBytes_one]; rfl

theorem jobOf_bad (id : Byte) (h : id = 0 ∨ 32 < id.toNat) : jobOf id.toNat = none := by
  unfold jobOf; rw [dif_neg]; rcases h with rfl | h
  · simp
  · omega

theorem idByte_ne (j : JobIx) : (idByte j).toNat ≠ 0 := by revert j; decide

theorem getLsbD_flagBit (k i : Nat) : (flagBit k).getLsbD i = (decide (i < 18) && decide (i = k)) := by
  simp only [flagBit, BitVec.getLsbD_twoPow]
  by_cases h : i = k
  · subst h; simp
  · have h' : ¬ k = i := fun e => h e.symm
    simp [h, h']

theorem heldFlags_foldl (s : State) (l : List UnitId) (a : FlagSet) (k : Nat) (hk : k < 18) :
   (l.foldl (fun held (n : UnitId) => if s.drives[n].indexLost then held ||| flagBit (unitFlag n .spindleLost) else
       held) a).getLsbD k = true ↔
   (a.getLsbD k = true ∨ ∃ n ∈ l, k = 4 * n.val ∧ (s.drive n).indexLost = true) := by
  induction l generalizing a with
  | nil => simp
  | cons m l ih =>
    rw [List.foldl_cons, ih]
    simp only [List.mem_cons, exists_eq_or_imp]
    have : (s.drive m).indexLost = s.drives[m].indexLost := rfl
    rw [this]
    cases s.drives[m].indexLost with
    | false => simp
    | true => simp only [if_true, BitVec.getLsbD_or, getLsbD_flagBit, hk, unitFlag, FlagKind.index, Bool.or_eq_true,
        decide_true, Bool.true_and, decide_eq_true_eq, Nat.add_zero, and_true, or_assoc]

theorem heldFlags_iff (s : State) (k : Nat) (hk : k < 18) : s.heldFlags.getLsbD k = true ↔ s.HeldFlag k := by
  unfold State.heldFlags
  rw [heldFlags_foldl s _ _ k hk]; simp [State.HeldFlag]

theorem clearFlags_bits (s : State) (m : FlagSet) (k : Nat) (hk : k < 18) :
  ((s.clearFlags m).flags.set.getLsbD k = true ↔ s.flags.set.getLsbD k = true ∧
      (m.getLsbD k = false ∨ s.HeldFlag k)) ∧
  ((s.clearFlags m).flags.owed.getLsbD k = true ↔ s.flags.owed.getLsbD k = true ∧
      (m.getLsbD k = false ∨ s.HeldFlag k)) := by
  have := heldFlags_iff s k hk
  simp only [State.clearFlags, FlagUnit.clear, BitVec.getLsbD_and, BitVec.getLsbD_not, hk, decide_true,
      Bool.true_and, Bool.and_eq_true, Bool.not_eq_true', Bool.and_eq_false_iff, Bool.not_eq_false', ← this]
  simp

theorem field_bits_three (f : BitVec 24) : field (bits 3 f) 0 3 = f.toNat := by
  have := f.isLt
  simp [field, bits, beBytes_three, beNat]; omega

theorem flagSetOf_bad (f : BitVec 24) (h : ∃ k, 17 < k ∧ f.getLsbD k = true) : flagSetOf (bits 3 f) = none := by
  unfold flagSetOf; rw [field_bits_three, if_neg]
  obtain ⟨k, h1, h2⟩ := h
  intro hlt
  rw [BitVec.getLsbD, Nat.testBit_lt_two_pow] at h2
  · cases h2
  · exact lt_of_lt_of_le hlt (Nat.pow_le_pow_right (by decide) (by omega))

theorem flagSetOf_good (f : BitVec 24) (h : ∀ k, 17 < k → f.getLsbD k = false) : f.toNat < 2^18 ∧
    flagSetOf (bits 3 f) = some (BitVec.ofNat 18 f.toNat) := by
  have : f.toNat < 2^18 := by
    apply Nat.lt_pow_two_of_testBit; intro i hi; exact h i (by omega)
  exact ⟨this, by unfold flagSetOf; rw [field_bits_three, if_pos this]⟩

theorem ofNat18_getLsbD (f : BitVec 24) (k : Nat) (hk : k < 18) :
    (BitVec.ofNat 18 f.toNat).getLsbD k = f.getLsbD k := by
  simp [BitVec.getLsbD, hk]; rw [show (262144:Nat) = 2^18 from rfl, Nat.testBit_mod_two_pow]; simp [hk]

theorem lowest_iff (f : FlagUnit) (k : Nat) (hk : f.owed.getLsbD k = true) (hl : ∀ i, i < k →
    f.owed.getLsbD i = false) : f.lowestOwed = some k := by
  unfold FlagUnit.lowestOwed
  rw [List.find?_eq_some_iff_getElem]
  have hk18 : k < 18 := BitVec.lt_of_getLsbD hk
  refine ⟨hk, k, by simpa using hk18, by simp, ?_⟩
  intro j hj; simp [hl j hj]

theorem lowest_none (f : FlagUnit) (h : f.owed = 0) : f.lowestOwed = none := by
  unfold FlagUnit.lowestOwed; rw [h]; decide

theorem completing_iff (s : State) (src : TxSource) : s.completing src = true ↔ s.Ends src := by
  unfold State.completing State.Ends State.mayComplete
  cases s.link.tx with
  | none => simp
  | some m => simp [and_comm]

theorem deliveryCompleting_of_ends (s : State) (e : Entry) (h : s.Ends (.delivery e)) :
    s.deliveryCompleting = some e := by
  obtain ⟨⟨m, h1, h2⟩, h3⟩ := h
  unfold State.deliveryCompleting; rw [h1]; dsimp only; rw [h2]; dsimp only
  rw [if_pos]; simpa [State.mayComplete] using h3

theorem takeFrames_nil (s : State) (h : s.link.buffer = []) : s.takeFrames = s := by
  unfold State.takeFrames; rw [h]; rfl

theorem takeFramesUpTo_stop (k : Nat) (s : State) (h : s.mayTakeFrame = false) : State.takeFramesUpTo k s = s := by
  cases k with
  | zero => rfl
  | succ k => unfold State.takeFramesUpTo; split
              · rfl
              · rw [h]; rfl

end Sys2Proof.Machine
end

