-- ==== Sys2Proof/Laws/Ends.lean ====
section
/-! SUPPORT. What ending jobs and selecting jobs can change, said once. `Quiet`: nothing but jobs,
slabs and the queue. `JobsStay`: every job keeps what identifies it, its state and its counters. `OnlyJob`: no other
job. `OtherUnits`: no job of another unit. `SameButJobs`: what the end of a job leaves alone. -/

namespace Sys2Proof.Machine

theorem queuedJobs_none (s : State) (n : UnitId) (c) (h : ¬ s.HasJob n) : s.queuedJobs n c = [] := by
  simp only [State.queuedJobs, List.filter_eq_nil_iff, List.mem_finRange, true_implies]
  intro j; cases hj : s.job j with
    | none => simp
    | some x => simp only [Bool.and_eq_true, beq_iff_eq]; exact fun e => h ⟨j, x, hj, e.1.1⟩

theorem select_none (s : State) (n : UnitId) (h : ¬ s.HasJob n) : s.select n = none := by
  simp [State.select, queuedJobs_none s n _ h, State.oldest, State.nearest]

theorem runSelection_none (s : State) (n : UnitId) (h : ¬ s.HasJob n) : s.runSelection n = s := by
  unfold State.runSelection; split
  · unfold State.selection; rw [select_none s n h]
  · rfl

theorem hasJob_modDrive (s : State) (m n : UnitId) (g) : (s.modDrive m g).HasJob n ↔ s.HasJob n := Iff.rfl

theorem toIdle_none (s : State) (n : UnitId) (h : ¬ s.HasJob n) : s.toIdle n = s.modDrive n Drive.enterIdle :=
  runSelection_none _ n h

theorem modDrive_drive (s : State) (n : UnitId) (g) : (s.modDrive n g).drive n = g (s.drive n) := by
  simp [State.modDrive, State.setDrive, State.drive]

theorem modDrive_modDrive (s : State) (n : UnitId) (g g') :
    (s.modDrive n g).modDrive n g' = s.modDrive n (fun d => g' (g d)) := by
  simp [State.modDrive, State.setDrive, State.drive]

/-- What finalizing a job (R54) leaves alone. -/
structure Quiet (s t : State) : Prop where
  drives : t.drives = s.drives
  channel : t.channel = s.channel
  profiles : t.profiles = s.profiles
  directions : t.directions = s.directions
  arrival : t.arrival = s.arrival
  flags : t.flags = s.flags
  strays : t.strays = s.strays
  link : t.link = s.link
  hold : t.hold = s.hold
  extents : t.extents = s.extents
  quirks : t.quirks = s.quirks
  remaps : t.remaps = s.remaps
  clock : t.clock = s.clock

theorem Quiet.refl (s : State) : Quiet s s := ⟨rfl,rfl,rfl,rfl,rfl,rfl,rfl,rfl,rfl,rfl,rfl,rfl,rfl⟩

theorem Quiet.trans {s t u : State} (h : Quiet s t) (g : Quiet t u) : Quiet s u :=
  ⟨g.1.trans h.1, g.2.trans h.2, g.3.trans h.3, g.4.trans h.4, g.5.trans h.5, g.6.trans h.6, g.7.trans h.7,
      g.8.trans h.8, g.9.trans h.9, g.10.trans h.10, g.11.trans h.11, g.12.trans h.12, g.13.trans h.13⟩

theorem Quiet.foldl {α : Type} (f : State → α → State) (hf : ∀ s a, Quiet s (f s a)) (l : List α) (s : State) :
    Quiet s (l.foldl f s) := by
  induction l generalizing s with
  | nil => exact .refl s
  | cons a l ih => exact (hf s a).trans (ih _)

theorem Quiet.setJob (s : State) (j x) : Quiet s (s.setJob j x) :=
  ⟨rfl,rfl,rfl,rfl,rfl,rfl,rfl,rfl,rfl,rfl,rfl,rfl,rfl⟩

theorem Quiet.modJob (s : State) (j g) : Quiet s (s.modJob j g) := by
  unfold State.modJob
  split <;> first | exact Quiet.setJob _ _ _ | exact .refl _

theorem Quiet.setSlab (s : State) (j x) : Quiet s (s.setSlab j x) :=
  ⟨rfl,rfl,rfl,rfl,rfl,rfl,rfl,rfl,rfl,rfl,rfl,rfl,rfl⟩

theorem Quiet.enqueue (s : State) (e) : Quiet s (s.enqueue e) := ⟨rfl,rfl,rfl,rfl,rfl,rfl,rfl,rfl,rfl,rfl,rfl,rfl,rfl⟩

theorem Quiet.startSearch (s : State) : Quiet s s.startSearch := by
  unfold State.startSearch; split
  · split
    · exact ⟨rfl,rfl,rfl,rfl,rfl,rfl,rfl,rfl,rfl,rfl,rfl,rfl,rfl⟩
    · exact ⟨rfl,rfl,rfl,rfl,rfl,rfl,rfl,rfl,rfl,rfl,rfl,rfl,rfl⟩
  · exact .refl _

theorem Quiet.freeSlab (s : State) (i) : Quiet s (s.freeSlab i) :=
  by
  unfold State.freeSlab
  refine Quiet.trans ?_ (Quiet.startSearch _)
  exact ⟨rfl,rfl,rfl,rfl,rfl,rfl,rfl,rfl,rfl,rfl,rfl,rfl,rfl⟩

theorem Quiet.setDelivery (s : State) (j sec d) : Quiet s (s.setDelivery j sec d) := Quiet.modJob _ _ _

theorem Quiet.offer (s : State) (j sec) : Quiet s (s.offer j sec) := by
  unfold State.offer; split
  · exact (Quiet.enqueue _ _).trans (Quiet.setDelivery _ _ _ _)
  · exact Quiet.setDelivery _ _ _ _

theorem Quiet.queueJobEnd (s : State) (j) : Quiet s (s.queueJobEnd j) := by
  unfold State.queueJobEnd; split
  · exact Quiet.enqueue _ _
  · exact .refl _

theorem Quiet.finalize (s : State) (j) : Quiet s (s.finalize j) := by
  unfold State.finalize; split
  · exact .refl _
  · exact (((Quiet.setJob _ _ _).trans (Quiet.foldl _ Quiet.freeSlab _ _)).trans (Quiet.foldl _ (fun s a =>
      Quiet.offer s j a) _ _)).trans (Quiet.queueJobEnd _ _)

theorem Quiet.finalizeIfDone (s : State) (j) : Quiet s (s.finalizeIfDone j) := by
  unfold State.finalizeIfDone; split
  · split
    · exact Quiet.finalize _ _
    · exact .refl _
  · exact .refl _

theorem Quiet.withdrawSlabs (s : State) (j) : Quiet s (s.withdrawSlabs j) :=
  ⟨rfl,rfl,rfl,rfl,rfl,rfl,rfl,rfl,rfl,rfl,rfl,rfl,rfl⟩

/-- Every live job stays, with what identifies it, its state, its end cause and its counters. -/
def JobsStay (s t : State) : Prop := ∀ j x, s.job j = some x → ∃ y, t.job j = some y ∧ y.unit = x.unit ∧
    y.cylinder = x.cylinder ∧ y.head = x.head ∧ y.cls = x.cls ∧ y.tag = x.tag ∧ y.arrival = x.arrival ∧
    y.budget = x.budget ∧ y.state = x.state ∧ y.endCause = x.endCause ∧ y.counters = x.counters

theorem JobsStay.refl (s : State) : JobsStay s s :=
  fun j x h => ⟨x, h, rfl, rfl, rfl, rfl, rfl, rfl, rfl, rfl, rfl, rfl⟩

theorem JobsStay.trans {s t u : State} (h : JobsStay s t) (g : JobsStay t u) : JobsStay s u := fun j x hx => by
  obtain ⟨y, hy, a, b, c, d, e, f, k, l, m, n⟩ := h j x hx
  obtain ⟨z, hz, a', b', c', d', e', f', k', l', m', n'⟩ := g j y hy
  exact ⟨z, hz, a'.trans a, b'.trans b, c'.trans c, d'.trans d, e'.trans e, f'.trans f, k'.trans k, l'.trans l,
      m'.trans m, n'.trans n⟩

theorem JobsStay.foldl {α : Type} (f : State → α → State) (hf : ∀ s a, JobsStay s (f s a)) (l : List α) (s : State) :
    JobsStay s (l.foldl f s) := by
  induction l generalizing s with
  | nil => exact .refl s
  | cons a l ih => exact (hf s a).trans (ih _)

theorem JobsStay.of_jobs {s t : State} (h : t.jobs = s.jobs) : JobsStay s t :=
  fun j x hx => ⟨x, by simpa only [State.job, h] using hx, rfl, rfl, rfl, rfl, rfl, rfl, rfl, rfl, rfl, rfl⟩

theorem job_setJob_same (s : State) (j x) : (s.setJob j x).job j = x := by simp [State.job, State.setJob]

theorem job_setJob_ne (s : State) {j k : JobIx} (x) (h : j ≠ k) : (s.setJob j x).job k = s.job k := by
  simp only [State.job, State.setJob, Fin.getElem_fin]
  exact Vector.getElem_set_ne _ _ (fun e => h (Fin.ext e))

theorem JobsStay.setJob (s : State) (j : JobIx) (x y : Job) (h : s.job j = some x) (hy : y.unit = x.unit ∧
    y.cylinder = x.cylinder ∧ y.head = x.head ∧ y.cls = x.cls ∧ y.tag = x.tag ∧ y.arrival = x.arrival ∧
    y.budget = x.budget ∧ y.state = x.state ∧ y.endCause = x.endCause ∧ y.counters = x.counters) :
    JobsStay s (s.setJob j (some y)) := by
  intro k z hz
  by_cases e : j = k
  · subst e; rw [h] at hz; cases hz; exact ⟨y, job_setJob_same _ _ _, hy⟩
  · exact ⟨z, by rw [job_setJob_ne _ _ e]; exact hz, rfl, rfl, rfl, rfl, rfl, rfl, rfl, rfl, rfl, rfl⟩

theorem JobsStay.modRecord (s : State) (j sec g) : JobsStay s (s.modRecord j sec g) := by
  unfold State.modRecord State.modJob; split
  · next x hx => exact JobsStay.setJob s j x _ hx ⟨rfl, rfl, rfl, rfl, rfl, rfl, rfl, rfl, rfl, rfl⟩
  · exact .refl _

theorem jobs_startSearch (s : State) : s.startSearch.jobs = s.jobs := by
  unfold State.startSearch; split
  · split <;> rfl
  · rfl

theorem JobsStay.freeSlab (s : State) (i) : JobsStay s (s.freeSlab i) :=
  JobsStay.of_jobs (by unfold State.freeSlab; rw [jobs_startSearch]; rfl)

theorem JobsStay.offer (s : State) (j sec) : JobsStay s (s.offer j sec) := by
  unfold State.offer; split
  · exact (JobsStay.of_jobs (t := s.enqueue _) rfl).trans (JobsStay.modRecord _ _ _ _)
  · exact JobsStay.modRecord _ _ _ _

theorem JobsStay.queueJobEnd (s : State) (j) : JobsStay s (s.queueJobEnd j) := by
  unfold State.queueJobEnd; split
  · exact JobsStay.of_jobs rfl
  · exact .refl _

theorem JobsStay.finalize (s : State) (j) : JobsStay s (s.finalize j) := by
  unfold State.finalize; split
  · exact .refl _
  · next x hx =>
    have h0 : JobsStay s (s.setJob j (some { x with records := x.records.map s.finalRecord, finalized := true })) :=
        JobsStay.setJob s j x _ hx ⟨rfl, rfl, rfl, rfl, rfl, rfl, rfl, rfl, rfl, rfl⟩
    dsimp only
    refine JobsStay.trans ?_ (JobsStay.queueJobEnd _ _)
    refine JobsStay.trans ?_ (JobsStay.foldl _ (fun s a => JobsStay.offer s j a) _ _)
    refine JobsStay.trans h0 (JobsStay.foldl _ JobsStay.freeSlab _ _)

theorem JobsStay.finalizeIfDone (s : State) (j) : JobsStay s (s.finalizeIfDone j) := by
  unfold State.finalizeIfDone; split
  · split
    · exact JobsStay.finalize _ _
    · exact .refl _
  · exact .refl _

theorem JobsStay.withdrawSlabs (s : State) (j) : JobsStay s (s.withdrawSlabs j) := JobsStay.of_jobs rfl

theorem drive_setDrive_same (s : State) (n : UnitId) (d : Drive) : (s.setDrive n d).drive n = d := by
  simp [State.drive, State.setDrive]

theorem drive_setDrive_ne (s : State) {m n : UnitId} (d : Drive) (h : m ≠ n) :
    (s.setDrive m d).drive n = s.drive n := by
  simp only [State.drive, State.setDrive, Fin.getElem_fin]
  exact Vector.getElem_set_ne _ _ (fun e => h (Fin.ext e))

theorem mostDeferred_mem (s : State) : ∀ (l : List UnitId) (n : UnitId), s.mostDeferred l = some n → n ∈ l
  | [], n, h => by simp [State.mostDeferred] at h
  | m :: rest, n, h => by
    unfold State.mostDeferred at h
    split at h
    · cases h; simp
    · next k hk =>
      split at h
      · cases h; simp
      · cases h; exact List.mem_cons_of_mem _ (mostDeferred_mem s rest _ hk)

theorem arbiterChoice_requesting (s : State) (n : UnitId) (h : s.arbiterChoice = some n) : s.requesting n = true := by
  unfold State.arbiterChoice at h
  dsimp only at h
  split at h
  · next k hk => cases h; have := mostDeferred_mem _ _ _ hk; simp only [List.mem_filter] at this; exact this.1.2
  · split at h
    · next k hk => cases h; have := List.mem_of_find?_eq_some hk; simp only [List.mem_filter] at this; exact this.2
    · have := List.mem_of_mem_head? h; simp only [List.mem_filter] at this; exact this.2

theorem jobs_arbitrate (s : State) : s.arbitrate.jobs = s.jobs := by
  unfold State.arbitrate; split
  · split <;> rfl
  · rfl

theorem jobs_releaseEarly (s : State) (n) : (s.releaseEarly n).jobs = s.jobs := by
  unfold State.releaseEarly; split
  · unfold State.channelIdle; rw [jobs_arbitrate]
  · rfl

theorem requesting_notTracking (s : State) (n) (h : (s.drive n).state ≠ .tracking) : s.requesting n = false := by
  unfold State.requesting; cases hd : (s.drive n).state <;> simp_all

theorem arbitrate_none (s : State) (h : ∀ n, s.requesting n = false) : s.arbitrate = s := by
  unfold State.arbitrate; split
  · split
    · next m hm => have := arbiterChoice_requesting s m hm; rw [h] at this; cases this
    · rfl
  · rfl

theorem arbitrate_drive_notRequesting (s : State) (n : UnitId) (h : s.requesting n = false) :
    s.arbitrate.drive n = s.drive n ∧ (s.channel.state.holds n = false →
    s.arbitrate.channel.state.holds n = false) := by
  unfold State.arbitrate
  split
  · split
    · next m hm =>
      have hr := arbiterChoice_requesting s m hm
      have hne : m ≠ n := by rintro rfl; rw [h] at hr; cases hr
      refine ⟨?_, ?_⟩
      · unfold State.grant State.modDrive; rw [drive_setDrive_ne _ _ hne]; rfl
      · intro _; simp [State.grant, State.modDrive, State.setDrive, ChannelState.holds, hne]
    · exact ⟨rfl, id⟩
  · exact ⟨rfl, id⟩

theorem requesting_noHeld (s : State) (n) (h : (s.drive n).heldJob = none) : s.requesting n = false := by
  simp [State.requesting, State.mayStartPass, h]

theorem releaseEarly_drive_noJob (s : State) (n : UnitId) (h : (s.drive n).heldJob = none) :
    (s.releaseEarly n).drive n = s.drive n ∧ (s.releaseEarly n).channel.state.holds n = false := by
  unfold State.releaseEarly
  split
  · have := arbitrate_drive_notRequesting { s with channel := s.channel.toIdle } n (requesting_noHeld _ _ h)
    exact ⟨this.1, this.2 (by simp [ChannelState.holds, Channel.toIdle])⟩
  · next hc => exact ⟨rfl, by simpa using hc⟩

/-- A grant changes nothing of a drive but its deferral count (R29). -/
theorem arbitrate_drive_def (s : State) (m : UnitId) :
    s.arbitrate.drive m = { s.drive m with deferral := (s.arbitrate.drive m).deferral } := by
  unfold State.arbitrate
  split
  · split
    · next k hk =>
      by_cases e : k = m
      · subst e; unfold State.grant; rw [modDrive_drive]; rfl
      · unfold State.grant State.modDrive; rw [drive_setDrive_ne _ _ e]; rfl
    · rfl
  · rfl

theorem releaseEarly_drive_def (s : State) (n m : UnitId) :
    (s.releaseEarly n).drive m = { s.drive m with deferral := ((s.releaseEarly n).drive m).deferral } := by
  unfold State.releaseEarly; split
  · exact arbitrate_drive_def { s with channel := s.channel.toIdle } m
  · rfl

/-- No other entry of the job table changes. -/
def OnlyJob (j : JobIx) (s t : State) : Prop := ∀ i, i ≠ j → t.job i = s.job i

theorem OnlyJob.refl (j s) : OnlyJob j s s := fun _ _ => rfl

theorem OnlyJob.trans {j} {s t u : State} (h : OnlyJob j s t) (g : OnlyJob j t u) : OnlyJob j s u :=
  fun i hi => (g i hi).trans (h i hi)

theorem OnlyJob.of_jobs {j} {s t : State} (h : t.jobs = s.jobs) : OnlyJob j s t :=
  fun i _ => by simp only [State.job, h]

theorem OnlyJob.foldl {α : Type} {j} (f : State → α → State) (hf : ∀ s a,
    OnlyJob j s (f s a)) (l : List α) (s : State) : OnlyJob j s (l.foldl f s) := by
  induction l generalizing s with
  | nil => exact .refl j s
  | cons a l ih => exact (hf s a).trans (ih _)

theorem OnlyJob.setJob (s : State) (j x) : OnlyJob j s (s.setJob j x) := fun i hi => job_setJob_ne s x (Ne.symm hi)

theorem OnlyJob.modJob (s : State) (j g) : OnlyJob j s (s.modJob j g) := by
  unfold State.modJob
  split <;> first | exact OnlyJob.setJob _ _ _ | exact .refl _ _

theorem OnlyJob.offer (s : State) (j sec) : OnlyJob j s (s.offer j sec) := by
  unfold State.offer; split
  · exact (OnlyJob.of_jobs (t := s.enqueue _) rfl).trans (OnlyJob.modJob _ _ _)
  · exact OnlyJob.modJob _ _ _

theorem OnlyJob.queueJobEnd (s : State) (j) : OnlyJob j s (s.queueJobEnd j) := by
  unfold State.queueJobEnd; split
  · exact OnlyJob.of_jobs rfl
  · exact .refl _ _

theorem jobs_freeSlab (s : State) (i) : (s.freeSlab i).jobs = s.jobs := by
  unfold State.freeSlab
  rw [jobs_startSearch]
  rfl

theorem OnlyJob.finalize (s : State) (j) : OnlyJob j s (s.finalize j) := by
  unfold State.finalize; split
  · exact .refl _ _
  · dsimp only
    refine OnlyJob.trans ?_ (OnlyJob.queueJobEnd _ _)
    refine OnlyJob.trans ?_ (OnlyJob.foldl _ (fun s a => OnlyJob.offer s j a) _ _)
    exact OnlyJob.trans (OnlyJob.setJob _ _ _) (OnlyJob.foldl _ (fun s a => OnlyJob.of_jobs (jobs_freeSlab s a)) _ _)

theorem OnlyJob.finalizeIfDone (s : State) (j) : OnlyJob j s (s.finalizeIfDone j) := by
  unfold State.finalizeIfDone; split
  · split
    · exact OnlyJob.finalize _ _
    · exact .refl _ _
  · exact .refl _ _

theorem jobs_letGo (s : State) (j n) : (s.letGo j n).jobs = s.jobs := by
  unfold State.letGo; split
  · rw [jobs_releaseEarly]; rfl
  · rfl

theorem OnlyJob.endJob (s : State) (j c) : OnlyJob j s (s.endJob j c) := by
  unfold State.endJob
  split
  · exact .refl _ _
  · split
    · exact .refl _ _
    · dsimp only
      refine OnlyJob.trans ?_ (OnlyJob.finalizeIfDone _ _)
      split
      · exact (OnlyJob.setJob s j _).trans ((OnlyJob.of_jobs (jobs_letGo _ _ _)).trans (OnlyJob.of_jobs rfl))
      · exact (OnlyJob.setJob s j _).trans (OnlyJob.of_jobs (jobs_letGo _ _ _))

/-- What the end of a job leaves alone (R51): of a drive, all but its held job, its pass loop and its deferral count. -/
structure SameButJobs (s t : State) : Prop where
  profiles : t.profiles = s.profiles
  directions : t.directions = s.directions
  flags : t.flags = s.flags
  strays : t.strays = s.strays
  link : t.link = s.link
  hold : t.hold = s.hold
  extents : t.extents = s.extents
  quirks : t.quirks = s.quirks
  remaps : t.remaps = s.remaps
  clock : t.clock = s.clock
  drives : ∀ m, t.drive m = { s.drive m with
    heldJob := (t.drive m).heldJob, prepared := (t.drive m).prepared, waiting := (t.drive m).waiting, passStrays :=
        (t.drive m).passStrays, deferral := (t.drive m).deferral }

theorem SameButJobs.refl (s : State) : SameButJobs s s := ⟨rfl,rfl,rfl,rfl,rfl,rfl,rfl,rfl,rfl,rfl,fun _ => rfl⟩

theorem SameButJobs.trans {s t u : State} (h : SameButJobs s t) (g : SameButJobs t u) : SameButJobs s u :=
  ⟨g.1.trans h.1, g.2.trans h.2, g.3.trans h.3, g.4.trans h.4, g.5.trans h.5, g.6.trans h.6, g.7.trans h.7,
      g.8.trans h.8, g.9.trans h.9, g.10.trans h.10, fun m => by rw [g.11 m, h.11 m]⟩

theorem Quiet.endSame {s t : State} (q : Quiet s t) : SameButJobs s t :=
  ⟨q.profiles, q.directions, q.flags, q.strays, q.link, q.hold, q.extents, q.quirks, q.remaps, q.clock,
      fun m => by simp only [State.drive, q.drives]⟩

theorem SameButJobs.arbitrate (s : State) : SameButJobs s s.arbitrate := by
  refine ⟨?_, ?_, ?_, ?_, ?_, ?_, ?_, ?_, ?_, ?_, fun m => ?_⟩
  all_goals try (unfold State.arbitrate; split; (split <;> rfl); rfl)
  rw [arbitrate_drive_def]

theorem SameButJobs.releaseEarly (s : State) (n) : SameButJobs s (s.releaseEarly n) := by
  unfold State.releaseEarly; split
  · exact SameButJobs.trans (t :=
      { s with channel := s.channel.toIdle }) ⟨rfl,rfl,rfl,rfl,rfl,rfl,rfl,rfl,rfl,rfl,fun _ => rfl⟩
      (SameButJobs.arbitrate _)
  · exact .refl _

theorem SameButJobs.letGo (s : State) (j n) : SameButJobs s (s.letGo j n) := by
  unfold State.letGo; split
  · refine SameButJobs.trans (t :=
      s.modDrive n Drive.dropJob) ⟨rfl,rfl,rfl,rfl,rfl,rfl,rfl,rfl,rfl,rfl,fun m => ?_⟩ (SameButJobs.releaseEarly _ _)
    by_cases e : n = m
    · subst e; rw [modDrive_drive]; rfl
    · unfold State.modDrive; rw [drive_setDrive_ne _ _ e]
  · exact .refl _

theorem SameButJobs.endJob (s : State) (j c) : SameButJobs s (s.endJob j c) := by
  unfold State.endJob
  split
  · exact .refl _
  · split
    · exact .refl _
    · dsimp only
      refine SameButJobs.trans ?_ (Quiet.finalizeIfDone _ _).endSame
      split
      · exact (Quiet.setJob s j _).endSame.trans ((SameButJobs.letGo _ _ _).trans (Quiet.withdrawSlabs _ _).endSame)
      · exact (Quiet.setJob s j _).endSame.trans (SameButJobs.letGo _ _ _)

theorem endJob_end (s : State) (j : JobIx) (x : Job) (cause : EndCause) (hj : s.job j = some x) (hx : x.state ≠
    .draining) :
    (∃ y, (s.endJob j cause).job j = some y ∧ y.unit = x.unit ∧ y.state = .draining ∧ y.endCause = some cause ∧
        y.counters = x.counters ∧ y.budget = x.budget) ∧
    ((s.drive x.unit).heldJob ≠ some j → (s.endJob j cause).drives = s.drives ∧
        (s.endJob j cause).channel = s.channel) ∧
    ((s.drive x.unit).heldJob = some j → (s.endJob j cause).drive x.unit = (s.drive x.unit).dropJob ∧
        (s.endJob j cause).channel.state.holds x.unit = false) := by
  unfold State.endJob
  simp only [hj, if_neg hx]
  generalize hs' : s.setJob j (some { x with state := .draining, endCause := some cause }) = s'
  have hd' : s'.drives = s.drives := by rw [← hs']; rfl
  have hc' : s'.channel = s.channel := by rw [← hs']; rfl
  have hj' : s'.job j = some { x with state := .draining, endCause := some cause } :=
      by rw [← hs']; exact job_setJob_same _ _ _
  have hju : (s'.letGo j x.unit).job j = some { x with state := .draining, endCause := some cause } := by
    unfold State.job; rw [jobs_letGo]; exact hj'
  have hL1 : (s.drive x.unit).heldJob ≠ some j → s'.letGo j x.unit = s' := by
    intro h; unfold State.letGo; rw [if_neg]; unfold State.drive at h ⊢; rw [hd']; exact h
  have hL2 : (s.drive x.unit).heldJob = some j → (s'.letGo j x.unit).drive x.unit = (s.drive x.unit).dropJob ∧
      (s'.letGo j x.unit).channel.state.holds x.unit = false := by
    intro h; unfold State.letGo; rw [if_pos (by unfold State.drive at h ⊢; rw [hd']; exact h)]
    have := releaseEarly_drive_noJob (s'.modDrive x.unit Drive.dropJob) x.unit (by rw [modDrive_drive]; rfl)
    rw [modDrive_drive] at this
    have e : s'.drive x.unit = s.drive x.unit := by unfold State.drive; rw [hd']
    rw [e] at this; exact this
  generalize s'.letGo j x.unit = u at hju hL1 hL2
  have key : ∀ v : State, Quiet u v → JobsStay u v → (∃ y, v.job j = some y ∧ y.unit = x.unit ∧ y.state = .draining ∧
      y.endCause = some cause ∧ y.counters = x.counters ∧ y.budget = x.budget) ∧ ((s.drive x.unit).heldJob ≠ some j →
      v.drives = s.drives ∧ v.channel = s.channel) ∧ ((s.drive x.unit).heldJob = some j →
      v.drive x.unit = (s.drive x.unit).dropJob ∧ v.channel.state.holds x.unit = false) := by
    intro v q st
    obtain ⟨y, hy, a, -, -, -, -, -, e, b, c, d⟩ := st j _ hju
    refine ⟨⟨y, hy, a, b, c, d, e⟩, ?_, ?_⟩
    · intro h; have := hL1 h; rw [q.drives, q.channel, this]; exact ⟨hd', hc'⟩
    · intro h; have := hL2 h
      unfold State.drive; rw [q.drives, q.channel]; exact this
  split
  · exact key _ ((Quiet.withdrawSlabs _ _).trans (Quiet.finalizeIfDone _ _)) ((JobsStay.withdrawSlabs _ _).trans
      (JobsStay.finalizeIfDone _ _))
  · exact key _ (Quiet.finalizeIfDone _ _) (JobsStay.finalizeIfDone _ _)

theorem goOn_settled (s : State) (n : UnitId) (h : (s.drive n).state = .settling ∨ (s.drive n).state = .tracking) :
    s.goOn n = s.toIdle n := by
  unfold State.goOn; rcases h with h | h <;> rw [h]

theorem goOn_other (s : State) (n : UnitId) (h : ¬ ((s.drive n).state = .settling ∨ (s.drive n).state = .tracking)) :
    s.goOn n = s := by
  unfold State.goOn; split <;> first | rfl | (next e => exact absurd (by simp [e]) h)

theorem runSelection_noQueued (s : State) (n : UnitId) (h : ∀ j x, s.job j = some x → x.unit = n →
    x.state ≠ .queued) : s.runSelection n = s := by
  have hq : ∀ c, s.queuedJobs n c = [] := by
    intro c
    simp only [State.queuedJobs, List.filter_eq_nil_iff, List.mem_finRange, true_implies]
    intro j; cases hj : s.job j with
    | none => simp
    | some x => simp only [Bool.and_eq_true, beq_iff_eq]; exact fun e => h j x hj e.1.1 e.1.2
  have : s.select n = none := by simp [State.select, hq, State.oldest, State.nearest]
  unfold State.runSelection; split
  · unfold State.selection; rw [this]
  · rfl

theorem toIdle_noQueued (s : State) (n : UnitId) (h : ∀ j x, s.job j = some x → x.unit = n → x.state ≠ .queued) :
    s.toIdle n = s.modDrive n Drive.enterIdle :=
  runSelection_noQueued _ n h

def OtherUnits (n : UnitId) (s t : State) : Prop := ∀ i z, s.job i = some z → z.unit ≠ n → t.job i = some z

theorem OtherUnits.refl (n s) : OtherUnits n s s := fun _ _ h _ => h

theorem OtherUnits.trans {n} {s t u : State} (h : OtherUnits n s t) (g : OtherUnits n t u) : OtherUnits n s u :=
  fun i z hi hz => g i z (h i z hi hz) hz

theorem OtherUnits.of_jobs {n} {s t : State} (h : t.jobs = s.jobs) : OtherUnits n s t :=
  fun i z hi _ => by simpa only [State.job, h] using hi

theorem OtherUnits.only {n} {s t : State} {j} (h : OnlyJob j s t) (hj : ∀ x, s.job j = some x → x.unit = n) :
    OtherUnits n s t := by
  intro i z hi hz
  rw [h i]; exact hi
  rintro rfl; exact hz (hj z hi)

theorem jobs_evaluatePositioning (s : State) (n j) : (s.evaluatePositioning n j).jobs = s.jobs := by
  unfold State.evaluatePositioning; split <;> rfl

theorem held_evaluatePositioning (s : State) (n j) :
    ((s.evaluatePositioning n j).drive n).heldJob = (s.drive n).heldJob := by
  unfold State.evaluatePositioning; split
  · rw [modDrive_drive]
  · rfl

theorem OnlyJob.handOver (s : State) (n j d) : OnlyJob j s (s.handOver n j d) := by
  unfold State.handOver
  refine OnlyJob.trans ?_ (OnlyJob.of_jobs (jobs_evaluatePositioning _ _ _))
  exact (OnlyJob.modJob (s.setDirection n d) j _).trans (OnlyJob.of_jobs rfl)

theorem held_handOver (s : State) (n j d) : ((s.handOver n j d).drive n).heldJob = some j := by
  unfold State.handOver; rw [held_evaluatePositioning, modDrive_drive]

theorem OnlyJob.passStartCore (s : State) (n j) (h : (s.drive n).heldJob = some j) :
    OnlyJob j s (s.passStartCore n).1 := by
  unfold State.passStartCore; rw [h]; dsimp only
  split
  · exact .refl _ _
  · split
    · exact OnlyJob.endJob _ _ _
    · exact OnlyJob.of_jobs rfl

theorem jobs_modDrive (s : State) (n g) : (s.modDrive n g).jobs = s.jobs := rfl

theorem modJob_drives (s : State) (j g) : (s.modJob j g).drives = s.drives := by unfold State.modJob; split <;> rfl

theorem OnlyJob.enterTracking (s : State) (n j) (h : (s.drive n).heldJob = some j) :
    OnlyJob j s (s.enterTracking n).1 := by
  unfold State.enterTracking; rw [h]; dsimp only
  refine OnlyJob.trans (OnlyJob.trans (OnlyJob.of_jobs (jobs_modDrive s n _)) (OnlyJob.modJob _ j _))
      (OnlyJob.passStartCore _ _ _ ?_)
  unfold State.drive; rw [modJob_drives]; exact (congrArg Drive.heldJob (modDrive_drive s n _)).trans h

theorem OnlyJob.leaveIdle (s : State) (n j) (h : (s.drive n).heldJob = some j) : OnlyJob j s (s.leaveIdle n).1 := by
  unfold State.leaveIdle; dsimp only
  split
  · exact OnlyJob.of_jobs rfl
  · split
    · unfold State.settleFor; split
      · exact OnlyJob.enterTracking _ _ _ h
      · exact OnlyJob.of_jobs rfl
    · exact OnlyJob.of_jobs rfl

theorem OtherUnits.selection (k : Nat) (s : State) (n) : OtherUnits n s (State.selection k s n) := by
  induction k generalizing s with
  | zero => exact .refl _ _
  | succ k ih =>
    unfold State.selection
    split
    · exact .refl _ _
    · next j dir hsel =>
      obtain ⟨x, hx, hu, _⟩ := select_queued s n j dir hsel
      have h1 : OnlyJob j s ((s.handOver n j dir).leaveIdle n).1 :=
          (OnlyJob.handOver s n j dir).trans (OnlyJob.leaveIdle _ _ _ (held_handOver s n j dir))
      have h2 := OtherUnits.only h1 (n := n) (fun y hy => by rw [hx] at hy; cases hy; exact hu)
      split
      · next t he => rw [he] at h2; exact h2
      · next t he => rw [he] at h2; exact h2.trans ((OtherUnits.of_jobs (jobs_modDrive t n _)).trans (ih _))

theorem OtherUnits.toIdle (s : State) (n) : OtherUnits n s (s.toIdle n) := by
  unfold State.toIdle State.runSelection
  split
  · exact (OtherUnits.of_jobs (jobs_modDrive s n _)).trans (OtherUnits.selection _ _ _)
  · exact OtherUnits.of_jobs rfl

/-- Selection leaves a DRAINING job as it is, and does not hand it over (R47). -/
theorem modJob_other (s : State) (j k) (g) (h : j ≠ k) : (s.modJob j g).job k = s.job k := by
  unfold State.modJob; split
  · exact job_setJob_ne _ _ h
  · rfl

theorem selection_draining (k : Nat) (s : State) (n) (j x) (hj : s.job j = some x) (hx : x.state = .draining) (hh :
    (s.drive n).heldJob ≠ some j) :
   (State.selection k s n).job j = some x ∧ ((State.selection k s n).drive n).heldJob ≠ some j := by
  induction k generalizing s with
  | zero => exact ⟨hj, hh⟩
  | succ k ih =>
    unfold State.selection
    split
    · exact ⟨hj, hh⟩
    · next i dir hsel =>
      obtain ⟨y, hy, hu, hq⟩ := select_queued s n i dir hsel
      have hne : j ≠ i := by rintro rfl; rw [hj] at hy; cases hy; rw [hx] at hq; cases hq
      have h1 : OnlyJob i s ((s.handOver n i dir).leaveIdle n).1 :=
          (OnlyJob.handOver s n i dir).trans (OnlyJob.leaveIdle _ _ _ (held_handOver s n i dir))
      have hjob : ((s.handOver n i dir).leaveIdle n).1.job j = some x := (h1 j hne).trans hj
      have hheld : (((s.handOver n i dir).leaveIdle n).1.drive n).heldJob ≠ some j := by
        have h0 := held_handOver s n i dir
        generalize s.handOver n i dir = u at h0
        have hps : ∀ v : State, (v.drive n).heldJob = some i → ((v.passStartCore n).1.drive n).heldJob ≠ some j := by
          intro v hv
          unfold State.passStartCore; rw [hv]; dsimp only
          split
          · rw [hv]; simpa using hne.symm
          · next z hz =>
            split
            · unfold State.endJob; rw [hz]; dsimp only
              split
              · rw [hv]; simpa using hne.symm
              · have q := (Quiet.finalizeIfDone (if EndCause.withdraws .passesExhausted then ((v.setJob i (some
                  { z with state := .draining, endCause := some .passesExhausted })).letGo i z.unit).withdrawSlabs i
                  else (v.setJob i (some { z with state := .draining, endCause := some .passesExhausted })).letGo i
                  z.unit) i).drives
                unfold State.drive; rw [q]
                simp only [EndCause.withdraws, Bool.false_eq_true, if_false]
                change (((v.setJob i (some { z with state := .draining, endCause := some .passesExhausted })).letGo i
                    z.unit).drive n).heldJob ≠ some j
                unfold State.letGo
                split
                · rw [releaseEarly_drive_def]
                  by_cases e : z.unit = n
                  · subst e; rw [modDrive_drive]; simp [Drive.dropJob]
                  · unfold State.modDrive; rw [drive_setDrive_ne _ _ e]
                    change (v.drive n).heldJob ≠ some j; rw [hv]; simpa using hne.symm
                · change (v.drive n).heldJob ≠ some j; rw [hv]; simpa using hne.symm
            · dsimp only; rw [modDrive_drive]; simp only [Drive.applyPass]; rw [hv]; simpa using hne.symm
        unfold State.leaveIdle; dsimp only
        split
        · unfold State.issueRestore
          dsimp only
          rw [modDrive_drive]
          simp only [Drive.enter]
          rw [h0]
          simpa using hne.symm
        · split
          · unfold State.settleFor; split
            · unfold State.enterTracking; rw [h0]; dsimp only
              refine hps _ ?_
              unfold State.drive; rw [modJob_drives]; exact (congrArg Drive.heldJob (modDrive_drive u n _)).trans h0
            · dsimp only; rw [modDrive_drive]; simp only [Drive.enter]; rw [h0]; simpa using hne.symm
          · unfold State.issueSeek
            dsimp only
            rw [modDrive_drive]
            simp only [Drive.enter]
            rw [h0]
            simpa using hne.symm
      split
      · next t he => rw [he] at hjob hheld; exact ⟨hjob, hheld⟩
      · next t he =>
        rw [he] at hjob hheld
        refine ih _ hjob ?_
        rw [modDrive_drive]; exact hheld

theorem insertByAge_perm (s : State) (j) : ∀ l : List JobIx, (s.insertByAge j l).Perm (j :: l)
  | [] => .refl _
  | k :: rest => by
    unfold State.insertByAge; split
    · exact .refl _
    · exact ((insertByAge_perm s j rest).cons k).trans (.swap _ _ _)

theorem byAge_perm (s : State) : ∀ l : List JobIx, (s.byAge l).Perm l
  | [] => .refl _
  | k :: rest => by
    unfold State.byAge; exact (insertByAge_perm s k _).trans ((byAge_perm s rest).cons k)

theorem mem_queuedByAge (s : State) (n) (j) : j ∈ s.queuedByAge n ↔ ∃ x, s.job j = some x ∧ x.unit = n ∧
    x.state = .queued := by
  unfold State.queuedByAge
  rw [(byAge_perm s _).mem_iff]
  simp only [State.jobsOf, List.mem_filter, List.mem_finRange, true_and]
  cases s.job j with
  | none => simp
  | some x => simp

theorem nodup_queuedByAge (s : State) (n) : (s.queuedByAge n).Nodup := by
  unfold State.queuedByAge
  rw [(byAge_perm s _).nodup_iff]
  exact ((List.nodup_finRange 32).filter _).filter _

theorem endJobs_foldl (cause : EndCause) (n : UnitId) : ∀ (l : List JobIx) (s : State), l.Nodup → (∀ j ∈ l, ∃ x,
    s.job j = some x ∧ x.unit = n ∧ x.state = .queued ∧ (s.drive n).heldJob ≠ some j) →
   (∀ j ∈ l, (l.foldl (fun t j => t.endJob j cause) s).Ended j cause) ∧ (∀ j, j ∉ l →
       (l.foldl (fun t j => t.endJob j cause) s).job j = s.job j) ∧
   (l.foldl (fun t j => t.endJob j cause) s).drives = s.drives ∧
       (l.foldl (fun t j => t.endJob j cause) s).channel = s.channel ∧
       SameButJobs s (l.foldl (fun t j => t.endJob j cause) s)
  | [], s, _, _ => ⟨by simp, by simp, rfl, rfl, .refl _⟩
  | a :: l, s, hn, h => by
    obtain ⟨x, hx, hu, hq, hh⟩ := h a (by simp)
    obtain ⟨⟨y, hy1, hy2, hy3, hy4, _⟩, hd, _⟩ := endJob_end s a x cause hx (by rw [hq]; decide)
    have hd := hd (by rw [hu]; exact hh)
    have hO := OnlyJob.endJob s a cause
    have hn' := List.nodup_cons.1 hn
    have hne : ∀ j ∈ l, j ≠ a := fun j hj e => hn'.1 (e ▸ hj)
    obtain ⟨i1, i2, i3, i4, i5⟩ := endJobs_foldl cause n l (s.endJob a cause) hn'.2 (fun j hj => by
      obtain ⟨z, hz⟩ := h j (by simp [hj])
      refine ⟨z, by rw [hO j (hne j hj)]; exact hz.1, hz.2.1, hz.2.2.1, ?_⟩
      unfold State.drive; rw [hd.1]; exact hz.2.2.2)
    rw [List.foldl_cons]
    refine ⟨?_, ?_, by rw [i3, hd.1], by rw [i4, hd.2], (SameButJobs.endJob _ _ _).trans i5⟩
    · intro j hj
      rcases List.mem_cons.1 hj with rfl | hj
      · exact ⟨y, by rw [i2 j hn'.1]; exact hy1, hy3, hy4⟩
      · exact i1 j hj
    · intro j hj
      rw [i2 j (fun e => hj (by simp [e])), hO j (fun e => hj (by simp [e]))]

theorem endQueued (s : State) (n : UnitId) (cause : EndCause) (hs : s.JobsHeld) :
   (∀ j ∈ s.queuedByAge n, ((s.queuedByAge n).foldl (fun t j => t.endJob j cause) s).Ended j cause) ∧ (∀ j,
       j ∉ s.queuedByAge n → ((s.queuedByAge n).foldl (fun t j => t.endJob j cause) s).job j = s.job j) ∧
   ((s.queuedByAge n).foldl (fun t j => t.endJob j cause) s).drives = s.drives ∧
       ((s.queuedByAge n).foldl (fun t j => t.endJob j cause) s).channel = s.channel ∧
       SameButJobs s ((s.queuedByAge n).foldl (fun t j => t.endJob j cause) s) := by
  refine endJobs_foldl cause n _ s (nodup_queuedByAge s n) (fun j hj => ?_)
  obtain ⟨x, a, b, c⟩ := (mem_queuedByAge s n j).1 hj
  refine ⟨x, a, b, c, fun e => ?_⟩
  obtain ⟨z, hz, _, h⟩ := (hs n j).1 e
  rw [a] at hz; cases hz; rw [c] at h; rcases h with h | h <;> cases h

/-- Every job of a unit that has not ended is ended: the QUEUED ones by age, then the held one (R56, R58). -/
theorem endUnitJobs (s : State) (n : UnitId) (cause : EndCause) (hs : s.JobsHeld) (u : State) (hu : u =
    (s.queuedByAge n).foldl (fun t j => t.endJob j cause) s) :
   (∀ j, s.Unended n j ↔ (j ∈ s.queuedByAge n ∨ (s.drive n).heldJob = some j)) ∧
   (∀ j, s.Unended n j → (u.endHeld n cause).Ended j cause) ∧ (∀ j, ¬ s.Unended n j →
       (u.endHeld n cause).job j = s.job j) ∧
   ((s.drive n).heldJob = none → (u.endHeld n cause).drives = s.drives ∧ (u.endHeld n cause).channel = s.channel) ∧
   ((s.drive n).heldJob ≠ none → (u.endHeld n cause).drive n = (s.drive n).dropJob) ∧
   SameButJobs s (u.endHeld n cause) := by
  obtain ⟨q1, q2, q3, q4, q5⟩ := endQueued s n cause hs
  rw [← hu] at q1 q2 q3 q4 q5
  have hun : ∀ j, s.Unended n j ↔ (j ∈ s.queuedByAge n ∨ (s.drive n).heldJob = some j) := by
    intro j
    rw [mem_queuedByAge, hs n j]
    unfold State.Unended
    constructor
    · rintro ⟨x, a, b, c⟩
      cases hx : x.state with
      | queued => exact .inl ⟨x, a, b, hx⟩
      | positioning => exact .inr ⟨x, a, b, .inl hx⟩
      | reading => exact .inr ⟨x, a, b, .inr hx⟩
      | draining => exact absurd hx c
    · rintro (⟨x, a, b, c⟩ | ⟨x, a, b, c⟩)
      · exact ⟨x, a, b, by rw [c]; decide⟩
      · exact ⟨x, a, b, by rcases c with c | c <;> rw [c] <;> decide⟩
  have hdu : u.drive n = s.drive n := by unfold State.drive; rw [q3]
  refine ⟨hun, ?_⟩
  unfold State.endHeld
  cases hh : (s.drive n).heldJob with
  | none =>
    rw [hdu, hh]; dsimp only
    refine ⟨?_, ?_, fun _ => ⟨q3, q4⟩, fun h => absurd rfl h, q5⟩
    · intro j hj; rcases (hun j).1 hj with h | h
      · exact q1 j h
      · rw [hh] at h; cases h
    · intro j hj; exact q2 j (fun h => hj ((hun j).2 (.inl h)))
  | some k =>
    rw [hdu, hh]; dsimp only
    have hkq : k ∉ s.queuedByAge n := by
      intro hm
      obtain ⟨x, a, b, c⟩ := (mem_queuedByAge s n k).1 hm
      obtain ⟨z, hz, _, h⟩ := (hs n k).1 hh
      rw [a] at hz; cases hz; rw [c] at h; rcases h with h | h <;> cases h
    obtain ⟨z, hz, hzu, hzs⟩ := (hs n k).1 hh
    have hzk : u.job k = some z := (q2 k hkq).trans hz
    obtain ⟨⟨y, hy1, hy2, hy3, hy4, _⟩, _, hd⟩ :=
        endJob_end u k z cause hzk (by rcases hzs with h | h <;> rw [h] <;> decide)
    have hd := hd (by rw [hzu, hdu]; exact hh)
    have hO := OnlyJob.endJob u k cause
    rw [hzu, hdu] at hd
    refine ⟨?_, ?_, fun h => by (cases h), fun _ => hd.1, q5.trans (SameButJobs.endJob _ _ _)⟩
    · intro j hj
      by_cases e : j = k
      · subst e; exact ⟨y, hy1, hy3, hy4⟩
      · rcases (hun j).1 hj with h | h
        · obtain ⟨w, a, b⟩ := q1 j h; exact ⟨w, (hO j e).trans a, b⟩
        · rw [hh] at h; cases h; exact absurd rfl e
    · intro j hj
      have e : j ≠ k := by rintro rfl; exact hj ((hun j).2 (.inr hh))
      rw [hO j e]; exact q2 j (fun h => hj ((hun j).2 (.inl h)))

theorem link_arbitrate (s : State) : s.arbitrate.link = s.link := (SameButJobs.arbitrate s).link

theorem flags_arbitrate (s : State) : s.arbitrate.flags = s.flags := (SameButJobs.arbitrate s).flags

theorem queue_arbitrate (s : State) : s.arbitrate.queue = s.queue := by
  unfold State.arbitrate
  split
  (split <;> rfl)
  rfl

theorem strays_arbitrate (s : State) : s.arbitrate.strays = s.strays := by
  unfold State.arbitrate
  split
  (split <;> rfl)
  rfl

theorem hold_arbitrate (s : State) : s.arbitrate.hold = s.hold := by
  unfold State.arbitrate
  split
  (split <;> rfl)
  rfl

theorem compose_congr (s t : State) (h1 : t.jobs = s.jobs) (h2 : t.strays = s.strays) (e) :
    t.compose e = s.compose e := by
  unfold State.compose State.job; rw [h1, h2]

theorem awaiting_none (x : Job) : x.awaiting = none ↔ ∀ r ∈ x.records, r.delivery ≠ .awaiting := by
  unfold Job.awaiting; simp [List.findIdx?_eq_none_iff]

theorem waits_iff (s : State) (j) : s.waitsForRoom j = true ↔ s.Waits j := by
  unfold State.waitsForRoom State.Waits State.jobEndHeld
  cases hj : s.job j with
  | none => simp
  | some x =>
    have := awaiting_none x
    simp only [Option.some.injEq, exists_eq_left', Bool.or_eq_true, Bool.and_eq_true, Job.jobEndDue,
        Bool.not_eq_true']
    constructor
    · rintro (h | ⟨⟨h, _⟩, h2⟩)
      · left; by_contra hc; push_neg at hc; rw [this.2 hc] at h; cases h
      · right; exact ⟨h, by simpa using h2⟩
    · rintro (⟨r, hr, he⟩ | ⟨h, h2⟩)
      · left; cases ha : x.awaiting with
        | none => exact absurd he (this.1 ha r hr)
        | some k => rfl
      · cases ha : x.awaiting with
        | none => right; exact ⟨⟨h, rfl⟩, by simpa using h2⟩
        | some k => left; rfl

theorem admit_none (s : State) (h : ∀ j, ¬ s.Waits j) : s.admitWaiting = s := by
  unfold State.admitWaiting
  have : (List.finRange 32).filter s.waitsForRoom = [] := by
    rw [List.filter_eq_nil_iff]; intro j _ hw; exact h j ((waits_iff s j).1 hw)
  rw [this]; rfl

theorem not_queued_of_not_hasQueued (s : State) (n) (h : ¬ s.HasQueued n) : ∀ j x, s.job j = some x → x.unit = n →
    x.state ≠ .queued :=
  fun j x a b c => h ⟨j, x, a, b, c⟩

theorem toIdle_modDrive (s : State) (n) (g) (h : ¬ s.HasQueued n) :
    (s.modDrive n g).toIdle n = s.modDrive n (fun d => (g d).enterIdle) := by
  rw [toIdle_noQueued (s.modDrive n g) n (not_queued_of_not_hasQueued s n h), modDrive_modDrive]

theorem measures_iff (st : DriveState) : st.measures = true ↔ st.Ready := by
  cases st <;> simp [DriveState.measures, DriveState.Ready]

theorem measures_timed (st : DriveState) (h : st.Ready) : st.timed = true := by
  cases st <;> simp_all [DriveState.timed, DriveState.Ready]

theorem setDrive_setDrive (s : State) (n) (a b) : (s.setDrive n a).setDrive n b = s.setDrive n b := by
  simp [State.setDrive]

theorem modDrive_setDrive (s : State) (n) (a) (g) : (s.setDrive n a).modDrive n g = s.setDrive n (g a) := by
  unfold State.modDrive; rw [drive_setDrive_same, setDrive_setDrive]

end Sys2Proof.Machine
end

