-- ==== Sys2Proof/Tests/Slice0.lean ====
section
/-! SUPPORT. Tests: ill-formed commands, the spec's worked examples, one small step per command, and for each
statement states and operands that meet its hypotheses. -/

namespace Sys2Proof.Tests

open Sys2Proof.Machine

/-! ### States for the tests -/

/-- The state after a command, or the same state where it gives none. -/
def after (c : Instr) (s : State) : State :=
  match exec c s with
  | .next t => t
  | .fault _ => s
  | .refused _ => s

/-- The kind and the body of the message in transmission. -/
def sent (s : State) : Option (Byte × List Byte) := s.link.tx.map (fun m => (m.frame.kind, m.frame.body))

/-- The descriptor of unit 0 in section 12.4, on a drive of 411 cylinders and 4 heads. -/
def desc : Descriptor :=
  { model := 7, cylinders := 411, heads := 4, sectors := 8, words := 32, period := 400000, tolerance := 10000,
    dataOffset := 1800, maxOffset := 4, settle := 1 }

/-- Unit 0 in a drive state, with the rest of its items at rest. -/
def unitIn (st : DriveState) : Drive :=
  { Drive.powerOn false with
    descriptor := some desc, state := st, indexTimer := if st.timed then some 1200000 else none,
    unloadLine := st == .unloading }

/-- The reset state with a drive for unit 0. -/
def withUnit (d : Drive) : State := State.reset.setDrive 0 d

/-- The job of section 12.4. -/
def job (st : JobState) : Job :=
  { jobAdmitted 0 12 0 .bulk 0x0140 0
      ((List.range 8).map (fun i => recordAdmitted (i == 2 || i == 5 || i == 6) none)) 0 with state := st }

/-- Unit 0 in a drive state, with that job. -/
def withJob (d : Drive) (x : Job) : State := (withUnit d).setJob 0 (some x)

/-- Unit 0 in a drive state that holds that job. -/
def holding (st : DriveState) (js : JobState) : State := withJob { unitIn st with heldJob := some 0 } (job js)

/-- Unit 0 that seeks for that job, with a speed and a clock at which its limit is reached. -/
def seekingUnit : Drive :=
  { unitIn .seeking with
    cylinder := some 0, target := some 12, heldJob := some 0, motion := .seek 5000000 }

/-- The revolution of that job under the default profile, with a pitch of 50,000 ticks. -/
def revolution : Revolution :=
  { job := 0, trim := 0, pitch := 50000, window := 12500, cylinder := 12, head := 0, headerMask := none,
    noBlind := false, weightCap := none, noVote := false, profile := .default }

/-- A pass prepared at offset 0 with no quirk matching. -/
def prepared : Prepared :=
  { position := 0, requested := 0, offset := 0, strobe := 0, slots := 0, actions := .none }

/-- Unit 0 that tracks cylinder 12, trim-settled, with a pass prepared. -/
def trackingUnit : Drive :=
  { unitIn .tracking with
    cylinder := some 12, target := some 12, heldJob := some 0, prepared := some prepared,
    monitor := { Monitor.cleared with
      prevIndex := some 0, lastPeriod := some 400000, locked := true } }

/-- That unit with the channel capturing its revolution. -/
def capturing : State :=
  { withJob trackingUnit (job .reading) with
    channel := { Channel.powerOn with state := .capturing 0, rev := some revolution } }

/-- The header capture of a sector of that track. -/
def headerOf (sec : Nat) : Capture :=
  { unit := 0, job := 0, ident := some .header, sector := some sec, repeated := false, status := .good,
    header := some (12, BitVec.ofNat 12 sec, BitVec.ofNat 12 (4083 - sec)), data := none, low := false }

/-- That revolution with the data window of a sector open since tick 600. -/
def opened (sec : Nat) : State :=
  { capturing with channel := { capturing.channel with openHeader := some { capture := headerOf sec, last := 600 } } }

/-- The 32 data words and check word of section 6.2's worked image, which pass their check. -/
def goodWords : List Word12 := [668, 3000, 3585] ++ List.replicate 29 0 ++ [937]

/-- Those words with one bit inverted, which fail it. -/
def badWords : List Word12 := [669, 3000, 3585] ++ List.replicate 29 0 ++ [937]

/-- A transition on the sampling point of a cell of 16 units, whose acceptance window is 16 wide: class 3 (R34). -/
def centred : Transition := { place := 0, half := 8, cell := 16 }

/-- The timing of a data field of 33 words, each with its one transition on the sampling point. -/
def clean : List (List Transition) := List.replicate 33 [centred]

/-! ### Commands that cannot be spelt -/

theorem test_wf_entries_fit :
    (Instr.setProfile 0 0
      { entries := List.replicate 256 (0, 0), passLimit := 1, backoff := 0, recalibrate := 0, quorum := 2, weak := 1,
        repair := 0, blindAllowed := 0, strayLimit := 1, keepStrays := 0, dead := 1, deferral := 0 }).wellFormed =
      false := by decide +kernel
theorem test_wf_scope_is_not_all : (Instr.resetUnit 0 0xFF).wellFormed = false := by decide
theorem test_wf_kind_is_unknown : (Instr.unknownKind 0 0x1A []).wellFormed = false := by decide
theorem test_wf_body_fits : (Instr.unknownKind 0 0x1B (List.replicate 1025 0)).wellFormed = false := by decide +kernel
theorem test_wf_length_is_out : (Instr.frameLengthOutOfRange 4 3).wellFormed = false := by decide
theorem test_wf_length_above : (Instr.frameLengthOutOfRange 4 4).wellFormed = true := by decide
theorem test_wf_header_ends_after_sync : (Instr.headerFieldRead 9 9 0 0 0 false).wellFormed = false := by decide
theorem test_wf_data_field_shape :
    (Instr.dataFieldRead 0 (List.replicate 32 0) (List.replicate 32 [centred]) false).wellFormed = false := by decide
theorem test_wf_data_field_words_timed :
    (Instr.dataFieldRead 0 (List.replicate 33 0) (List.replicate 32 [centred]) false).wellFormed = false ∧
    (Instr.dataFieldRead 0 (List.replicate 33 0) (List.replicate 33 []) false).wellFormed = false ∧
    (Instr.dataFieldRead 0 (List.replicate 33 0) clean false).wellFormed = true := by decide +kernel
theorem test_wf_window_has_width :
    (Instr.dataFieldRead 0 (List.replicate 33 0) (List.replicate 33 [{ centred with half := 0 }]) false).wellFormed =
      false := by decide +kernel

/-! ### The spec's worked numbers -/

/-- R167: the bytes 0x31 to 0x39 give 0x29B1. -/
theorem test_crc : crc16 [0x31, 0x32, 0x33, 0x34, 0x35, 0x36, 0x37, 0x38, 0x39] = 0x29B1 := by decide +kernel
/-- 01, Examples: a period of 401,234 under N = 400,000. -/
theorem test_deviation : deviationOf 401234 400000 = 3085 ∧ trimTargetOf 3085 = 31 ∧ trimTargetOf 2500 = 25 := by decide
/-- 01, Examples: lock at index 2, one step at index 3. -/
theorem test_slew :
    let m := Monitor.cleared.index desc 1000
    let a := m.index desc (1000 + 401234)
    let b := a.index desc (1000 + 401234 + 401000)
    m.locked = false ∧ a.currentTrim = 31 ∧ a.trimSettled = true ∧ b.currentTrim = 30 ∧ b.trimSettled = false := by decide
/-- 06: the worked image sums to 7777 and passes; inverting bit 3 of a word makes it fail. -/
theorem test_data_check : passesCheck goodWords = true ∧ passesCheck badWords = false := by decide +kernel
/-- 09: words 1234, 5670, 0001 and 4000 octal pack to 0x29, 0xCB, 0xB8, 0x00, 0x18, 0x00. -/
theorem test_packing : packWords [668, 3000, 1, 2048] = [0x29, 0xCB, 0xB8, 0x00, 0x18, 0x00] := by decide
/-- 04: the skips 0, 1, 3 and 3 of the stubborn track, L = 2. -/
theorem test_backoff : [0, 1, 2, 3].map (fun f => backoffSkip f 2) = [0, 1, 3, 3] := by decide
/-- 12.5: data syncs at 51,900, 301,900 and 351,900 fall in slots 1, 6 and 7; before D0 in none. -/
theorem test_slots :
    [51900, 301900, 351900, 1799].map (slotOf 1800 8 50000) = [some 1, some 6, some 7, none] := by decide
/-- 08: blocks 36, 41, 48 and 80 of the worked run. -/
theorem test_extents :
    let es : List Extent := [⟨63, 0, 2, 3, 4⟩, ⟨191, 2, 1, 1, 0⟩]
    [36, 41, 48, 80].map (fun b => (extentAddress es 16 b).map (·.2)) =
      [some ⟨1, 0, 4⟩, some ⟨1, 0, 3⟩, some ⟨1, 1, 12⟩, some ⟨3, 0, 0⟩] := by decide
/-- 06: the sixteenth read at weight 4 stops at +63, and a tie takes the bit just read. -/
theorem test_saturation : voteStep 60 true 4 = 63 ∧ voteStep 63 false 3 = 60 ∧ votedBit 0 false = false := by decide
/-- R34: a transition 2, 4 or 6 eighths of half the window off the sampling point is at a class's lower end, and a step
more puts it below; one step of the strobe shift moves that point by a sixteenth of the cell, here by 1 unit, and by
less where the trim shortens the cell; a word takes its worst transition's class. -/
theorem test_grading :
    [2, 3, 4, 5, 6, 7, 8, 9, -2, -3].map (fun p => marginClass { centred with place := p } 0 0) =
      [3, 2, 2, 1, 1, 0, 0, 0, 3, 2] ∧
    marginClass { centred with place := 3 } 0 1 = 3 ∧ marginClass { centred with place := -2 } 0 1 = 2 ∧
    marginClass { centred with place := 3 } (-1) 1 = 2 ∧ marginClass { centred with place := -1 } (-1) 1 = 3 ∧
    wordClass 0 0 [centred, { centred with place := -6 }, { centred with place := 4 }] = some 1 := by decide
/-- 12.5: HEADER weights are the class plus 1, under the cap, and BLIND ones 1. -/
theorem test_weights :
    wordWeight .header none 3 = 4 ∧ wordWeight .header (some 2) 3 = 2 ∧ wordWeight .blind none 3 = 1 := by decide
/-- 07: the combined actions of slots 2, 5, 6 and 9 of the worked track. -/
theorem test_quirks :
    [QuirkAction.clampOffset 1, .extraSettle 2, .extraSettle 4, .weightCap 2].foldl Actions.combine .none =
      { Actions.none with clampOffset := some 1, extraSettle := some 4, weightCap := some 2 } := by decide
/-- 02: round robin after unit 3 starts with unit 0. -/
theorem test_round_robin : State.reset.roundRobin = [0, 1, 2, 3] := by decide

/-! ### One step of each command -/

/-- R183: the straps give the rate, and nothing of the state before is left. -/
theorem test_power_on :
    (after (.powerOn 2) { capturing with hold := some 5 }).link.rate = 2 ∧
    (after (.powerOn 2) { capturing with hold := some 5 }).hold = none := by decide +kernel
/-- R178. -/
theorem test_identify : sent (after (.identify 5) State.reset) =
    some (0x80, [0x01, 0, 0x4C, 1, 0, 4, 32, 64, 24, 16, 8, 32, 4]) := by decide
/-- The fields of the descriptor of the tests. -/
def driveFields : DriveFields :=
  { model := 7, cylinders := 411, heads := 4, sectors := 8, words := 32, period := 400000, tolerance := 10000,
    dataOffset := 1800, maxOffset := 4, settle := 1 }
/-- R2: a unit with ready low waits in NOT_READY with its timer at 3 N. -/
theorem test_define_drive :
    (after (.defineDrive 5 0 driveFields) State.reset).drive 0 = unitIn .notReady := by decide
/-- R1: an odd W is out of range. -/
theorem test_define_drive_odd_words :
    sent (after (.defineDrive 5 0 { driveFields with words := 33 }) State.reset) = some (0x80, [0x02, 4]) := by decide
/-- R179: an UNDEFINED unit answers with its cylinder unknown. -/
theorem test_drive_status : sent (after (.driveStatus 5 1) State.reset) =
    some (0x80, [0x03, 0, 1, 0, 0xFF, 0xFF, 0, 0, 0, 0, 0, 0, 0, 0, 0, 0, 0, 0, 0, 0, 0, 0, 0, 0]) := by decide
/-- R19. -/
theorem test_unload : ((after (.unload 5 0) (withUnit (unitIn .idle))).drive 0).unloadLine = true := by decide
/-- R21: WRONG-STATE outside RETRACTED. -/
theorem test_reload : sent (after (.reload 5 0) (withUnit (unitIn .idle))) = some (0x80, [0x05, 6]) := by decide
/-- Profile fields at the low end of each range. -/
def profileFields : ProfileFields :=
  { entries := [(0, 0)], passLimit := 1, backoff := 0, recalibrate := 0, quorum := 2, weak := 1, repair := 0,
    blindAllowed := 0, strayLimit := 1, keepStrays := 0, dead := 1, deferral := 0 }
/-- R115: a quorum of 1 is clamped to 2, with status CLAMPED. -/
theorem test_set_profile :
    let t := after (.setProfile 5 0 { profileFields with quorum := 1 }) State.reset
    (t.unitProfiles 0).staged.quorum = 2 ∧ sent t = some (0x80, [0x06, 1]) := by decide
/-- R118. -/
theorem test_swap_profile : ((after (.swapProfile 5 3) State.reset).unitProfiles 3).swapPending = true := by decide
/-- R117 and section 7.1: the default profile. -/
theorem test_read_profile : sent (after (.readProfile 5 0 0) State.reset) =
    some (0x80, [0x08, 0, 0, 0, 5, 0, 0, 0, 0xFF, 0, 1, 1, 0, 0xFF, 0, 40, 2, 8, 3, 6, 2, 1, 4, 0, 3, 16]) := by decide
/-- The fields of slot 5 of the worked track of 07. -/
def quirkFields : QuirkFields :=
  { model := 7, headsPresent := 0, heads := 0, rangePresent := 1, low := 400, high := 800, conditionPresent := 0,
    condition := 0, action := 2, parameter := 2 }
/-- That entry. -/
def quirk : Quirk := { model := 7, heads := none, cylinders := some (400, 800), condition := none, action := .extraSettle 2 }
/-- R123. -/
theorem test_set_quirk : (after (.setQuirk 5 15 quirkFields) State.reset).quirks[15] = some quirk := by decide
/-- R124. -/
theorem test_clear_quirk :
    (after (.clearQuirk 5 15) (after (.setQuirk 5 15 quirkFields) State.reset)).quirks[15] = none := by decide
/-- R124: an empty slot. -/
theorem test_read_quirk : sent (after (.readQuirk 5 3) State.reset) = some (0x80, [0x0B, 0, 3, 0]) := by decide
/-- R131: the first entry of a table. -/
theorem test_define_extent :
    (after (.defineExtent 5 0 0 63 0 2 3 4) (withUnit (unitIn .idle))).extentsOf 0 = [⟨63, 0, 2, 3, 4⟩] := by decide
/-- Unit 0 with that extent. -/
def mapped : State := (withUnit (unitIn .notReady)).setExtents 0 [⟨63, 0, 2, 3, 4⟩]
/-- R133. -/
theorem test_clear_extents : sent (after (.clearExtents 5 0) mapped) = some (0x80, [0x0D, 0, 1, 0]) := by decide
/-- A remap entry of block 40. -/
def remap : Remap := { unit := 0, block := 40, alternate := ⟨199, 1, 5⟩ }
/-- R136: the entry takes its place, and the reply says which. -/
theorem test_set_remap :
    let t := after (.setRemap 5 0 40 199 1 5) mapped
    t.remaps = [remap] ∧ sent t = some (0x80, [0x0E, 0, 0]) := by decide
/-- R137. -/
theorem test_clear_remap : sent (after (.clearRemap 5 0 0 40) { mapped with remaps := [remap] }) =
    some (0x80, [0x0F, 0, 1]) := by decide
/-- R138: a remapped block gives its alternate and its home. -/
theorem test_map_block : sent (after (.mapBlock 5 0 40) { mapped with remaps := [remap] }) =
    some (0x80, [0x10, 0, 1, 0, 199, 1, 5, 0, 0, 2, 1, 4]) := by decide
/-- 12.4: the reply gives job 1, and the unit seeks to cylinder 12. -/
theorem test_recover_track :
    let t := after (.recoverTrack 0x140 0 12 0 0 0 0x64) (withUnit { unitIn .idle with cylinder := some 0 })
    sent t = some (0x80, [0x11, 0, 1]) ∧ t.drive 0 = { seekingUnit with heldJob := some 0 } := by decide
/-- R140: blocks 0 to 8 land on two tracks. -/
theorem test_recover_blocks : sent (after (.recoverBlocks 5 0 0 9 0 0) mapped) = some (0x80, [0x12, 0, 2, 1, 2]) := by decide
/-- R56. -/
theorem test_abort :
    ((after (.abort 5 1 0) (withJob (unitIn .notReady) (job .queued))).job 0).bind (·.endCause) = some .aborted := by decide
/-- R57: the job's state, and the record states of its track's 8 sectors. -/
theorem test_job_status :
    (sent (after (.jobStatus 5 1) (withJob (unitIn .notReady) (job .queued)))).map (fun m => (m.2.take 8, m.2.drop 35)) =
      some ([0x14, 0, 1, 0, 0, 12, 0, 0], [8, 0, 0, 0, 0, 6, 0, 0, 0, 0, 0, 6, 0, 6, 0, 0, 0]) := by decide
/-- R180: NO-JOB for a free entry. -/
theorem test_peek_sector : sent (after (.peekSector 5 32 0) State.reset) = some (0x80, [0x15, 12]) := by decide
/-- R151: 1,000 x 10 ms; the former hold had 1 tick left, which is 1 unit of 10 ms rounded up. -/
theorem test_hold :
    let t := after (.hold 5 1000) { State.reset with hold := some 1 }
    t.hold = some 100000000 ∧ sent t = some (0x80, [0x16, 0, 0, 1]) := by decide
/-- R163. -/
theorem test_read_flags :
    sent (after (.readFlags 5) { State.reset with flags := { set := 0x20001, enabled := 1, owed := 0 } }) =
      some (0x80, [0x17, 0, 2, 0, 1, 0, 0, 1, 0, 0, 0]) := by decide
/-- R160: SPINDLE_LOST stays while its mark is set. -/
theorem test_clear_flags :
    (after (.clearFlags 5 0x20001)
      { withUnit { unitIn .notReady with indexLost := true } with
        flags := { set := 0x20001, enabled := 0, owed := 0 } }).flags.set = 1 := by decide
/-- R162: a flag number above 17 is BAD-FIELD. -/
theorem test_set_notices :
    (after (.setNotices 5 0x3FFFF) State.reset).flags.enabled = 0x3FFFF ∧
    sent (after (.setNotices 5 0x40000) State.reset) = some (0x80, [0x19, 4]) := by decide
/-- R23: the unit's position is lost. -/
theorem test_reset_unit :
    ((after (.resetUnit 5 0) (withUnit { unitIn .idle with cylinder := some 12 })).drive 0).cylinder = none := by decide
/-- R182: the reset waits for its reply, and then takes effect. -/
theorem test_reset_all :
    let s := { mapped with remaps := [remap] }
    (after (.resetAll 5) s).remaps = [remap] ∧ (after .replySent (after (.resetAll 5) s)).remaps = [] := by decide +kernel
/-- R172. -/
theorem test_unknown_kind : sent (after (.unknownKind 5 0x1B []) State.reset) = some (0x80, [0x1B, 2]) := by decide
/-- R166, R167: an IDENTIFY frame, byte by byte. -/
theorem test_frame_complete :
    after (.frameComplete [0xD4, 0x00, 0x03, 0x01, 0x00, 0x05, 0xED, 0x45]) State.reset = after (.identify 5) State.reset := by
  decide +kernel
/-- R174: what a byte brings about is complete before the next: a length of 0 has its LINK_ERROR notice sent before the
READ-FLAGS frame that follows is served, whose reply shows no notice owed. -/
theorem test_bytes_in_turn :
    let s := { State.reset with flags := { State.reset.flags with enabled := 0x10000 } }
    let t := after (.frameComplete ([0xD4, 0x00, 0x00] ++ ({ kind := 0x17, tag := 5, body := [] } : Frame).bytes)) s
    sent t = some (0x84, [16, 0xFF, 0xFF]) ∧
    t.link.replies.map (·.frame.body) = [[0x17, 0, 1, 0, 0, 1, 0, 0, 0, 0, 0]] := by decide +kernel
/-- R168: LINK_ERROR. -/
theorem test_frame_length : (after (.frameLengthOutOfRange 0 2) State.reset).flags.set = 0x10000 := by decide
/-- A frame in progress since tick 7. -/
def receiving : State :=
  { State.reset with link := { State.reset.link with phase := .content, assembly := [0, 4], gapFrom := some 7 } }
/-- R168: the gap is more than 200,000 ticks. -/
theorem test_frame_gap :
    let t := after .frameGapTimeout receiving
    t.link.phase = .hunt ∧ t.flags.set = 0x10000 ∧ t.clock = 200008 := by decide
/-- R153, R169: no flag, and the hold is released. -/
theorem test_break :
    let t := after .lineBreak { receiving with hold := some 9 }
    t.link.phase = .hunt ∧ t.flags.set = 0 ∧ t.hold = none := by decide
/-- A message of a source in transmission. -/
def sending (source : TxSource) (s : State) : State :=
  { s with link := { s.link with tx := some { source := source, frame := { kind := 0, tag := 0, body := [] } } } }
/-- R175: a completion waits for request-to-send. -/
theorem test_rts_dropped :
    (after .noticeSent (after (.requestToSendDropped false) (sending .notice State.reset))).link.tx.isSome = true ∧
    (after .noticeSent (after (.requestToSendDropped true) (sending .notice State.reset))).link.tx = none := by decide
/-- R175: while request-to-send is dropped, a second drop does nothing (log entry 12). -/
theorem test_rts_dropped_twice :
    let s := after (.requestToSendDropped false) (sending .notice State.reset)
    after (.requestToSendDropped true) s = s := by decide
/-- R158: the lowest owed flag's notice leaves the owed set. -/
theorem test_rts_asserted :
    let t := after .requestToSendAsserted { State.reset with flags := { set := 0x30000, enabled := 0x30000, owed := 0x30000 } }
    sent t = some (0x84, [16, 0xFF, 0xFF]) ∧ t.flags.owed = 0x20000 := by decide
/-- A reply of no effect. -/
def reply : Reply := { frame := { kind := 0x80, tag := 0, body := [] }, resetAll := false }
/-- R173. -/
theorem test_reply_sent :
    (after .replySent (sending .reply { State.reset with link := { State.reset.link with replies := [reply] } })).link.replies =
      [] := by decide
/-- R174. -/
theorem test_notice_sent : (after .noticeSent (sending .notice State.reset)).link.tx = none := by decide
/-- The delivery of an entry alone in the queue. -/
def delivering (e : Entry) (s : State) : State := sending (.delivery e) { s with queue := [e] }
/-- R146. -/
theorem test_sector_sent :
    (((after .sectorSent (delivering (.sector 0 2) (withJob (unitIn .notReady) (job .queued)))).record 0 2).map (·.delivery)) =
      some .sent := by decide
/-- A kept stray. -/
def stray : Stray := { unit := 0, tag := 0x0140, h1 := 13, h2 := 5, h3 := 4077, words := goodWords }
/-- R147. -/
theorem test_stray_sent :
    (after .straySent (delivering (.stray 3) { State.reset with strays := State.reset.strays.set 3 (some stray) })).strays[3] =
      none := by decide
/-- A DRAINING job with its records final. -/
def ended : Job := { job .draining with endCause := some .aborted, finalized := true, records := [] }
/-- R55. -/
theorem test_job_end_sent : (after .jobEndSent (delivering (.jobEnd 0) (withJob (unitIn .notReady) ended))).job 0 = none := by
  decide
/-- R153. -/
theorem test_hold_expires : (after .holdExpires { State.reset with hold := some 9 }).hold = none := by decide
/-- 12.4, h1 to h2: the settled unit starts its pass, in both orders of budget and settling. -/
theorem test_index_settles :
    let s := { withJob { unitIn .settling with settleCount := 1, cylinder := some 12, target := some 12, heldJob := some 0 }
      (job .positioning) with clock := 400000 }
    ([0, 1, 2, 3] : List (Fin 4)).all (fun b =>
      let t := s.indexIn 0 .nothing { faultFirst := true, budgetAt := b, deferralAt := 4, swapAt := 5 }
      (t.drive 0).state == .tracking && (t.job 0).map (·.budget) == some 1999 &&
        (t.job 0).map (·.state) == some .reading) = true := by decide
/-- R30: the capture opens at the index after the grant. -/
theorem test_index_opens :
    let s := { withJob trackingUnit (job .reading) with
      clock := 400000, channel := { Channel.powerOn with state := .reserved 0 } }
    (s.indexIn 0 .nothing { faultFirst := false, budgetAt := 0, deferralAt := 0, swapAt := 0 }).channel.rev =
      some { revolution with pitch := 50000, window := 12500 } := by decide
/-- R72: at the index that closes a captured revolution the next pass is the new profile's, whether the swap comes first
or last: its entry at place 1 asks for offset 2 where the former one asks for 0 and a strobe shift. -/
theorem test_index_closing_swap :
    let staged := { Profile.default with passes := [⟨0, 0⟩, ⟨2, 0⟩] }
    let s := { capturing with clock := 400000, channel := { capturing.channel with liveSeen := true } }.setProfiles 0
      { active := .default, staged := staged, swapPending := true }
    ([0, 2, 5] : List (Fin 6)).all (fun place =>
      let t := s.indexIn 0 .nothing { faultFirst := true, budgetAt := 2, deferralAt := 4, swapAt := place }
      (t.drive 0).prepared.map (fun p => (p.position, p.requested)) == some (1, 2) && (t.drive 0).offset == 2 &&
        (t.job 0).map (·.passCount) == some 1 && t.channel.state == .idle) = true := by decide +kernel
/-- R17: SPINDLE_LOST(0), and the unload of a unit that was reading. -/
theorem test_index_timeout :
    let t := after (.indexTimeout 0) (withJob trackingUnit (job .reading))
    t.flags.set = 1 ∧ (t.drive 0).state = .unloading ∧ (t.job 0).bind (·.endCause) = some .driveRetracted ∧
      t.clock = 1200000 := by decide
/-- R9. -/
theorem test_ready_rise : ((after (.readyRise 0) (withUnit (unitIn .notReady))).drive 0).state = .idle := by decide
/-- R9. -/
theorem test_ready_fall :
    ((after (.readyFall 0) (withUnit { unitIn .idle with ready := true, cylinder := some 12 })).drive 0) = unitIn .notReady := by
  decide
/-- R11: one settle revolution, at the target. -/
theorem test_seek_complete :
    let d := (after (.seekComplete 0) (withJob seekingUnit (job .positioning))).drive 0
    d.state = .settling ∧ d.settleCount = 1 ∧ d.cylinder = some 12 := by decide
/-- R12: a restore is followed by the seek to the job's cylinder. -/
theorem test_restore_complete :
    let s := withJob { seekingUnit with state := .recalibrating, cylinder := none, motion := .restore 20000000 } (job .positioning)
    let d := (after (.restoreComplete 0) s).drive 0
    d.state = .seeking ∧ d.cylinder = some 0 ∧ d.motion = .seek 5000000 := by decide
/-- R13: the first seek error restores. -/
theorem test_seek_error :
    let t := after (.seekErrorIndication 0) (withJob seekingUnit (job .positioning))
    (t.drive 0).motion = .restore 20000000 ∧ (t.drive 0).seekErrors = 1 ∧ t.flags.set = 8 := by decide
/-- R13: the third ends the job. -/
theorem test_seek_timeout :
    let t := after (.seekTimeout 0) (withJob { seekingUnit with seekErrors := 2 } (job .positioning))
    (t.job 0).bind (·.endCause) = some .seekFailed ∧ (t.drive 0).state = .idle ∧ t.clock = 5000000 := by decide
/-- R12, R13. -/
theorem test_restore_timeout :
    let s := withJob { seekingUnit with state := .recalibrating, motion := .restore 20000000 } (job .positioning)
    ((after (.restoreTimeout 0) s).drive 0).motion = .restore 40000000 := by decide
/-- R20: RETRACTED(0) is flag 2. -/
theorem test_heads_unloaded :
    let t := after (.headsUnloaded 0) (withUnit (unitIn .unloading))
    (t.drive 0).state = .retracted ∧ t.flags.set = 4 := by decide
/-- R31, R32: cylinder 12, head 0, sector 5, check 4078: the words sum to 4095. -/
theorem test_header_field_read :
    (after (.headerFieldRead 500 600 12 5 4078 false) capturing).channel.openHeader =
      some { capture := headerOf 5, last := 600 } := by decide
/-- R80, R88: a passing read of a wanted sector. -/
theorem test_data_field_read :
    let t := after (.dataFieldRead 700 goodWords clean false) (opened 2)
    (t.record 0 2).map (·.state) = some .good ∧ t.queue = [.sector 0 2] := by decide +kernel
/-- R84, R93, R95: a failing read of one begins voting: its voted image is the words read, its first word's two
transitions grade it class 1, weight 2, and its last word is of class 3, weight 4. -/
theorem test_data_field_votes :
    let t := after (.dataFieldRead 700 badWords (clean.set 0 [centred, { centred with place := 5 }]) false) (opened 2)
    (t.record 0 2).map (·.image) = some (some ⟨.voted, badWords⟩) ∧ (t.slab 0).map (·.folds) = some 1 ∧
    (t.slab 0).map (fun k => (k.acc.take 3, k.acc.drop 393)) = some ([2, -2, 2], [4, -4, -4]) := by decide +kernel
/-- R33: a header's window closes without data, and its capture counts. -/
theorem test_data_window_closes :
    let t := after .dataWindowCloses (opened 2)
    t.channel.openHeader = none ∧ (t.job 0).map (·.counters.headerCaptures) = some 1 := by decide
/-- A slab of sector 2 whose last vote failed by one weak bit, bit 0 of word 0, with its search in progress. -/
def searching : State :=
  { ((withJob (unitIn .notReady) { job .reading with records := (job .reading).records.modify 2 (fun r =>
      { r with state := .voting, slab := some 0, image := some ⟨.voted, badWords⟩ }) }).setSlab 0
    (some { Slab.fresh 0 2 33 { quorum := 3, weak := 6, repair := 2 } with folds := 3, status := .searching })) with
    search := some { slab := 0, bits := [0], candidates := candidatesOf badWords [0] } }
/-- R104: one candidate passes. -/
theorem test_search_end :
    let t := after .searchEnd searching
    (t.record 0 2).map (·.image) = some (some ⟨.final, goodWords⟩) ∧ t.slab 0 = none ∧ t.search = none := by decide +kernel
/-- R52, R109: the same for a job that ended PASSES_EXHAUSTED, which is then finalized (R54): its other records MISSING. -/
theorem test_search_end_draining :
    let t := after .searchEnd (searching.modJob 0 (fun x => { x with state := .draining, endCause := some .passesExhausted }))
    (t.record 0 2).map (·.state) = some .repaired ∧ (t.record 0 5).map (·.state) = some .missing ∧
      (t.job 0).map (·.finalized) = some true ∧ t.link.tx.map (·.source) = some (.delivery (.sector 0 2)) := by
  decide +kernel
/-- An empty queue lets a tick pass; a command is taken from the front. -/
theorem test_step :
    step State.reset = .next { State.reset with clock := 1 } ∧
    step { State.reset with pending := [.lineBreak, .searchEnd] } = .next { State.reset with pending := [.searchEnd] } :=
  ⟨rfl, rfl⟩


/-! ### States and operands that meet the hypotheses of each statement -/

/-- A state with no job has none of any unit. -/
theorem no_job {s : State} (h : ∀ j, s.job j = none) (n : UnitId) : ¬ s.HasJob n := by
  rintro ⟨j, x, hx, _⟩; rw [h j] at hx; cases hx

/-- A fact of every live job, checked entry by entry. -/
theorem each_job {s : State} {p : JobIx → Job → Prop} (h : ∀ j, ∀ x ∈ s.job j, p j x) : ∀ j x, s.job j = some x → p j x :=
  fun j x hx => h j x hx

theorem meets_StepRunsTheQueue : State.reset.pending = [] := rfl

theorem granted {s : State} (h : ∀ n, s.requesting n = false) : s.Granted := fun _ => h

theorem reset_line : State.reset.LineStands :=
  ⟨⟨by decide, by decide⟩, .inl rfl, fun _ _ => by decide, by show _ ↔ _; decide, fun m h => (nomatch h),
    granted (by decide)⟩

theorem meets_FrameBytesAreTheFrame :
    let f : Frame := { kind := 0x1B, tag := 5, body := List.replicate 1024 0 }
    f.body.length ≤ 1024 ∧ State.reset.LineStands ∧ State.reset.link.phase = .hunt ∧ State.reset.link.assembly = [] ∧
    requestFrame (.unknownKind 5 0x1B (List.replicate 1024 0)) = some f ∧
    ∃ t, exec (.frameComplete [0xD4, 0x04]) State.reset = .next t := by
  refine ⟨?_, reset_line, rfl, rfl, rfl, _, rfl⟩
  exact Nat.le_of_eq List.length_replicate

theorem meets_FramesDiscarded :
    (0 : BitVec 16) ≠ crc16 (Frame.covered { kind := 1, tag := 5, body := [] }) ∧ State.reset.LineStands ∧
    State.reset.link.phase = .hunt ∧
    (0#8).toNat * 256 + (2#8).toNat < 3 ∧ 1027 < (4#8).toNat * 256 + (4#8).toNat ∧
    receiving.link.gapFrom = some 7 ∧ receiving.link.phase ≠ .hunt ∧ receiving.link.buffer.length < 2 ∧
    State.reset.link.gapFrom = none :=
  ⟨by decide +kernel, reset_line, rfl, by decide, by decide, rfl, by decide, by decide, rfl⟩

/-- A state with replies and frames that wait. -/
def waiting (replies frames : Nat) : State :=
  { State.reset with link := { State.reset.link with
      replies := List.replicate replies reply
      buffer := List.replicate frames { kind := 1, tag := 5, body := [] } } }

theorem meets_RequestsRunInTurn :
    requestFrame (.identify 5) = some { kind := 1, tag := 5, body := [] } ∧
    ((waiting 7 0).link.buffer = [] ∧ (waiting 7 0).link.replies.length < 8 ∧ (waiting 7 0).link.resetWaiting = false) ∧
    (8 ≤ (waiting 8 1).link.replies.length ∧ (waiting 8 1).link.buffer.length < 2) ∧
    (8 ≤ (waiting 8 2).link.replies.length ∧ 2 ≤ (waiting 8 2).link.buffer.length) := by decide

theorem meets_RequestsChecked_refused :
    (serve { kind := 0x1B, tag := 5, body := [] } State.reset).status ≠ .ok ∧
    (serve { kind := 0x1B, tag := 5, body := [] } State.reset).status ≠ .clamped := by decide

/-- The hypothesis on the link that every statement of a request makes. -/
theorem meets_IdentifyAndStatusAnswer : State.reset.takesAtOnce := ⟨rfl, rfl⟩

theorem meets_RequestsChecked :
    ((0 : Byte) = 0 ∧ 0x1A < (0x1B#8).toNat ∧ State.reset.takesAtOnce) ∧
    (1 ≤ (0x01#8).toNat ∧ (0x01#8).toNat ≤ 0x1A ∧ (0x01#8) ≠ 6 ∧ [(0 : Byte)].length ≠ 0) ∧
    (1 ≤ (0x1A#8).toNat ∧ (0x1A#8).toNat ≤ 0x1A ∧ (0x1A#8) ≠ 6 ∧ ([] : List Byte).length ≠ 1) ∧
    ([(0 : Byte)].length < 2 ∧ (0 :: 3 :: List.replicate 16 (0 : Byte)).length ≠
      13 + 2 * ((0 :: 3 :: List.replicate 16 (0 : Byte)).getD 1 0).toNat) :=
  ⟨⟨rfl, by decide, rfl, rfl⟩, by decide, by decide, by decide⟩

theorem meets_RequestsChecked_unit :
    ∀ p ∈ ([(0x02, 19), (0x03, 0), (0x04, 0), (0x05, 0), (0x06, 12), (0x07, 0), (0x08, 1), (0x0C, 9), (0x0D, 0), (0x0E, 7),
        (0x0F, 4), (0x10, 3), (0x11, 10), (0x12, 8)] : List (Nat × Nat)),
      lengthOk p.1 ((4 : Byte) :: List.replicate p.2 0) = true ∧ 3 < (((4 : Byte) :: List.replicate p.2 0).headD 0).toNat := by
  decide

/-- Descriptor fields at the low ends of their ranges, D0 at its high end. -/
def leastFields : DriveFields :=
  { model := 0, cylinders := 1, heads := 1, sectors := 1, words := 32, period := 100000, tolerance := 1000,
    dataOffset := 99999, maxOffset := 0, settle := 0 }

/-- Descriptor fields at the high ends of their ranges. -/
def greatestFields : DriveFields :=
  { model := 255, cylinders := 1024, heads := 16, sectors := 32, words := 256, period := 1000000, tolerance := 30000,
    dataOffset := 31249, maxOffset := 4, settle := 15 }

theorem least_legal : LegalDriveFields leastFields := by constructor <;> decide
theorem greatest_legal : LegalDriveFields greatestFields := by constructor <;> decide

theorem meets_DefineDriveActs_checks :
    (¬ LegalDriveFields { greatestFields with dataOffset := 31250 }) ∧
    (withJob (unitIn .notReady) (job .queued)).HasJob 0 ∧
    (¬ mapped.HasJob 0 ∧ mapped.MapForbids 0 greatestFields) ∧
    (¬ (withUnit (unitIn .seeking)).HasJob 0 ∧ ¬ (withUnit (unitIn .seeking)).MapForbids 0 leastFields ∧
      ((withUnit (unitIn .seeking)).drive 0).state ∈ [.seeking, .recalibrating, .unloading]) := by
  refine ⟨fun h => absurd h.dataOffset (by decide), ⟨0, _, rfl, rfl⟩,
    ⟨no_job (by decide) 0, .inl (by decide), _, rfl, by decide⟩, no_job (by decide) 0, ?_, by decide⟩
  rintro ⟨h | ⟨r, hr, _⟩, _⟩
  · exact h rfl
  · cases hr

theorem meets_DefineDriveActs_installs :
    LegalDriveFields leastFields ∧ ¬ State.reset.HasJob 0 ∧ ¬ State.reset.MapForbids 0 leastFields ∧
    (State.reset.drive 0).state ∉ [.seeking, .recalibrating, .unloading, .retracted] ∧
    ¬ (withUnit (unitIn .retracted)).HasJob 0 ∧ ¬ (withUnit (unitIn .retracted)).MapForbids 0 leastFields ∧
    ((withUnit (unitIn .retracted)).drive 0).state = .retracted := by
  refine ⟨least_legal, no_job (by decide) 0, ?_, by decide, no_job (by decide) 0, ?_, rfl⟩ <;>
  · rintro ⟨h | ⟨r, hr, _⟩, _⟩
    · exact h rfl
    · cases hr

theorem meets_UnloadAndReloadAct_unload :
    (((withUnit (unitIn .idle)).drive 0).state ∉ [.undefined, .unloading, .retracted] ∧
      ((withUnit (unitIn .idle)).drive 0).heldJob = none) ∧
    (((holding .settling .positioning).drive 0).state ∉ [.undefined, .unloading, .retracted] ∧
      ((holding .settling .positioning).drive 0).heldJob = some 0 ∧
      (holding .settling .positioning).job 0 = some (job .positioning) ∧ (job .positioning).unit = 0 ∧
      (job .positioning).state ≠ .draining) ∧
    (State.reset.drive 0).state ∈ [.undefined, .unloading, .retracted] := by decide

theorem meets_UnloadAndReloadAct_reload :
    (((withUnit (unitIn .retracted)).drive 0).state = .retracted ∧
      ((withUnit (unitIn .retracted)).drive 0).descriptor = some desc ∧
      ((withUnit (unitIn .retracted)).drive 0).ready = false) ∧
    (((withUnit { unitIn .retracted with ready := true }).drive 0).ready = true ∧
      ¬ (withUnit { unitIn .retracted with ready := true }).HasJob 0) ∧
    ((withUnit (unitIn .idle)).drive 0).state ≠ .retracted :=
  ⟨by decide, ⟨rfl, no_job (by decide) 0⟩, by decide⟩

theorem meets_SetProfileStages :
    (¬ LegalProfileFields { profileFields with entries := [] } ∧ ¬ LegalProfileFields { profileFields with keepStrays := 2 }) ∧
    LegalProfileFields profileFields ∧
    LegalProfileFields { profileFields with entries := List.replicate 16 (0x80, 0x7F), blindAllowed := 1, keepStrays := 1 } ∧
    (State.reset.unitProfiles 0).swapPending = false ∧
    ((State.reset.setProfiles 0 { UnitProfiles.powerOn with swapPending := true }).unitProfiles 0).swapPending = true :=
  ⟨⟨fun h => absurd h.entries (by decide), fun h => absurd h.keepStrays (by decide)⟩,
    ⟨by decide, by decide, by decide⟩, ⟨by decide, by decide, by decide⟩, rfl, rfl⟩

theorem meets_ProfilesSwapAndRead :
    ((0 : Byte) = 0 ∧ Profile.default = (State.reset.unitProfiles 0).active) ∧
    ((1 : Byte) = 1 ∧ Profile.default = (State.reset.unitProfiles 0).staged) ∧ (2 : Byte) ≠ 0 ∧ (2 : Byte) ≠ 1 := by decide

/-- Action code 0 names no action. -/
theorem no_action_zero {p : Byte} {a : QuirkAction} {c : Byte} (h : ActionNamed c p a) : c ≠ 0 := by cases h <;> decide

theorem meets_QuirkSlotsServed_set :
    (15 : Byte) = BitVec.ofNat 8 (15 : Fin 16).val ∧ quirk.NamedBy quirkFields ∧ 15 < (16 : Byte).toNat ∧
    ¬ ∃ q : Quirk, q.NamedBy { quirkFields with action := 0 } :=
  ⟨by decide,
    ⟨by decide, .inl (by decide), .inr (by decide), .inl (by decide), .extraSettle 2 (by decide) (by decide)⟩, by decide,
    fun ⟨_, h⟩ => no_action_zero h.action rfl⟩

/-- Every action at the ends of its parameter's range. -/
theorem meets_QuirkSlotsServed_actions :
    ActionNamed 1 0 (.clampOffset 0) ∧ ActionNamed 1 4 (.clampOffset 4) ∧ ActionNamed 2 15 (.extraSettle 15) ∧
    ActionNamed 3 1 (.headerMask 1) ∧ ActionNamed 3 11 (.headerMask 11) ∧ ActionNamed 4 1 (.weightCap 1) ∧
    ActionNamed 4 4 (.weightCap 4) ∧ ActionNamed 5 255 .noBlind ∧ ActionNamed 6 255 .noVote :=
  ⟨.clampOffset 0 (by decide), .clampOffset 4 (by decide), .extraSettle 15 (by decide) (by decide),
    .headerMask 1 (by decide) (by decide), .headerMask 11 (by decide) (by decide), .weightCap 1 (by decide) (by decide),
    .weightCap 4 (by decide) (by decide), .noBlind _, .noVote _⟩

theorem meets_QuirkSlotsServed_cleared :
    (0 : Byte) = BitVec.ofNat 8 (0 : Fin 16).val ∧ State.reset.quirks[(0 : Fin 16)] = none ∧
    { State.reset with quirks := State.reset.quirks.set 15 (some quirk) }.quirks[(15 : Fin 16)] = some quirk ∧
    15 < (16 : Byte).toNat := by decide

theorem meets_QuirksCombine :
    let narrow := { quirk with cylinders := some (12, 12), action := .extraSettle 4 }
    let slots := (State.reset.quirks.set 15 (some { quirk with cylinders := none })).set 0 (some narrow)
    let s := { withJob trackingUnit (job .reading) with quirks := slots }
    s.job 0 = some (job .reading) ∧ (s.combined (s.evaluate 0 12 0 0)).extraSettle = some 4 ∧
    slotSet (s.evaluate 0 12 0 0) = 0x8001 := by decide

/-- Unit 0 with two extents, the second up to the last cylinder, and one remap entry. -/
def mapped2 : State :=
  { (withUnit (unitIn .notReady)).setExtents 0 [⟨63, 0, 2, 3, 4⟩, ⟨3319, 4, 1, 1, 0⟩] with remaps := [remap] }

/-- The extent that replaces the first of them, or the last that fits. -/
theorem ordered_first : mapped2.ExtentOrdered 0 0 63 :=
  ⟨fun i p h => absurd h (by omega), fun q h => by cases h; decide⟩

theorem fits_last : mapped2.ExtentFits 0 1 ⟨3319, 4, 1, 1, 0⟩ desc where
  heads := by decide
  interleave := by decide
  skew := by decide
  cylinder := by decide
  blocks := by
    intro b h0 h1
    have e : firstBlock (mapped2.extentsOf 0) 1 = 64 := by decide
    rw [e] at h0 ⊢; simp only [desc] at *; omega
  after := by intro q b h; cases h

theorem ordered_last : mapped2.ExtentOrdered 0 1 3319 :=
  ⟨fun i p h hp => by obtain rfl : i = 0 := by omega
                      cases hp; decide, fun q h => by cases h⟩

theorem no_block_job {s : State} (h : ∀ j, s.job j = none) (n : UnitId) : ¬ s.HasBlockJob n := by
  rintro ⟨j, x, hx, _⟩; rw [h j] at hx; cases hx

/-- A job made from blocks. -/
def blockJob : Job := { job .queued with records := [recordAdmitted true (some 36)] }

theorem meets_ExtentsServed_checks :
    mapped2.takesAtOnce ∧ 3 < (4 : Byte).toNat ∧ 7 < (8 : Byte).toNat ∧ (0 : Byte) = unitByte 0 ∧ (7 : Byte).toNat ≤ 7 ∧
    (State.reset.drive 0).descriptor = none ∧ (mapped2.drive 0).descriptor = some desc ∧
    (mapped2.extentsOf 0).length < (3 : Byte).toNat ∧ ¬ mapped2.ExtentOrdered 0 0 3319 ∧
    ((1 : Byte).toNat ≤ (mapped2.extentsOf 0).length ∧ mapped2.ExtentOrdered 0 1 3319 ∧
      ¬ mapped2.ExtentFits 0 1 ⟨3319, 4, 0, 1, 0⟩ desc ∧ mapped2.ExtentFits 0 1 ⟨3319, 4, 1, 1, 0⟩ desc) ∧
    (mapped2.setJob 0 (some blockJob)).HasBlockJob 0 :=
  ⟨⟨rfl, rfl⟩, by decide, by decide, by decide, by decide, rfl, rfl, by decide,
    fun h => absurd (h.below _ rfl) (by decide),
    ⟨by decide, ordered_last, fun h => absurd h.heads (by decide), fits_last⟩,
    0, _, rfl, rfl, _, List.mem_singleton.2 rfl, rfl⟩

theorem meets_ExtentsServed_written :
    ((mapped2.drive 0).descriptor = some desc ∧ (1 : Byte).toNat ≤ 7 ∧ (1 : Byte).toNat ≤ (mapped2.extentsOf 0).length ∧
      mapped2.ExtentOrdered 0 1 3319 ∧ mapped2.ExtentFits 0 1 ⟨3319, 4, 1, 1, 0⟩ desc ∧ ¬ mapped2.HasBlockJob 0) ∧
    (State.reset.drive 0).state = .undefined ∧ (mapped2.drive 0).state ≠ .undefined ∧
    (mapped2.setJob 0 (some blockJob)).HasBlockJob 0 :=
  ⟨⟨rfl, by decide, by decide, ordered_last, fits_last, no_block_job (by decide) 0⟩, rfl, by decide,
    0, _, rfl, rfl, _, List.mem_singleton.2 rfl, rfl⟩

/-- That map with a full remap list. -/
def fullMap : State := { mapped2 with remaps := (List.range 32).map (fun b => ⟨0, b, ⟨b, 0, 0⟩⟩) }

theorem meets_RemapsSetAndCleared :
    (State.reset.drive 0).descriptor = none ∧ (mapped2.drive 0).descriptor = some desc ∧
    desc.cylinders ≤ (411#16).toNat ∧ desc.heads ≤ (4#8).toNat ∧ desc.sectors ≤ (8#8).toNat ∧
    ((410#16).toNat < desc.cylinders ∧ (3#8).toNat < desc.heads ∧ (7#8).toNat < desc.sectors) ∧
    ¬ mapped2.Inside 0 (3320#24).toNat ∧ mapped2.Inside 0 (3319#24).toNat ∧
    (∃ x ∈ mapped2.remaps, x.unit = 0 ∧ (x.block = 40 ∨ x.alternate = ⟨1, 1, 1⟩)) ∧
    ((∀ x ∈ mapped2.remaps, x.unit = 0 → x.block ≠ 3319 ∧ x.alternate ≠ ⟨410, 3, 7⟩) ∧ mapped2.remaps.length < 32 ∧
      remapsSorted mapped2.remaps) ∧
    (fullMap.Inside 0 3319 ∧ (∀ x ∈ fullMap.remaps, x.unit = 0 → x.block ≠ 3319 ∧ x.alternate ≠ ⟨410, 3, 7⟩) ∧
      32 ≤ fullMap.remaps.length) ∧
    ((2 : Byte) ≠ 0 ∧ (2 : Byte) ≠ 1) := by
  refine ⟨rfl, rfl, by decide, by decide, by decide, by decide, ?_, ⟨_, rfl, by decide⟩, by decide,
    ⟨by decide, by decide, List.pairwise_singleton ..⟩, ⟨⟨_, rfl, by decide⟩, by decide, by decide⟩, by decide⟩
  rintro ⟨e, he, hb⟩; cases he; exact absurd hb (by decide)

theorem meets_MapBlockTranslates :
    (State.reset.drive 0).descriptor = none ∧ (mapped2.drive 0).descriptor = some desc ∧
    ¬ mapped2.Inside 0 (3320#24).toNat ∧
    (mapped2.Inside 0 (63#24).toNat ∧ mapped2.HoldsBlock 0 0 ⟨63, 0, 2, 3, 4⟩ (63#24).toNat ∧
      ∀ x ∈ mapped2.remaps, x.unit = 0 → x.block ≠ (63#24).toNat) ∧
    (mapped2.Inside 0 (64#24).toNat ∧ mapped2.HoldsBlock 0 1 ⟨3319, 4, 1, 1, 0⟩ (64#24).toNat ∧
      ∀ x ∈ mapped2.remaps, x.unit = 0 → x.block ≠ (64#24).toNat) ∧
    (mapped2.Inside 0 (40#24).toNat ∧ mapped2.HoldsBlock 0 0 ⟨63, 0, 2, 3, 4⟩ (40#24).toNat ∧ remap ∈ mapped2.remaps ∧
      remap.unit = 0 ∧ remap.block = (40#24).toNat ∧
      ∀ y ∈ mapped2.remaps, y.unit = 0 → y.block = (40#24).toNat → y = remap) := by
  refine ⟨rfl, rfl, ?_, ⟨⟨_, rfl, by decide⟩, ⟨rfl, by decide, by intro i p h; omega⟩, by decide⟩,
    ⟨⟨_, rfl, by decide⟩, ⟨rfl, by decide, ?_⟩, by decide⟩,
    ⟨_, rfl, by decide⟩, ⟨rfl, by decide, by intro i p h; omega⟩, List.mem_singleton.2 rfl, rfl, by decide, by decide⟩
  · rintro ⟨e, he, hb⟩; cases he; exact absurd hb (by decide)
  · intro i p h hp; obtain rfl : i = 0 := by omega
    cases hp; decide

theorem no_track {s : State} (n : UnitId) (c h : Nat) (hj : ∀ j, ∀ x ∈ s.job j, ¬ (x.unit = n ∧ x.cylinder = c ∧ x.head = h)) :
    ¬ s.TrackTaken n c h := fun ⟨j, x, hx, e⟩ => hj j x hx e

/-- A full job table: the first job of unit 0, the others of unit 1. -/
def fullTable : State :=
  { withUnit (unitIn .notReady) with
    jobs := (Vector.replicate 32 (some { job .queued with unit := 1 })).set 0 (some (job .queued)) }

theorem meets_RecoverTrackServed_checks :
    1 < (2 : Byte).toNat ∧ (1 : Byte).toNat ≤ 1 ∧ (State.reset.drive 0).descriptor = none ∧
    (fullTable.drive 0).descriptor = some desc ∧
    desc.cylinders ≤ (411#16).toNat ∧ desc.heads ≤ (4#8).toNat ∧ (∀ i, i < desc.sectors → (0xFFFFFF00#32).getLsbD i = false) ∧
    ((410#16).toNat < desc.cylinders ∧ (3#8).toNat < desc.heads ∧ ∃ i, i < desc.sectors ∧ (0x80#32).getLsbD i = true) ∧
    fullTable.TrackTaken 0 12 0 ∧ ¬ fullTable.TrackTaken 0 410 3 ∧ ∀ j, fullTable.job j ≠ none :=
  ⟨by decide, by decide, rfl, rfl, by decide, by decide, by decide, ⟨by decide, by decide, 7, by decide, by decide⟩,
    ⟨0, _, rfl, rfl, rfl, rfl⟩, no_track 0 410 3 (by decide), by decide⟩

theorem meets_RecoverTrackServed_admits :
    ((withJob (unitIn .tracking) (job .queued)).drive 0).descriptor = some desc ∧
    ¬ (withJob (unitIn .tracking) (job .queued)).TrackTaken 0 410 3 ∧
    (withJob (unitIn .tracking) (job .queued)).LowestFree 1 ∧
    ((withJob (unitIn .tracking) (job .queued)).drive 0).state ≠ .idle ∧
    (∃ i, i < desc.sectors ∧ (0x180#32).getLsbD i = true) ∧ (∃ i, desc.sectors ≤ i ∧ (0x180#32).getLsbD i = true) ∧
    ∀ i, desc.sectors ≤ i → i < 32 → (0x80#32).getLsbD i = false :=
  ⟨rfl, no_track 0 410 3 (by decide), ⟨rfl, by decide⟩, by decide, ⟨7, by decide⟩, ⟨8, by decide⟩, by decide⟩

/-- An IDLE unit whose quirk in slot 15 asks for 2 revolutions of settling from cylinder 400 on. -/
def quirky (at_ : Option Nat) : State :=
  { withUnit { unitIn .idle with cylinder := at_ } with quirks := State.reset.quirks.set 15 (some quirk) }

theorem meets_IdleUnitTakesJob :
    (∀ at_, ((quirky at_).drive 0).descriptor = some desc ∧ ¬ (quirky at_).HasJob 0 ∧ (quirky at_).LowestFree 0 ∧
      ((quirky at_).drive 0).state = .idle ∧ ((quirky at_).unitProfiles 0).active.passes ≠ [] ∧
      1 ≤ ((quirky at_).unitProfiles 0).active.passLimit ∧ (quirky at_).directions[(0 : UnitId)] = .up ∧
      ((quirky at_).drive 0).cylinder = at_) ∧
    ((410#16).toNat < desc.cylinders ∧ (3#8).toNat < desc.heads ∧ ∃ i, i < desc.sectors ∧ (0x80#32).getLsbD i = true) ∧
    ((11#16).toNat < 12 ∧ 12 < (410#16).toNat) ∧
    ((quirky (some 410)).combined ((quirky (some 410)).evaluate 0 (410#16).toNat 3 0)).extraSettle.getD 0 ≠ 0 ∧
    ((quirky (some 399)).combined ((quirky (some 399)).evaluate 0 (399#16).toNat 3 0)).extraSettle.getD 0 = 0 := by
  refine ⟨fun at_ => ⟨rfl, no_job (s := quirky at_) (fun j => ?_) 0, ⟨rfl, nofun⟩, rfl, ?_, ?_, rfl, rfl⟩,
    ⟨by decide, by decide, 7, by decide, by decide⟩, by decide, by decide, by decide⟩
  · exact (by decide : ∀ j, State.reset.job j = none) j
  · exact (by decide : (State.reset.unitProfiles 0).active.passes ≠ [])
  · exact (by decide : 1 ≤ (State.reset.unitProfiles 0).active.passLimit)

/-- Unit 0 with two extents, where block 40's alternate is the home of block 65. -/
def crossed : State := { mapped2 with remaps := [{ remap with alternate := ⟨4, 0, 1⟩ }] }

/-- Every block up to the last of the map is inside. -/
theorem inside_mapped2 {s : State} (h : s.extents = mapped2.extents) {b : Nat} (hb : b ≤ 3319) : s.Inside 0 b :=
  ⟨⟨3319, 4, 1, 1, 0⟩, by unfold State.extentsOf; rw [h]; rfl, hb⟩

theorem meets_RecoverBlocksChecks :
    (3 < (4 : Byte).toNat ∧ 1 < (2 : Byte).toNat ∧ (0#16).toNat < 1 ∧ 256 < (257#16).toNat) ∧
    ((0 : Byte) = unitByte 0 ∧ (1 : Byte).toNat ≤ 1 ∧ 1 ≤ (1#16).toNat ∧ (256#16).toNat ≤ 256) ∧
    (State.reset.drive 0).descriptor = none ∧ (crossed.drive 0).descriptor = some desc ∧ crossed.takesAtOnce ∧
    (∃ b, (3319#24).toNat ≤ b ∧ b < (3319#24).toNat + (2#16).toNat ∧ ¬ crossed.Inside 0 b) ∧
    ((∀ b, (40#24).toNat ≤ b → b < (40#24).toNat + (26#16).toNat → crossed.Inside 0 b) ∧
      ∃ a b, (40#24).toNat ≤ a ∧ a < b ∧ b < (40#24).toNat + (26#16).toNat ∧
        crossed.translate 0 desc.sectors a = crossed.translate 0 desc.sectors b) ∧
    (let s := crossed.setJob 0 (some { job .queued with cylinder := 3, head := 1 })
     (∀ b, (63#24).toNat ≤ b → b < (63#24).toNat + (1#16).toNat → s.Inside 0 b) ∧
      (∀ a b, (63#24).toNat ≤ a → a < b → b < (63#24).toNat + (1#16).toNat →
        s.translate 0 desc.sectors a ≠ s.translate 0 desc.sectors b) ∧
      ∃ b a, (63#24).toNat ≤ b ∧ b < (63#24).toNat + (1#16).toNat ∧ s.translate 0 desc.sectors b = some a ∧
        s.TrackTaken 0 a.cylinder a.head) ∧
    (let s := { crossed with jobs := fullTable.jobs }
     [(3, 1)].Nodup ∧
      (∀ t, t ∈ [(3, 1)] ↔ ∃ b a, (63#24).toNat ≤ b ∧ b < (63#24).toNat + (1#16).toNat ∧
        s.translate 0 desc.sectors b = some a ∧ t = (a.cylinder, a.head)) ∧
      (∀ t : Nat × Nat, t ∈ [(3, 1)] → ¬ s.TrackTaken 0 t.1 t.2) ∧ s.freeJobs < [(3, 1)].length) := by
  refine ⟨by decide, by decide, rfl, rfl, ⟨rfl, rfl⟩, ⟨3320, by decide, by decide, ?_⟩,
    ⟨fun b _ h => inside_mapped2 rfl (by simp at h; omega), 40, 65, by decide, by decide, by decide, by decide⟩,
    ⟨fun b _ h => inside_mapped2 rfl (by simp at h; omega), fun a b h1 h2 h3 => by simp at *; omega,
      63, ⟨3, 1, 1⟩, by decide, by decide, by decide, 0, _, rfl, rfl, rfl, rfl⟩,
    by decide, fun t => ?_, fun t h => ?_, by decide⟩
  · rintro ⟨e, he, hb⟩; cases he; exact absurd hb (by decide)
  · refine ⟨fun h => ⟨63, ⟨3, 1, 1⟩, by decide, by decide, by decide, List.mem_singleton.1 h⟩, ?_⟩
    rintro ⟨b, a, h1, h2, h3, rfl⟩
    obtain rfl : b = 63 := by simp at *; omega
    cases h3; decide
  · cases List.mem_singleton.1 h; exact no_track 0 3 1 (by decide)

theorem meets_RecoverBlocksCoversTheRun :
    1 ≤ (2#16).toNat ∧ (256#16).toNat ≤ 256 ∧ mapped2.Inside 0 ((63#24).toNat + (2#16).toNat - 1) ∧
    (∀ a b, (63#24).toNat ≤ a → a < b → b < (63#24).toNat + (2#16).toNat →
      mapped2.translate 0 desc.sectors a ≠ mapped2.translate 0 desc.sectors b) ∧
    (∀ b a, (63#24).toNat ≤ b → b < (63#24).toNat + (2#16).toNat → mapped2.translate 0 desc.sectors b = some a →
      a.sector < desc.sectors ∧ ¬ mapped2.TrackTaken 0 a.cylinder a.head) ∧
    (tracksOf (mapped2.landings 0 desc.sectors (63#24).toNat (2#16).toNat)).length ≤ mapped2.freeJobs ∧
    (mapped2.drive 0).state ≠ .idle ∧ ¬ mapped2.HasQueued 0 ∧ 1 ≤ (mapped2.unitProfiles 0).active.passLimit ∧
    ((mapped2.setDrive 0 (unitIn .idle)).drive 0).state = .idle := by
  refine ⟨by decide, by decide, ⟨_, rfl, by decide⟩, ?_, ?_, by decide, by decide,
    fun ⟨j, x, hx, hu, _⟩ => no_job (s := mapped2) (by decide) 0 ⟨j, x, hx, hu⟩, by decide, rfl⟩
  · intro a b h1 h2 h3
    have ha : a = 63 := by simp at *; omega
    have hb : b = 64 := by simp at *; omega
    subst ha hb; decide
  · intro b a h1 h2 h3
    refine ⟨?_, fun ⟨j, x, hx, _⟩ => no_job (s := mapped2) (by decide) x.unit ⟨j, x, hx, rfl⟩⟩
    have hb : b = 63 ∨ b = 64 := by simp at *; omega
    rcases hb with rfl | rfl <;> · cases h3; decide

/-- Unit 0 held a job in a drive state: its held job is its one job under way. -/
theorem held_settling : (holding .settling .positioning).JobsHeld := by
  show ∀ n j, _ ↔ ∃ x, x ∈ (holding .settling .positioning).job j ∧ _
  decide
theorem held_tracking : (holding .tracking .reading).JobsHeld := by
  show ∀ n j, _ ↔ ∃ x, x ∈ (holding .tracking .reading).job j ∧ _
  decide

theorem meets_AbortEndsJobs_one :
    32 < (33 : Byte).toNat ∧ (32 : Byte) = idByte 31 ∧ State.reset.job 31 = none ∧
    ((withJob (unitIn .notReady) ended).job 0 = some ended ∧ ended.state = .draining) ∧
    ((withJob (unitIn .notReady) (job .queued)).job 0 = some (job .queued) ∧ (job .queued).state ≠ .draining ∧
      ((withJob (unitIn .notReady) (job .queued)).drive (job .queued).unit).heldJob ≠ some 0) ∧
    (((holding .seeking .positioning).drive 0).heldJob = some 0 ∧
      ((holding .seeking .positioning).drive 0).state ∉ [.settling, .tracking]) ∧
    (((holding .settling .positioning).drive 0).heldJob = some 0 ∧
      ((holding .settling .positioning).drive 0).state ∈ [.settling, .tracking] ∧
      ∀ i z, (holding .settling .positioning).job i = some z → z.unit = 0 → z.state = .queued → i = 0) :=
  ⟨by decide, by decide, rfl, by decide, by decide, by decide, by decide, by decide, each_job (by decide)⟩

theorem meets_AbortEndsJobs_unit :
    3 < (4 : Byte).toNat ∧ (holding .settling .positioning).takesAtOnce ∧ (holding .settling .positioning).JobsHeld ∧
    ((holding .settling .positioning).drive 0).heldJob ≠ none ∧
    ((holding .settling .positioning).drive 0).state ∈ [.settling, .tracking] ∧
    ((holding .settling .positioning).drive 1).heldJob = none :=
  ⟨by decide, ⟨rfl, rfl⟩, held_settling, by decide, by decide, rfl⟩

/-- The slab of sector 2 with two folds, in a status. -/
def slabIn (st : RepairStatus) : Slab :=
  { Slab.fresh 0 2 33 { quorum := 3, weak := 6, repair := 2 } with folds := 2, status := st }

/-- That job with sector 2 VOTING in slab 0, and sector 5 with a raw image. -/
def votingJob : Job :=
  { job .reading with records := ((job .reading).records.modify 2 (fun r =>
      { r with state := .voting, slab := some 0, image := some ⟨.voted, badWords⟩ })).modify 5 (fun r =>
        { r with image := some ⟨.raw, badWords⟩ }) }

/-- A state whose one slab is that one, IDLE. -/
def voting (s : State) : State := (s.setJob 0 (some votingJob)).setSlab 0 (some (slabIn .idle))

/-- The repair unit at rest beside that slab. -/
theorem voting_stands {s : State} (hs : ∀ i, s.slab i = none) (hf : s.fifo = []) (hq : s.search = none) :
    (voting s).RepairStands := by
  have one : ∀ i x, (voting s).slab i = some x → i = 0 ∧ x = slabIn .idle := by
    intro i x h
    have e : (voting s).slab i = if 0 = i.val then some (slabIn .idle) else s.slab i := Vector.getElem_set (by decide) _
    rw [e, hs] at h
    split at h
    · exact ⟨Fin.ext (by omega), (Option.some.inj h).symm⟩
    · cases h
  have hf' : (voting s).fifo = [] := hf
  have hq' : (voting s).search = none := hq
  refine ⟨by rw [hf']; exact List.nodup_nil, fun i => ?_, fun i => ?_, fun _ => hf', fun i x h => ?_⟩
  · rw [hf']; refine ⟨fun h => (nomatch h), fun ⟨x, h, hx⟩ => ?_⟩
    rw [(one i x h).2] at hx; cases hx
  · rw [hq']; refine ⟨fun ⟨x, h, hx⟩ => ?_, fun ⟨f, h, _⟩ => (nomatch h)⟩
    rw [(one i x h).2] at hx; cases hx
  · obtain ⟨rfl, rfl⟩ := one i x h
    exact ⟨votingJob, _, Vector.getElem_set_self .., rfl, rfl, rfl, rfl⟩

theorem meets_JobsAreFinalized :
    ∀ q ∈ ([[], List.replicate 24 (.stray 0)] : List (List Entry)),
      let s := { voting (withJob (unitIn .notReady) (job .reading)) with queue := q }
      s.takesAtOnce ∧ s.job 0 = some votingJob ∧ votingJob.state ≠ .draining ∧ votingJob.finalized = false ∧
      s.RepairStands ∧ (∀ i, ∀ k ∈ s.slab i, k.job = 0 → k.status ≠ .searching) ∧
      (∀ r ∈ votingJob.records, r.state ≠ .bestEffort ∧ r.delivery ≠ .awaiting ∧
        (r.state ∈ [.wanted, .voting] → r.delivery = .none)) ∧
      (∀ r ∈ votingJob.records, r.state = .voting → ∃ i k, r.slab = some i ∧ s.slab i = some k) ∧
      .jobEnd 0 ∉ s.queue ∧ ∀ i z, s.job i = some z → z.unit = votingJob.unit → z.state = .queued → i = 0 := by
  intro q hq
  have st := voting_stands (s := withJob (unitIn .notReady) (job .reading)) (by decide) rfl rfl
  refine ⟨⟨rfl, rfl⟩, rfl, by decide, rfl, ⟨st.once, st.queued, st.searching, st.busy, st.owned⟩, ?_, by decide, ?_, ?_, ?_⟩
  · exact (by decide : ∀ i, ∀ k ∈ (voting (withJob (unitIn .notReady) (job .reading))).slab i,
      k.job = 0 → k.status ≠ .searching)
  · intro r hr hv
    exact ⟨0, slabIn .idle, (by decide : ∀ r ∈ votingJob.records, r.state = .voting → r.slab = some 0) r hr hv, rfl⟩
  · revert q; decide
  · exact each_job (s := voting (withJob (unitIn .notReady) (job .reading))) (by decide)

theorem meets_JobReadsAnswer :
    32 < (33 : Byte).toNat ∧ (1 : Byte) = idByte 0 ∧ State.reset.job 0 = none ∧
    (withJob (unitIn .notReady) (job .queued)).job 0 = some (job .queued) ∧ 31 < (32 : Byte).toNat ∧
    (job .queued).records.length ≤ (8 : Byte).toNat ∧
    (job .queued).records[(7 : Byte).toNat]? = some (recordAdmitted false none) ∧ (31 : Byte).toNat ≤ 31 := by decide

theorem meets_HoldSetsAndExpires : { State.reset with hold := some 0 }.hold = some 0 ∧ State.reset.hold = none := by decide

theorem meets_FlagRequestsAct :
    (∃ k, 17 < k ∧ (0x40000#24).getLsbD k = true) ∧ ∀ k, 17 < k → (0x3FFFF#24).getLsbD k = false :=
  ⟨⟨18, by decide⟩, fun k h => by
    rcases Nat.lt_or_ge k 24 with h24 | h24
    · interval_cases k <;> rfl
    · exact BitVec.getLsbD_of_ge _ _ h24⟩

theorem meets_ResetUnitActs :
    ((holding .tracking .reading).takesAtOnce ∧ (holding .tracking .reading).JobsHeld ∧
      ((holding .tracking .reading).drive 0).state ∉ [.undefined, .unloading, .retracted] ∧
      (holding .tracking .reading).Unended 0 0) ∧
    ((holding .tracking .reading).drive 1).state ∈ [.undefined, .unloading, .retracted] ∧
    ((holding .tracking .reading).drive 1).heldJob = none :=
  ⟨⟨⟨rfl, rfl⟩, held_tracking, by decide, _, rfl, rfl, by decide⟩, by decide, rfl⟩

theorem meets_PowerOnAndResetAll :
    State.reset.takesAtOnce ∧ 3 < (4 : Byte).toNat ∧ (4 : Byte) ≠ 0xFF ∧ 3 < (0xFE : Byte).toNat ∧ (0xFE : Byte) ≠ 0xFF :=
  ⟨⟨rfl, rfl⟩, by decide⟩

theorem meets_LineGoverned_dropped :
    (sending .reply (waiting 1 0)).link.rts = true ∧
    Instr.replySent ∈ [Instr.replySent, .noticeSent, .sectorSent, .straySent, .jobEndSent] ∧
    (after (.requestToSendDropped false) (sending .reply (waiting 1 0))).link.rts = false ∧
    (after (.requestToSendDropped false) (sending .reply (waiting 1 0))).link.lastByte = false := by decide

theorem meets_LineGoverned_asserted :
    (sending .notice State.reset).link.tx ≠ none ∧
    ((waiting 1 0).link.tx = none ∧ (waiting 1 0).link.replies = reply :: []) ∧
    (State.reset.link.tx = none ∧ State.reset.link.replies = []) ∧
    ((0x20000#18).getLsbD 17 = true ∧ ∀ i, i < 17 → (0x20000#18).getLsbD i = false) ∧
    ((0x30001#18).getLsbD 0 = true ∧ (17 : Nat) / 4 = 4 ∧ (15 : Nat) / 4 = (3 : UnitId).val) ∧
    ({ State.reset with queue := [.stray 0], strays := State.reset.strays.set 0 (some stray) }.compose (.stray 0)).isSome := by
  decide

theorem meets_MessagesCarry :
    (withJob (unitIn .notReady) (job .queued)).job 0 = some (job .queued) ∧
    (job .queued).records[7]? = some (recordAdmitted false none) ∧
    { State.reset with strays := State.reset.strays.set 3 (some stray) }.strays[(3 : Fin 4)] = some stray ∧
    ended.endCause = some .aborted := by decide

theorem ends {s : State} {source : TxSource} (h : s.link.rts = true) : (sending source s).Ends source :=
  ⟨⟨_, rfl, rfl⟩, .inl h⟩

/-- A state in which the reply of a RESET ALL is being sent. -/
def resetting : State :=
  { State.reset with link := { State.reset.link with replies := [{ reply with resetAll := true }], resetWaiting := true } }

theorem meets_RepliesAndNoticesComplete :
    ((sending .reply (waiting 1 0)).Ends .reply ∧ (waiting 1 0).link.replies = reply :: [] ∧ reply.resetAll = false) ∧
    ((sending .reply (waiting 8 2)).Ends .reply ∧ (waiting 8 2).link.replies = reply :: List.replicate 7 reply ∧
      (List.replicate 7 reply).length = 7 ∧ (waiting 8 2).link.resetWaiting = false) ∧
    (sending .reply resetting).Ends .reply ∧ (sending .notice State.reset).Ends .notice ∧
    ¬ State.reset.Ends .reply ∧ ¬ State.reset.Ends .notice :=
  ⟨⟨ends rfl, rfl, rfl⟩, ⟨ends rfl, rfl, rfl, rfl⟩, ends rfl, ends rfl, fun ⟨⟨_, h, _⟩, _⟩ => (nomatch h),
    fun ⟨⟨_, h, _⟩, _⟩ => (nomatch h)⟩

theorem no_wait {s : State} (h : ∀ j, ∀ x ∈ s.job j, (∀ r ∈ x.records, r.delivery ≠ .awaiting) ∧
    (x.finalized = true → .jobEnd j ∈ s.queue)) : ∀ j, ¬ s.Waits j := by
  rintro j ⟨x, hx, ⟨r, hr, hd⟩ | ⟨hf, hq⟩⟩
  · exact (h j x hx).1 r hr hd
  · exact hq ((h j x hx).2 hf)

theorem meets_DeliveriesComplete :
    ((delivering (.sector 0 7) (withJob (unitIn .notReady) (job .queued))).Ends (.delivery (.sector 0 7)) ∧
      (∀ j, ¬ (delivering (.sector 0 7) (withJob (unitIn .notReady) (job .queued))).Waits j) ∧
      (job .queued).records[7]? = some (recordAdmitted false none)) ∧
    ((delivering (.stray 3) State.reset).Ends (.delivery (.stray 3)) ∧ ∀ j, ¬ (delivering (.stray 3) State.reset).Waits j) ∧
    ((delivering (.jobEnd 0) (withJob (unitIn .notReady) ended)).Ends (.delivery (.jobEnd 0)) ∧
      ∀ j, ¬ (delivering (.jobEnd 0) (withJob (unitIn .notReady) ended)).Waits j) :=
  ⟨⟨ends rfl, no_wait (by decide), by decide⟩, ⟨ends rfl, no_wait (by decide)⟩, ends rfl, no_wait (by decide)⟩

/-- A full queue whose head is being sent, with a job that waits: for a record, or for its JOB-END. -/
def full (x : Job) : State :=
  { sending (.delivery (.stray 0)) (withJob (unitIn .notReady) x) with
    queue := .stray 0 :: List.replicate 23 (.stray 1) }

/-- A DRAINING job with two records that wait for room. -/
def awaiting : Job :=
  { ended with records := List.replicate 2 { recordAdmitted true none with state := .good, delivery := .awaiting } }

theorem meets_DeliveriesComplete_admits :
    ((full awaiting).Ends (.delivery (.stray 0)) ∧ (Entry.stray 0).Sent .straySent ∧
      (full awaiting).queue = .stray 0 :: List.replicate 23 (.stray 1) ∧
      (List.replicate 23 (Entry.stray 1)).length = 23 ∧ (Entry.stray 0) ≠ .jobEnd 0 ∧
      (full awaiting).job 0 = some awaiting ∧ (full awaiting).Waits 0 ∧
      awaiting.records[0]? = some { recordAdmitted true none with state := .good, delivery := .awaiting }) ∧
    ((full ended).Waits 0 ∧ ∀ r ∈ ended.records, r.delivery ≠ .awaiting) ∧
    ∀ k y, k ≠ 0 → (full awaiting).Waits k → (full awaiting).job k = some y →
      0 < (y.arrival - awaiting.arrival).toNat ∧ (y.arrival - awaiting.arrival).toNat < 2147483648 :=
  ⟨⟨ends rfl, rfl, rfl, rfl, by decide, rfl, ⟨awaiting, rfl, .inl ⟨_, List.mem_cons_self .., rfl⟩⟩, rfl⟩,
    ⟨⟨ended, rfl, .inr ⟨rfl, by decide⟩⟩, by decide⟩, fun k y h _ hy =>
      (by decide : ∀ k, ∀ y ∈ (full awaiting).job k, k ≠ 0 → 0 < (y.arrival - awaiting.arrival).toNat ∧
        (y.arrival - awaiting.arrival).toNat < 2147483648) k y hy h⟩

theorem meets_SpindleLossUnloads :
    (((withUnit (unitIn .notReady)).drive 0).indexTimer = some 1200000 ∧
      ((withUnit (unitIn .notReady)).drive 0).state = .notReady) ∧
    (((withUnit (unitIn .idle)).drive 0).indexTimer = some 1200000 ∧ ((withUnit (unitIn .idle)).drive 0).state.Ready ∧
      ((withUnit (unitIn .idle)).drive 0).heldJob = none) ∧
    (((holding .tracking .reading).drive 0).indexTimer = some 1200000 ∧ ((holding .tracking .reading).drive 0).state.Ready ∧
      ((holding .tracking .reading).drive 0).heldJob = some 0 ∧
      (holding .tracking .reading).job 0 = some (job .reading) ∧ (job .reading).unit = 0 ∧
      (job .reading).state ≠ .draining) ∧
    (State.reset.drive 0).indexTimer = none ∧ ((withUnit (unitIn .unloading)).drive 0).state = .unloading := by
  simp only [DriveState.Ready]; decide

theorem no_queued {s : State} {n : UnitId} (h : ∀ j, ∀ x ∈ s.job j, ¬ (x.unit = n ∧ x.state = .queued)) : ¬ s.HasQueued n :=
  fun ⟨j, x, hx, e⟩ => h j x hx e

theorem meets_ReadyLineFollowed :
    (((withUnit (unitIn .notReady)).drive 0).state = .notReady ∧ ¬ (withUnit (unitIn .notReady)).HasQueued 0) ∧
    (((withJob (unitIn .notReady) (job .queued)).drive 0).state = .notReady ∧
      (withJob (unitIn .notReady) (job .queued)).HasQueued 0) ∧
    (((withUnit (unitIn .speedFault)).drive 0).state.Ready ∧ ((withUnit (unitIn .speedFault)).drive 0).heldJob = none) ∧
    (((holding .seeking .positioning).drive 0).state.Ready ∧ ((holding .seeking .positioning).drive 0).heldJob = some 0 ∧
      (holding .seeking .positioning).job 0 = some (job .positioning)) ∧
    ¬ (State.reset.drive 0).state.Ready :=
  ⟨⟨rfl, no_queued (by decide)⟩, ⟨rfl, 0, _, rfl, rfl, rfl⟩, by simp only [DriveState.Ready]; decide,
    by simp only [DriveState.Ready]; decide, by simp only [DriveState.Ready]; decide⟩

/-- Unit 0 that restores for the job on cylinder 12. -/
def restoringUnit : Drive := { seekingUnit with state := .recalibrating, cylinder := none, motion := .restore 20000000 }

theorem meets_PositioningCompletes :
    (seekingUnit.descriptor = some desc ∧ seekingUnit.motion = .seek 5000000 ∧ seekingUnit.state.timed = true ∧
      seekingUnit.monitor.speed = .inTolerance ∧ seekingUnit.heldJob ≠ none ∧ some 12 = seekingUnit.target ∧
      0 < desc.settle + seekingUnit.positioningSettle) ∧
    (restoringUnit.motion = .restore 20000000 ∧ restoringUnit.state.timed = true ∧ restoringUnit.heldJob ≠ none ∧
      some 0 ≠ restoringUnit.target) ∧
    (let d := { seekingUnit with monitor := { Monitor.cleared with speed := .out } }
     d.monitor.speed = .out ∧ d.motion = .seek 5000000) ∧
    (((withUnit { seekingUnit with heldJob := none }).drive 0).heldJob = none ∧
      ¬ (withUnit { seekingUnit with heldJob := none }).HasQueued 0) ∧
    ∀ limit, (State.reset.drive 0).motion ≠ .seek limit ∧ (State.reset.drive 0).motion ≠ .restore limit :=
  ⟨by decide, by decide, by decide, ⟨rfl, no_queued (by decide)⟩, fun _ => ⟨Motion.noConfusion, Motion.noConfusion⟩⟩

theorem meets_TrackingStartsPass :
    (∀ passes, passes = 39 ∨ passes = 40 →
      let s := withJob { seekingUnit with descriptor := some { desc with settle := 0 } }
        { job .positioning with passCount := passes }
      (s.drive 0).descriptor = some { desc with settle := 0 } ∧ (s.drive 0).motion = .seek 5000000 ∧
      (s.drive 0).monitor.speed = .inTolerance ∧ (s.drive 0).heldJob = some 0 ∧
      s.job 0 = some { job .positioning with passCount := passes } ∧ (job .positioning).unit = 0 ∧
      (job .positioning).state ≠ .draining ∧ { desc with settle := 0 }.settle + (s.drive 0).positioningSettle = 0 ∧
      (s.unitProfiles 0).active = .default ∧
      (∀ i z, s.job i = some z → z.unit = 0 → z.state = .queued → i = 0)) ∧
    Profile.default.passes ≠ [] ∧ 39 < Profile.default.passLimit ∧ Profile.default.passLimit ≤ 40 := by
  refine ⟨?_, by decide, by decide, by decide⟩
  rintro passes (rfl | rfl) <;> exact ⟨rfl, rfl, rfl, rfl, rfl, rfl, by decide, rfl, rfl, each_job (by decide)⟩

theorem meets_SeekErrorsHandled :
    (SeekErrorAt 0 (withUnit seekingUnit) (.seekTimeout 0) (max 0 5000000) ∧
      SeekErrorAt 0 (withUnit seekingUnit) (.seekErrorIndication 0) 0 ∧
      SeekErrorAt 0 (withUnit restoringUnit) (.restoreTimeout 0) (max 0 20000000)) ∧
    seekingUnit.state.timed = true ∧
    (({ seekingUnit with heldJob := none } : Drive).heldJob = none ∧ ¬ (withUnit { seekingUnit with heldJob := none }).HasQueued 0) ∧
    (seekingUnit.heldJob ≠ none ∧ ({ seekingUnit with seekErrors := 1 } : Drive).seekErrors + 1 < 3) ∧
    (let s := withJob { seekingUnit with seekErrors := 2 } (job .positioning)
     (s.drive 0).heldJob = some 0 ∧ 3 ≤ (s.drive 0).seekErrors + 1 ∧ s.job 0 = some (job .positioning) ∧
      (job .positioning).unit = 0 ∧ (job .positioning).state ≠ .draining ∧ (s.drive 0).state ≠ .tracking ∧ ∀ i y, s.job i = some y → y.unit = 0 → y.state = .queued → i = 0) ∧
    (State.reset.drive 0).motion = .still :=
  ⟨⟨.seekLimit _ rfl, .indication (by decide), .restoreLimit _ rfl⟩, rfl, ⟨rfl, no_queued (by decide)⟩,
    by decide, ⟨rfl, by decide, rfl, rfl, by decide, by decide, each_job (by decide)⟩, rfl⟩

/-- Unit 0 with an index seen at tick 0 and a speed status. -/
def spinning (st : DriveState) (speed : SpeedStatus) (run : Nat) : State :=
  withUnit { unitIn st with monitor := { Monitor.cleared with prevIndex := some 0, speed := speed, run := run } }

theorem meets_IndexMeasures :
    (((withUnit (unitIn .idle)).drive 0).monitor.prevIndex = none ∧
      ((withUnit (unitIn .idle)).drive 0).monitor.speed = .inTolerance ∧ (withUnit (unitIn .idle)).Granted ∧
      ¬ (withUnit (unitIn .idle)).HasQueued 0 ∧ ((withUnit (unitIn .idle)).unitProfiles 0).swapPending = false ∧
      (withUnit (unitIn .idle)).channel.state.holds 0 = false) ∧
    (((spinning .idle .inTolerance 0).drive 0).monitor.prevIndex = some 0 ∧ (spinning .idle .inTolerance 0).Granted ∧
      ¬ (spinning .idle .inTolerance 0).HasQueued 0) ∧
    (((spinning .speedFault .out 1).drive 0).state = .speedFault ∧
      ((spinning .speedFault .out 1).drive 0).monitor.speed = .out ∧ (spinning .speedFault .out 1).Granted ∧
      ¬ (spinning .speedFault .out 1).HasQueued 0) ∧
    (Int.tdiv (((404000 : Nat) - 400000 : Int) * 1000000) 400000).natAbs ≤ desc.tolerance ∧
    desc.tolerance < (Int.tdiv (((404001 : Nat) - 400000 : Int) * 1000000) 400000).natAbs :=
  ⟨⟨rfl, rfl, granted (by decide), no_queued (by decide), rfl, rfl⟩,
    ⟨rfl, granted (by decide), no_queued (by decide)⟩, ⟨rfl, rfl, granted (by decide), no_queued (by decide)⟩,
    by decide, by decide⟩

/-- A unit that seeks, restores or stays in SPEED_FAULT, with a job whose budget is above 1 and at 1 and without one; an IDLE
unit whose speed is found OUT; an OUT speed is kept by the period that is late, or by the first that is in time. -/
theorem meets_IndexMeasures_states :
    (∀ d budget, d = seekingUnit ∨ d = restoringUnit ∨
        d = { seekingUnit with state := .speedFault, motion := .still, monitor := { Monitor.cleared with speed := .out } } →
      budget = 2 ∨ budget = 1 →
      let y := { job .positioning with budget := budget }
      (withJob d y).drive 0 = d ∧ d.descriptor = some desc ∧ (withJob d y).Granted ∧
      (withJob d y).channel.state.holds 0 = false ∧ d.heldJob = some 0 ∧ (withJob d y).job 0 = some y ∧ y.unit = 0 ∧
      y.state ≠ .draining ∧ (d.state ∈ [.seeking, .recalibrating] ∨
        (d.state = .speedFault ∧ (d.indexed desc 400000).monitor.speed = .out))) ∧
    (let d := { unitIn .idle with monitor := { Monitor.cleared with prevIndex := some 0, speed := .out } }
     d.state = .idle ∧ d.heldJob = none ∧ d.descriptor = some desc ∧ (withUnit d).Granted ∧
      (d.indexed desc 400000).monitor.speed = .out) ∧
    (∀ st, st = .undefined ∨ st = .notReady ∨ st = .unloading ∨ st = .retracted →
      ((withUnit (unitIn st)).drive 0).state = st) := by
  refine ⟨?_, ⟨rfl, rfl, rfl, granted (by decide), by decide⟩, fun st _ => rfl⟩
  rintro d budget (rfl | rfl | rfl) (rfl | rfl) <;>
    exact ⟨rfl, rfl, granted (by decide), rfl, rfl, rfl, rfl, by decide, by decide⟩

theorem good_passes : WordsPass goodWords := by constructor <;> decide +kernel
theorem bad_fails : ¬ WordsPass badWords := fun h => absurd h.2 (by decide +kernel)
theorem header_passes : WordsPass [12, 5, 4078] := by constructor <;> decide

/-- A capture of a header that failed its check. -/
def badHeader : Capture :=
  { headerOf 5 with ident := none, sector := none, status := .badCheck, header := some (12, 5, 4079) }

/-- A header that passes its check and names another cylinder. -/
def strayHeader : Capture := { headerOf 5 with ident := none, sector := none, header := some (13, 5, 4077) }

/-! The index that closes a captured revolution: what it settles first. -/

/-- The job under way, with a fruitless count and a pass count. -/
def reader (fruitless passes : Nat) : Job := { job .reading with fruitless := fruitless, passCount := passes }

/-- Its unit, with a pass stray count and a dead-revolution count. -/
def reading (strays dead : Nat) : Drive := { trackingUnit with passStrays := strays, deadRevs := dead }

/-- That unit's capture at its closing index: whether a field came at full amplitude, and the window still open. -/
def closing (strays dead fruitless passes : Nat) (live : Bool) (window : Option OpenHeader) : State :=
  { withJob (reading strays dead) (reader fruitless passes) with
    channel := { capturing.channel with liveSeen := live, openHeader := window } }

theorem closes {now : Nat} {speed : SpeedStatus} (h : (trackingUnit.monitor.index desc now).speed = speed)
    (strays dead fruitless passes : Nat) (live : Bool) (window : Option OpenHeader) (p : Vector UnitProfiles 4) :
    { closing strays dead fruitless passes live window with profiles := p }.Closes 0 (reading strays dead) desc 0
      (reader fruitless passes) revolution now speed where
  drive := rfl
  descriptor := rfl
  held := rfl
  job := rfl
  unit := rfl
  reading := rfl
  budget := by show 2 ≤ 2000; decide
  tracking := rfl
  before := rfl
  after := h
  capturing := rfl
  revolution := rfl

/-- 400,000 ticks after the last index the speed is IN, and 500,000 ticks after it OUT. -/
theorem on_time : (trackingUnit.monitor.index desc 400000).speed = .inTolerance := by decide
theorem too_late : (trackingUnit.monitor.index desc 500000).speed = .out := by decide

/-- A capture with its window open since tick 600. -/
def windowOf (c : Capture) : Option OpenHeader := some { capture := c, last := 600 }

/-- That of sector 5's header, with or without the low indication; that of a repeat of it. -/
def lowHeader (low : Bool) : Capture := { headerOf 5 with low := low }
def repeatHeader : Capture := { headerOf 5 with repeated := true }

theorem stage_window {s : State} {cut : CutField} {c : Capture} {y z : Job} {strays k : Nat} {out : Bool}
    (hw : s.channel.openHeader = windowOf c) (hu : c.unit = 0) (hj : c.job = 0) (hd : c.data = none)
    (hc : CompletesAbsent c y strays z k) (ho : (s.channel.liveSeen || cutLive cut (some c.low)) = out) :
    StageOne s 0 cut 0 y strays z k out := ho ▸ .window _ z k hw hu hj hd hc

/-- What stage 1 makes of each form: no window, a header that names a record, a stray, a repeat, a header that failed. -/
theorem stages (strays dead fruitless passes : Nat) (live : Bool) (cut : CutField) :
    let y := reader fruitless passes
    let form (w : Option OpenHeader) (z : Job) (k : Nat) (out : Bool) : Prop :=
      StageOne (closing strays dead fruitless passes live w) 0 cut 0 y strays z k out
    form none y strays (live || cutLive cut none) ∧
    (∀ low, form (windowOf (lowHeader low)) y.heard strays (live || cutLive cut (some low))) ∧
    form (windowOf strayHeader) y.strayed (min 255 (strays + 1)) (live || cutLive cut (some false)) ∧
    form (windowOf repeatHeader) y.heard.strayed (min 255 (strays + 1)) (live || cutLive cut (some false)) ∧
    form (windowOf badHeader) y strays (live || cutLive cut (some false)) :=
  ⟨.bare rfl, fun _ => stage_window rfl rfl rfl rfl (.named 5 _ rfl ⟨rfl, rfl, rfl, rfl⟩) rfl,
    stage_window rfl rfl rfl rfl (.stray rfl (.inl rfl)) rfl, stage_window rfl rfl rfl rfl (.stray rfl (.inr ⟨rfl, rfl⟩)) rfl,
    stage_window (c := badHeader) rfl rfl rfl rfl (.unread (by decide)) rfl⟩

/-- Forms that leave the revolution live, and forms that leave it dead (R39). -/
theorem cut_live :
    cutLive .nothing (some false) = true ∧ cutLive (.header false) none = true ∧ cutLive (.data false) none = true ∧
    cutLive (.header false) (some true) = true ∧ cutLive (.header true) (some false) = true ∧
    cutLive (.data false) (some true) = true ∧ cutLive (.data true) (some false) = true ∧
    cutLive .nothing none = false ∧ cutLive .nothing (some true) = false ∧ cutLive (.header true) none = false ∧
    cutLive (.data true) none = false ∧ cutLive (.header true) (some true) = false ∧
    cutLive (.data true) (some true) = false := by decide

/-- Stage 1 at a closing index makes the revolution live, with a pass stray count of 3: by a field seen before, by a window
open at full amplitude or a field cut off at it, over a low header, and beside a stray. -/
theorem stage_live (dead fruitless passes : Nat) :
    let y := reader fruitless passes
    let form (strays : Nat) (w : Option OpenHeader) (live : Bool) (cut : CutField) (z : Job) : Prop :=
      StageOne (closing strays dead fruitless passes live w) 0 cut 0 y strays z 3 true
    form 3 none true .nothing y ∧ form 3 none false (.header false) y ∧ form 3 none false (.data false) y ∧
    form 3 (windowOf (lowHeader false)) false .nothing y.heard ∧
    form 3 (windowOf (lowHeader true)) false (.header false) y.heard ∧
    form 3 (windowOf (lowHeader true)) false (.data false) y.heard ∧
    form 2 (windowOf strayHeader) false (.data true) y.strayed ∧
    form 2 (windowOf repeatHeader) false .nothing y.heard.strayed ∧ form 3 (windowOf badHeader) true (.header true) y :=
  ⟨(stages ..).1, (stages ..).1, (stages ..).1, (stages ..).2.1 false, (stages ..).2.1 true, (stages ..).2.1 true,
    (stages ..).2.2.1, (stages ..).2.2.2.1, (stages ..).2.2.2.2⟩

/-- Stage 1 leaves a revolution dead: with no field, a low header or data field cut off, a low header's window open. -/
theorem stage_dead (strays dead fruitless passes : Nat) :
    let y := reader fruitless passes
    let form (w : Option OpenHeader) (cut : CutField) (z : Job) : Prop :=
      StageOne (closing strays dead fruitless passes false w) 0 cut 0 y strays z strays false
    form none .nothing y ∧ form none (.header true) y ∧ form none (.data true) y ∧
    form (windowOf (lowHeader true)) .nothing y.heard ∧ form (windowOf (lowHeader true)) (.header true) y.heard ∧
    form (windowOf (lowHeader true)) (.data true) y.heard :=
  ⟨(stages ..).1, (stages ..).1, (stages ..).1, (stages ..).2.1 true, (stages ..).2.1 true, (stages ..).2.1 true⟩

theorem meets_SpeedFaultHoldsTheJob :
    (job .reading).budget = 2000 ∧
    (let s := { withJob trackingUnit (job .reading) with channel := { Channel.powerOn with state := .reserved 0 } }
     s.drive 0 = trackingUnit ∧ s.job 0 = some (job .reading) ∧ (s.unitProfiles 0).swapPending = false ∧
      s.channel.state ≠ .capturing 0 ∧ trackingUnit.state = .tracking ∧ trackingUnit.monitor.speed = .inTolerance ∧
      (trackingUnit.indexed desc 500000).monitor.speed = .out) ∧
    (∀ at_, at_ = none ∨ at_ = some 12 ∨ at_ = some 11 →
      let d := { trackingUnit with state := .speedFault, prepared := none, cylinder := at_
                                   monitor := { trackingUnit.monitor with speed := .out, run := 1 } }
      let s := withJob d (job .positioning)
      s.drive 0 = d ∧ d.descriptor = some desc ∧ d.heldJob = some 0 ∧ s.job 0 = some (job .positioning) ∧
      2 ≤ (job .positioning).budget ∧ (s.unitProfiles 0).swapPending = false ∧ s.channel.state ≠ .capturing 0 ∧
      d.target = some 12 ∧ (d.indexed desc 400000).monitor.speed = .inTolerance) := by
  refine ⟨rfl, by decide, ?_⟩
  rintro at_ (rfl | rfl | rfl) <;> exact by decide

/-- The index that finds the speed OUT closes the captured revolution: with a recalibration due by the strays and by the
fruitless count, with the pass limit of 40 reached and not, live and dead, in both orders. -/
theorem meets_SpeedFaultHoldsTheJob_closing :
    (∀ strays dead fruitless passes live window,
      let s := closing strays dead fruitless passes live window
      s.Closes 0 (reading strays dead) desc 0 (reader fruitless passes) revolution 500000 .out ∧ s.clock = 0 ∧
      (s.unitProfiles 0).swapPending = false ∧ s.channel.deferred = [] ∧ (s.unitProfiles 0).active = .default ∧
      ¬ s.HasQueued 0) ∧
    (∀ fruitless passes,
      StageOne (closing 3 1 fruitless passes false (windowOf strayHeader)) 0 .nothing 0 (reader fruitless passes) 3
        (reader fruitless passes).strayed 4 true ∧
      StageOne (closing 3 1 fruitless passes false (windowOf (lowHeader true))) 0 (.data false) 0 (reader fruitless passes) 3
        (reader fruitless passes).heard 3 true ∧
      StageOne (closing 3 1 fruitless passes false none) 0 (.header true) 0 (reader fruitless passes) 3
        (reader fruitless passes) 3 false) ∧
    (revolution.profile.dead ≤ 8 ∧ 1 + 1 < revolution.profile.dead ∧ (reader 0 39).mark = false) ∧
    (revolution.profile.strayLimit ≤ 4 ∧
      (0 < revolution.profile.recalibrate ∧ revolution.profile.recalibrate ≤ min 255 (7 + 1)) ∧
      ¬ (revolution.profile.strayLimit ≤ 3 ∨ (0 < revolution.profile.recalibrate ∧
        revolution.profile.recalibrate ≤ min 255 (6 + 1)))) ∧
    ((reader 6 39).passCount < 255 ∧ Profile.default.passLimit ≤ (reader 6 39).passCount + 1 ∧
      (reader 6 38).passCount + 1 < Profile.default.passLimit ∧ Profile.default.passes ≠ []) ∧
    ∀ first : Bool, ∃ order : IndexOrder, order.faultFirst = first := by
  refine ⟨fun strays dead fruitless passes live window => ⟨closes too_late .., rfl, rfl, rfl, rfl, ?_⟩, fun f p =>
    ⟨(stages 3 1 f p false .nothing).2.2.1, (stages 3 1 f p false (.data false)).2.1 true, (stages 3 1 f p false (.header true)).1⟩,
    by decide, by decide, by decide, fun b => ⟨{ Config.indexOrder 0 with faultFirst := b }, rfl⟩⟩
  rintro ⟨j, x, hx, hu, hq⟩
  have e : (closing strays dead fruitless passes live window).job j =
    if 0 = j.val then some (reader fruitless passes) else State.reset.job j := Vector.getElem_set (by decide) _
  rw [e, (by decide : ∀ j, State.reset.job j = none) j] at hx
  split at hx <;> cases hx
  cases hq

/-- Unit 0 with the job under way while the channel serves unit 1, with a monitor, a waiting count and a deferral count. -/
def deferred (m : Monitor) (waiting deferral : Nat) (st : ChannelState) : State :=
  { withJob { trackingUnit with monitor := m, waiting := waiting, deferral := deferral } (job .reading) with
    channel := { Channel.powerOn with state := st } }

theorem meets_IndexStartsWork :
    (2 ≤ (job .reading).budget ∧ trackingUnit.descriptor = some desc ∧ trackingUnit.heldJob = some 0 ∧
      trackingUnit.monitor.speed = .inTolerance ∧ (trackingUnit.indexed desc 400000).monitor.speed = .inTolerance) ∧
    (∀ waiting, waiting = 2 ∨ waiting = 1 →
      let s := withJob { trackingUnit with waiting := waiting } (job .reading)
      (s.unitProfiles 0).swapPending = false ∧ (s.drive 0).state = .tracking ∧ (s.drive 0).waiting = waiting ∧
      s.channel.state.holds 0 = false ∧ s.Granted) ∧
    (∀ count, count = 2 ∨ count = 1 →
      let s := withJob { trackingUnit with state := .settling, prepared := none, settleCount := count } (job .positioning)
      (s.drive 0).state = .settling ∧ (s.drive 0).settleCount = count ∧ s.channel.state.holds 0 = false ∧ s.Granted ∧
      (s.unitProfiles 0).active.passes ≠ [] ∧ (job .positioning).passCount < (s.unitProfiles 0).active.passLimit) ∧
    (let s := { withJob trackingUnit (job .reading) with channel := { Channel.powerOn with state := .reserved 0 } }
     (s.drive 0).state = .tracking ∧ s.channel.state = .reserved 0 ∧ (s.drive 0).prepared = some prepared ∧ s.Granted) ∧
    (let x := { job .reading with budget := 1 }
     let s := withJob { trackingUnit with waiting := 2 } x
     s.job 0 = some x ∧ x.unit = 0 ∧ x.state ≠ .draining ∧ s.Granted ∧
      ∀ i z, s.job i = some z → z.unit = 0 → z.state = .queued → i = 0) := by
  refine ⟨by decide, ?_, ?_, ⟨rfl, rfl, rfl, fun h => absurd h (by decide)⟩, rfl, rfl, by decide, granted (by decide),
    each_job (by decide)⟩
  · rintro w (rfl | rfl) <;> exact ⟨rfl, rfl, rfl, rfl, granted (by decide)⟩
  · rintro w (rfl | rfl) <;> exact ⟨rfl, rfl, rfl, granted (by decide), by decide, by decide⟩

/-- The channel serves another unit, by a reservation and by a capture, and the unit requests it before and after the index,
neither before nor after, and at one of the two alone; the count stands below its limit and at it. -/
theorem meets_IndexStartsWork_deferral :
    (∀ m waiting deferral st, st = .reserved 1 ∨ st = .capturing 1 →
      let s := deferred m waiting deferral st
      s.drive 0 = { trackingUnit with monitor := m, waiting := waiting, deferral := deferral } ∧
      s.job 0 = some (job .reading) ∧ (s.unitProfiles 0).swapPending = false ∧ s.clock = 0 ∧ s.Granted ∧ s.ServedTo 1 ∧
      s.channel.state.holds 0 = false) ∧
    (2 ≤ (job .reading).budget ∧ (1 : UnitId) ≠ 0 ∧ (job .reading).passCount < Profile.default.passLimit ∧
      min 255 (16 + 1) = 17 ∧ min 255 (255 + 1) = 255) ∧
    (∀ m now, m = trackingUnit.monitor ∧ (now = 400000 ∨ now = 404000) ∨ m = Monitor.cleared ∧ now = 400000 ∨
        m = { Monitor.cleared with prevIndex := some 0 } ∧ now = 400000 →
      m.speed = .inTolerance ∧ (m.index desc now).speed = .inTolerance) ∧
    (trackingUnit.monitor.Settled ∧ (trackingUnit.monitor.index desc 400000).Settled) ∧
    (trackingUnit.monitor.Settled ∧ ¬ (trackingUnit.monitor.index desc 404000).Settled) ∧
    (¬ ({ Monitor.cleared with prevIndex := some 0 } : Monitor).Settled ∧
      (({ Monitor.cleared with prevIndex := some 0 } : Monitor).index desc 400000).Settled) ∧
    (¬ Monitor.cleared.Settled ∧ ¬ (Monitor.cleared.index desc 400000).Settled) := by
  refine ⟨?_, by decide, ?_, ?_⟩
  · rintro m waiting deferral st (rfl | rfl)
    · exact ⟨rfl, rfl, rfl, rfl, nofun, .inl rfl, rfl⟩
    · exact ⟨rfl, rfl, rfl, rfl, nofun, .inr rfl, rfl⟩
  · rintro m now (⟨rfl, rfl | rfl⟩ | ⟨rfl, rfl⟩ | ⟨rfl, rfl⟩) <;> decide
  · unfold Monitor.Settled; decide

theorem meets_PassEndAccounts :
    (∀ strays live window,
      let s := closing strays 0 6 0 live window
      s.Closes 0 (reading strays 0) desc 0 (reader 6 0) revolution 400000 .inTolerance ∧ s.clock = 0 ∧
      (s.unitProfiles 0).swapPending = false ∧ s.channel.deferred = [] ∧ (s.unitProfiles 0).active = .default) ∧
    (StageOne (closing 3 0 6 0 true none) 0 .nothing 0 (reader 6 0) 3 (reader 6 0) 3 true ∧
      StageOne (closing 3 0 6 0 false (windowOf (lowHeader true))) 0 (.header false) 0 (reader 6 0) 3 (reader 6 0).heard 3 true ∧
      StageOne (closing 3 0 6 0 false (windowOf (lowHeader true))) 0 (.data false) 0 (reader 6 0) 3 (reader 6 0).heard 3 true ∧
      StageOne (closing 2 0 6 0 false (windowOf strayHeader)) 0 (.data true) 0 (reader 6 0) 2 (reader 6 0).strayed 3 true) ∧
    (reader 6 0).mark = false ∧ 3 < revolution.profile.strayLimit ∧ min 255 (6 + 1) < revolution.profile.recalibrate ∧
    Profile.default.passes ≠ [] ∧ (reader 6 0).passCount + 1 < Profile.default.passLimit :=
  have f := stage_live 0 6 0
  ⟨fun _ _ _ => ⟨closes on_time .., rfl, rfl, rfl, rfl⟩, ⟨f.1, f.2.2.2.2.1, f.2.2.2.2.2.1, f.2.2.2.2.2.2.1⟩, by decide⟩

theorem meets_RecalibrationsAndDeadRevolutions :
    (∀ strays dead fruitless live window,
      let s := closing strays dead fruitless 0 live window
      s.Closes 0 (reading strays dead) desc 0 (reader fruitless 0) revolution 400000 .inTolerance ∧ s.clock = 0 ∧
      (s.unitProfiles 0).swapPending = false ∧ s.channel.deferred = []) ∧
    (StageOne (closing 3 0 0 0 false (windowOf strayHeader)) 0 .nothing 0 (reader 0 0) 3 (reader 0 0).strayed 4 true ∧
      StageOne (closing 3 0 7 0 false none) 0 (.data false) 0 (reader 7 0) 3 (reader 7 0) 3 true) ∧
    (∀ dead, dead = 1 ∨ dead = 2 →
      StageOne (closing 0 dead 0 0 false none) 0 (.header true) 0 (reader 0 0) 0 (reader 0 0) 0 false ∧
      StageOne (closing 0 dead 0 0 false (windowOf (lowHeader true))) 0 (.data true) 0 (reader 0 0) 0 (reader 0 0).heard 0 false) ∧
    revolution.profile.dead ≤ 8 ∧ revolution.profile.strayLimit ≤ 4 ∧
    (0 < revolution.profile.recalibrate ∧ revolution.profile.recalibrate ≤ min 255 (7 + 1)) ∧
    (1 + 1 < revolution.profile.dead ∧ 0 < revolution.profile.strayLimit ∧
      min 255 (0 + 1) < revolution.profile.recalibrate) ∧ revolution.profile.dead ≤ 2 + 1 :=
  ⟨fun _ _ _ _ _ => ⟨closes on_time .., rfl, rfl, rfl⟩,
    ⟨(stages 3 0 0 0 false .nothing).2.2.1, (stage_live 0 7 0).2.2.1⟩,
    fun dead _ => ⟨(stage_dead 0 dead 0 0).2.1, (stage_dead 0 dead 0 0).2.2.2.2.2⟩, by decide⟩

/-- A profile of one pass, at offset 2, with a pass limit. -/
def onePass (limit : Nat) : Profile := { Profile.default with passes := [⟨2, 0⟩], passLimit := limit }

/-- A state in which unit 0's swap to that profile is pending. -/
def swapping (limit : Nat) (s : State) : State :=
  s.setProfiles 0 { active := .default, staged := onePass limit, swapPending := true }

theorem meets_IndexSwapsProfiles :
    (∀ limit, limit = 2 ∨ limit = 1 →
      let x := { job .reading with passCount := 1 }
      let s := swapping limit (withJob { trackingUnit with waiting := 2 } x)
      s.drive 0 = { trackingUnit with waiting := 2 } ∧ s.job 0 = some x ∧ 2 ≤ x.budget ∧
      (trackingUnit.indexed desc 400000).monitor.speed = .inTolerance ∧ (s.unitProfiles 0).swapPending = true ∧
      trackingUnit.prepared ≠ none ∧ s.channel.state.holds 0 = false ∧ (s.unitProfiles 0).staged = onePass limit ∧
      (onePass limit).passes ≠ [] ∧ (onePass limit).passLimit = limit ∧ x.unit = 0 ∧ x.state ≠ .draining ∧
      ∀ i z, s.job i = some z → z.unit = 0 → z.state = .queued → i = 0) ∧
    (∀ live window,
      let s := swapping 2 (closing 3 0 6 0 live window)
      s.Closes 0 (reading 3 0) desc 0 (reader 6 0) revolution 400000 .inTolerance ∧ s.clock = 0 ∧
      (s.unitProfiles 0).swapPending = true ∧ s.channel.deferred = [] ∧ (s.unitProfiles 0).active = .default ∧
      (s.unitProfiles 0).staged = onePass 2) ∧
    (StageOne (swapping 2 (closing 3 0 6 0 true none)) 0 .nothing 0 (reader 6 0) 3 (reader 6 0) 3 true ∧
      StageOne (swapping 2 (closing 3 0 6 0 false (windowOf (lowHeader true)))) 0 (.data false) 0 (reader 6 0) 3
        (reader 6 0).heard 3 true) ∧
    3 < revolution.profile.strayLimit ∧ min 255 (6 + 1) < revolution.profile.recalibrate ∧
    (onePass 2).passes ≠ [] ∧ (reader 6 0).passCount + 1 < Profile.default.passLimit ∧
    (reader 6 0).passCount + 1 < (onePass 2).passLimit := by
  refine ⟨?_, fun _ _ => ⟨closes on_time .., rfl, rfl, rfl, rfl, rfl⟩,
    ⟨.bare rfl, stage_window rfl rfl rfl rfl (.named 5 _ rfl ⟨rfl, rfl, rfl, rfl⟩) rfl⟩, by decide⟩
  rintro limit (rfl | rfl) <;>
    exact ⟨rfl, rfl, by decide, by decide, rfl, by decide, rfl, rfl, by decide, rfl, rfl, by decide, each_job (by decide)⟩

/-- Units 0 and 1 that request the channel. -/
def requests (deferral : Nat) (cls : JobClass) : State :=
  (((withJob trackingUnit { job .reading with cls := cls }).setDrive 1 { trackingUnit with heldJob := some 1, deferral := deferral }).setJob 1
    (some { job .reading with unit := 1 }))

theorem meets_FollowUpGrants :
    ((requests 16 .urgent).channel.state = .idle ∧ (requests 16 .urgent).requesting 0 = true ∧
      (requests 16 .urgent).requesting 1 = true ∧ (requests 16 .urgent).overdue 1 = true ∧
      (requests 16 .urgent).overdue 0 = false) ∧
    ((∀ m, (requests 15 .urgent).overdue m = false) ∧ (requests 15 .urgent).urgent 0 = true ∧
      (requests 15 .urgent).urgent 1 = false) ∧
    ((∀ m, (requests 15 .bulk).overdue m = false) ∧ (∀ m, (requests 15 .bulk).urgent m = false) ∧
      (requests 15 .bulk).requesting 0 = true) ∧
    capturing.channel.state ≠ .idle ∧ ∀ n, State.reset.requesting n = false := by decide

theorem one_queued {s : State} {n : UnitId} {c : JobClass} {j : JobIx}
    (h : ∀ k, ∀ y ∈ s.job k, y.unit = n → y.state = .queued → y.cls = c → k = j) {k : JobIx} {y : Job} (hk : k ≠ j) :
    ¬ s.QueuedIn n c k y := fun ⟨hy, hu, hs, hc⟩ => hk (h k y hy hu hs hc)

theorem meets_ElevatorChooses :
    (let s := (withJob (unitIn .idle) (job .queued)).setJob 1 (some { job .queued with cls := .urgent, arrival := 1 })
     s.QueuedIn 0 .urgent 1 { job .queued with cls := .urgent, arrival := 1 } ∧
      ∀ k y, k ≠ 1 → ¬ s.QueuedIn 0 .urgent k y) ∧
    (let s := withJob { unitIn .idle with cylinder := some 12 } (job .queued)
     s.QueuedIn 0 .bulk 0 (job .queued) ∧ (∀ k y, ¬ s.QueuedIn 0 .urgent k y) ∧ Direction.up.Ahead 12 (job .queued).cylinder ∧
      Direction.up = s.directions[(0 : UnitId)] ∧ ∀ k y, k ≠ 0 → ¬ s.QueuedIn 0 .bulk k y) ∧
    (let s := withJob { unitIn .idle with cylinder := some 13 } (job .queued)
     Direction.down.Ahead 13 (job .queued).cylinder ∧
      ∀ k y, s.QueuedIn 0 .bulk k y → ¬ (s.directions[(0 : UnitId)]).Ahead 13 y.cylinder) ∧
    ∀ c k y, ¬ State.reset.QueuedIn 0 c k y := by
  refine ⟨⟨⟨rfl, rfl, rfl, rfl⟩, fun k y hk => one_queued (j := 1) (by decide) hk⟩,
    ⟨⟨rfl, rfl, rfl, rfl⟩, fun k y ⟨hy, _, _, hc⟩ => ?_, .inl ⟨rfl, by decide⟩, rfl,
      fun k y hk => one_queued (j := 0) (by decide) hk⟩,
    ⟨.inr ⟨rfl, by decide⟩, fun k y ⟨hy, _⟩ => ?_⟩, fun c k y ⟨hy, hu, _⟩ => no_job (by decide) 0 ⟨k, y, hy, hu⟩⟩
  · exact (by decide : ∀ k, ∀ y ∈ (withJob { unitIn .idle with cylinder := some 12 } (job .queued)).job k, y.cls ≠ .urgent)
      k y hy hc
  · have e := (by decide : ∀ k, ∀ y ∈ (withJob { unitIn .idle with cylinder := some 13 } (job .queued)).job k,
      y.cylinder = 12) k y hy
    rw [e]; rintro (⟨_, h⟩ | ⟨h, _⟩)
    · omega
    · cases h

theorem meets_HeadersAreRead :
    (capturing.channel.state = .capturing 0 ∧ capturing.channel.rev = some revolution ∧
      capturing.channel.openHeader = none ∧ (capturing.drive 0).descriptor = some desc) ∧
    ((opened 2).channel.state = .capturing 0 ∧ (opened 2).channel.rev = some revolution ∧
      ((opened 2).drive 0).descriptor = some desc ∧
      (opened 2).channel.openHeader = some { capture := headerOf 2, last := 600 } ∧ (headerOf 2).data = none) ∧
    ((true = true ↔ WordsPass [12, 5, 4078] ∧ (5#12).toNat / 64 = revolution.head ∧ (5#12).toNat % 64 < desc.sectors ∧
        (∀ m, revolution.headerMask = some m → (12#12).toNat % 2 ^ m = revolution.cylinder % 2 ^ m) ∧
        (revolution.headerMask = none → (12#12).toNat = revolution.cylinder)) ∧
      ((headerOf 5).status = .good ↔ WordsPass [12, 5, 4078]) ∧
      ((headerOf 5).status = .badCheck ↔ ¬ WordsPass [12, 5, 4078])) ∧
    (badHeader.status = .badCheck ↔ ¬ WordsPass [12, 5, 4079]) ∧
    ((opened 5).channel.openHeader = some { capture := headerOf 5, last := 600 } ∧ (headerOf 5).status = .good ∧
      (headerOf 5).ident = some .header ∧ (headerOf 5).repeated = false ∧ (headerOf 5).sector = some 5 ∧
      (headerOf 5).data = none ∧ (opened 5).job (headerOf 5).job = some (job .reading) ∧ (job .reading).state ≠ .draining) ∧
    ∀ n, State.reset.channel.state ≠ .capturing n :=
  ⟨⟨rfl, rfl, rfl, rfl⟩, ⟨rfl, rfl, rfl, rfl, rfl⟩,
    ⟨⟨fun _ => ⟨header_passes, by decide, by decide, fun _ h => (nomatch h), by decide⟩, fun _ => rfl⟩,
      ⟨fun _ => header_passes, fun _ => rfl⟩, ⟨fun h => (nomatch h), fun h => absurd header_passes h⟩⟩,
    ⟨fun _ h => absurd h.2 (by decide), fun _ => rfl⟩, by decide, by decide⟩

/-- A state that captures a revolution for a job, with a capture's data window open since tick 600. -/
def hearing (rev : Revolution) (c : Capture) (x : Job) : State :=
  { withJob trackingUnit x with
    channel := { Channel.powerOn with
      state := .capturing 0, rev := some rev, openHeader := some { capture := c, last := 600 } } }

/-- A data sync on the last tick of that window is heard. -/
theorem hears {s : State} {rev : Revolution} {c : Capture} {x : Job} {words : List Word12}
    (hc : s.channel = (hearing rev c x).channel) (hd : s.drive 0 = trackingUnit) (hj : s.job c.job = some x) (hu : c.unit = 0)
    (hg : c.status = .good) (hw : rev.window = 12500) (hl : words.length = 33) (hx : x.state ≠ .draining) :
    s.Hears 0 rev { capture := c, last := 600 } desc x 13100 words where
  capturing := by rw [hc]; rfl
  revolution := by rw [hc]; rfl
  window := by rw [hc]; rfl
  unit := hu
  good := hg
  inside := by show 13100 ≤ 600 + rev.window; omega
  descriptor := by rw [hd]; rfl
  length := hl
  job := hj
  live := hx

theorem names {x : Job} {sec : Nat} {r : Record} (h : x.records[sec]? = some r) : (headerOf sec).Names x sec r :=
  ⟨rfl, rfl, rfl, h⟩

/-- That job with sector 2 VOTING in slab 0 and sector 5 in slab 1. -/
def twoVotes : Job :=
  { job .reading with records := ((job .reading).records.modify 2 (fun r =>
      { r with state := .voting, slab := some 0, image := some ⟨.voted, badWords⟩ })).modify 5 (fun r =>
        { r with state := .voting, slab := some 1, image := some ⟨.voted, badWords⟩ }) }

/-- A capture of that job's sector 2 beside its two slabs, with a repair FIFO and a search. -/
def repairing (a b : Slab) (fifo : List SlabId) (search : Option Search) : State :=
  { ((hearing revolution (headerOf 2) twoVotes).setSlab 0 (some a)).setSlab 1 (some b) with fifo := fifo, search := search }

theorem repairing_stands (a b : Slab) (fifo : List SlabId) (search : Option Search)
    (ha : a.job = 0 ∧ a.sector = 2) (hb : b.job = 0 ∧ b.sector = 5) (once : fifo.Nodup)
    (queued : ∀ i, i ∈ fifo ↔ (i = 0 ∧ a.status = .queued) ∨ (i = 1 ∧ b.status = .queued))
    (searching : ∀ i, (∃ f, search = some f ∧ f.slab = i) ↔
      (i = 0 ∧ a.status = .searching) ∨ (i = 1 ∧ b.status = .searching))
    (busy : search = none → fifo = []) : (repairing a b fifo search).RepairStands := by
  have at_ : ∀ i, (repairing a b fifo search).slab i =
      if 1 = i.val then some b else if 0 = i.val then some a else State.reset.slab i := fun i =>
    (Vector.getElem_set (by decide) _).trans (congrArg _ (Vector.getElem_set (by decide) _))
  have hk : ∀ i x, (repairing a b fifo search).slab i = some x ↔ (i = 0 ∧ x = a) ∨ (i = 1 ∧ x = b) := by
    intro i x
    rw [at_]
    by_cases h1 : i = 1
    · subst h1; simp [eq_comm]
    by_cases h0 : i = 0
    · subst h0; simp [eq_comm]
    rw [if_neg (fun h => h1 (Fin.ext h.symm)), if_neg (fun h => h0 (Fin.ext h.symm)),
      (by decide : ∀ i, State.reset.slab i = none) i]
    simp [h0, h1]
  have two : ∀ i (P : Slab → Prop), (∃ x, (repairing a b fifo search).slab i = some x ∧ P x) ↔ (i = 0 ∧ P a) ∨ (i = 1 ∧ P b) := by
    intro i P; simp only [hk]
    constructor
    · rintro ⟨x, ⟨rfl, rfl⟩ | ⟨rfl, rfl⟩, hp⟩
      · exact .inl ⟨rfl, hp⟩
      · exact .inr ⟨rfl, hp⟩
    · rintro (⟨rfl, hp⟩ | ⟨rfl, hp⟩)
      · exact ⟨a, .inl ⟨rfl, rfl⟩, hp⟩
      · exact ⟨b, .inr ⟨rfl, rfl⟩, hp⟩
  refine ⟨once, fun i => (queued i).trans (two i (·.status = .queued)).symm,
    fun i => (two i (·.status = .searching)).trans (searching i).symm, busy, fun i x hx => ?_⟩
  have j0 : (repairing a b fifo search).job 0 = some twoVotes := rfl
  obtain ⟨rfl, rfl⟩ | ⟨rfl, rfl⟩ := (hk i x).1 hx
  · rw [ha.1, ha.2]; exact ⟨_, _, j0, rfl, rfl, rfl, rfl⟩
  · rw [hb.1, hb.2]; exact ⟨_, _, j0, rfl, rfl, rfl, rfl⟩

/-- That capture beside an IDLE slab of sector 2 and one of sector 5, IDLE or in the search. -/
def foldingInto (k : Slab) (search : Bool) : State :=
  repairing k { slabIn (if search then .searching else .idle) with sector := 5 } []
    (if search then some { slab := 1, bits := [0], candidates := candidatesOf badWords [0] } else none)

theorem folding_stands (k : Slab) (search : Bool) (hj : k.job = 0) (hs : k.sector = 2) (hi : k.status = .idle) :
    (foldingInto k search).RepairStands := by
  apply repairing_stands _ _ _ _ ⟨hj, hs⟩ ⟨rfl, rfl⟩ List.nodup_nil
  · intro i; cases search <;> simp [hi, slabIn]
  · intro i; cases search <;> simp [hi, slabIn, eq_comm]
  · exact fun _ => rfl

/-- A slab of sector 2 into which each of those images has been folded at weight 4, with a fold count. -/
def foldedSlab (images : List (List Word12)) (folds : Nat) : Slab :=
  { images.foldl (fun k w => k.fold w (List.replicate 33 4) { quorum := 3, weak := 6, repair := 2 }) (slabIn .idle) with
    folds := folds }

/-- A slab of sector 5 with a good and a bad image folded, which has one weak bit, in a status. -/
def otherSlab (st : RepairStatus) : Slab := { foldedSlab [goodWords, badWords] 3 with sector := 5, status := st }

/-- The search of a slab for bit 0 of its first word. -/
def searchFor (i : SlabId) : Search := { slab := i, bits := [0], candidates := candidatesOf badWords [0] }

theorem meets_GoodDataRecovers :
    (opened 2).Hears 0 revolution { capture := headerOf 2, last := 600 } desc (job .reading) 13100 goodWords ∧
    (headerOf 2).Names (job .reading) 2 (recordAdmitted true none) ∧ WordsPass goodWords ∧
    ((recordAdmitted true none).wanted = true ∧ (recordAdmitted true none).state = .wanted ∧
      (recordAdmitted true none).slab = none ∧ (opened 2).queue.length < 24) ∧
    ∃ (i : Nat) (q : Record), i ≠ 2 ∧ (job .reading).records[i]? = some q ∧ q.Outstanding :=
  ⟨hears rfl rfl rfl rfl rfl rfl rfl (by decide), names rfl, good_passes, by decide, 5, recordAdmitted true none,
    by decide, rfl, rfl, .inl rfl⟩

/-- The slab of the VOTING record IDLE, with a pending capture or without, QUEUED behind a search, SEARCHING with the FIFO
empty, and SEARCHING before a QUEUED slab. -/
theorem meets_GoodDataRecovers_voting :
    (∀ a b fifo search,
      (repairing a b fifo search).Hears 0 revolution { capture := headerOf 2, last := 600 } desc twoVotes 13100 goodWords ∧
      (repairing a b fifo search).slab 0 = some a ∧ (repairing a b fifo search).slab 1 = some b ∧
      (repairing a b fifo search).fifo = fifo ∧ (repairing a b fifo search).queue.length < 24) ∧
    (∃ r, (headerOf 2).Names twoVotes 2 r ∧ r.wanted = true ∧ r.state = .voting ∧ r.slab = some 0) ∧ WordsPass goodWords ∧
    (∃ (m : Nat) (q : Record), m ≠ 2 ∧ twoVotes.records[m]? = some q ∧ q.Outstanding) ∧
    ((slabIn .idle).status = .idle ∧ (repairing (slabIn .idle) (otherSlab .idle) [] none).RepairStands) ∧
    (∀ p, let k := { slabIn .queued with pending := p }
      k.status = .queued ∧ (repairing k (otherSlab .searching) [0] (some (searchFor 1))).RepairStands) ∧
    (∀ p, let k := { slabIn .searching with pending := p }
      k.status = .searching ∧ (repairing k (otherSlab .idle) [] (some (searchFor 0))).RepairStands ∧
      (repairing k (otherSlab .queued) [1] (some (searchFor 0))).RepairStands) ∧
    ((otherSlab .queued).acc.filter (fun a => a.natAbs < (otherSlab .queued).thresholds.weak)).length ≤ 3 := by
  refine ⟨fun a b fifo search => ⟨hears rfl rfl rfl rfl rfl rfl rfl (by decide), rfl, rfl, rfl, by show 0 < 24; decide⟩,
    ⟨_, names rfl, rfl, rfl, rfl⟩, good_passes, ⟨5, _, by decide, rfl, rfl, .inr rfl⟩, ⟨rfl, ?_⟩, fun p => ⟨rfl, ?_⟩,
    fun p => ⟨rfl, ?_, ?_⟩, by decide +kernel⟩ <;>
    exact repairing_stands _ _ _ _ ⟨rfl, rfl⟩ ⟨rfl, rfl⟩ (by decide)
      (fun i => by simp [slabIn, otherSlab, eq_comm]) (fun i => by simp [slabIn, otherSlab, searchFor, eq_comm])
      (by simp)

/-- That job with sector 2 alone wanted. -/
def lastWanted : Job :=
  { job .reading with records := (List.range 8).map (fun i => recordAdmitted (i == 2) none) }

theorem meets_JobsComplete :
    ∀ q ∈ ([[], List.replicate 23 (.stray 0), List.replicate 24 (.stray 0)] : List (List Entry)),
      let s := { hearing revolution (headerOf 2) lastWanted with queue := q }
      s.Hears 0 revolution { capture := headerOf 2, last := 600 } desc lastWanted 13100 goodWords ∧
      (headerOf 2).Names lastWanted 2 (recordAdmitted true none) ∧ WordsPass goodWords ∧ lastWanted.unit = 0 ∧
      (s.drive 0).heldJob = some 0 ∧ (s.drive 0).state = .tracking ∧
      (∀ (i : Nat) r, i ≠ 2 → lastWanted.records[i]? = some r →
        r.state ∈ [.notWanted, .good, .voted, .repaired] ∧ r.delivery ≠ .awaiting) ∧
      (∀ i k, s.slab i = some k → k.job ≠ 0) ∧ ¬ s.HasQueued 0 ∧ .jobEnd 0 ∉ s.queue := by
  intro q hq
  refine ⟨hears rfl rfl rfl rfl rfl rfl rfl (by decide), names rfl, good_passes, rfl, rfl, rfl, ?_, ?_, ?_, ?_⟩
  · intro i r hi hr
    have hl : i < 8 := (List.getElem?_eq_some_iff.1 hr).1
    exact (by decide : ∀ i < 8, i ≠ 2 → ∀ r ∈ lastWanted.records[i]?,
      r.state ∈ [.notWanted, .good, .voted, .repaired] ∧ r.delivery ≠ .awaiting) i hl hi r hr
  · exact (by decide : ∀ i, ∀ k ∈ State.reset.slab i, k.job ≠ 0)
  · exact no_queued (s := hearing revolution (headerOf 2) lastWanted) (by decide)
  · revert q; decide

/-- A record with a raw image. -/
def rawRecord : Record := { recordAdmitted true none with image := some ⟨.raw, badWords⟩ }

theorem meets_FailingDataVotes :
    (∀ r, r = recordAdmitted true none ∨ r = rawRecord →
      let x := { job .reading with records := (job .reading).records.set 2 r }
      (hearing revolution (headerOf 2) x).Hears 0 revolution { capture := headerOf 2, last := 600 } desc x 13100 badWords ∧
      (headerOf 2).Names x 2 r ∧ r.state = .wanted) ∧ ¬ WordsPass badWords ∧
    (recordAdmitted true none).image = none ∧ rawRecord.image = some ⟨.raw, badWords⟩ ∧ revolution.noVote = false ∧
    2 < revolution.profile.quorum ∧
    (∀ c, ({ revolution with weightCap := some 1 } : Revolution).weightCap = some c → 1 ≤ c) ∧
    (opened 2).slab 0 = none ∧ (∀ k, k < (0 : SlabId) → (opened 2).slab k ≠ none) ∧
    (let s := { opened 2 with slabs := (Vector.replicate 64 (some (Slab.fresh 1 0 33 { quorum := 2, weak := 1, repair := 0 }))).set 63 none }
     s.slab 63 = none ∧ ∀ k, k < (63 : SlabId) → s.slab k ≠ none) := by
  refine ⟨?_, bad_fails, rfl, rfl, rfl, by decide, fun c h => by cases h; decide, rfl, by decide, rfl, by decide⟩
  rintro r (rfl | rfl) <;>
    exact ⟨hears rfl rfl rfl rfl rfl rfl rfl (by show JobState.reading ≠ .draining; decide), names rfl, rfl⟩

theorem meets_FailingDataWaits :
    (∀ rev r, rev = revolution ∨ rev = { revolution with noVote := true } →
      r = recordAdmitted true none ∨ r = { recordAdmitted true none with state := .voting, slab := some 0 } ∨
        r = { recordAdmitted true none with state := .good } →
      let x := { job .reading with records := (job .reading).records.set 2 r }
      (hearing rev (headerOf 2) x).Hears 0 rev { capture := headerOf 2, last := 600 } desc x 13100 badWords ∧
      (headerOf 2).Names x 2 r) ∧ ¬ WordsPass badWords ∧
    RecordState.good ∉ [RecordState.wanted, .voting] ∧
    (let s := { opened 2 with slabs := Vector.replicate 64 (some (slabIn .idle)) }
     ∀ i, s.slab i ≠ none) ∧
    (let s := (opened 2).setSlab 0 (some (slabIn .queued))
     s.slab 0 = some (slabIn .queued) ∧ (slabIn .queued).status ≠ .idle ∧ (slabIn .queued).pending = none) ∧
    (let k := { slabIn .searching with pending := some (heldPending badWords (List.replicate 33 3) .header revolution) }
     k.status ≠ .idle ∧ k.pending ≠ none) := by
  refine ⟨?_, bad_fails, by decide, by decide, ⟨rfl, by decide, rfl⟩, by decide, nofun⟩
  rintro rev r (rfl | rfl) (rfl | rfl | rfl) <;>
    exact ⟨hears rfl rfl rfl rfl rfl rfl rfl (by show JobState.reading ≠ .draining; decide), names rfl⟩

theorem meets_FoldsVote :
    let x := Slab.fresh 0 2 33 { quorum := 3, weak := 6, repair := 2 }
    let y := x.fold badWords (List.replicate 33 4) { quorum := 3, weak := 6, repair := 2 }
    x.acc.length = 12 * badWords.length ∧ (List.replicate 33 4).length = badWords.length ∧
    x.acc[12 * 32 + 11]? = some 0 ∧ badWords[32]? = some 937 ∧ (List.replicate 33 4)[32]? = some 4 ∧
    y.votedImage[32]? = some 937 := by decide +kernel

/-- The classes of a field whose transitions all fall on the sampling point. -/
theorem clean_graded : FieldGraded clean 0 0 33 (List.replicate 33 3) := by
  refine ⟨List.length_replicate, fun i ts g hts _ hg => ?_⟩
  obtain rfl := List.eq_of_mem_replicate (List.mem_of_getElem? hts)
  obtain rfl := List.eq_of_mem_replicate (List.mem_of_getElem? hg)
  intro q h1 h3
  refine ⟨fun _ t ht => ?_, fun _ => h3⟩
  rw [List.mem_singleton.1 ht]
  obtain rfl | rfl | rfl : q = 1 ∨ q = 2 ∨ q = 3 := by omega
  all_goals (unfold MarginAtLeast; decide)

theorem meets_FoldsAreJudged :
    let next (k : Slab) : Slab := k.fold badWords ((List.replicate 33 3).map (weightOf .header revolution.weightCap))
      { quorum := revolution.profile.quorum, weak := revolution.profile.weak, repair := revolution.profile.repair }
    (∀ k search, k = foldedSlab [] 1 ∨ k = foldedSlab [] 2 ∨ k = foldedSlab [badWords] 2 ∨ k = foldedSlab [goodWords] 2 ∨
        k = foldedSlab [goodWords, goodWords] 2 →
      (foldingInto k search).Hears 0 revolution { capture := headerOf 2, last := 600 } desc twoVotes 13100 badWords ∧
      (headerOf 2).Names twoVotes 2
        { recordAdmitted true none with state := .voting, slab := some 0, image := some ⟨.voted, badWords⟩ } ∧
      (foldingInto k search).slab 0 = some k ∧ k.status = .idle ∧ k.job = 0 ∧ k.sector = 2 ∧
      k.acc.length = 12 * badWords.length ∧ (foldingInto k search).RepairStands ∧
      (foldingInto k search).search.isSome = search) ∧
    ¬ WordsPass badWords ∧ revolution.noVote = false ∧ FieldGraded clean revolution.trim 0 33 (List.replicate 33 3) ∧
    (next (foldedSlab [] 1)).folds < revolution.profile.quorum ∧
    (revolution.profile.quorum ≤ (next (foldedSlab [goodWords, goodWords] 2)).folds ∧
      WordsPass (next (foldedSlab [goodWords, goodWords] 2)).votedImage ∧
      ∃ (m : Nat) (q : Record), m ≠ 2 ∧ twoVotes.records[m]? = some q ∧ q.Outstanding) ∧
    (∀ k, k = foldedSlab [] 2 ∨ k = foldedSlab [badWords] 2 ∨ k = foldedSlab [goodWords] 2 →
      revolution.profile.quorum ≤ (next k).folds ∧ ¬ WordsPass (next k).votedImage) ∧
    (next (foldedSlab [badWords] 2)).weakCount = 0 ∧
    revolution.profile.repair < (next (foldedSlab [] 2)).weakCount ∧
    (1 ≤ (next (foldedSlab [goodWords] 2)).weakCount ∧
      (next (foldedSlab [goodWords] 2)).weakCount ≤ revolution.profile.repair) ∧ revolution.profile.repair ≤ 3 := by
  intro next
  have voted : (next (foldedSlab [goodWords, goodWords] 2)).votedImage = goodWords := by decide +kernel
  refine ⟨?_, bad_fails, rfl, clean_graded, by decide +kernel, ⟨by decide +kernel, by rw [voted]; exact good_passes,
    5, _, by decide, rfl, rfl, .inr rfl⟩, ?_, by decide +kernel, by decide +kernel, by decide +kernel, by decide⟩
  · rintro k search (rfl | rfl | rfl | rfl | rfl) <;>
      exact ⟨hears rfl rfl rfl rfl rfl rfl rfl (by decide), names rfl, rfl, rfl, rfl, rfl, by decide +kernel,
        folding_stands _ _ rfl rfl rfl, by cases search <;> rfl⟩
  · have e : ∀ k, k = foldedSlab [] 2 ∨ k = foldedSlab [badWords] 2 ∨ k = foldedSlab [goodWords] 2 →
        revolution.profile.quorum ≤ (next k).folds ∧ (next k).votedImage = badWords := by
      rintro k (rfl | rfl | rfl) <;> decide +kernel
    intro k hk; rw [(e k hk).2]; exact ⟨(e k hk).1, bad_fails⟩

/-! The last record of a job that is recovered. -/

/-- A capture of a job's sector 2 beside the one slab in use, 0. -/
def alone (x : Job) (k : Slab) (search : Option Search) : State :=
  { (hearing revolution (headerOf 2) x).setSlab 0 (some k) with search := search }

theorem alone_slab {x : Job} {k z : Slab} {search : Option Search} {i : SlabId} :
    (alone x k search).slab i = some z ↔ i = 0 ∧ z = k := by
  have e : (alone x k search).slab i = if 0 = i.val then some k else State.reset.slab i := Vector.getElem_set (by decide) _
  rw [e, (by decide : ∀ i, State.reset.slab i = none) i]
  by_cases h : i = 0
  · subst h; simp [eq_comm]
  · rw [if_neg (fun h' => h (Fin.ext h'.symm))]; simp [h]

theorem alone_stands {x : Job} {k : Slab} {search : Option Search} {r : Record} (hj : k.job = 0 ∧ k.sector = 2)
    (hf : x.finalized = false) (hr : x.records[2]? = some r) (hv : r.state = .voting ∧ r.slab = some 0)
    (hs : (k.status = .idle ∧ search = none) ∨ (k.status = .searching ∧ ∃ f, search = some f ∧ f.slab = 0)) :
    (alone x k search).RepairStands := by
  have hq : (alone x k search).fifo = [] := rfl
  have he : (alone x k search).search = search := rfl
  refine ⟨by rw [hq]; exact List.nodup_nil, fun i => ?_, fun i => ?_, fun _ => hq, fun i z hz => ?_⟩
  · rw [hq]; refine ⟨nofun, fun ⟨z, hz, h⟩ => ?_⟩
    obtain ⟨rfl, rfl⟩ := alone_slab.1 hz
    rcases hs with ⟨h', _⟩ | ⟨h', _⟩ <;> rw [h'] at h <;> cases h
  · rw [he]; constructor
    · rintro ⟨z, hz, h⟩
      obtain ⟨rfl, rfl⟩ := alone_slab.1 hz
      rcases hs with ⟨h', _⟩ | ⟨_, h'⟩
      · rw [h'] at h; cases h
      · exact h'
    · rintro ⟨f, hf', rfl⟩
      rcases hs with ⟨_, h'⟩ | ⟨h', g, hg, e⟩
      · rw [h'] at hf'; cases hf'
      · rw [hg] at hf'; cases hf'; exact ⟨k, alone_slab.2 ⟨e, rfl⟩, h'⟩
  · obtain ⟨rfl, rfl⟩ := alone_slab.1 hz
    rw [hj.1, hj.2]; exact ⟨x, r, rfl, hf, hr, hv⟩

/-- That job with sector 2 alone wanted, and VOTING in slab 0. -/
def lastVote : Job :=
  { lastWanted with records := lastWanted.records.modify 2 (fun r =>
      { r with state := .voting, slab := some 0, image := some ⟨.voted, badWords⟩ }) }

theorem last_vote (k : Slab) (search : Option Search) : (alone lastVote k search).Last 0 0 lastVote 2 (some 0) where
  unit := rfl
  held := rfl
  others := fun i r hi hr => by
    have hl : i < 8 := (List.getElem?_eq_some_iff.1 hr).1
    exact (by decide : ∀ i < 8, i ≠ 2 → ∀ r ∈ lastVote.records[i]?,
      r.state ∈ [.notWanted, .good, .voted, .repaired] ∧ r.delivery ≠ .awaiting) i hl hi r hr
  slabs := fun i z hz _ => by rw [(alone_slab.1 hz).1]
  next := by
    rintro ⟨j, x, hx, _, hq⟩
    have e : (alone lastVote k search).job j = if 0 = j.val then some lastVote else State.reset.job j :=
      Vector.getElem_set (by decide) _
    rw [e, (by decide : ∀ j, State.reset.job j = none) j] at hx
    split at hx <;> cases hx
    cases hq
  due := nofun

/-- A capture held in a slab, and what a slab takes from it. -/
def heldBad : Pending := heldPending badWords (List.replicate 33 3) .header revolution
def takes (k : Slab) : Slab :=
  { k with pending := none }.fold heldBad.words (heldBad.margins.map (weightOf heldBad.ident heldBad.weightCap))
    heldBad.thresholds

theorem one_candidate : candidatesOf badWords [0] = [goodWords] := by decide +kernel
theorem no_candidate : candidatesOf goodWords [0] = [badWords] := by decide +kernel

theorem unique_outcome : OnlyPasses (candidatesOf badWords [0]) goodWords := by
  rw [one_candidate]
  refine ⟨0, rfl, good_passes, fun b e hb he => ?_⟩
  obtain ⟨b, rfl⟩ := Nat.exists_eq_succ_of_ne_zero hb; cases he

theorem none_outcome (x : Slab) (y : Job) :
    Inconclusive (candidatesOf goodWords [0]) x y { x with status := .idle } y :=
  .none fun c hc => by rw [no_candidate] at hc; rw [List.mem_singleton.1 hc]; exact bad_fails

theorem ambiguous_outcome (x : Slab) (y : Job) : Inconclusive [goodWords, goodWords] x y
    { x with status := .idle, ambiguity := min 255 (x.ambiguity + 1) }
    { y with counters := { y.counters with ambiguous := min 65535 (y.counters.ambiguous + 1) } } :=
  .ambiguous 0 1 _ _ (by decide) rfl good_passes rfl good_passes

/-- What that capture makes of a slab: VOTED, a search, or neither. -/
theorem takes_voted : (takes (foldedSlab [goodWords, goodWords] 2)).votedImage = goodWords ∧
    heldBad.thresholds.quorum ≤ (takes (foldedSlab [goodWords, goodWords] 2)).folds := by decide +kernel
theorem takes_again : (takes (foldedSlab [goodWords] 2)).votedImage = badWords ∧
    heldBad.thresholds.quorum ≤ (takes (foldedSlab [goodWords] 2)).folds ∧
    1 ≤ (takes (foldedSlab [goodWords] 2)).weakCount ∧
    (takes (foldedSlab [goodWords] 2)).weakCount ≤ heldBad.thresholds.repair ∧ heldBad.thresholds.repair ≤ 3 := by
  decide +kernel
theorem takes_clear : (takes (foldedSlab [badWords] 2)).votedImage = badWords ∧
    (takes (foldedSlab [badWords] 2)).weakCount = 0 := by decide +kernel

theorem meets_JobsComplete_voting :
    (∀ k search, k.job = 0 ∧ k.sector = 2 →
        (k.status = .idle ∧ search = none) ∨ (k.status = .searching ∧ ∃ f, search = some f ∧ f.slab = 0) →
      (∀ words : List Word12, words.length = 33 →
        (alone lastVote k search).Hears 0 revolution { capture := headerOf 2, last := 600 } desc lastVote 13100 words) ∧
      (∃ r, (headerOf 2).Names lastVote 2 r ∧ r.wanted = true ∧ r.state = .voting ∧ r.slab = some 0) ∧
      (alone lastVote k search).slab 0 = some k ∧ (alone lastVote k search).RepairStands ∧
      ((alone lastVote k search).drive 0).state = .tracking ∧
      (alone lastVote k search).Last 0 0 lastVote 2 (some 0) ∧ (alone lastVote k search).job 0 = some lastVote ∧
      lastVote.InHand) ∧
    WordsPass goodWords ∧ ¬ WordsPass badWords ∧ FieldGraded clean revolution.trim 0 33 (List.replicate 33 3) ∧
    (foldedSlab [goodWords, goodWords] 2).acc.length = 12 * badWords.length ∧
    heldBad.thresholds.quorum ≤ (takes (foldedSlab [goodWords, goodWords] 2)).folds ∧
    WordsPass (takes (foldedSlab [goodWords, goodWords] 2)).votedImage ∧
    OnlyPasses (candidatesOf badWords [0]) goodWords ∧
    (∀ x, Inconclusive (candidatesOf goodWords [0]) x lastVote { x with status := .idle } lastVote) := by
  refine ⟨fun k search hj hs => ⟨fun words hl => hears rfl rfl rfl rfl rfl rfl hl (by decide), ⟨_, names rfl, rfl, rfl, rfl⟩,
    rfl, alone_stands (r := { recordAdmitted true none with state := .voting, slab := some 0, image := some ⟨.voted, badWords⟩ })
      hj rfl rfl ⟨rfl, rfl⟩ hs, rfl, last_vote k search, rfl, rfl, rfl⟩,
    good_passes, bad_fails, clean_graded, by decide +kernel, takes_voted.2, ?_, unique_outcome, fun x => none_outcome x _⟩
  rw [takes_voted.1]; exact good_passes

/-- That revolution under a profile that keeps strays. -/
def keeping : Revolution := { revolution with profile := { Profile.default with keepStrays := true } }

theorem meets_StraysJudged :
    (∀ rev c words, rev = keeping ∨ rev = revolution → c = strayHeader ∨ c = { headerOf 5 with repeated := true } →
        words = goodWords ∨ words = badWords →
      (hearing rev c (job .reading)).Hears 0 rev { capture := c, last := 600 } desc (job .reading) 13100 words ∧
      c.IsStray ∧ (∃ h1 h2 h3, c.header = some (h1, h2, h3)) ∧ c.data = none) ∧
    keeping.profile.keepStrays = true ∧ WordsPass goodWords ∧ (hearing keeping strayHeader (job .reading)).strays[(0 : Fin 4)] = none ∧
    (hearing keeping strayHeader (job .reading)).queue.length < 24 ∧
    (let strays := (Vector.replicate 4 (some stray)).set 3 none
     strays[(3 : Fin 4)] = none ∧ ∀ a : Fin 4, a < 3 → strays[a] ≠ none) ∧
    (revolution.profile.keepStrays = false ∧ ¬ WordsPass badWords ∧
      (∀ b : Fin 4, (Vector.replicate 4 (some stray))[b] ≠ none) ∧ 24 ≤ (List.replicate 24 (Entry.stray 0)).length) := by
  refine ⟨?_, rfl, good_passes, rfl, by decide, by decide, rfl, bad_fails, by decide, by decide⟩
  rintro rev c words (rfl | rfl) (rfl | rfl) (rfl | rfl) <;>
    first
    | exact ⟨hears rfl rfl rfl rfl rfl rfl rfl (by decide), .inl rfl, ⟨_, _, _, rfl⟩, rfl⟩
    | exact ⟨hears rfl rfl rfl rfl rfl rfl rfl (by decide), .inr ⟨rfl, rfl⟩, ⟨_, _, _, rfl⟩, rfl⟩

/-- A blind candidate of a slot, with its words and classes. -/
def blind (slot : Nat) (shared : Bool) : Deferred :=
  { slot := slot, shared := shared, capture :=
      { unit := 0, job := 0, ident := none, sector := none, repeated := false, status := .noSync, header := none, low := false
        data := some { words := badWords, margins := List.replicate 33 3, sync := 101800 } } }

/-- That capture at its closing index with one blind candidate, whether a field came at full amplitude, and the window still
open. -/
def closingBlind (e : Deferred) (live : Bool) (window : Option OpenHeader) : State :=
  { closing 0 0 0 0 live window with channel := { (closing 0 0 0 0 live window).channel with deferred := [e] } }

theorem closes_blind (e : Deferred) (live : Bool) (window : Option OpenHeader) :
    (closingBlind e live window).Closes 0 (reading 0 0) desc 0 (reader 0 0) revolution 400000 .inTolerance := by
  have h := closes on_time 0 0 0 0 live window (closing 0 0 0 0 live window).profiles
  exact ⟨h.drive, h.descriptor, h.held, h.job, h.unit, h.reading, h.budget, h.tracking, h.before, h.after, h.capturing,
    h.revolution⟩

theorem meets_BlindCandidates :
    (capturing.channel.state = .capturing 0 ∧ capturing.channel.rev = some revolution ∧
      (capturing.drive 0).descriptor = some desc ∧ badWords.length = desc.words + 1 ∧ capturing.channel.openHeader = none) ∧
    ((hearing revolution badHeader (job .reading)).channel.openHeader = some { capture := badHeader, last := 600 } ∧
      badHeader.status ≠ .good ∧ 13100 ≤ 600 + revolution.window) ∧
    ((desc.dataOffset ≤ 1800 ∧ 0 < revolution.pitch ∧ 0 = (1800 - desc.dataOffset) / revolution.pitch ∧ 0 < desc.sectors) ∧
      (7 = (401799 - desc.dataOffset) / revolution.pitch ∧ 7 < desc.sectors)) ∧
    (1799 < desc.dataOffset ∧ desc.sectors ≤ (401800 - desc.dataOffset) / revolution.pitch) ∧
    ((∀ e ∈ capturing.channel.deferred, e.slot ≠ 0) ∧
      (∃ e ∈ (closingBlind (blind 2 false) true none).channel.deferred, e.slot = 2) ∧
      ((closingBlind (blind 2 false) true none).channel.deferred.map (·.slot)).Nodup) ∧
    ((opened 2).channel.openHeader = some { capture := headerOf 2, last := 600 } ∧ (headerOf 2).data = none ∧
      600 + revolution.window < 13101) ∧
    (∀ e live window, (closingBlind e live window).Closes 0 (reading 0 0) desc 0 (reader 0 0) revolution 400000 .inTolerance ∧
      (closingBlind e live window).clock = 0 ∧ ((closingBlind e live window).unitProfiles 0).swapPending = false ∧
      (closingBlind e live window).channel.deferred = [e] ∧ (closingBlind e live window).channel.slotSet = [] ∧
      ((closingBlind e live window).unitProfiles 0).active = .default) ∧
    (∀ e, StageOne (closingBlind e true none) 0 .nothing 0 (reader 0 0) 0 (reader 0 0) 0 true ∧
      StageOne (closingBlind e false none) 0 (.data false) 0 (reader 0 0) 0 (reader 0 0) 0 true ∧
      StageOne (closingBlind e false (windowOf (lowHeader false))) 0 .nothing 0 (reader 0 0) 0 (reader 0 0).heard 0 true) ∧
    (reader 0 0).passCount + 1 < Profile.default.passLimit ∧
    (∀ shared, (blind 2 shared).slot < 32 ∧ (blind 2 shared).capture.unit = 0 ∧ (blind 2 shared).capture.job = 0 ∧
      (blind 2 shared).capture.status ≠ .good ∧
      (blind 2 shared).capture.data = some { words := badWords, margins := List.replicate 33 3, sync := 101800 } ∧
      (blind 2 shared).shared = shared) ∧
    ((reader 0 0).records[2]? = some (recordAdmitted true none) ∧ (recordAdmitted true none).state = .wanted ∧
      (recordAdmitted true none).image = none ∧ revolution.noVote = false ∧ revolution.noBlind = false ∧
      revolution.profile.blindAllowed = true ∧ 2 ≤ revolution.profile.quorum ∧ revolution.weightCap = none ∧
      (closingBlind (blind 2 false) true none).slab 0 = none ∧ ∀ m : SlabId, m < 0 → (closingBlind (blind 2 false) true none).slab m ≠ none) := by
  refine ⟨⟨rfl, rfl, rfl, rfl, rfl⟩, ⟨rfl, by decide, by decide⟩, by decide, by decide,
    ⟨by decide, ⟨_, List.mem_singleton.2 rfl, rfl⟩, List.nodup_singleton _⟩, ⟨rfl, rfl, by decide⟩,
    fun e live window => ⟨closes_blind e live window, rfl, rfl, rfl, rfl, rfl⟩,
    fun e => ⟨.bare rfl, .bare rfl, stage_window rfl rfl rfl rfl (.named 5 _ rfl ⟨rfl, rfl, rfl, rfl⟩) rfl⟩, by decide,
    fun shared => ⟨by show 2 < 32; decide, rfl, rfl, nofun, rfl, rfl⟩, by decide⟩

/-- That job of sector 2 after its end, while the search runs. -/
def withdrawn (cause : EndCause) : Job := { votingJob with state := .draining, endCause := some cause }

/-- The VOTING record of sector 2. -/
def votingRecord : Record :=
  { recordAdmitted true none with state := .voting, slab := some 0, image := some ⟨.voted, badWords⟩ }

/-- The search of slab 0 with the FIFO empty: no other slab is in the repair unit. -/
theorem alone_next {x : Job} {k : Slab} {f : Search} {u : State} (h : (alone x k (some f)).NextSearch u) : ¬ u.Works 0 0 := by
  cases h with
  | idle _ =>
    rintro ⟨i, z, hi, hz, _⟩
    exact hi (alone_slab.1 hz).1
  | next m z rest g hf => cases hf

/-- That search before a QUEUED slab of the same job. -/
def waits (x : Job) (a b : Slab) (candidates : List (List Word12)) : State :=
  { ((hearing revolution (headerOf 2) x).setSlab 0 (some a)).setSlab 1 (some b) with
    fifo := [1], search := some { slab := 0, bits := [0], candidates := candidates } }

theorem waits_next {x : Job} {a b : Slab} {candidates : List (List Word12)} {u : State} (hb : b.job = 0)
    (h : (waits x a b candidates).NextSearch u) : u.Works 0 0 ∧ u.search ≠ none := by
  cases h with
  | idle hf => cases hf
  | next m z rest f hf hz _ =>
    cases hf; cases hz
    exact ⟨⟨1, _, by decide, rfl, hb, nofun⟩, nofun⟩

theorem meets_SearchEnds :
    (∀ x k candidates,
      (alone x k (some { slab := 0, bits := [0], candidates := candidates })).search =
        some { slab := 0, bits := [0], candidates := candidates } ∧
      (alone x k (some { slab := 0, bits := [0], candidates := candidates })).slab 0 = some k ∧
      (alone x k (some { slab := 0, bits := [0], candidates := candidates })).job 0 = some x ∧
      (alone x k (some { slab := 0, bits := [0], candidates := candidates })).fifo = [] ∧
      (alone x k (some { slab := 0, bits := [0], candidates := candidates })).Searchable 0) ∧
    (votingJob.InHand ∧ votingJob.WantsMore 2 ∧ votingJob.records[2]? = some votingRecord ∧ votingRecord.slab = some 0 ∧
      votingRecord.state = .voting ∧ votingRecord.delivery = .none) ∧
    (∀ cause, cause = .passesExhausted ∨ cause = .budgetExhausted →
      (withdrawn cause).Lingers ∧ (withdrawn cause).records[2]? = some votingRecord) ∧
    (∀ cause ∈ [EndCause.aborted, .driveRetracted, .driveLost, .seekFailed, .driveReset],
      (withdrawn cause).state = .draining ∧ (withdrawn cause).endCause = some cause ∧ (withdrawn cause).finalized = false) ∧
    ((slabIn .searching).job = 0 ∧ (slabIn .searching).sector = 2 ∧ (slabIn .searching).pending = none) ∧
    OnlyPasses (candidatesOf badWords [0]) goodWords ∧
    (∀ x y, ∃ k z, Inconclusive (candidatesOf goodWords [0]) x y k z) ∧
    (∀ x y, ∃ k z, Inconclusive [goodWords, goodWords] x y k z) ∧ State.reset.search = none := by
  refine ⟨fun x k c => ⟨rfl, rfl, rfl, rfl, nofun⟩, ⟨⟨rfl, rfl⟩, ⟨5, _, by decide, rfl, rfl, .inl rfl⟩, rfl, rfl, rfl, rfl⟩, ?_,
    by decide, ⟨rfl, rfl, rfl⟩, unique_outcome, fun x y => ⟨_, _, none_outcome x y⟩, fun x y => ⟨_, _, ambiguous_outcome x y⟩, rfl⟩
  rintro cause (rfl | rfl)
  · exact ⟨⟨rfl, .inl rfl, rfl⟩, rfl⟩
  · exact ⟨⟨rfl, .inr rfl, rfl⟩, rfl⟩

/-- A capture held by the searched slab is folded: below the quorum or to no weak bit, to weak bits for a further search, and
to a voted image that passes. -/
theorem meets_SearchEnds_pending :
    (∀ images, images = [badWords] ∨ images = [goodWords] ∨ images = [goodWords, goodWords] →
      takes { foldedSlab images 2 with status := .idle, pending := some heldBad } = takes (foldedSlab images 2)) ∧
    (takes (foldedSlab [badWords] 2)).Undecided ∧ (takes { foldedSlab [badWords] 2 with folds := 0 }).Undecided ∧
    (¬ WordsPass (takes (foldedSlab [goodWords] 2)).votedImage ∧
      heldBad.thresholds.quorum ≤ (takes (foldedSlab [goodWords] 2)).folds ∧
      1 ≤ (takes (foldedSlab [goodWords] 2)).weakCount ∧
      (takes (foldedSlab [goodWords] 2)).weakCount ≤ heldBad.thresholds.repair ∧ heldBad.thresholds.repair ≤ 3) ∧
    (WordsPass (takes (foldedSlab [goodWords, goodWords] 2)).votedImage ∧
      heldBad.thresholds.quorum ≤ (takes (foldedSlab [goodWords, goodWords] 2)).folds) := by
  refine ⟨?_, .inr ⟨?_, .inl takes_clear.2⟩, .inl (by decide), ⟨?_, takes_again.2⟩, ?_, takes_voted.2⟩
  · rintro images (rfl | rfl | rfl) <;> rfl
  · rw [takes_clear.1]; exact bad_fails
  · rw [takes_again.1]; exact bad_fails
  · rw [takes_voted.1]; exact good_passes

/-- A slab of the job waits behind the search, so that the job stays in the repair unit. -/
theorem meets_SearchEnds_next :
    (∀ x a candidates, (waits x a (otherSlab .queued) candidates).fifo = [1] ∧ (0 : SlabId) ∉ [(1 : SlabId)] ∧
      (waits x a (otherSlab .queued) candidates).slab 0 = some a ∧ (waits x a (otherSlab .queued) candidates).job 0 = some x ∧
      (waits x a (otherSlab .queued) candidates).search = some { slab := 0, bits := [0], candidates := candidates } ∧
      (waits x a (otherSlab .queued) candidates).Searchable 0 ∧
      ∀ u, (waits x a (otherSlab .queued) candidates).NextSearch u → u.Works 0 0 ∧ u.search ≠ none) ∧
    (∀ x k f u, (alone x k (some f)).NextSearch u → ¬ u.Works 0 0) := by
  refine ⟨fun x a c => ⟨rfl, by decide, rfl, rfl, rfl, ?_, fun u h => waits_next rfl h⟩, fun x k f u h => alone_next h⟩
  intro m hm; cases hm
  exact ⟨by decide, _, rfl, by decide +kernel⟩

/-! A state with a unit, a job under way, a map and a hold, which satisfies the invariants, and its next state. -/

/-- Unit 0 that seeks after a recalibration for its one job, which is READING with a sector in the vote, with an extent, a
remap entry and a hold. -/
def standing : State :=
  { voting ((withJob seekingUnit (job .reading)).setExtents 0 [⟨63, 0, 2, 3, 4⟩]) with remaps := [remap], hold := some 9 }

theorem idle_ok : (Drive.powerOn false).Ok where
  monitor := ⟨by decide, by decide, by decide⟩
  offset := by decide
  descriptor := nofun
  seek := nofun
  restore := nofun
  unloadLine := by simp [Drive.powerOn]
  loadLine := nofun
  timer := nofun
  settle := fun _ => rfl
  deferral := fun _ => rfl
  loop := fun _ => ⟨rfl, rfl⟩
  deferralLimit := by decide
  waitingLimit := by decide
  straysLimit := by decide
  settleLimit := by decide
  errorsLimit := by decide
  deadLimit := by decide
  positioningLimit := by decide
  preparedOk := nofun
  cylinder := nofun
  target := nofun
  unloaded := fun _ => rfl
  retracted := fun _ => rfl

theorem seeking_ok : seekingUnit.Ok where
  monitor := ⟨by decide, by decide, by decide⟩
  offset := by decide
  descriptor := fun x h => by cases h; decide
  seek := fun _ _ => rfl
  restore := nofun
  unloadLine := by decide
  loadLine := by decide
  timer := by decide
  settle := by decide
  deferral := by decide
  loop := by decide
  deferralLimit := by decide
  waitingLimit := by decide
  straysLimit := by decide
  settleLimit := by decide
  errorsLimit := by decide
  deadLimit := by decide
  positioningLimit := by decide
  preparedOk := nofun
  cylinder := fun c x hc hx => by cases hc; cases hx; decide
  target := fun c x hc hx => by cases hc; cases hx; decide
  unloaded := by decide
  retracted := by decide

/-- The slab of that job, with every accumulator at 0. -/
theorem slab_ok : (slabIn .idle).Ok where
  acc := by decide +kernel
  bits := by decide +kernel
  weakCount := by decide
  folds := by decide
  ambiguity := by decide

theorem standing_slab {i : SlabId} {x : Slab} (h : standing.slab i = some x) : i = 0 ∧ x = slabIn .idle := by
  have e : standing.slab i = if 0 = i.val then some (slabIn .idle) else State.reset.slab i := Vector.getElem_set (by decide) _
  rw [e, (by decide : ∀ i, State.reset.slab i = none) i] at h
  split at h
  · exact ⟨Fin.ext (by omega), (Option.some.inj h).symm⟩
  · cases h

theorem standing_described (n : UnitId) : n = 0 ∨ (standing.drive n).descriptor = none := by
  fin_cases n
  · exact .inl rfl
  all_goals exact .inr rfl

theorem meets_StepKeepsRanges : standing.InRange ∧ step standing = .next { standing with clock := 1 } := by
  have only : ∀ j x, standing.job j = some x → j = 0 ∧ x = votingJob := by
    intro j x hx
    obtain rfl : j = 0 := (by decide : ∀ j, ∀ x ∈ standing.job j, j = 0) j x hx
    exact ⟨rfl, (Option.some.inj hx).symm⟩
  refine ⟨?_, rfl⟩
  constructor
  case drives =>
    intro n; fin_cases n
    · exact seeking_ok
    all_goals exact idle_ok
  case profiles =>
    intro n
    have e : standing.unitProfiles n = .powerOn := by revert n; decide
    have d : Profile.default.Ok := by constructor <;> decide
    rw [e]; exact ⟨d, d⟩
  case jobs =>
    intro j x hx; obtain ⟨rfl, rfl⟩ := only j x hx
    exact ⟨by decide, by decide, by decide, by decide, by decide, by constructor <;> decide, fun r hr =>
      ⟨(by decide : ∀ r ∈ votingJob.records, r.reads ≤ 255) r hr,
        (by decide : ∀ r ∈ votingJob.records, r.weakCount ≤ 3084) r hr,
        (by decide : ∀ r ∈ votingJob.records, r.weakList.length ≤ 32) r hr⟩⟩
  case tracks => intro j x hx; obtain ⟨rfl, rfl⟩ := only j x hx; exact ⟨desc, rfl, by decide, by decide, rfl⟩
  case slabs => intro i x hx; obtain ⟨rfl, rfl⟩ := standing_slab hx; exact slab_ok
  case channel => exact ⟨by decide, nofun, List.nodup_nil, nofun, List.nodup_nil, nofun⟩
  case quirks => intro k q h; rw [(by decide : ∀ k : Fin 16, standing.quirks[k] = none) k] at h; cases h
  case flags =>
    have none_owed : ∀ k, ¬ standing.flags.owed.getLsbD k = true := fun k h => by
      rw [show standing.flags.owed = 0 from rfl] at h; simp at h
    exact ⟨fun k h => absurd h (none_owed k), fun k h => absurd h (none_owed k)⟩
  case extents => decide
  case remaps => decide
  case sorted => exact List.pairwise_singleton ..
  case described =>
    intro n h
    fin_cases n
    · cases h
    all_goals exact ⟨rfl, by decide⟩
  case within =>
    intro n d hd
    obtain rfl | h := standing_described n
    · cases hd
      intro k e he
      obtain rfl : k = 0 := by
        rcases k with _ | k
        · rfl
        · cases he
      cases he
      refine ⟨by decide, fun b _ h1 => ?_⟩
      have e : firstBlock (standing.extentsOf 0) 0 = 0 := rfl
      simp only [desc] at *; rw [e]; omega
    · rw [h] at hd; cases hd
  case alternates =>
    intro r hr d hd; obtain rfl := List.mem_singleton.1 hr; cases hd; exact ⟨by decide, by decide, by decide⟩
  case queue => decide

theorem meets_StepKeepsLine : standing.LineStands ∧ step standing = .next { standing with clock := 1 } :=
  ⟨⟨⟨by decide, by decide⟩, .inl rfl, fun _ _ => by decide, by show _ ↔ _; decide, fun m h => (nomatch h),
    granted (by decide)⟩, rfl⟩

theorem meets_StepKeepsJobs :
    standing.InRange ∧ standing.JobsStand ∧ step standing = .next { standing with clock := 1 } := by
  refine ⟨meets_StepKeepsRanges.1, ⟨?_, by decide, by decide, fun n h => ?_, by decide, ?_, ?_, ?_, fun m h => by cases h⟩, rfl⟩
  · show ∀ n j, _ ↔ ∃ x, x ∈ standing.job j ∧ _
    decide
  · exact absurd h ((by decide : ∀ n, (standing.drive n).state ≠ .idle) n)
  · intro n h; cases h
  · intro j h; cases h
  · intro j; exact Nat.zero_le 1

theorem meets_StepKeepsRepair :
    standing.InRange ∧ standing.JobsStand ∧ standing.RepairStands ∧ step standing = .next { standing with clock := 1 } := by
  have st := voting_stands (s := (withJob seekingUnit (job .reading)).setExtents 0 [⟨63, 0, 2, 3, 4⟩]) (by decide) rfl rfl
  exact ⟨meets_StepKeepsRanges.1, meets_StepKeepsJobs.2.1, ⟨st.once, st.queued, st.searching, st.busy, st.owned⟩, rfl⟩

theorem meets_StepKeepsMaps : standing.MapsStand ∧ step standing = .next { standing with clock := 1 } := by
  refine ⟨⟨?_, by decide, ?_, List.pairwise_singleton .., ?_, List.pairwise_singleton ..⟩, rfl⟩
  · intro n; fin_cases n
    · exact List.pairwise_singleton ..
    all_goals exact List.Pairwise.nil
  · intro n d k e hd he
    obtain rfl : n = 0 := by
      fin_cases n
      · rfl
      all_goals cases hd
    cases hd
    obtain rfl : k = 0 := by
      rcases k with _ | k
      · rfl
      · cases he
    cases he
    exact ⟨by decide, by decide, by decide, by decide, fun b h0 h1 => by
      have e : firstBlock (standing.extentsOf 0) 0 = 0 := rfl
      rw [e]; simp only [desc] at *; omega, fun q b h => by cases h⟩
  · intro r hr; obtain rfl := List.mem_singleton.1 hr
    exact ⟨⟨_, rfl, by decide⟩, fun d hd => by cases hd; decide⟩

end Sys2Proof.Tests
end

section
/-! ## What a command can do

`Acts` lists, once, the work that commands bring about; the invariants that steps keep are proved case by case over it.
The requests are one case: each of them is a frame offered to the receive buffer. -/

namespace Sys2Proof.Machine

/-- A state that a command leads to from another (R27, R168 and R174 are taken up by `finish`). -/
inductive Acts (s : State) : State → Prop where
  | nothing : Acts s s
  | powerOn (rate : Fin 4) : Acts s (s.powerOn rate).finish
  | request (f : Frame) : Acts s (s.offerFrame f).finish
  | bytes (bs : List Byte) : Acts s (s.receive bs)
  | gap (now : Nat) : Acts s (({ s with clock := now } : State).discardFrame).finish
  | lineBreak : Acts s ({ s with link := s.link.hunt, hold := none } : State).finish
  | line (rts last : Bool) : Acts s ({ s with link := { s.link with rts := rts, lastByte := last } } : State).finish
  | reply : Acts s s.replyDone.finish
  | notice : Acts s s.endMessage.finish
  | sector (j : JobIx) (sec : Nat) : Acts s (s.sectorDone j sec).finish
  | stray (b : Fin 4) : Acts s (s.strayDone b).finish
  | jobEnd (j : JobIx) : s.deliveryCompleting = some (.jobEnd j) → Acts s (s.jobEndDone j).finish
  | holdEnds (now : Nat) : Acts s ({ s with clock := now, hold := none } : State).finish
  | index (n : UnitId) (elapsed : Nat) (cut : CutField) : Acts s (s.index n elapsed cut).finish
  | indexTimeout (n : UnitId) (deadline : Nat) : Acts s (s.indexTimeout n deadline).finish
  | readyRise (n : UnitId) : Acts s (s.readyRise n).finish
  | readyFall (n : UnitId) : Acts s (s.readyFall n).finish
  | seekDone (n : UnitId) (limit : Nat) : (s.drive n).motion = .seek limit → Acts s (s.seekDone n).finish
  | restoreDone (n : UnitId) (limit : Nat) : (s.drive n).motion = .restore limit → Acts s (s.restoreDone n).finish
  | seekError (n : UnitId) (now : Nat) :
      (s.drive n).motion ≠ .still → Acts s (({ s with clock := now } : State).seekError n).finish
  | headsUnloaded (n : UnitId) : (s.drive n).state = .unloading → Acts s (s.headsUnloaded n).finish
  | header (n : UnitId) (rev : Revolution) (last : Nat) (h1 h2 h3 : Word12) (low : Bool) :
      Acts s (s.readHeader n rev last h1 h2 h3 low).finish
  | data (n : UnitId) (rev : Revolution) (sync : Nat) (words : List Word12) (timing : List (List Transition)) (low : Bool) :
      Acts s (s.readData n rev (s.fieldRead n rev.trim sync words timing) low).finish
  | window (rev : Revolution) : Acts s (s.closeWindow rev).finish
  | search : Acts s s.endSearch.finish

theorem Acts.of_nothing {s t : State} (h : (Host.Outcome.next s : Host.Outcome State Fault Refusal) = .next t) :
    Acts s t := by
  cases h
  exact .nothing

/-- Every command does one of these things. -/
theorem exec_acts (c : Instr) (s t : State) (h : exec c s = .next t) : Acts s t := by
  cases c
  case powerOn => cases h; exact .powerOn _
  case frameComplete => cases h; exact .bytes _
  case frameLengthOutOfRange => cases h; exact .bytes _
  case frameGapTimeout =>
    simp only [exec, execFrameGapTimeout] at h
    split at h
    · split at h
      · cases h; exact .gap _
      · exact .of_nothing h
    · exact .of_nothing h
  case lineBreak => cases h; exact .lineBreak
  case requestToSendDropped =>
    simp only [exec, execRequestToSendDropped] at h
    split at h
    · cases h; exact .line _ _
    · exact .of_nothing h
  case requestToSendAsserted => cases h; exact .line _ _
  case replySent =>
    simp only [exec, execReplySent] at h
    split at h
    · cases h; exact .reply
    · exact .of_nothing h
  case noticeSent =>
    simp only [exec, execNoticeSent] at h
    split at h
    · cases h; exact .notice
    · exact .of_nothing h
  case sectorSent =>
    simp only [exec, execSectorSent] at h
    split at h
    · cases h; exact .sector _ _
    all_goals exact .of_nothing h
  case straySent =>
    simp only [exec, execStraySent] at h
    split at h
    · cases h; exact .stray _
    all_goals exact .of_nothing h
  case jobEndSent =>
    simp only [exec, execJobEndSent] at h
    split at h
    · next hd => cases h; exact .jobEnd _ hd
    all_goals exact .of_nothing h
  case holdExpires =>
    simp only [exec, execHoldExpires] at h
    split at h
    · cases h; exact .holdEnds _
    · exact .of_nothing h
  case indexPulse => cases h; exact .index _ _ _
  case indexTimeout =>
    simp only [exec, execIndexTimeout] at h
    split at h
    · split at h
      · cases h; exact .indexTimeout _ _
      · exact .of_nothing h
    · exact .of_nothing h
  case readyRise => cases h; exact .readyRise _
  case readyFall => cases h; exact .readyFall _
  case seekComplete =>
    simp only [exec, execSeekComplete] at h
    split at h
    · next hm => cases h; exact .seekDone _ _ hm
    all_goals exact .of_nothing h
  case restoreComplete =>
    simp only [exec, execRestoreComplete] at h
    split at h
    · next hm => cases h; exact .restoreDone _ _ hm
    all_goals exact .of_nothing h
  case seekErrorIndication n =>
    simp only [exec, execSeekErrorIndication] at h
    split at h
    · next hm => cases h; exact .seekError n s.clock (by rw [hm]; simp)
    · next hm => cases h; exact .seekError n s.clock (by rw [hm]; simp)
    · exact .of_nothing h
  case seekTimeout =>
    simp only [exec, execSeekTimeout] at h
    split at h
    · next hm => cases h; exact .seekError _ _ (by rw [hm]; simp)
    all_goals exact .of_nothing h
  case restoreTimeout =>
    simp only [exec, execRestoreTimeout] at h
    split at h
    · next hm => cases h; exact .seekError _ _ (by rw [hm]; simp)
    all_goals exact .of_nothing h
  case headsUnloaded =>
    simp only [exec, execHeadsUnloaded] at h
    split at h
    · next hu => cases h; exact .headsUnloaded _ hu
    · exact .of_nothing h
  case headerFieldRead =>
    simp only [exec, execHeaderFieldRead] at h
    split at h
    · cases h; exact .header _ _ _ _ _ _ _
    · exact .of_nothing h
  case dataFieldRead =>
    simp only [exec, execDataFieldRead] at h
    split at h
    · cases h; exact .data _ _ _ _ _ _
    · exact .of_nothing h
  case dataWindowCloses =>
    simp only [exec, execDataWindowCloses] at h
    split at h
    · cases h; exact .window _
    · exact .of_nothing h
  case searchEnd => cases h; exact .search
  all_goals
    cases h
    exact .request _

/-- A step is a tick, or the work of a command on the rest of the queue. -/
theorem step_acts {s t : State} (h : step s = .next t) :
    t = s.tick ∨ ∃ rest, Acts ({ s with pending := rest } : State) t := by
  unfold step at h
  split at h
  · exact .inr ⟨_, exec_acts _ _ _ h⟩
  · cases h
    exact .inl rfl

/-! ## Every step keeps the ranges -/

/-- Writing the clock, the count of free choices and the hold keeps every item in its range. -/
theorem Handles.times (s : State) (clock choices : Nat) (hold : Option Nat) :
    Handles s { s with clock := clock, choices := choices, hold := hold } :=
  ⟨rfl, fun h => { h with }, fun h => ⟨h.buffer, h.replies⟩⟩

/-- The index timer of a unit has run out: its mark set, its timer stopped and SPINDLE_LOST raised (R8). -/
def State.indexMarked (s : State) (n : UnitId) : State :=
  (s.modDrive n (fun d => { d with indexLost := true, indexTimer := none })).raise (unitFlag n .spindleLost)

theorem State.indexTimeout_eq (s : State) (n : UnitId) (deadline : Nat) :
    s.indexTimeout n deadline =
      if (s.drive n).state.measures then
        ((({ s with clock := max s.clock deadline } : State).indexMarked n).beginUnload n).endHeld n .driveRetracted
      else ({ s with clock := max s.clock deadline } : State).indexMarked n := rfl

theorem State.indexMarked_evolves (s : State) (n : UnitId) : Evolves s (s.indexMarked n) :=
  (EvolvesIf.modDrive .refl n _ fun h => { h with timer := fun e => by cases e }).raise _

theorem State.indexTimeout_handles (s : State) (n : UnitId) (deadline : Nat) :
    Handles s (s.indexTimeout n deadline) := by
  have timed := Handles.times s (max s.clock deadline) s.choices s.hold
  have marked := State.indexMarked_evolves ({ s with clock := max s.clock deadline } : State) n
  rw [State.indexTimeout_eq]
  split
  · exact timed.trans (marked.trans ((State.beginUnload_evolves _ _).trans (State.endHeld_evolves _ _ _))).handles
  · exact timed.trans marked.handles

/-- A data field read is as long as the unit's descriptor says, 257 words at the most (R33). -/
theorem State.fieldRead_fits {s : State} (h : s.InRange) (n : UnitId) (trim : Int) (sync : Nat) (words : List Word12)
    (timing : List (List Transition)) : (s.fieldRead n trim sync words timing).words.length ≤ 257 := by
  have hw : s.wordsOf n ≤ 256 := by
    unfold State.wordsOf
    cases hd : (s.drive n).descriptor with
    | none => exact Nat.zero_le _
    | some d =>
      have hr := (h.drives n).descriptor d hd
      simp only [Descriptor.inRange, decide_eq_true_eq] at hr
      simp only [Option.map_some, Option.getD_some]
      omega
  simp only [State.fieldRead, readWords, List.length_map, List.length_range]
  omega

theorem Handles.finished {s t : State} (h : Handles s t) : Handles s t.finish := h.trans (State.finish_handles _)

theorem Acts.handles {s t : State} (h : Acts s t) : Handles s t := by
  cases h with
  | nothing => exact .refl _
  | powerOn => exact (State.powerOn_handles s _).finished
  | request => exact (State.offerFrame_handles s _).finished
  | bytes => exact State.receive_handles s _
  | gap now => exact ((Handles.times s now _ _).trans (State.discardFrame_handles _)).finished
  | lineBreak => exact ((State.hunt_handles s).trans (Handles.times _ _ _ none)).finished
  | line rts last => exact (Handles.link s { s.link with rts := rts, lastByte := last } rfl rfl).finished
  | reply => exact (State.replyDone_handles s).finished
  | notice => exact (State.endMessage_handles s).finished
  | sector => exact (State.sectorDone_handles s _ _).finished
  | stray => exact (State.strayDone_handles s _).finished
  | jobEnd => exact (State.jobEndDone_handles s _).finished
  | holdEnds now => exact (Handles.times s now _ none).finished
  | index n elapsed cut =>
    exact ((Handles.times s _ _ _).trans (State.indexIn_evolves _ n cut _).handles).finished
  | indexTimeout => exact (State.indexTimeout_handles s _ _).finished
  | readyRise => exact (State.readyRise_evolves s _).handles.finished
  | readyFall => exact (State.readyFall_evolves s _).handles.finished
  | seekDone => exact (State.seekDone_evolves s _).handles.finished
  | restoreDone n limit hm => exact (State.restoreDone_evolves s n hm).handles.finished
  | seekError n now => exact ((Handles.times s now _ _).trans (State.seekError_evolves _ n).handles).finished
  | headsUnloaded n hu => exact (State.headsUnloaded_evolves s n hu).handles.finished
  | header => exact (State.readHeader_evolves s _ _ _ _ _ _ _).handles.finished
  | data =>
    exact ((State.readData_evolves s _ _ _ _).under fun _ g => State.fieldRead_fits g _ _ _ _ _).handles.finished
  | window => exact (State.closeWindow_evolves s _).handles.finished
  | search => exact (State.endSearch_evolves s).handles.finished

/-- Settles O55: a tick writes the clock alone, and what a command does keeps every item in its range. -/
theorem stepKeepsRanges : Obligations.StepKeepsRanges := by
  intro s t hs ht
  obtain rfl | ⟨rest, h⟩ := step_acts ht
  · exact { hs with }
  · exact h.handles.inRange { hs with }

end Sys2Proof.Machine
end

section
/-! ## What serving a request can do

`Takes` lists, once, what an accepted request makes of the state, with the checks it has passed; `serve_answers` says that
every request is refused, changing nothing, or accepted with one of these effects. -/

namespace Sys2Proof.Machine

/-- A RETRACTED unit is loaded: on to IDLE where its ready line is asserted (R21). -/
def State.reload (s : State) (n : UnitId) : State :=
  let t := s.modDrive n (fun d => { d.enter .notReady with loadLine := true, indexTimer := d.timerFrom s.clock })
  if (s.drive n).ready then t.readyInNotReady n else t

/-- A state that an accepted request leads to. -/
inductive Takes (s : State) : State → Prop where
  | nothing : Takes s s
  | install (n : UnitId) (x : Descriptor) : x.inRange = true → s.jobsOf n = [] → s.mapConflict n x = false →
      Takes s (s.install n x)
  | unload (n : UnitId) : (s.drive n).state.blocksUnload = false → Takes s ((s.beginUnload n).endHeld n .aborted)
  | reload (n : UnitId) : (s.drive n).state = .retracted → Takes s (s.reload n)
  | profiles (n : UnitId) (p : UnitProfiles) : Takes s (s.setProfiles n p)
  | quirks (v : Vector (Option Quirk) 16) : Takes s { s with quirks := v }
  | extent (n : UnitId) (k : Nat) (e : Extent) (d : Descriptor) : (s.drive n).descriptor = some d →
      k ≤ (s.extentsOf n).length → endingInOrder (s.extentsOf n) k e.ending = true → e.inRange d = true →
      extentsFit (s.extentsOf n) k e d = true → Takes s (s.replaceExtents n (writeExtent (s.extentsOf n) k e))
  | noExtents (n : UnitId) : Takes s (s.replaceExtents n [])
  | remap (r : Remap) (d : Descriptor) : (s.drive r.unit).descriptor = some d → r.alternate.Within d →
      insideExtents (s.extentsOf r.unit) r.block = true → s.remaps.any r.clashes = false →
      Takes s { s with remaps := insertRemap r s.remaps }
  | unmap (keep : Remap → Bool) : Takes s { s with remaps := s.remaps.filter keep }
  | track (n : UnitId) (j : JobIx) (cylinder head : Nat) (cls : JobClass) (tag : Tag) (budget : Nat)
      (records : List Record) : s.freeJob = some j →
      Takes s ((s.admitJob j (Job.fresh n cylinder head cls tag budget records s.arrival)).runSelection n)
  | blocks (n : UnitId) (cls : JobClass) (tag : Tag) (budget sectors : Nat) (ls : List Landing)
      (tracks : List (Nat × Nat)) : Takes s ((s.admitTracks n cls tag budget sectors ls tracks).1.runSelection n)
  | abortUnit (n : UnitId) : Takes s (s.abortUnit n)
  | abortJob (j : JobIx) : Takes s (s.endJobAndGoOn j .aborted)
  | hold (h : Option Nat) : Takes s { s with hold := h }
  | flags (f : FlagUnit) : Takes s { s with flags := f }
  | resetAll : Takes s { s with link := { s.link with resetWaiting := true } }
  | resetUnit (n : UnitId) : Takes s (s.resetUnit n)

/-- A request's answer: a refusal that changes nothing, or an acceptance. -/
inductive Answers (s : State) : Response → Prop where
  | refused (st : Status) : Answers s (refuse st s)
  | accepted (r : Response) : (r.status = .ok ∨ r.status = .clamped) → Takes s r.state → Answers s r

theorem Answers.ok {s t : State} (fields : List Byte) (h : Takes s t) : Answers s (accept fields t) :=
  .accepted _ (.inl rfl) h

theorem serveDefineDrive_answers (body : List Byte) (s : State) : Answers s (serveDefineDrive body s) := by
  unfold serveDefineDrive
  dsimp only
  split
  · exact .refused _
  split
  · exact .refused _
  next hx =>
  split
  · exact .refused _
  next hj =>
  split
  · exact .refused _
  next hg =>
  split
  · exact .refused _
  · exact .ok _ (.install _ _ (by simpa using hx) (by simpa using hj) (by simpa using hg))

theorem serveUnload_answers (body : List Byte) (s : State) : Answers s (serveUnload body s) := by
  unfold serveUnload
  split
  · exact .refused _
  split
  · exact .refused _
  next h => exact .ok _ (.unload _ (by simpa using h))

theorem serveReload_answers (body : List Byte) (s : State) : Answers s (serveReload body s) := by
  unfold serveReload
  split
  · exact .refused _
  split
  next h => exact .ok _ (.reload _ h)
  · exact .refused _

theorem serveSetProfile_answers (body : List Byte) (s : State) : Answers s (serveSetProfile body s) := by
  unfold serveSetProfile
  dsimp only
  split
  · exact .refused _
  split
  · exact .refused _
  split
  · exact .refused _
  · refine .accepted _ ?_ (.profiles _ _)
    dsimp only
    split
    · exact .inl rfl
    · exact .inr rfl

theorem serveReadProfile_answers (body : List Byte) (s : State) : Answers s (serveReadProfile body s) := by
  unfold serveReadProfile
  split
  · exact .refused _
  dsimp only
  split
  · exact .ok _ .nothing
  split
  · exact .ok _ .nothing
  · exact .refused _

theorem serveQuirks_answers (kind : Nat) (tag : Tag) (body : List Byte) (s : State)
    (hk : kind = 0x09 ∨ kind = 0x0A ∨ kind = 0x0B) : Answers s (serveKnown kind tag body s) := by
  obtain rfl | rfl | rfl := hk
  · show Answers s (serveSetQuirk body s)
    unfold serveSetQuirk
    split
    · exact .ok _ (.quirks _)
    · exact .refused _
  · show Answers s (serveClearQuirk body s)
    unfold serveClearQuirk
    split
    · exact .ok _ (.quirks _)
    · exact .refused _
  · show Answers s (serveReadQuirk body s)
    unfold serveReadQuirk
    split
    · exact .refused _
    split <;> exact .ok _ .nothing

theorem serveDefineExtent_answers (body : List Byte) (s : State) : Answers s (serveDefineExtent body s) := by
  unfold serveDefineExtent
  dsimp only
  split
  · exact .refused _
  split
  · exact .refused _
  split
  · exact .refused _
  next d hd =>
  split
  · exact .refused _
  next hk =>
  split
  · exact .refused _
  next ho =>
  split
  · exact .refused _
  next hr =>
  split
  · exact .refused _
  next hf =>
  split
  · exact .refused _
  · exact .ok _ (.extent _ _ _ d hd (by omega) (by simpa using ho) (by simpa using hr) (by simpa using hf))

theorem serveClearExtents_answers (body : List Byte) (s : State) : Answers s (serveClearExtents body s) := by
  unfold serveClearExtents
  split
  · exact .refused _
  split
  · exact .refused _
  split
  · exact .refused _
  · exact .ok _ (.noExtents _)

theorem serveSetRemap_answers (body : List Byte) (s : State) : Answers s (serveSetRemap body s) := by
  unfold serveSetRemap
  split
  · exact .refused _
  next n _ =>
  dsimp only
  split
  · exact .refused _
  next d hd =>
  split
  · exact .refused _
  next ha =>
  split
  · exact .refused _
  next hi =>
  split
  · exact .refused _
  next hc =>
  split
  · exact .refused _
  · have hi' : insideExtents (s.extentsOf n) (remapSent n body).block = true := by simpa using hi
    exact .ok _ (.remap (remapSent n body) d hd ⟨by omega, by omega, by omega⟩ hi' (by simpa using hc))

theorem serveClearRemap_answers (body : List Byte) (s : State) : Answers s (serveClearRemap body s) := by
  unfold serveClearRemap
  dsimp only
  split
  · exact .refused _
  split
  · exact .refused _
  · exact .ok _ (.unmap _)

theorem serveMapBlock_answers (body : List Byte) (s : State) : Answers s (serveMapBlock body s) := by
  unfold serveMapBlock
  dsimp only
  split
  · exact .refused _
  split
  · exact .refused _
  split
  · exact .refused _
  split
  · exact .refused _
  split <;> exact .ok _ .nothing

theorem serveRecoverTrack_answers (tag : Tag) (body : List Byte) (s : State) :
    Answers s (serveRecoverTrack tag body s) := by
  unfold serveRecoverTrack
  dsimp only
  split
  next n cls _ _ =>
    split
    · exact .refused _
    next d _ =>
    split
    · exact .refused _
    split
    · exact .refused _
    split
    · exact .refused _
    next j hj =>
    refine .accepted _ ?_ (.track n j _ _ cls tag _ _ hj)
    dsimp only
    split
    · exact .inr rfl
    · exact .inl rfl
  · exact .refused _

theorem serveRecoverBlocks_answers (tag : Tag) (body : List Byte) (s : State) :
    Answers s (serveRecoverBlocks tag body s) := by
  unfold serveRecoverBlocks
  dsimp only
  split
  · split
    · exact .refused _
    split
    · exact .refused _
    split
    · exact .refused _
    split
    · exact .refused _
    split
    · exact .refused _
    split
    · exact .refused _
    · exact .ok _ (.blocks _ _ _ _ _ _ _)
  · exact .refused _

theorem serveAbort_answers (body : List Byte) (s : State) : Answers s (serveAbort body s) := by
  unfold serveAbort
  split
  · split
    · exact .refused _
    · exact .ok _ (.abortUnit _)
  split
  · exact .refused _
  split
  · exact .refused _
  split
  · exact .refused _
  · exact .ok _ (.abortJob _)

theorem serveStatuses_answers (kind : Nat) (tag : Tag) (body : List Byte) (s : State)
    (hk : kind = 0x03 ∨ kind = 0x14 ∨ kind = 0x15) : Answers s (serveKnown kind tag body s) := by
  obtain rfl | rfl | rfl := hk
  · show Answers s (serveDriveStatus body s)
    unfold serveDriveStatus
    split
    · exact .refused _
    · exact .ok _ .nothing
  · show Answers s (serveJobStatus body s)
    unfold serveJobStatus
    split
    · exact .refused _
    split
    · exact .refused _
    · exact .ok _ .nothing
  · show Answers s (servePeekSector body s)
    unfold servePeekSector
    dsimp only
    split
    · exact .refused _
    split
    · exact .refused _
    split
    · exact .refused _
    split
    · exact .refused _
    · exact .ok _ .nothing

theorem serveFlags_answers (kind : Nat) (tag : Tag) (body : List Byte) (s : State)
    (hk : kind = 0x18 ∨ kind = 0x19) : Answers s (serveKnown kind tag body s) := by
  obtain rfl | rfl := hk
  · show Answers s (serveClearFlags body s)
    unfold serveClearFlags
    split
    · exact .refused _
    · exact .ok _ (.flags _)
  · show Answers s (serveSetNotices body s)
    unfold serveSetNotices
    split
    · exact .refused _
    · exact .ok _ (.flags _)

theorem serveReset_answers (body : List Byte) (s : State) : Answers s (serveReset body s) := by
  unfold serveReset
  split
  · exact .ok _ .resetAll
  split
  · exact .refused _
  · exact .ok _ (.resetUnit _)

theorem serveSwapProfile_answers (body : List Byte) (s : State) : Answers s (serveSwapProfile body s) := by
  unfold serveSwapProfile
  split
  · exact .refused _
  · exact .ok _ (.profiles _ _)

/-- Every request is refused and changes nothing, or is accepted. -/
theorem serve_answers (f : Frame) (s : State) : Answers s (serve f s) := by
  unfold serve
  split
  · exact .refused _
  split
  · exact .refused _
  unfold serveKnown
  split
  · exact .ok _ .nothing
  · exact serveDefineDrive_answers _ _
  · exact serveStatuses_answers 0x03 f.tag f.body s (by simp)
  · exact serveUnload_answers _ _
  · exact serveReload_answers _ _
  · exact serveSetProfile_answers _ _
  · exact serveSwapProfile_answers _ _
  · exact serveReadProfile_answers _ _
  · exact serveQuirks_answers 0x09 f.tag f.body s (by simp)
  · exact serveQuirks_answers 0x0A f.tag f.body s (by simp)
  · exact serveQuirks_answers 0x0B f.tag f.body s (by simp)
  · exact serveDefineExtent_answers _ _
  · exact serveClearExtents_answers _ _
  · exact serveSetRemap_answers _ _
  · exact serveClearRemap_answers _ _
  · exact serveMapBlock_answers _ _
  · exact serveRecoverTrack_answers _ _ _
  · exact serveRecoverBlocks_answers _ _ _
  · exact serveAbort_answers _ _
  · exact serveStatuses_answers 0x14 f.tag f.body s (by simp)
  · exact serveStatuses_answers 0x15 f.tag f.body s (by simp)
  · exact .ok _ (.hold _)
  · exact .ok _ .nothing
  · exact serveFlags_answers 0x18 f.tag f.body s (by simp)
  · exact serveFlags_answers 0x19 f.tag f.body s (by simp)
  · exact serveReset_answers _ _
  · exact .refused _

/-- What serving makes of the state is one of the effects of accepted requests. -/
theorem serve_takes (f : Frame) (s : State) : Takes s (serve f s).state := by
  have h := serve_answers f s
  generalize serve f s = r at h
  cases h with
  | refused => exact .nothing
  | accepted _ _ h => exact h

/-! ### The checks every request meets -/

/-- The requests whose body begins with a unit, but for RESET. -/
theorem serveKnown_badUnit (kind : Nat) (tag : Tag) (body : List Byte) (s : State)
    (hk : kind ∈ [0x02, 0x03, 0x04, 0x05, 0x06, 0x07, 0x08, 0x0C, 0x0D, 0x0E, 0x0F, 0x10, 0x11, 0x12])
    (hu : unitOf (byteAt body 0) = none) : serveKnown kind tag body s = refuse .badField s := by
  simp only [List.mem_cons, List.not_mem_nil, or_false] at hk
  obtain rfl | rfl | rfl | rfl | rfl | rfl | rfl | rfl | rfl | rfl | rfl | rfl | rfl | rfl := hk
  · simp [serveKnown, serveDefineDrive, hu]
  · simp [serveKnown, serveDriveStatus, hu]
  · simp [serveKnown, serveUnload, hu]
  · simp [serveKnown, serveReload, hu]
  · simp [serveKnown, serveSetProfile, hu]
  · simp [serveKnown, serveSwapProfile, hu]
  · simp [serveKnown, serveReadProfile, hu]
  · simp [serveKnown, serveDefineExtent, hu]
  · simp [serveKnown, serveClearExtents, hu]
  · simp [serveKnown, serveSetRemap, hu]
  · simp [serveKnown, serveClearRemap, hu]
  · simp [serveKnown, serveMapBlock, hu]
  · simp [serveKnown, serveRecoverTrack, hu]
  · simp [serveKnown, serveRecoverBlocks, hu]

theorem unitOf_above {u : Nat} (h : 3 < u) : unitOf u = none := by
  unfold unitOf
  rw [dif_neg (by omega)]

theorem serve_unknownKind (f : Frame) (s : State) (h : f.kind = 0 ∨ 0x1A < f.kind.toNat) :
    serve f s = refuse .unknownKind s := by
  unfold serve
  rw [if_pos]
  obtain h | h := h
  · simp [h]
  · exact .inr h

theorem serve_badLength (f : Frame) (s : State) (h1 : 1 ≤ f.kind.toNat) (h2 : f.kind.toNat ≤ 0x1A)
    (hl : lengthOk f.kind.toNat f.body = false) : serve f s = refuse .badLength s := by
  unfold serve
  rw [if_neg (by omega), hl]
  rfl

/-- Settles O6: the kind is judged first, then the length, and each of the requests that begin with a unit looks at it
before anything else. -/
theorem requestsChecked : Obligations.RequestsChecked := by
  refine ⟨fun f s ho hc => ?_, ⟨fun tag kind body s hk hs => ?_, fun f s h1 h2 hk hl => ?_, fun f s hk hl => ?_⟩,
    fun f s hk hl hu => ?_⟩
  · have h := serve_answers f s
    generalize serve f s = r at h ho hc
    cases h with
    | refused => exact ⟨rfl, rfl⟩
    | accepted _ h _ => exact absurd h (not_or.mpr ⟨ho, hc⟩)
  · exact congrArg _ (State.request_served s kind tag body hs _ (serve_unknownKind _ s hk) hs.notWaiting)
  · rw [serve_badLength f s h1 h2]
    · rfl
    · have h6 : f.kind.toNat ≠ 6 := fun e => hk (BitVec.eq_of_toNat_eq e)
      simp only [lengthOk, h6, if_false, beq_eq_false_iff_ne]
      exact hl
  · rw [serve_badLength f s (by simp [hk]) (by simp [hk])]
    · rfl
    · have hb : byteAt f.body 1 = (f.body.getD 1 0).toNat := by rw [byteAt_eq, List.getD_eq_getElem?_getD]
      simp only [lengthOk, hk, profileLengthOk, hb]
      simp only [BitVec.reduceToNat, if_true, decide_eq_false_iff_not]
      omega
  · have hb : byteAt f.body 0 = (f.body.headD 0).toNat := by
      rw [byteAt_eq]
      cases f.body <;> rfl
    have hm : f.kind.toNat ∈ [0x02, 0x03, 0x04, 0x05, 0x06, 0x07, 0x08, 0x0C, 0x0D, 0x0E, 0x0F, 0x10, 0x11, 0x12] := by
      simpa using List.mem_map_of_mem (f := BitVec.toNat) hk
    have hr : 1 ≤ f.kind.toNat ∧ f.kind.toNat ≤ 0x1A := by
      simp only [List.mem_cons, List.not_mem_nil, or_false] at hm
      omega
    obtain ⟨kind, tag, body⟩ := f
    rw [serve_known kind tag body s _ rfl hr.1 hr.2 hl, serveKnown_badUnit _ _ _ _ hm (by rw [hb]; exact unitOf_above hu)]
    rfl

end Sys2Proof.Machine
end

section
/-! ## Relations that the Link Interface respects

A relation between states that holds of running a request, of raising a flag, of what follows a command and of every write
of the link but to its message and its replies, holds of all that bytes and frames bring about. -/

namespace Sys2Proof.Machine

/-- A relation between the states before and after the small steps of the Link Interface. -/
structure LinkSteps (K : State → State → Prop) : Prop where
  refl : ∀ s, K s s
  trans : ∀ {s t u}, K s t → K t u → K s u
  link : ∀ s l, l.tx = s.link.tx → l.replies = s.link.replies → K s { s with link := l }
  run : ∀ s f, K s (s.runFrame f)
  raise : ∀ s k, K s (s.raise k)
  finish : ∀ s, K s s.finish

section
variable {K : State → State → Prop}

theorem LinkSteps.takeFramesUpTo (h : LinkSteps K) (fuel : Nat) (s : State) : K s (State.takeFramesUpTo fuel s) := by
  induction fuel generalizing s with
  | zero => exact h.refl _
  | succ fuel ih =>
    unfold State.takeFramesUpTo
    split
    · exact h.refl _
    · next f rest hb =>
      split
      · exact h.trans (h.link s { s.link with buffer := rest } rfl rfl) (h.trans (h.run _ f) (ih _))
      · exact h.refl _

theorem LinkSteps.takeFrames (h : LinkSteps K) (s : State) : K s s.takeFrames := h.takeFramesUpTo _ _

theorem LinkSteps.offerFrame (h : LinkSteps K) (s : State) (f : Frame) : K s (s.offerFrame f) := by
  unfold State.offerFrame
  split
  · exact h.trans (h.link s { s.link with buffer := s.link.buffer ++ [f] } rfl rfl) (h.takeFrames _)
  · exact h.refl _

theorem LinkSteps.assemble (h : LinkSteps K) (s : State) (phase : RxPhase) (assembly : List Byte) :
    K s (s.assemble phase assembly) :=
  h.link s { s.link with phase := phase, assembly := assembly, gapFrom := some s.clock } rfl rfl

theorem LinkSteps.discardFrame (h : LinkSteps K) (s : State) : K s s.discardFrame :=
  h.trans (h.link s s.link.hunt rfl rfl) (h.raise _ _)

theorem LinkSteps.receiveByte (h : LinkSteps K) (s : State) (b : Byte) : K s (s.receiveByte b) := by
  unfold State.receiveByte
  split
  · split
    · exact h.assemble _ _ _
    · exact h.refl _
  · unfold State.receiveLength
    split
    · exact h.assemble _ _ _
    · split
      · exact h.assemble _ _ _
      · exact h.discardFrame _
  · unfold State.receiveContent
    split <;> exact h.assemble _ _ _
  · unfold State.receiveCheck
    split
    · exact h.assemble _ _ _
    · split
      · exact h.trans (h.link s s.link.hunt rfl rfl) (h.offerFrame _ _)
      · exact h.discardFrame _

theorem LinkSteps.receive (h : LinkSteps K) (bs : List Byte) (s : State) : K s (s.receive bs) := by
  unfold State.receive
  induction bs generalizing s with
  | nil => exact h.refl _
  | cons b bs ih => exact h.trans (h.trans (h.receiveByte s b) (h.finish _)) (ih _)

end

/-! ## What the maps depend on -/

/-- The descriptors, the extents and the remap list stand as they were. -/
structure SameMaps (s t : State) : Prop where
  descriptors : ∀ n, (t.drive n).descriptor = (s.drive n).descriptor
  extents : t.extents = s.extents
  remaps : t.remaps = s.remaps

theorem SameMaps.refl (s : State) : SameMaps s s := ⟨fun _ => rfl, rfl, rfl⟩

theorem SameMaps.trans {s t u : State} (h : SameMaps s t) (g : SameMaps t u) : SameMaps s u :=
  ⟨fun n => (g.descriptors n).trans (h.descriptors n), g.extents.trans h.extents, g.remaps.trans h.remaps⟩

/-- No elementary update writes a descriptor. -/
theorem EvolvesIf.descriptors {Q : Prop} {s t : State} (h : EvolvesIf Q s t) (m : UnitId) :
    (t.drive m).descriptor = (s.drive m).descriptor := by
  induction h with
  | drive n d _ _ hd ih =>
    rw [State.setDrive_drive]
    split
    · next e => subst e; exact hd.trans ih
    · exact ih
  | refl => rfl
  | _ => assumption

theorem EvolvesIf.sameMaps {Q : Prop} {s t : State} (h : EvolvesIf Q s t) : SameMaps s t :=
  ⟨h.descriptors, h.same.extents, h.same.remaps⟩

theorem SameMaps.transmit (s : State) : SameMaps s s.transmit := by
  unfold State.transmit
  split
  · split
    · exact ⟨fun _ => rfl, rfl, rfl⟩
    · exact .refl _
  · exact .refl _

theorem SameMaps.finish (s : State) : SameMaps s s.finish :=
  (State.arbitrate_evolves s).sameMaps.trans
    (SameMaps.trans (t := s.arbitrate.gapSync) ⟨fun _ => rfl, rfl, rfl⟩ (SameMaps.transmit _))

theorem State.Inside_iff (s : State) (n : UnitId) (b : Nat) : s.Inside n b ↔ insideExtents (s.extentsOf n) b = true := by
  unfold State.Inside insideExtents
  cases (s.extentsOf n).getLast? with
  | none => simp
  | some e => simp

theorem State.ExtentFits.congr {s t : State} {n : UnitId} {k : Nat} {e : Extent} {d d' : Descriptor}
    (h : s.ExtentFits n k e d) (he : t.extentsOf n = s.extentsOf n)
    (hd : d'.cylinders = d.cylinders ∧ d'.heads = d.heads ∧ d'.sectors = d.sectors) : t.ExtentFits n k e d' := by
  obtain ⟨h1, h2, h3⟩ := hd
  exact ⟨by rw [h2]; exact h.heads, by rw [h3]; exact h.interleave, by rw [h3]; exact h.skew, by rw [h1]; exact h.cylinder,
    by rw [he, h1, h3]; exact h.blocks, by rw [he, h1, h3]; exact h.after⟩

theorem State.MapsStand.congr {s t : State} (h : s.MapsStand) (e : SameMaps s t) : t.MapsStand := by
  have he : ∀ n, t.extentsOf n = s.extentsOf n := fun n => by simp only [State.extentsOf, e.extents]
  refine ⟨fun n => by rw [he]; exact h.rising n, fun n => by rw [he, e.descriptors]; exact h.described n,
    fun n d k x hd hx => ?_, by rw [e.remaps]; exact h.sorted, fun r hr => ?_, by rw [e.remaps]; exact h.alternates⟩
  · rw [e.descriptors] at hd
    rw [he] at hx
    exact (h.fits n d k x hd hx).congr (he n) ⟨rfl, rfl, rfl⟩
  · rw [e.remaps] at hr
    have hi := h.inside r hr
    rw [State.Inside_iff] at hi ⊢
    rw [he, e.descriptors]
    exact hi

/-! ## The requests that write the maps -/

/-- A descriptor of the same geometry, or one for a unit that has no maps. -/
theorem State.MapsStand.describe {s : State} (h : s.MapsStand) (n : UnitId) {d : Drive} {x : Descriptor}
    (hx : d.descriptor = some x) (hg : s.mapConflict n x = false) : (s.setDrive n d).MapsStand := by
  have unmapped : s.extentsOf n = [] → ∀ r ∈ s.remaps, r.unit ≠ n := fun he r hr e => by
    obtain ⟨y, hy, _⟩ := (h.inside r hr).1
    rw [e, he] at hy
    cases hy
  have same : s.extentsOf n ≠ [] → ∃ old, (s.drive n).descriptor = some old ∧ x.cylinders = old.cylinders ∧
      x.heads = old.heads ∧ x.sectors = old.sectors := fun he => by
    unfold State.mapConflict at hg
    split at hg
    · next old ho =>
      have hm : s.mapped n = true := by simp [State.mapped, he]
      simp only [hm, Bool.true_and, Descriptor.geometryDiffers, Bool.or_eq_false_iff, bne_eq_false_iff_eq] at hg
      exact ⟨old, ho, hg.1.1.symm, hg.1.2.symm, hg.2.symm⟩
    · next ho => exact absurd ho (h.described n he)
  refine { h with described := fun m he => ?_, fits := fun m y k e hy hk => ?_, inside := fun r hr =>
    ⟨(h.inside r hr).1, fun y hy => ?_⟩ }
  · rw [State.setDrive_drive]
    split
    · rw [hx]; exact Option.some_ne_none _
    · exact h.described m he
  · rw [State.setDrive_drive] at hy
    split at hy
    · next em =>
      subst em
      rw [hx] at hy
      cases hy
      obtain ⟨old, ho, hg⟩ := same (List.ne_nil_of_mem (List.mem_of_getElem? hk))
      exact (h.fits _ old k e ho hk).congr rfl hg
    · exact (h.fits m y k e hy hk).congr rfl ⟨rfl, rfl, rfl⟩
  · rw [State.setDrive_drive] at hy
    split at hy
    · next em =>
      rw [hx] at hy
      cases hy
      have he : s.extentsOf n ≠ [] := fun he => unmapped he r hr em.symm
      obtain ⟨old, ho, h1, h2, h3⟩ := same he
      rw [h1, h2, h3]
      exact (h.inside r hr).2 old (by rw [← em]; exact ho)
    · exact (h.inside r hr).2 y hy

theorem State.install_keepsMaps {s : State} (h : s.MapsStand) (n : UnitId) (x : Descriptor)
    (hg : s.mapConflict n x = false) : (s.install n x).MapsStand := by
  unfold State.install
  split
  · exact h.describe n rfl hg
  · exact (h.describe n rfl hg).congr (State.idleIfReady_evolves _ n).sameMaps

theorem writeExtent_getElem? {es : List Extent} {k : Nat} (e : Extent) (hk : k ≤ es.length) (i : Nat) :
    (writeExtent es k e)[i]? = if i = k then some e else es[i]? := by
  unfold writeExtent
  split
  · next hl =>
    rw [List.getElem?_set]
    by_cases hi : k = i
    · simp [hi, hi ▸ hl]
    · simp [hi, Ne.symm hi]
  · next hl =>
    have : k = es.length := by omega
    subst this
    rw [List.getElem?_append]
    split
    · next hi => rw [if_neg (by omega)]
    · next hi =>
      by_cases hi' : i = es.length
      · simp [hi']
      · rw [if_neg hi', List.getElem?_eq_none (by simp; omega), List.getElem?_eq_none (by omega)]

theorem firstBlock_writeExtent {es : List Extent} {k : Nat} (e : Extent) (hk : k ≤ es.length) (i : Nat) :
    firstBlock (writeExtent es k e) i = if i = k + 1 then e.ending + 1 else firstBlock es i := by
  cases i with
  | zero => simp [firstBlock]
  | succ i =>
    simp only [firstBlock, writeExtent_getElem? e hk]
    by_cases hi : i = k <;> simp [hi]

/-- Rising order, entry by entry. -/
theorem rising_iff (es : List Extent) : es.Pairwise (fun a b => a.ending < b.ending) ↔
    ∀ (i m : Nat) a b, i < m → es[i]? = some a → es[m]? = some b → a.ending < b.ending := by
  rw [List.pairwise_iff_getElem]
  constructor
  · intro h i m a b hlt ha hb
    obtain ⟨hi, rfl⟩ := List.getElem?_eq_some_iff.1 ha
    obtain ⟨hm, rfl⟩ := List.getElem?_eq_some_iff.1 hb
    exact h i m hi hm hlt
  · intro h i m hi hm hlt
    exact h i m _ _ hlt (List.getElem?_eq_getElem hi) (List.getElem?_eq_getElem hm)

/-- An entry written between its neighbours keeps the table rising (R131 step 4). -/
theorem writeExtent_rising {es : List Extent} {k : Nat} {e : Extent} (h : es.Pairwise (fun a b => a.ending < b.ending))
    (hk : k ≤ es.length) (ho : endingInOrder es k e.ending = true) :
    (writeExtent es k e).Pairwise (fun a b => a.ending < b.ending) := by
  rw [rising_iff] at h ⊢
  simp only [endingInOrder, Bool.and_eq_true, Bool.or_eq_true, beq_iff_eq, decide_eq_true_eq] at ho
  obtain ⟨hlow, hhigh⟩ := ho
  have below : ∀ (i : Nat) a, i < k → es[i]? = some a → a.ending < e.ending := by
    intro i a hi ha
    obtain ⟨p, hp⟩ : ∃ p, k = p + 1 := ⟨k - 1, by omega⟩
    obtain ⟨b, hb⟩ : ∃ b, es[p]? = some b := ⟨_, List.getElem?_eq_getElem (by omega)⟩
    have hfirst : b.ending + 1 ≤ e.ending := by
      obtain h0 | h0 := hlow
      · omega
      · simpa [hp, firstBlock, hb] using h0
    by_cases hip : i = p
    · subst hip
      rw [ha] at hb
      cases hb
      omega
    · have := h i p a b (by omega) ha hb
      omega
  have above : ∀ (m : Nat) b, k < m → es[m]? = some b → e.ending < b.ending := by
    intro m b hm hb
    have hl := (List.getElem?_eq_some_iff.1 hb).1
    obtain ⟨q, hq⟩ : ∃ q, es[k + 1]? = some q := ⟨_, List.getElem?_eq_getElem (by omega)⟩
    rw [hq] at hhigh
    have hnext : e.ending < q.ending := by simpa using hhigh
    by_cases hmk : m = k + 1
    · subst hmk
      rw [hb] at hq
      cases hq
      exact hnext
    · have := h (k + 1) m q b (by omega) hq hb
      omega
  intro i m a b hlt ha hb
  rw [writeExtent_getElem? e hk] at ha hb
  split at ha
  · cases ha
    rw [if_neg (by omega)] at hb
    exact above m b (by omega) hb
  · split at hb
    · cases hb
      exact below i a (by omega) ha
    · exact h i m a b hlt ha hb

/-- A block at or below an entry's ending block maps no farther than the ending block does (R131 step 6). -/
theorem Extent.fits_below {e : Extent} {first cylinders sectors b : Nat} (h : e.fits first cylinders sectors = true)
    (hb : b ≤ e.ending) : e.cylinder + (b - first) / sectors / e.heads < cylinders := by
  simp only [Extent.fits, decide_eq_true_eq] at h
  have : (b - first) / sectors / e.heads ≤ (e.ending - first) / sectors / e.heads :=
    Nat.div_le_div_right (Nat.div_le_div_right (by omega))
  omega

/-- After the remap entries outside a unit's new extents are removed, what is left of the remap list stands. -/
theorem State.MapsStand.replace {s : State} (h : s.MapsStand) (n : UnitId) (es : List Extent)
    (hr : es.Pairwise (fun a b => a.ending < b.ending)) (hd : es ≠ [] → (s.drive n).descriptor ≠ none)
    (hf : ∀ d k e, (s.drive n).descriptor = some d → es[k]? = some e → (s.setExtents n es).ExtentFits n k e d) :
    (s.replaceExtents n es).MapsStand := by
  have he : ∀ m, (s.replaceExtents n es).extentsOf m = if n = m then es else s.extentsOf m := fun m =>
    State.setExtents_extentsOf s n m es
  refine ⟨fun m => ?_, fun m => ?_, fun m d k e hdm hk => ?_, remapsSorted_filter h.sorted _, fun r hr => ?_,
    h.alternates.filter _⟩
  · rw [he]
    split
    · exact hr
    · exact h.rising m
  · rw [he]
    split
    · next g => subst g; exact hd
    · exact h.described m
  · rw [he] at hk
    split at hk
    · next g => subst g; exact (hf d k e hdm hk).congr rfl ⟨rfl, rfl, rfl⟩
    · next g => exact (h.fits m d k e hdm hk).congr (by rw [he, if_neg g]) ⟨rfl, rfl, rfl⟩
  · obtain ⟨hm, hin⟩ := List.mem_filter.1 hr
    have old := h.inside r hm
    refine ⟨?_, old.2⟩
    rw [State.Inside_iff, he]
    split
    · next g =>
      simpa [Remap.outside, g] using hin
    · exact (State.Inside_iff _ _ _).1 old.1

theorem State.replaceExtents_keepsMaps {s : State} (h : s.MapsStand) {n : UnitId} {k : Nat} {e : Extent} {d : Descriptor}
    (hd : (s.drive n).descriptor = some d) (hk : k ≤ (s.extentsOf n).length)
    (ho : endingInOrder (s.extentsOf n) k e.ending = true) (hr : e.inRange d = true)
    (hf : extentsFit (s.extentsOf n) k e d = true) :
    (s.replaceExtents n (writeExtent (s.extentsOf n) k e)).MapsStand := by
  refine h.replace n _ (writeExtent_rising (h.rising n) hk ho) (fun _ => by rw [hd]; exact Option.some_ne_none _)
    fun d' i x hd' hx => ?_
  rw [hd] at hd'
  cases hd'
  have hes : (s.setExtents n (writeExtent (s.extentsOf n) k e)).extentsOf n = writeExtent (s.extentsOf n) k e := by simp
  simp only [extentsFit, Bool.and_eq_true] at hf
  rw [writeExtent_getElem? e hk] at hx
  have after : ∀ q b, (writeExtent (s.extentsOf n) k e)[i + 1]? = some q → x.ending + 1 ≤ b → b ≤ q.ending →
      q.cylinder + (b - (x.ending + 1)) / d.sectors / q.heads < d.cylinders := by
    intro q b hq hlow hb
    rw [writeExtent_getElem? e hk] at hq
    split at hq
    · next hik =>
      cases hq
      rw [if_neg (by omega)] at hx
      have hfb : firstBlock (s.extentsOf n) k = x.ending + 1 := by
        rw [← hik]
        simp [firstBlock, hx]
      exact Extent.fits_below (hfb ▸ hf.1) hb
    · next hik =>
      split at hx
      · next hi =>
        cases hx
        subst hi
        rw [hq] at hf
        exact Extent.fits_below hf.2 hb
      · exact (h.fits n d i x hd hx).after q b hq hlow hb
  have blocks : ∀ b, firstBlock (writeExtent (s.extentsOf n) k e) i ≤ b → b ≤ x.ending →
      x.cylinder + (b - firstBlock (writeExtent (s.extentsOf n) k e) i) / d.sectors / x.heads < d.cylinders := by
    intro b hlow hb
    rw [firstBlock_writeExtent e hk] at hlow ⊢
    split at hx
    · next hi =>
      cases hx
      rw [if_neg (by omega)]
      exact hi ▸ Extent.fits_below hf.1 hb
    · split
      · next hi =>
        rw [hi] at hx
        rw [hx] at hf
        exact Extent.fits_below hf.2 hb
      · next hi =>
        rw [if_neg hi] at hlow
        exact (h.fits n d i x hd hx).blocks b hlow hb
  split at hx
  · cases hx
    simp only [Extent.inRange, decide_eq_true_eq] at hr
    obtain ⟨h1, h2, h3, h4, h5, h6, h7⟩ := hr
    exact ⟨⟨h1, h2⟩, ⟨h3, h4, h5⟩, by omega, h7, by rw [hes]; exact blocks, by rw [hes]; exact after⟩
  · have old := h.fits n d i x hd hx
    exact ⟨old.heads, old.interleave, old.skew, old.cylinder, by rw [hes]; exact blocks, by rw [hes]; exact after⟩

theorem insertRemap_perm (r : Remap) (rs : List Remap) : (insertRemap r rs).Perm (r :: rs) := by
  induction rs with
  | nil => exact .refl _
  | cons x rest ih =>
    unfold insertRemap
    split
    · exact .refl _
    · exact (ih.cons x).trans (.swap _ _ _)

theorem State.insertRemap_keepsMaps {s : State} (h : s.MapsStand) {r : Remap} {d : Descriptor}
    (hd : (s.drive r.unit).descriptor = some d) (ha : r.alternate.Within d)
    (hi : insideExtents (s.extentsOf r.unit) r.block = true) (hc : s.remaps.any r.clashes = false) :
    State.MapsStand { s with remaps := insertRemap r s.remaps } := by
  have apart : ∀ x ∈ s.remaps, x.unit = r.unit → x.block ≠ r.block ∧ x.alternate ≠ r.alternate := fun x hx hu => by
    have := List.any_eq_false.1 hc x hx
    simpa [Remap.clashes, hu] using this
  refine ⟨h.rising, h.described, fun n y k e hy hk => (h.fits n y k e hy hk).congr rfl ⟨rfl, rfl, rfl⟩,
    insertRemap_sorted h.sorted fun x hx e => (apart x hx (Fin.ext e.1)).1 e.2, fun x hx => ?_, ?_⟩
  · obtain rfl | hx := mem_insertRemap hx
    · refine ⟨(State.Inside_iff _ _ _).2 hi, fun y hy => ?_⟩
      have hy' : (s.drive x.unit).descriptor = some y := hy
      rw [hd] at hy'
      cases hy'
      exact ha
    · exact ⟨(State.Inside_iff _ _ _).2 ((State.Inside_iff _ _ _).1 (h.inside x hx).1), (h.inside x hx).2⟩
  · refine (List.Perm.pairwise_iff (fun {a b} hab e => Ne.symm (hab e.symm)) (insertRemap_perm r s.remaps)).2 ?_
    exact List.pairwise_cons.2 ⟨fun x hx e => Ne.symm (apart x hx e.symm).2, h.alternates⟩

theorem State.unmap_keepsMaps {s : State} (h : s.MapsStand) (keep : Remap → Bool) :
    State.MapsStand { s with remaps := s.remaps.filter keep } :=
  ⟨h.rising, h.described, fun n y k e hy hk => (h.fits n y k e hy hk).congr rfl ⟨rfl, rfl, rfl⟩,
    remapsSorted_filter h.sorted _, fun r hr =>
      ⟨(State.Inside_iff _ _ _).2 ((State.Inside_iff _ _ _).1 (h.inside r (List.mem_filter.1 hr).1).1),
        (h.inside r (List.mem_filter.1 hr).1).2⟩,
    h.alternates.filter _⟩

theorem SameMaps.reload (s : State) (n : UnitId) : SameMaps s (s.reload n) := by
  have entered : SameMaps s (s.modDrive n (fun d =>
      { d.enter .notReady with loadLine := true, indexTimer := d.timerFrom s.clock })) := by
    refine ⟨fun m => ?_, rfl, rfl⟩
    by_cases e : n = m
    · subst e; simp
    · rw [State.modDrive_drive_other _ _ _ _ e]
  unfold State.reload
  dsimp only
  split
  · exact entered.trans (State.readyInNotReady_evolves _ n (by simp)).sameMaps
  · exact entered

theorem SameMaps.admitTracks (n : UnitId) (cls : JobClass) (tag : Tag) (budget sectors : Nat) (ls : List Landing)
    (tracks : List (Nat × Nat)) (s : State) : SameMaps s (s.admitTracks n cls tag budget sectors ls tracks).1 := by
  induction tracks generalizing s with
  | nil => exact .refl _
  | cons t rest ih =>
    unfold State.admitTracks
    split
    · exact .refl _
    · exact (State.admitJob_evolves s _ _).sameMaps.trans (ih _)

theorem Takes.keepsMaps {s t : State} (h : Takes s t) (hs : s.MapsStand) : t.MapsStand := by
  cases h with
  | nothing => exact hs
  | install n x _ _ hg => exact State.install_keepsMaps hs n x hg
  | unload n => exact hs.congr ((State.beginUnload_evolves _ _).trans (State.endHeld_evolves _ _ _)).sameMaps
  | reload n => exact hs.congr (SameMaps.reload s n)
  | profiles => exact hs.congr ⟨fun _ => rfl, rfl, rfl⟩
  | quirks => exact hs.congr ⟨fun _ => rfl, rfl, rfl⟩
  | extent n k e d hd hk ho hr hf => exact State.replaceExtents_keepsMaps hs hd hk ho hr hf
  | noExtents n => exact hs.replace n [] .nil (fun h => absurd rfl h) fun _ _ _ _ hk => by cases hk
  | remap r d hd ha hi hc => exact State.insertRemap_keepsMaps hs hd ha hi hc
  | unmap keep => exact State.unmap_keepsMaps hs keep
  | track => exact hs.congr ((State.admitJob_evolves s _ _).sameMaps.trans (State.runSelection_evolves _ _).sameMaps)
  | blocks => exact hs.congr ((SameMaps.admitTracks _ _ _ _ _ _ _ _).trans (State.runSelection_evolves _ _).sameMaps)
  | abortUnit n => exact hs.congr (State.abortUnit_evolves s n).sameMaps
  | abortJob j => exact hs.congr (State.endJobAndGoOn_evolves s j _).sameMaps
  | hold => exact hs.congr ⟨fun _ => rfl, rfl, rfl⟩
  | flags => exact hs.congr ⟨fun _ => rfl, rfl, rfl⟩
  | resetAll => exact hs.congr ⟨fun _ => rfl, rfl, rfl⟩
  | resetUnit n => exact hs.congr (State.resetUnit_evolves s n).sameMaps

/-! ## Every step keeps the maps -/

/-- What the Link Interface does keeps the maps. -/
theorem keepsMaps_linkSteps : LinkSteps (fun s t => s.MapsStand → t.MapsStand) where
  refl _ h := h
  trans h g k := g (h k)
  link _ _ _ _ h := h.congr ⟨fun _ => rfl, rfl, rfl⟩
  run s f h := ((serve_takes f s).keepsMaps h).congr ⟨fun _ => rfl, rfl, rfl⟩
  raise _ _ h := h.congr ⟨fun _ => rfl, rfl, rfl⟩
  finish s h := h.congr (SameMaps.finish s)

theorem State.powerOn_mapsStand (s : State) (rate : Fin 4) : (s.powerOn rate).MapsStand := by
  have he : ∀ n, (s.powerOn rate).extentsOf n = [] := fun n => by simp [State.powerOn, State.extentsOf, State.reset]
  refine ⟨fun n => by rw [he]; exact .nil, fun n h => absurd (he n) h, fun n d k e _ hk => ?_, .nil, fun r hr => ?_, .nil⟩
  · rw [he] at hk
    cases hk
  · cases hr

theorem SameMaps.admitWaiting (s : State) : SameMaps s s.admitWaiting := by
  have delivered : ∀ (t : State) j sec d, SameMaps t (t.setDelivery j sec d) := fun t j sec d =>
    (State.setDelivery_evolves t j sec d).sameMaps
  unfold State.admitWaiting
  split
  · exact .refl _
  · split
    · exact SameMaps.trans (t := s.enqueue _) ⟨fun _ => rfl, rfl, rfl⟩
        ((delivered _ _ _ _).trans (State.queueJobEnd_evolves _ _).sameMaps)
    · exact ⟨fun _ => rfl, rfl, rfl⟩

/-- The departure of an entry touches the maps no more than what was written before it. -/
theorem SameMaps.departed {s t : State} (h : SameMaps s t) : SameMaps s t.popDelivery.admitWaiting :=
  h.trans (SameMaps.trans (t := t.popDelivery) ⟨fun _ => rfl, rfl, rfl⟩ (SameMaps.admitWaiting _))

theorem Acts.keepsMaps {s t : State} (h : Acts s t) (hs : s.MapsStand) : t.MapsStand := by
  have same : ∀ {u : State}, SameMaps s u → u.finish.MapsStand := fun hu => hs.congr (hu.trans (SameMaps.finish _))
  have times : ∀ clock choices, SameMaps s { s with clock := clock, choices := choices } := fun _ _ =>
    ⟨fun _ => rfl, rfl, rfl⟩
  cases h with
  | nothing => exact hs
  | powerOn rate => exact (State.powerOn_mapsStand s rate).congr (SameMaps.finish _)
  | request f => exact keepsMaps_linkSteps.finish _ (keepsMaps_linkSteps.offerFrame s f hs)
  | bytes bs => exact keepsMaps_linkSteps.receive bs s hs
  | gap now => exact keepsMaps_linkSteps.finish _ (keepsMaps_linkSteps.discardFrame _ (hs.congr (times now _)))
  | lineBreak => exact same ⟨fun _ => rfl, rfl, rfl⟩
  | line => exact same ⟨fun _ => rfl, rfl, rfl⟩
  | reply =>
    refine keepsMaps_linkSteps.finish _ ?_
    unfold State.replyDone
    dsimp only
    split
    · exact hs.congr ⟨fun _ => rfl, rfl, rfl⟩
    · split
      · exact State.powerOn_mapsStand _ _
      · exact keepsMaps_linkSteps.takeFrames _ (hs.congr ⟨fun _ => rfl, rfl, rfl⟩)
  | notice => exact same ⟨fun _ => rfl, rfl, rfl⟩
  | sector j sec =>
    have delivered : SameMaps s (s.endMessage.setDelivery j sec .sent) :=
      SameMaps.trans (t := s.endMessage) ⟨fun _ => rfl, rfl, rfl⟩ (State.setDelivery_evolves _ j sec .sent).sameMaps
    exact same delivered.departed
  | stray => exact same (SameMaps.departed ⟨fun _ => rfl, rfl, rfl⟩)
  | jobEnd => exact same (SameMaps.departed ⟨fun _ => rfl, rfl, rfl⟩)
  | holdEnds => exact same ⟨fun _ => rfl, rfl, rfl⟩
  | index n elapsed cut => exact same ((times _ _).trans (State.indexIn_evolves _ n cut _).sameMaps)
  | indexTimeout n deadline =>
    refine same ((times (max s.clock deadline) s.choices).trans ?_)
    have marked := (State.indexMarked_evolves ({ s with clock := max s.clock deadline } : State) n)
    rw [State.indexTimeout_eq]
    split
    · exact (marked.trans ((State.beginUnload_evolves _ _).trans (State.endHeld_evolves _ _ _))).sameMaps
    · exact marked.sameMaps
  | readyRise => exact same (State.readyRise_evolves s _).sameMaps
  | readyFall => exact same (State.readyFall_evolves s _).sameMaps
  | seekDone => exact same (State.seekDone_evolves s _).sameMaps
  | restoreDone n limit hm => exact same (State.restoreDone_evolves s n hm).sameMaps
  | seekError n now => exact same ((times now _).trans (State.seekError_evolves _ n).sameMaps)
  | headsUnloaded n hu => exact same (State.headsUnloaded_evolves s n hu).sameMaps
  | header => exact same (State.readHeader_evolves s _ _ _ _ _ _ _).sameMaps
  | data => exact same (State.readData_evolves s _ _ _ _).sameMaps
  | window => exact same (State.closeWindow_evolves s _).sameMaps
  | search => exact same (State.endSearch_evolves s).sameMaps

/-- Settles O58: the maps change by four requests and by power-on alone, and each of these keeps them consistent. -/
theorem stepKeepsMaps : Obligations.StepKeepsMaps := by
  intro s t hs ht
  obtain rfl | ⟨rest, h⟩ := step_acts ht
  · exact hs.congr ⟨fun _ => rfl, rfl, rfl⟩
  · exact h.keepsMaps (hs.congr ⟨fun _ => rfl, rfl, rfl⟩)

end Sys2Proof.Machine
end

section
/-! ## Jobs, units and the channel in accord

The invariant of `JobsStand` is taken apart: `Accord` is what it says of the jobs, the channel and the delivery queue,
`UnitStands` what it says of one unit. While a unit is between two of its states only the other units stand (`StandsBut`).
An index that closes a captured revolution passes through two more stages, which `Phase` names. -/

namespace Sys2Proof.Machine

/-- How the channel stands to a unit: as between commands; still capturing for the unit though it has entered SPEED_FAULT or
restores (R40, R70); or with the capture of the unit closed. -/
inductive Phase where
  | plain
  | closing (n : UnitId)
  | closed (n : UnitId)
  deriving DecidableEq

/-- A job of a unit holds it: the job is POSITIONING or READING (R48). -/
def JobState.holding (st : JobState) : Prop := st = .positioning ∨ st = .reading

/-- What stands between the jobs, the held jobs, the channel and the delivery queue. -/
structure State.Accord (c : Phase) (s : State) : Prop where
  held : s.JobsHeld
  settled : ∀ j x, s.job j = some x → x.finalized = true → x.state = .draining
  capture : ∀ n, s.channel.state = .capturing n → s.channel.rev ≠ none
  closed : ∀ n, c = .closed n → s.channel.state ≠ .capturing n
  ends : ∀ j, .jobEnd j ∈ s.queue → ∃ x, s.job j = some x ∧ x.finalized = true
  once : ∀ j, s.queue.count (.jobEnd j) ≤ 1

/-- The unit has its held job as its state calls for, and no QUEUED job in IDLE. -/
structure State.UnitHolds (s : State) (n : UnitId) : Prop where
  free : (s.drive n).state ∈ [.undefined, .notReady, .idle, .unloading, .retracted] → (s.drive n).heldJob = none
  busy : (s.drive n).state ∈ [.settling, .tracking] → (s.drive n).heldJob ≠ none
  taken : (s.drive n).state = .idle → ¬ s.HasQueued n

/-- The unit holds its job as its state calls for, and is TRACKING while the channel serves it, but for a revolution being
closed. -/
structure State.UnitStands (c : Phase) (s : State) (n : UnitId) : Prop extends s.UnitHolds n where
  channel : s.channel.state.holds n = true → (s.drive n).state = .tracking ∨
    (c = .closing n ∧ s.channel.state = .capturing n ∧ (s.drive n).heldJob ≠ none ∧
      (s.drive n).state ∈ [.speedFault, .recalibrating])

/-- Every unit stands. -/
structure State.Stands (c : Phase) (s : State) : Prop where
  accord : s.Accord c
  units : ∀ n, s.UnitStands c n

/-- Every unit stands but the one given. -/
structure State.StandsBut (c : Phase) (n : UnitId) (s : State) : Prop where
  accord : s.Accord c
  units : ∀ m, m ≠ n → s.UnitStands c m

/-- Every other unit stands, and this one has no job and no part of the channel. -/
structure State.Loose (c : Phase) (n : UnitId) (s : State) : Prop extends s.StandsBut c n where
  unheld : (s.drive n).heldJob = none
  released : s.channel.state.holds n = false

theorem State.Stands.but {c : Phase} {s : State} (h : s.Stands c) (n : UnitId) : s.StandsBut c n :=
  ⟨h.accord, fun m _ => h.units m⟩

theorem State.StandsBut.all {c : Phase} {n : UnitId} {s : State} (h : s.StandsBut c n) (hn : s.UnitStands c n) :
    s.Stands c :=
  ⟨h.accord, fun m => if e : m = n then e ▸ hn else h.units m e⟩

/-- A unit that the channel does not serve stands where it holds its job as it should. -/
theorem State.UnitHolds.stands {c : Phase} {s : State} {n : UnitId} (h : s.UnitHolds n)
    (hc : s.channel.state.holds n = false) : s.UnitStands c n :=
  { h with channel := fun e => by rw [hc] at e; cases e }

/-! ### Between phases -/

theorem State.Stands.relax {s : State} (h : s.Stands .plain) (n : UnitId) : s.Stands (.closing n) where
  accord := { h.accord with closed := fun _ e => by cases e }
  units := fun m => { (h.units m).toUnitHolds with
    channel := fun e => (h.units m).channel e |>.elim .inl fun g => by cases g.1 }

theorem State.Stands.close {s : State} {n : UnitId} (h : s.Stands (.closing n)) (hc : s.channel.state ≠ .capturing n) :
    s.Stands (.closed n) where
  accord := { h.accord with closed := fun _ e => by cases e; exact hc }
  units := fun m => { (h.units m).toUnitHolds with
    channel := fun e => (h.units m).channel e |>.elim .inl fun ⟨g, k, _⟩ => by cases g; exact absurd k hc }

theorem State.Stands.plain {s : State} {n : UnitId} (h : s.Stands (.closed n)) : s.Stands .plain where
  accord := { h.accord with closed := fun _ e => by cases e }
  units := fun m => { (h.units m).toUnitHolds with
    channel := fun e => (h.units m).channel e |>.elim .inl fun g => by cases g.1 }

theorem ChannelState.holds_iff (c : ChannelState) (n : UnitId) :
    c.holds n = true ↔ c = .reserved n ∨ c = .capturing n := by
  simp [ChannelState.holds]

/-- A unit that the channel serves is TRACKING, but for one whose revolution is being closed. -/
theorem State.UnitStands.tracking {c : Phase} {s : State} {n : UnitId} (h : s.UnitStands c n) (hc : c ≠ .closing n)
    (hs : s.channel.state.holds n = true) : (s.drive n).state = .tracking :=
  (h.channel hs).elim id fun g => absurd g.1 hc

theorem State.UnitStands.notServed {c : Phase} {s : State} {n : UnitId} (h : s.UnitStands c n) (hc : c ≠ .closing n)
    (ht : (s.drive n).state ≠ .tracking) : s.channel.state.holds n = false := by
  by_contra hs
  exact ht (h.tracking hc (by simpa using hs))

/-- A unit that the channel serves has a held job. -/
theorem State.UnitStands.holder {c : Phase} {s : State} {n : UnitId} (h : s.UnitStands c n)
    (hc : s.channel.state.holds n = true) : (s.drive n).heldJob ≠ none :=
  (h.channel hc).elim (fun ht => h.busy (by simp [ht])) fun g => g.2.2.1

/-! ### Work that leaves the accord alone -/

/-- What of a job the accord is about. -/
def Job.key (x : Job) : UnitId × JobState × Bool := (x.unit, x.state, x.finalized)

/-- Work that leaves every unit's state and held job, and what the accord says of the jobs, and keeps the channel and the
delivery queue in accord with them. -/
structure Keeps (s t : State) : Prop where
  state : ∀ m, (t.drive m).state = (s.drive m).state
  held : ∀ m, (t.drive m).heldJob = (s.drive m).heldJob
  jobs : ∀ j, (t.job j).map Job.key = (s.job j).map Job.key
  accord : ∀ c, s.Accord c → t.Accord c
  unit : ∀ c m, s.UnitStands c m → t.UnitStands c m
  released : ∀ n, (s.drive n).heldJob = none → s.channel.state.holds n = false → t.channel.state.holds n = false

theorem Keeps.refl (s : State) : Keeps s s :=
  ⟨fun _ => rfl, fun _ => rfl, fun _ => rfl, fun _ => id, fun _ _ => id, fun _ _ => id⟩

theorem Keeps.trans {s t u : State} (h : Keeps s t) (g : Keeps t u) : Keeps s u :=
  ⟨fun m => (g.state m).trans (h.state m), fun m => (g.held m).trans (h.held m), fun j => (g.jobs j).trans (h.jobs j),
   fun c k => g.accord c (h.accord c k), fun c m k => g.unit c m (h.unit c m k),
   fun n k e => g.released n ((h.held n).trans k) (h.released n k e)⟩

theorem Keeps.foldl {α : Type} (f : State → α → State) (hf : ∀ s a, Keeps s (f s a)) (l : List α) (s : State) :
    Keeps s (l.foldl f s) := by
  induction l generalizing s with
  | nil => exact .refl _
  | cons a l ih => exact (hf s a).trans (ih _)

theorem Keeps.stands {s t : State} {c : Phase} (h : Keeps s t) (hs : s.Stands c) : t.Stands c :=
  ⟨h.accord c hs.accord, fun n => h.unit c n (hs.units n)⟩

theorem Keeps.but {s t : State} {c : Phase} {n : UnitId} (h : Keeps s t) (hs : s.StandsBut c n) : t.StandsBut c n :=
  ⟨h.accord c hs.accord, fun m e => h.unit c m (hs.units m e)⟩

theorem Keeps.loose {s t : State} {c : Phase} {n : UnitId} (h : Keeps s t) (hs : s.Loose c n) : t.Loose c n :=
  { h.but hs.toStandsBut with unheld := (h.held n).trans hs.unheld, released := h.released n hs.unheld hs.released }

/-- A job that stands after work with the same keys stood before it. -/
theorem job_of_keys {s t : State} (h : ∀ j, (t.job j).map Job.key = (s.job j).map Job.key) {j : JobIx} {y : Job}
    (hy : t.job j = some y) : ∃ x, s.job j = some x ∧ x.unit = y.unit ∧ x.state = y.state ∧ x.finalized = y.finalized := by
  have e := h j
  rw [hy] at e
  cases hx : s.job j with
  | none => rw [hx] at e; cases e
  | some x =>
    rw [hx] at e
    simp only [Option.map_some, Job.key, Option.some.injEq, Prod.mk.injEq] at e
    exact ⟨x, rfl, e.1.symm, e.2.1.symm, e.2.2.symm⟩

/-- The delivery queue's JOB-ENDs stand: each for a finalized job, each once. -/
structure State.EndsStand (s : State) : Prop where
  ends : ∀ j, .jobEnd j ∈ s.queue → ∃ x, s.job j = some x ∧ x.finalized = true
  once : ∀ j, s.queue.count (.jobEnd j) ≤ 1

/-- Work that leaves the states, the held jobs and the keys of the jobs is in accord where the channel stands as it was, goes
IDLE, or is reserved for a unit that is TRACKING with a job, and the JOB-ENDs of the queue stand. -/
theorem Keeps.of {s t : State} (hs : ∀ m, (t.drive m).state = (s.drive m).state)
    (hh : ∀ m, (t.drive m).heldJob = (s.drive m).heldJob)
    (hj : ∀ j, (t.job j).map Job.key = (s.job j).map Job.key)
    (hc : (t.channel.state = s.channel.state ∧ t.channel.rev = s.channel.rev) ∨ t.channel.state = .idle ∨
      ∃ k, t.channel.state = .reserved k ∧ (s.drive k).state = .tracking ∧ (s.drive k).heldJob ≠ none)
    (hq : s.EndsStand → t.EndsStand) : Keeps s t where
  state := hs
  held := hh
  jobs := hj
  accord := fun c g => by
    have hq' := hq ⟨g.ends, g.once⟩
    refine ⟨fun n j => ?_, fun j y hy hf => ?_, fun n hn => ?_, fun n e hn => ?_, hq'.ends, hq'.once⟩
    · rw [hh, g.held n j]
      constructor
      · rintro ⟨x, hx, hu, hst⟩
        obtain ⟨y, hy, e1, e2, -⟩ := job_of_keys (fun j => (hj j).symm) hx
        exact ⟨y, hy, e1.trans hu, by rw [e2]; exact hst⟩
      · rintro ⟨y, hy, hu, hst⟩
        obtain ⟨x, hx, e1, e2, -⟩ := job_of_keys hj hy
        exact ⟨x, hx, e1.trans hu, by rw [e2]; exact hst⟩
    · obtain ⟨x, hx, -, e2, e3⟩ := job_of_keys hj hy
      rw [← e2]
      exact g.settled j x hx (e3.trans hf)
    · obtain ⟨e, r⟩ | e | ⟨k, e, -⟩ := hc
      · rw [r]; exact g.capture n (e ▸ hn)
      · rw [e] at hn; cases hn
      · rw [e] at hn; cases hn
    · obtain ⟨e', -⟩ | e' | ⟨k, e', -⟩ := hc
      · exact g.closed n e (e' ▸ hn)
      · rw [e'] at hn; cases hn
      · rw [e'] at hn; cases hn
  unit := fun c m g => by
    refine ⟨⟨?_, ?_, ?_⟩, ?_⟩
    · rw [hs, hh]; exact g.free
    · rw [hs, hh]; exact g.busy
    · rw [hs]
      rintro e ⟨j, y, hy, hu, hst⟩
      obtain ⟨x, hx, e1, e2, -⟩ := job_of_keys hj hy
      exact g.taken e ⟨j, x, hx, e1.trans hu, e2.trans hst⟩
    · rw [hs, hh]
      obtain ⟨e, -⟩ | e | ⟨k, e, ht, -⟩ := hc
      · rw [e]; exact g.channel
      · rw [e]; intro h; cases h
      · rw [e]
        intro h
        simp only [ChannelState.holds, Bool.or_eq_true, beq_iff_eq, ChannelState.reserved.injEq, reduceCtorEq,
          or_false] at h
        exact .inl (h ▸ ht)
  released := fun n hn hr => by
    obtain ⟨e, -⟩ | e | ⟨k, e, -, hk⟩ := hc
    · rw [e]; exact hr
    · rw [e]; rfl
    · rw [e]
      have : k ≠ n := by rintro rfl; exact hk hn
      simp [ChannelState.holds, this]

/-- Work that writes neither drives nor jobs nor the channel nor the queue. -/
theorem Keeps.outside {s t : State} (hd : t.drives = s.drives) (hj : t.jobs = s.jobs) (hc : t.channel = s.channel)
    (hq : t.queue = s.queue) : Keeps s t :=
  .of (fun m => by simp only [State.drive, hd]) (fun m => by simp only [State.drive, hd])
    (fun j => by simp only [State.job, hj]) (.inl ⟨by rw [hc], by rw [hc]⟩)
    fun h => ⟨by simp only [State.job, hj, hq]; exact h.ends, by rw [hq]; exact h.once⟩

/-- Work that writes the jobs but for their keys. -/
theorem Keeps.keys {s t : State} (hd : t.drives = s.drives) (hj : ∀ j, (t.job j).map Job.key = (s.job j).map Job.key)
    (hc : t.channel = s.channel) (hq : t.queue = s.queue) : Keeps s t :=
  .of (fun m => by simp only [State.drive, hd]) (fun m => by simp only [State.drive, hd]) hj
    (.inl ⟨by rw [hc], by rw [hc]⟩) fun h => ⟨fun j e => by
      rw [hq] at e
      obtain ⟨x, hx, hf⟩ := h.ends j e
      obtain ⟨y, hy, -, -, e3⟩ := job_of_keys (fun j => (hj j).symm) hx
      exact ⟨y, hy, e3.trans hf⟩, by rw [hq]; exact h.once⟩

theorem Keeps.setJob (s : State) {j : JobIx} {x y : Job} (hx : s.job j = some x) (hk : y.key = x.key) :
    Keeps s (s.setJob j (some y)) := by
  refine .keys rfl (fun k => ?_) rfl rfl
  rw [State.setJob_job]
  split
  · next e => subst e; rw [hx]; simp [hk]
  · rfl

theorem Keeps.modJob (s : State) (j : JobIx) (f : Job → Job) (hk : ∀ x, (f x).key = x.key) : Keeps s (s.modJob j f) := by
  unfold State.modJob
  split
  · next x hx => exact .setJob s hx (hk x)
  · exact .refl _

theorem Keeps.modRecord (s : State) (j : JobIx) (sec : Nat) (f : Record → Record) : Keeps s (s.modRecord j sec f) :=
  .modJob s j _ fun _ => rfl

/-- A drive is written but for its state and its held job. -/
theorem Keeps.setDrive (s : State) (n : UnitId) (d : Drive) (hs : d.state = (s.drive n).state)
    (hh : d.heldJob = (s.drive n).heldJob) : Keeps s (s.setDrive n d) := by
  refine .of (fun m => ?_) (fun m => ?_) (fun _ => rfl) (.inl ⟨rfl, rfl⟩) fun h => ⟨h.ends, h.once⟩
  · rw [State.setDrive_drive]
    split
    · next e => subst e; exact hs
    · rfl
  · rw [State.setDrive_drive]
    split
    · next e => subst e; exact hh
    · rfl

theorem Keeps.modDrive (s : State) (n : UnitId) (f : Drive → Drive) (hs : (f (s.drive n)).state = (s.drive n).state := by rfl)
    (hh : (f (s.drive n)).heldJob = (s.drive n).heldJob := by rfl) : Keeps s (s.modDrive n f) :=
  .setDrive s n _ hs hh

/-- The channel is written but for its state and its revolution. -/
theorem Keeps.channel (s : State) (c : Channel) (hs : c.state = s.channel.state) (hr : c.rev = s.channel.rev) :
    Keeps s { s with channel := c } :=
  .of (fun _ => rfl) (fun _ => rfl) (fun _ => rfl) (.inl ⟨hs, hr⟩) fun h => ⟨h.ends, h.once⟩

theorem Keeps.channelOff (s : State) (c : Channel) (hs : c.state = .idle) : Keeps s { s with channel := c } :=
  .of (fun _ => rfl) (fun _ => rfl) (fun _ => rfl) (.inr (.inl hs)) fun h => ⟨h.ends, h.once⟩

theorem Keeps.enqueue (s : State) (e : Entry) (he : ∀ j, e ≠ .jobEnd j) : Keeps s (s.enqueue e) :=
  .of (fun _ => rfl) (fun _ => rfl) (fun _ => rfl) (.inl ⟨rfl, rfl⟩) fun h => by
    refine ⟨fun j hj => h.ends j ?_, fun j => ?_⟩
    · simp only [State.enqueue, List.mem_append, List.mem_singleton] at hj
      exact hj.resolve_right fun c => he j c.symm
    · have := h.once j
      simpa [State.enqueue, List.count_append, List.count_singleton, he j] using this

/-- The JOB-END of a finalized job joins the queue where it is not in it. -/
theorem Keeps.enqueueEnd (s : State) (j : JobIx) (h : s.jobEndHeld j = true) : Keeps s (s.enqueue (.jobEnd j)) := by
  unfold State.jobEndHeld at h
  split at h
  · next x hx =>
    simp only [Bool.and_eq_true, Job.jobEndDue, Bool.not_eq_true', List.contains_eq_mem, decide_eq_false_iff_not] at h
    refine .of (fun _ => rfl) (fun _ => rfl) (fun _ => rfl) (.inl ⟨rfl, rfl⟩) fun g => ⟨fun k hk => ?_, fun k => ?_⟩
    · simp only [State.enqueue, List.mem_append, List.mem_singleton, Entry.jobEnd.injEq] at hk
      obtain hk | rfl := hk
      · exact g.ends k hk
      · exact ⟨x, hx, h.1.1⟩
    · have := g.once k
      simp only [State.enqueue, List.count_append, List.count_singleton]
      split
      · next e =>
        have e : j = k := by simpa using e
        subst e
        rw [List.count_eq_zero_of_not_mem h.2]
      · exact this
  · cases h

theorem Keeps.queueJobEnd (s : State) (j : JobIx) : Keeps s (s.queueJobEnd j) := by
  unfold State.queueJobEnd
  split
  · next h => exact .enqueueEnd s j (Bool.and_eq_true_iff.mp h).1
  · exact .refl _

theorem Keeps.setDelivery (s : State) (j : JobIx) (sec : Nat) (d : DeliveryStatus) : Keeps s (s.setDelivery j sec d) :=
  .modRecord _ _ _ _

theorem Keeps.offer (s : State) (j : JobIx) (sec : Nat) : Keeps s (s.offer j sec) := by
  unfold State.offer
  split
  · exact (Keeps.enqueue s _ fun _ e => by cases e).trans (.setDelivery _ _ _ _)
  · exact .setDelivery _ _ _ _

theorem Keeps.admitWaiting (s : State) : Keeps s s.admitWaiting := by
  unfold State.admitWaiting
  split
  · exact .refl _
  · next j hj =>
    split
    · exact ((Keeps.enqueue s _ fun _ e => by cases e).trans (.setDelivery _ _ _ _)).trans (.queueJobEnd _ _)
    · next ha =>
      have hw := (List.mem_filter.1 (oldest_mem s _ j hj)).2
      refine .enqueueEnd s j ?_
      unfold State.waitsForRoom at hw
      split at hw
      · next x hx =>
        simp only [hx, Option.bind_some] at ha
        simpa [ha] using hw
      · cases hw

theorem Keeps.raise (s : State) (k : Nat) : Keeps s (s.raise k) := .outside rfl rfl rfl rfl

theorem Keeps.modSlab (s : State) (i : SlabId) (f : Slab → Slab) : Keeps s (s.modSlab i f) := by
  unfold State.modSlab
  split
  · exact .outside rfl rfl rfl rfl
  · exact .refl _

theorem Keeps.startSearch (s : State) : Keeps s s.startSearch := by
  unfold State.startSearch
  split
  · split <;> exact .outside rfl rfl rfl rfl
  · exact .refl _

theorem Keeps.freeSlab (s : State) (i : SlabId) : Keeps s (s.freeSlab i) := by
  unfold State.freeSlab
  refine Keeps.trans ?_ (Keeps.startSearch _)
  exact .outside rfl rfl rfl rfl

theorem Keeps.queueRepair (s : State) (i : SlabId) : Keeps s (s.queueRepair i) := by
  unfold State.queueRepair
  refine Keeps.trans ?_ (Keeps.startSearch _)
  exact (Keeps.modSlab s i _).trans (.outside rfl rfl rfl rfl)

/-- A grant is to a unit that is TRACKING and holds a job (R25, R29). -/
theorem Keeps.arbitrate (s : State) : Keeps s s.arbitrate := by
  unfold State.arbitrate
  split
  · split
    · next n hn =>
      have hr := arbiterChoice_requesting s n hn
      have ht : (s.drive n).state = .tracking := by
        by_contra h
        rw [requesting_notTracking s n h] at hr
        cases hr
      have hh : (s.drive n).heldJob ≠ none := fun h => by
        rw [requesting_noHeld s n h] at hr
        cases hr
      have reserved : Keeps s { s with channel := { s.channel with state := .reserved n, lastGranted := n } } :=
        .of (fun _ => rfl) (fun _ => rfl) (fun _ => rfl) (.inr (.inr ⟨n, rfl, ht, hh⟩)) fun h => ⟨h.ends, h.once⟩
      exact reserved.trans (.modDrive _ n _)
    · exact .refl _
  · exact .refl _

theorem Keeps.channelIdle (s : State) : Keeps s s.channelIdle :=
  (Keeps.channelOff s s.channel.toIdle rfl).trans (.arbitrate _)

theorem Keeps.releaseEarly (s : State) (n : UnitId) : Keeps s (s.releaseEarly n) := by
  unfold State.releaseEarly
  split
  · exact .channelIdle s
  · exact .refl _

theorem Keeps.evaluatePositioning (s : State) (n : UnitId) (j : JobIx) : Keeps s (s.evaluatePositioning n j) := by
  unfold State.evaluatePositioning
  split
  · exact .modDrive _ _ _
  · exact .refl _

/-! ### A unit takes another state -/

/-- A drive is written but for its held job; the other units stand as they did. -/
theorem State.StandsBut.setDrive {c : Phase} {n : UnitId} {s : State} (h : s.StandsBut c n) (d : Drive)
    (hh : d.heldJob = (s.drive n).heldJob) : (s.setDrive n d).StandsBut c n := by
  have other : ∀ m, m ≠ n → (s.setDrive n d).drive m = s.drive m := fun m e => drive_setDrive_ne s d (Ne.symm e)
  refine ⟨{ h.accord with held := fun m j => ?_ }, fun m e => ?_⟩
  · rw [State.setDrive_drive]
    split
    · next em => subst em; rw [hh]; exact h.accord.held n j
    · exact h.accord.held m j
  · have g := h.units m e
    exact ⟨⟨by rw [other m e]; exact g.free, by rw [other m e]; exact g.busy, by rw [other m e]; exact g.taken⟩,
      by rw [other m e]; exact g.channel⟩

theorem State.StandsBut.modDrive {c : Phase} {n : UnitId} {s : State} (h : s.StandsBut c n) (f : Drive → Drive)
    (hh : (f (s.drive n)).heldJob = (s.drive n).heldJob := by rfl) : (s.modDrive n f).StandsBut c n :=
  h.setDrive _ hh

theorem State.Loose.modDrive {c : Phase} {n : UnitId} {s : State} (h : s.Loose c n) (f : Drive → Drive)
    (hh : (f (s.drive n)).heldJob = (s.drive n).heldJob := by rfl) : (s.modDrive n f).Loose c n :=
  { h.toStandsBut.modDrive f hh with
    unheld := by rw [State.modDrive_drive_self, hh]; exact h.unheld
    released := h.released }

/-- A unit without a job, unserved, stands in a state that calls for no job and is not IDLE. -/
theorem State.Loose.stands {c : Phase} {n : UnitId} {s : State} (h : s.Loose c n)
    (hst : (s.drive n).state ∉ [.settling, .tracking]) (hq : (s.drive n).state = .idle → ¬ s.HasQueued n) : s.Stands c :=
  h.toStandsBut.all (State.UnitHolds.stands ⟨fun _ => h.unheld, fun e => absurd e hst, hq⟩ h.released)

/-- A unit with a job, unserved, stands in a state that calls for one or allows it. -/
theorem State.StandsBut.busyStands {c : Phase} {n : UnitId} {s : State} (h : s.StandsBut c n)
    (hh : (s.drive n).heldJob ≠ none) (hr : s.channel.state.holds n = false)
    (hst : (s.drive n).state ∉ [.undefined, .notReady, .idle, .unloading, .retracted]) : s.Stands c :=
  h.all (State.UnitHolds.stands ⟨fun e => absurd e hst, fun _ => hh, fun e => absurd (by simp [e]) hst⟩ hr)

/-- A unit with a job stands in TRACKING. -/
theorem State.StandsBut.trackingStands {c : Phase} {n : UnitId} {s : State} (h : s.StandsBut c n)
    (hh : (s.drive n).heldJob ≠ none) (hst : (s.drive n).state = .tracking) : s.Stands c :=
  h.all ⟨⟨fun e => by simp [hst] at e, fun _ => hh, fun e => by simp [hst] at e⟩, fun _ => .inl hst⟩

/-- A job is written, its unit kept; it holds its unit as before, is not QUEUED anew and stays finalized. -/
theorem State.Accord.setJob {c : Phase} {s : State} (h : s.Accord c) {j : JobIx} {x y : Job} (hx : s.job j = some x)
    (hu : y.unit = x.unit) (hst : y.state.holding ↔ x.state.holding) (hf : y.finalized = true → y.state = .draining)
    (hk : x.finalized = true → y.finalized = true) : (s.setJob j (some y)).Accord c := by
  refine { h with held := fun n k => ?_, settled := fun k z hz hzf => ?_, ends := fun k hq => ?_ }
  · rw [show ((s.setJob j (some y)).drive n).heldJob = some k ↔ _ from h.held n k, State.setJob_job]
    split
    · next e =>
      subst e
      rw [hx]
      simp only [Option.some.injEq, exists_eq_left', hu]
      exact and_congr_right fun _ => hst.symm
    · rfl
  · rw [State.setJob_job] at hz
    split at hz
    · cases hz; exact hf hzf
    · exact h.settled k z hz hzf
  · obtain ⟨z, hz, hzf⟩ := h.ends k hq
    rw [State.setJob_job]
    split
    · next e =>
      subst e
      rw [hx] at hz
      cases hz
      exact ⟨y, rfl, hk hzf⟩
    · exact ⟨z, hz, hzf⟩

theorem State.UnitStands.setJob {c : Phase} {s : State} {m : UnitId} (h : s.UnitStands c m) {j : JobIx} {x y : Job}
    (hx : s.job j = some x) (hu : y.unit = x.unit) (hq : y.state = .queued → x.state = .queued) :
    (s.setJob j (some y)).UnitStands c m := by
  refine ⟨⟨h.free, h.busy, fun hi => ?_⟩, h.channel⟩
  rintro ⟨k, z, hz, hzu, hzq⟩
  rw [State.setJob_job] at hz
  split at hz
  · next e =>
    cases hz
    exact h.taken hi ⟨j, x, hx, hu.symm.trans hzu, hq hzq⟩
  · exact h.taken hi ⟨k, z, hz, hzu, hzq⟩

/-! ### How jobs end -/

/-- A DRAINING job is finalized: its key changes, and its JOB-END may join the queue (R54, R145). -/
theorem State.finalize_accord {c : Phase} {s : State} (h : s.Accord c) (j : JobIx)
    (hd : ∀ x, s.job j = some x → x.state = .draining) :
    (s.finalize j).Accord c ∧ ∀ m, s.UnitStands c m → (s.finalize j).UnitStands c m := by
  unfold State.finalize
  split
  · exact ⟨h, fun _ => id⟩
  · next x hx =>
    have rest : ∀ y : Job, Keeps (s.setJob j (some y)) ((y.sectorsToOffer.foldl (fun t sec => t.offer j sec)
        (x.votingSlabs.foldl (fun t i => t.freeSlab i) (s.setJob j (some y)))).queueJobEnd j) := fun y =>
      ((Keeps.foldl _ Keeps.freeSlab _ _).trans (.foldl _ (fun t sec => Keeps.offer t j sec) _ _)).trans (.queueJobEnd _ _)
    dsimp only
    exact ⟨(rest _).accord c (h.setJob hx rfl .rfl (fun _ => hd x hx) fun _ => rfl),
      fun m g => (rest _).unit c m (g.setJob hx rfl id)⟩

theorem State.finalizeIfDone_accord {c : Phase} {s : State} (h : s.Accord c) (j : JobIx) :
    (s.finalizeIfDone j).Accord c ∧ ∀ m, s.UnitStands c m → (s.finalizeIfDone j).UnitStands c m := by
  unfold State.finalizeIfDone
  split
  · next x hx =>
    split
    · next g => exact State.finalize_accord h j fun y hy => by rw [hx] at hy; cases hy; exact g.1
    · exact ⟨h, fun _ => id⟩
  · exact ⟨h, fun _ => id⟩

theorem State.finalizeIfDone_stands {c : Phase} {s : State} (h : s.Stands c) (j : JobIx) : (s.finalizeIfDone j).Stands c :=
  ⟨(State.finalizeIfDone_accord h.accord j).1, fun n => (State.finalizeIfDone_accord h.accord j).2 n (h.units n)⟩

/-- A job that has not ended becomes DRAINING, and its unit lets go of it (R51). -/
theorem State.letGo_accord {c : Phase} {s : State} (h : s.Accord c) {j : JobIx} {x y : Job} (hx : s.job j = some x)
    (hu : y.unit = x.unit) (hy : y.state = .draining) (hk : x.finalized = true → y.finalized = true) :
    ((s.setJob j (some y)).letGo j x.unit).Accord c ∧
      ∀ m, s.UnitStands c m → (s.drive m).heldJob ≠ some j → ((s.setJob j (some y)).letGo j x.unit).UnitStands c m := by
  have drained : ∀ (t : State), t.queue = s.queue → t.channel = s.channel → (∀ k, t.job k = (s.setJob j (some y)).job k) →
      (∀ m k, (t.drive m).heldJob = some k ↔ (s.drive m).heldJob = some k ∧ k ≠ j) → t.Accord c := by
    intro t hq hc hj hh
    refine ⟨fun n k => ?_, fun k z hz hzf => ?_, by rw [hc]; exact h.capture, by rw [hc]; exact h.closed, fun k hkq => ?_,
      by rw [hq]; exact h.once⟩
    · rw [hh, h.held n k, hj, State.setJob_job]
      split
      · next e => subst e; simp [hy]
      · next e => simp [Ne.symm e]
    · rw [hj, State.setJob_job] at hz
      split at hz
      · cases hz; exact hy
      · exact h.settled k z hz hzf
    · rw [hq] at hkq
      obtain ⟨z, hz, hzf⟩ := h.ends k hkq
      rw [hj, State.setJob_job]
      split
      · next e => subst e; rw [hx] at hz; cases hz; exact ⟨y, rfl, hk hzf⟩
      · exact ⟨z, hz, hzf⟩
  have mine : ∀ m, (s.drive m).heldJob = some j → m = x.unit := fun m e => by
    obtain ⟨z, hz, hzu, -⟩ := (h.held m j).1 e
    rw [hx] at hz
    cases hz
    exact hzu.symm
  unfold State.letGo
  split
  · next g =>
    have held : (s.drive x.unit).heldJob = some j := g
    have other : ∀ m, m ≠ x.unit →
        ((s.setJob j (some y)).modDrive x.unit Drive.dropJob).drive m = s.drive m := fun m e =>
      State.modDrive_drive_other _ _ _ _ (Ne.symm e)
    have dropped := drained ((s.setJob j (some y)).modDrive x.unit Drive.dropJob) rfl rfl (fun _ => rfl) fun m k => by
      by_cases e : m = x.unit
      · subst e
        rw [State.modDrive_drive_self]
        simp only [Drive.dropJob, reduceCtorEq, false_iff, not_and, Decidable.not_not]
        intro hk'
        rw [held] at hk'
        cases hk'
        rfl
      · rw [other m e]
        refine ⟨fun hk' => ⟨hk', ?_⟩, And.left⟩
        rintro rfl
        exact e (mine m hk')
    refine ⟨(Keeps.releaseEarly _ _).accord c dropped, fun m hm hne => (Keeps.releaseEarly _ _).unit c m ?_⟩
    have e : m ≠ x.unit := by rintro rfl; exact hne held
    have base := hm.setJob (y := y) hx hu (by rw [hy]; intro e; cases e)
    exact ⟨⟨by rw [other m e]; exact base.free, by rw [other m e]; exact base.busy, by rw [other m e]; exact base.taken⟩,
      by rw [other m e]; exact base.channel⟩
  · next g =>
    refine ⟨drained (s.setJob j (some y)) rfl rfl (fun _ => rfl) fun m k => ⟨fun hk' => ⟨hk', ?_⟩, And.left⟩,
      fun m hm _ => hm.setJob hx hu (by rw [hy]; intro e; cases e)⟩
    rintro rfl
    exact g ((mine m hk') ▸ hk')

theorem State.endJob_accord {c : Phase} {s : State} (h : s.Accord c) (j : JobIx) (cause : EndCause) :
    (s.endJob j cause).Accord c ∧
      ∀ m, s.UnitStands c m → (s.drive m).heldJob ≠ some j → (s.endJob j cause).UnitStands c m := by
  unfold State.endJob
  split
  · exact ⟨h, fun _ g _ => g⟩
  · next x hx =>
    split
    · exact ⟨h, fun _ g _ => g⟩
    · obtain ⟨ha, hu⟩ := State.letGo_accord h (y := { x with state := .draining, endCause := some cause }) hx rfl rfl id
      dsimp only
      split
      · have kept : Keeps ((s.setJob j (some { x with state := .draining, endCause := some cause })).letGo j x.unit)
            (((s.setJob j (some { x with state := .draining, endCause := some cause })).letGo j x.unit).withdrawSlabs j) :=
          .outside rfl rfl rfl rfl
        obtain ⟨fa, fu⟩ := State.finalizeIfDone_accord (kept.accord c ha) j
        exact ⟨fa, fun m hm hne => fu m (kept.unit c m (hu m hm hne))⟩
      · obtain ⟨fa, fu⟩ := State.finalizeIfDone_accord ha j
        exact ⟨fa, fun m hm hne => fu m (hu m hm hne)⟩

/-- The job that a unit holds has not ended, and is the unit's. -/
theorem State.Accord.heldJob {c : Phase} {s : State} (h : s.Accord c) {n : UnitId} {j : JobIx}
    (hj : (s.drive n).heldJob = some j) : ∃ x, s.job j = some x ∧ x.unit = n ∧ x.state.holding ∧ x.state ≠ .draining := by
  obtain ⟨x, hx, hu, hst⟩ := (h.held n j).1 hj
  exact ⟨x, hx, hu, hst, fun e => by rw [e] at hst; rcases hst with hst | hst <;> cases hst⟩

/-- The end of a unit's held job leaves the unit without a job, unserved, in the state in which it was (R51). -/
theorem State.StandsBut.endHeldJob {c : Phase} {s : State} {n : UnitId} (h : s.StandsBut c n) {j : JobIx}
    (hj : (s.drive n).heldJob = some j) (cause : EndCause) :
    (s.endJob j cause).Loose c n ∧ ((s.endJob j cause).drive n).state = (s.drive n).state := by
  obtain ⟨x, hx, hu, -, hd⟩ := h.accord.heldJob hj
  obtain ⟨ha, hm⟩ := State.endJob_accord h.accord j cause
  obtain ⟨-, -, hend⟩ := endJob_end s j x cause hx hd
  rw [hu] at hend
  obtain ⟨hdrop, hfree⟩ := hend hj
  refine ⟨⟨⟨ha, fun m e => hm m (h.units m e) fun g => ?_⟩, by rw [hdrop]; rfl, hfree⟩, by rw [hdrop]; rfl⟩
  obtain ⟨z, hz, hzu, -⟩ := h.accord.heldJob g
  rw [hx] at hz
  cases hz
  exact e (hzu.symm.trans hu)

/-- A unit that has left the states that call for a job loses its held job, if it has one. -/
theorem State.StandsBut.endHeld {c : Phase} {s : State} {n : UnitId} (h : s.StandsBut c n)
    (hc : s.channel.state.holds n = true → (s.drive n).heldJob ≠ none) (cause : EndCause) :
    (s.endHeld n cause).Loose c n ∧ ((s.endHeld n cause).drive n).state = (s.drive n).state := by
  unfold State.endHeld
  split
  · next j hj => exact h.endHeldJob hj cause
  · next hj =>
    refine ⟨⟨h, hj, ?_⟩, rfl⟩
    by_contra g
    exact hc (by simpa using g) hj

/-! ### What is QUEUED -/

/-- No job becomes QUEUED. -/
def NoneQueued (s t : State) : Prop :=
  ∀ j y, t.job j = some y → y.state = .queued → ∃ x, s.job j = some x ∧ x.state = .queued ∧ x.unit = y.unit

theorem NoneQueued.refl (s : State) : NoneQueued s s := fun _ y h e => ⟨y, h, e, rfl⟩

theorem NoneQueued.trans {s t u : State} (h : NoneQueued s t) (g : NoneQueued t u) : NoneQueued s u := fun j z hz hq => by
  obtain ⟨y, hy, hyq, hyu⟩ := g j z hz hq
  obtain ⟨x, hx, hxq, hxu⟩ := h j y hy hyq
  exact ⟨x, hx, hxq, hxu.trans hyu⟩

theorem Keeps.noneQueued {s t : State} (h : Keeps s t) : NoneQueued s t := fun j y hy hq => by
  obtain ⟨x, hx, e1, e2, -⟩ := job_of_keys h.jobs hy
  exact ⟨x, hx, e2.trans hq, e1⟩

theorem NoneQueued.modJob (s : State) (j : JobIx) (f : Job → Job)
    (hf : ∀ x, (f x).unit = x.unit ∧ ((f x).state = .queued → x.state = .queued)) : NoneQueued s (s.modJob j f) := by
  unfold State.modJob
  split
  · next x hx =>
    intro k y hy hq
    rw [State.setJob_job] at hy
    split at hy
    · next e =>
      subst e
      cases hy
      exact ⟨x, hx, (hf x).2 hq, (hf x).1.symm⟩
    · exact ⟨y, hy, hq, rfl⟩
  · exact .refl _

/-- A job that stands after the end of one is another, unchanged, or the one that ended. -/
theorem State.endJob_job {s : State} {j k : JobIx} {cause : EndCause} {y : Job} (hy : (s.endJob j cause).job k = some y) :
    (k ≠ j ∧ s.job k = some y) ∨ (k = j ∧ y.state = .draining) := by
  by_cases e : k = j
  · subst e
    refine .inr ⟨rfl, ?_⟩
    cases hx : s.job k with
    | none =>
      have same : s.endJob k cause = s := by unfold State.endJob; rw [hx]
      rw [same, hx] at hy
      cases hy
    | some x =>
      by_cases hd : x.state = .draining
      · have same : s.endJob k cause = s := by unfold State.endJob; rw [hx]; simp [hd]
        rw [same, hx] at hy
        cases hy
        exact hd
      · obtain ⟨⟨z, hz, -, hzd, -⟩, -⟩ := endJob_end s k x cause hx hd
        rw [hz] at hy
        cases hy
        exact hzd
  · rw [OnlyJob.endJob s j cause k e] at hy
    exact .inl ⟨e, hy⟩

theorem NoneQueued.endJob (s : State) (j : JobIx) (cause : EndCause) : NoneQueued s (s.endJob j cause) := by
  intro k y hy hq
  obtain ⟨-, hy⟩ | ⟨-, hd⟩ := State.endJob_job hy
  · exact ⟨y, hy, hq, rfl⟩
  · rw [hd] at hq
    cases hq

/-! ### Passes, hand-over and IDLE -/

/-- A settle or pass start that left its job stands; one that ended it leaves the unit loose. -/
structure Settled (c : Phase) (n : UnitId) (s : State) (r : State × Bool) : Prop where
  stands : r.2 = false → r.1.Stands c
  loose : r.2 = true → r.1.Loose c n
  queued : NoneQueued s r.1

theorem Settled.after {c : Phase} {n : UnitId} {s t : State} {r : State × Bool} (h : Settled c n t r)
    (hq : NoneQueued s t) : Settled c n s r :=
  ⟨h.stands, h.loose, hq.trans h.queued⟩

theorem Settled.staying {c : Phase} {n : UnitId} {s t : State} (h : t.Stands c) (hq : NoneQueued s t) :
    Settled c n s (t, false) :=
  ⟨fun _ => h, fun e => (by cases e), hq⟩

theorem State.passStartCore_settled {c : Phase} {s : State} (h : s.Stands c) (n : UnitId) :
    Settled c n s (s.passStartCore n) := by
  unfold State.passStartCore
  split
  · exact .staying h (.refl _)
  · next j hj =>
    split
    · exact .staying h (.refl _)
    · next x hx =>
      split
      · exact ⟨fun e => (by cases e), fun _ => ((h.but n).endHeldJob hj _).1, .endJob _ _ _⟩
      · have kept : Keeps s (s.modDrive n (fun d => d.applyPass (s.preparePass n x))) := .modDrive _ _ _
        exact .staying (kept.stands h) kept.noneQueued

theorem Job.startReading_holding (x : Job) : x.startReading.state.holding ↔ x.state.holding := by
  unfold Job.startReading JobState.holding
  dsimp only
  split
  · next e => simp [e]
  · rfl

theorem Job.startReading_eq (x : Job) (h : x.state ≠ .positioning) : x.startReading = x := by
  unfold Job.startReading
  rw [if_neg h]

theorem State.modJob_startReading {c : Phase} {s : State} {n : UnitId} (h : s.StandsBut c n) (j : JobIx) :
    (s.modJob j Job.startReading).StandsBut c n := by
  unfold State.modJob
  split
  · next x hx =>
    have hf : x.startReading.finalized = true → x.startReading.state = .draining := fun e => by
      have := h.accord.settled j x hx e
      rw [Job.startReading_eq x (by rw [this]; decide)]
      exact this
    have hq : x.startReading.state = .queued → x.state = .queued := fun e => by
      unfold Job.startReading at e
      dsimp only at e
      split at e
      · cases e
      · exact e
    exact ⟨h.accord.setJob hx rfl x.startReading_holding hf id, fun m e => (h.units m e).setJob hx rfl hq⟩
  · exact h

theorem State.StandsBut.enterTracking {c : Phase} {s : State} {n : UnitId} (h : s.StandsBut c n) {j : JobIx}
    (hj : (s.drive n).heldJob = some j) : Settled c n s (s.enterTracking n) := by
  unfold State.enterTracking
  simp only [hj]
  have entered := h.modDrive (fun d =>
    { d.enter .tracking with seekErrors := 0, prepared := none, waiting := 0, passStrays := 0 })
  refine (State.passStartCore_settled ((State.modJob_startReading entered j).trackingStands ?_ ?_) n).after ?_
  · simp [hj]
  · simp
  · exact NoneQueued.trans (t := s.modDrive n _) (fun k y hy e => ⟨y, hy, e, rfl⟩) (.modJob _ _ _ fun x => ⟨rfl, fun e => by
      unfold Job.startReading at e
      dsimp only at e
      split at e
      · cases e
      · exact e⟩)

theorem State.StandsBut.settleFor {c : Phase} {s : State} {n : UnitId} (h : s.StandsBut c n) {j : JobIx}
    (hj : (s.drive n).heldJob = some j) (hr : s.channel.state.holds n = false) (count : Nat) :
    Settled c n s (s.settleFor n count) := by
  unfold State.settleFor
  split
  · exact h.enterTracking hj
  · refine .staying ((h.modDrive fun d => { d.enter .settling with settleCount := count }).busyStands ?_ hr ?_)
      fun k y hy e => ⟨y, hy, e, rfl⟩
    · simp [hj]
    · simp

theorem State.StandsBut.issueRestore {c : Phase} {s : State} {n : UnitId} (h : s.StandsBut c n)
    (hj : (s.drive n).heldJob ≠ none) (hr : s.channel.state.holds n = false) : (s.issueRestore n).Stands c :=
  (h.modDrive _).busyStands (by simpa [State.issueRestore] using hj) hr (by simp)

theorem State.StandsBut.issueSeek {c : Phase} {s : State} {n : UnitId} (h : s.StandsBut c n)
    (hj : (s.drive n).heldJob ≠ none) (hr : s.channel.state.holds n = false) : (s.issueSeek n).Stands c :=
  (h.modDrive _).busyStands (by simpa [State.issueSeek] using hj) hr (by simp)

theorem State.StandsBut.leaveIdle {c : Phase} {s : State} {n : UnitId} (h : s.StandsBut c n) {j : JobIx}
    (hj : (s.drive n).heldJob = some j) (hr : s.channel.state.holds n = false) : Settled c n s (s.leaveIdle n) := by
  have held : (s.drive n).heldJob ≠ none := by rw [hj]; simp
  unfold State.leaveIdle
  dsimp only
  split
  · exact .staying (h.issueRestore held hr) fun k y hy e => ⟨y, hy, e, rfl⟩
  · split
    · exact h.settleFor hj hr _
    · exact .staying (h.issueSeek held hr) fun k y hy e => ⟨y, hy, e, rfl⟩

/-- A QUEUED job of a loose unit is handed over to it (R48). -/
theorem State.Loose.handOver {c : Phase} {s : State} {n : UnitId} (h : s.Loose c n) {j : JobIx} {x : Job}
    (hx : s.job j = some x) (hu : x.unit = n) (hq : x.state = .queued) (dir : Direction) :
    (s.handOver n j dir).StandsBut c n ∧ ((s.handOver n j dir).drive n).heldJob = some j ∧
      (s.handOver n j dir).channel.state.holds n = false ∧ NoneQueued s (s.handOver n j dir) ∧
      ∀ y, (s.handOver n j dir).job j = some y → y.state ≠ .queued := by
  have positioned : (s.setDirection n dir).modJob j Job.startPositioning =
      (s.setDirection n dir).setJob j (some { x with state := .positioning }) := by
    have hx' : (s.setDirection n dir).job j = some x := hx
    unfold State.modJob
    rw [hx']
    simp [Job.startPositioning, hq]
  have stands : (((s.setDirection n dir).setJob j (some { x with state := .positioning })).modDrive n
      (fun d => { d with heldJob := some j, target := some (s.cylinderOf j) })).StandsBut c n := by
    have other : ∀ m, m ≠ n → (((s.setDirection n dir).setJob j (some { x with state := .positioning })).modDrive n
        (fun d => { d with heldJob := some j, target := some (s.cylinderOf j) })).drive m = s.drive m := fun m e =>
      State.modDrive_drive_other _ _ _ _ (Ne.symm e)
    refine ⟨{ h.accord with
      held := fun m k => ?_, settled := fun k z hz hzf => ?_, ends := fun k hk => ?_ }, fun m e => ?_⟩
    · rw [State.modDrive_job, State.setJob_job]
      by_cases em : m = n
      · subst em
        rw [State.modDrive_drive_self]
        dsimp only
        split
        · next e => simp [e, hu]
        · next e =>
          refine iff_of_false (fun g => e (by simpa using g)) ?_
          rintro ⟨z, hz, hzu, hzs⟩
          have := (h.accord.held m k).2 ⟨z, hz, hzu, hzs⟩
          rw [h.unheld] at this
          cases this
      · rw [other m em, h.accord.held m k]
        split
        · next e =>
          subst e
          rw [hx]
          simp [hu, Ne.symm em]
        · rfl
    · rw [State.modDrive_job, State.setJob_job] at hz
      split at hz
      · next e =>
        subst e
        cases hz
        have := h.accord.settled j x hx hzf
        rw [hq] at this
        cases this
      · exact h.accord.settled k z hz hzf
    · obtain ⟨z, hz, hzf⟩ := h.accord.ends k hk
      rw [State.modDrive_job, State.setJob_job]
      split
      · next e => subst e; rw [hx] at hz; cases hz; exact ⟨_, rfl, hzf⟩
      · exact ⟨z, hz, hzf⟩
    · have base := (h.units m e).setJob (y := { x with state := .positioning }) hx rfl (fun e => by cases e)
      exact ⟨⟨by rw [other m e]; exact base.free, by rw [other m e]; exact base.busy, by rw [other m e]; exact base.taken⟩,
        by rw [other m e]; exact base.channel⟩
  unfold State.handOver
  rw [positioned]
  dsimp only
  have kept := Keeps.evaluatePositioning (((s.setDirection n dir).setJob j (some { x with state := .positioning })).modDrive n
    (fun d => { d with heldJob := some j, target := some (s.cylinderOf j) })) n j
  have channel : ∀ t : State, (t.evaluatePositioning n j).channel = t.channel := fun t => by
    unfold State.evaluatePositioning
    split <;> rfl
  have moved : ∀ y, ((((s.setDirection n dir).setJob j (some { x with state := .positioning })).modDrive n
      (fun d => { d with heldJob := some j, target := some (s.cylinderOf j) })).evaluatePositioning n j).job j = some y →
      y.state = .positioning := fun y hy => by
    obtain ⟨z, hz, -, e, -⟩ := job_of_keys kept.jobs hy
    rw [State.modDrive_job, job_setJob_same] at hz
    cases hz
    exact e.symm
  refine ⟨kept.but stands, (kept.held n).trans (by simp), by rw [channel]; exact h.released, fun k y hy e => ?_,
    fun y hy e => ?_⟩
  · obtain ⟨z, hz, hzq, hzu⟩ := kept.noneQueued k y hy e
    rw [State.modDrive_job, State.setJob_job] at hz
    split at hz
    · cases hz; cases hzq
    · exact ⟨z, hz, hzq, hzu⟩
  · rw [moved y hy] at e
    cases e

/-- A QUEUED job of a unit. -/
def State.isQueued (s : State) (n : UnitId) (j : JobIx) : Bool :=
  match s.job j with
  | some x => x.unit == n && x.state == .queued
  | none => false

theorem State.isQueued_iff (s : State) (n : UnitId) (j : JobIx) :
    s.isQueued n j = true ↔ ∃ x, s.job j = some x ∧ x.unit = n ∧ x.state = .queued := by
  unfold State.isQueued
  cases s.job j with
  | none => simp
  | some x => simp

/-- How many jobs of a unit are QUEUED. -/
def State.queuedCount (s : State) (n : UnitId) : Nat := (Finset.univ.filter (fun j => s.isQueued n j = true)).card

/-- A round of selection uses up a QUEUED job. -/
theorem State.queuedCount_lt {s t : State} {n : UnitId} {j : JobIx} (h : NoneQueued s t) (hj : s.isQueued n j = true)
    (hq : ∀ y, t.job j = some y → y.state ≠ .queued) : t.queuedCount n < s.queuedCount n := by
  refine Finset.card_lt_card (Finset.ssubset_iff_of_subset (fun k hk => ?_) |>.2 ⟨j, by simpa using hj, fun hk => ?_⟩)
  · simp only [Finset.mem_filter, Finset.mem_univ, true_and, State.isQueued_iff] at hk ⊢
    obtain ⟨y, hy, hu, he⟩ := hk
    obtain ⟨x, hx, hxq, hxu⟩ := h k y hy he
    exact ⟨x, hx, hxu.trans hu, hxq⟩
  · simp only [Finset.mem_filter, Finset.mem_univ, true_and, State.isQueued_iff] at hk
    obtain ⟨y, hy, -, he⟩ := hk
    exact hq y hy he

theorem oldest_eq_none (s : State) (l : List JobIx) : s.oldest l = none ↔ l = [] := by
  cases l with
  | nil => simp [State.oldest]
  | cons j rest =>
    simp only [State.oldest, reduceCtorEq, iff_false]
    split
    · simp
    · split <;> simp

/-- Where jobs lie ahead, one of them is nearest. -/
theorem nearest_eq_nil (s : State) (current : Nat) (dir : Direction) (js : List JobIx)
    (h : s.nearest current dir js = []) (j : JobIx) (hj : j ∈ js) : dir.ahead current (s.cylinderOf j) = false := by
  by_contra hne
  have mem : j ∈ js.filter (fun j => dir.ahead current (s.cylinderOf j)) := List.mem_filter.2 ⟨hj, by simpa using hne⟩
  obtain ⟨k, hk, hmin⟩ := Multiset.exists_min_image (fun j => distance current (s.cylinderOf j))
    (s := (js.filter fun j => dir.ahead current (s.cylinderOf j) : Multiset JobIx))
    fun e => by rw [Multiset.coe_eq_zero] at e; rw [e] at mem; cases mem
  have : k ∈ s.nearest current dir js := by
    unfold State.nearest
    exact List.mem_filter.2 ⟨hk, List.all_eq_true.2 fun m hm => decide_eq_true (hmin m (Multiset.mem_coe.2 hm))⟩
  rw [h] at this
  cases this

theorem ahead_or_reverse (dir : Direction) (current c : Nat) :
    dir.ahead current c = true ∨ dir.reverse.ahead current c = true := by
  cases dir <;> simp only [Direction.ahead, Direction.reverse, decide_eq_true_eq] <;> omega

/-- Selection finds a job wherever one of the unit is QUEUED (R47). -/
theorem State.select_eq_none {s : State} {n : UnitId} (h : s.select n = none) : ¬ s.HasQueued n := by
  rintro ⟨j, x, hx, hu, hq⟩
  unfold State.select at h
  dsimp only at h
  split at h
  · cases h
  · next hurgent =>
    split at h
    · cases h
    · next hahead =>
      have hbehind := Option.map_eq_none_iff.1 h
      rw [oldest_eq_none] at hurgent hahead hbehind
      cases hc : x.cls with
      | urgent =>
        have : j ∈ s.queuedJobs n .urgent := (mem_queuedJobs s n _ j).2 ⟨x, hx, hu, hq, hc⟩
        rw [hurgent] at this
        cases this
      | bulk =>
        have mem : j ∈ s.queuedJobs n .bulk := (mem_queuedJobs s n _ j).2 ⟨x, hx, hu, hq, hc⟩
        have h1 := nearest_eq_nil s _ _ _ hahead j mem
        have h2 := nearest_eq_nil s _ _ _ hbehind j mem
        have := ahead_or_reverse s.directions[n] ((s.drive n).cylinder.getD 0) (s.cylinderOf j)
        rw [h1, h2] at this
        simp at this

theorem State.Loose.selection {c : Phase} {n : UnitId} (fuel : Nat) (s : State) (h : s.Loose c n)
    (hi : (s.drive n).state = .idle) (hf : s.queuedCount n < fuel) : (State.selection fuel s n).Stands c := by
  induction fuel generalizing s with
  | zero => exact absurd hf (Nat.not_lt_zero _)
  | succ fuel ih =>
    unfold State.selection
    split
    · next hsel => exact h.stands (by simp [hi]) fun _ => State.select_eq_none hsel
    · next j dir hsel =>
      obtain ⟨x, hx, hu, hq⟩ := select_queued s n j dir hsel
      obtain ⟨hs, hj, hr, hn, hjq⟩ := h.handOver hx hu hq dir
      have left := hs.leaveIdle hj hr
      split
      · next t e => rw [e] at left; exact left.stands rfl
      · next t e =>
        rw [e] at left
        have loose := left.loose rfl
        refine ih _ (loose.modDrive Drive.enterIdle) (by simp [Drive.enterIdle]) ?_
        have gone : ∀ y, t.job j = some y → y.state ≠ .queued := fun y hy e => by
          obtain ⟨z, hz, hzq, -⟩ := left.queued j y hy e
          exact hjq z hz hzq
        have fewer : t.queuedCount n < s.queuedCount n :=
          State.queuedCount_lt (hn.trans left.queued) ((State.isQueued_iff s n j).2 ⟨x, hx, hu, hq⟩) gone
        have same : (t.modDrive n Drive.enterIdle).queuedCount n = t.queuedCount n := rfl
        omega

theorem State.queuedCount_le (s : State) (n : UnitId) : s.queuedCount n ≤ 32 :=
  (Finset.card_le_univ _).trans (by simp)

theorem State.Loose.runSelection {c : Phase} {n : UnitId} {s : State} (h : s.Loose c n)
    (hst : (s.drive n).state ∉ [.settling, .tracking]) : (s.runSelection n).Stands c := by
  unfold State.runSelection
  split
  · next hi => exact h.selection 33 s hi (Nat.lt_succ_of_le (s.queuedCount_le n))
  · next hi => exact h.stands hst fun e => absurd e hi

theorem State.Loose.toIdle {c : Phase} {n : UnitId} {s : State} (h : s.Loose c n) : (s.toIdle n).Stands c :=
  (h.modDrive Drive.enterIdle).runSelection (by simp [Drive.enterIdle])

theorem Settled.orIdle {c : Phase} {n : UnitId} {s : State} {r : State × Bool} (h : Settled c n s r) :
    (State.orIdle r n).Stands c := by
  unfold State.orIdle
  cases e : r.2 with
  | false => exact h.stands e
  | true => exact (h.loose e).toIdle

theorem State.passStart_stands {c : Phase} {s : State} (h : s.Stands c) (n : UnitId) : (s.passStart n).Stands c :=
  (State.passStartCore_settled h n).orIdle

/-- A job of a unit that does not hold it ends. -/
theorem State.endJob_stands {c : Phase} {s : State} (h : s.Stands c) (j : JobIx) (cause : EndCause)
    (hj : ∀ n, (s.drive n).heldJob ≠ some j) : (s.endJob j cause).Stands c :=
  ⟨(State.endJob_accord h.accord j cause).1, fun m => (State.endJob_accord h.accord j cause).2 m (h.units m) (hj m)⟩

/-- Any job ends, and its unit goes on (R15, R51). -/
theorem State.endJobAndGoOn_stands {c : Phase} {s : State} (h : s.Stands c) (j : JobIx) (cause : EndCause) :
    (s.endJobAndGoOn j cause).Stands c := by
  unfold State.endJobAndGoOn
  split
  · exact h
  · next x hx =>
    split
    · exact h
    · split
      · next hj =>
        obtain ⟨loose, hst⟩ := (h.but x.unit).endHeldJob hj cause
        by_cases ht : (s.drive x.unit).state = .settling ∨ (s.drive x.unit).state = .tracking
        · rw [goOn_settled _ _ (by rw [hst]; exact ht)]
          exact loose.toIdle
        · rw [goOn_other _ _ (by rw [hst]; exact ht)]
          refine loose.stands (by rw [hst]; simpa using ht) fun e => ?_
          have := (h.units x.unit).free (by rw [← hst, e]; simp)
          rw [hj] at this
          cases this
      · next hj =>
        refine State.endJob_stands h j cause fun n e => ?_
        obtain ⟨z, hz, hzu, -⟩ := h.accord.heldJob e
        rw [hx] at hz
        cases hz
        exact hj (hzu ▸ e)

end Sys2Proof.Machine
end

section
/-! ## The Recovery Engine and the index keep jobs, units and the channel in accord

Each operation of the engine either leaves the accord alone (`Keeps`) or ends jobs and lets their units go on, so it keeps
every phase; the stages of an index take a unit from one phase to the next (`Phase.after`). -/

namespace Sys2Proof.Machine

/-! ### Recovery, folds and searches -/

theorem Keeps.freeSlabOf (s : State) (r : Option Record) : Keeps s (s.freeSlabOf r) := by
  unfold State.freeSlabOf
  split
  · exact .freeSlab _ _
  · exact .refl _

theorem State.completeIfDone_stands {c : Phase} {s : State} (h : s.Stands c) (j : JobIx) :
    (s.completeIfDone j).Stands c := by
  unfold State.completeIfDone
  split
  · split
    · exact State.endJobAndGoOn_stands h j _
    · exact h
  · exact h

theorem State.recover_stands {c : Phase} {s : State} (h : s.Stands c) (j : JobIx) (sec : Nat) (st : RecordState)
    (words : List Word12) : (s.recover j sec st words).Stands c := by
  have freed := (Keeps.modRecord s j sec fun r => r.recovered st words).trans (.freeSlabOf _ (s.record j sec))
  have marked := freed.trans (.modJob _ j (fun x => { x with mark := true }) fun _ => rfl)
  unfold State.recover
  dsimp only
  exact State.completeIfDone_stands ((marked.trans (.offer _ j sec)).stands h) j

theorem Keeps.foldInto (s : State) (i : SlabId) (words : List Word12) (weights : List Nat) (th : Thresholds) :
    Keeps s (s.foldInto i words weights th) := by
  unfold State.foldInto
  split
  · exact .refl _
  · next x _ =>
    have written : Keeps s (s.setSlab i (some (x.fold words weights th))) := .outside rfl rfl rfl rfl
    exact written.trans (.modRecord _ _ _ _)

theorem State.votedCheck_stands {c : Phase} {s : State} (h : s.Stands c) (i : SlabId) : (s.votedCheck i).Stands c := by
  unfold State.votedCheck
  split
  · exact h
  · split
    · exact h
    · split
      · exact State.recover_stands h _ _ _ _
      · split
        · exact (Keeps.queueRepair s i).stands h
        · exact h

theorem State.foldCapture_stands {c : Phase} {s : State} (h : s.Stands c) (i : SlabId) (p : Pending) :
    (s.foldCapture i p).Stands c := by
  unfold State.foldCapture
  split
  · exact h
  · exact State.votedCheck_stands (((Keeps.modRecord s _ _ _).trans (.foldInto _ _ _ _ _)).stands h) i

theorem Keeps.countBlind (s : State) (j : JobIx) (ident : Identification) : Keeps s (s.countBlind j ident) := by
  unfold State.countBlind
  split
  · exact .modJob _ _ _ fun _ => rfl
  · exact .refl _

theorem State.allocate_stands {c : Phase} {s : State} (h : s.Stands c) (j : JobIx) (sec : Nat) (i : SlabId) (r : Record)
    (p : Pending) : (s.allocate j sec i r p).Stands c := by
  have written : Keeps s (s.setSlab i (some (Slab.fresh j sec p.words.length p.thresholds))) := .outside rfl rfl rfl rfl
  have given := written.trans (.modRecord _ j sec fun x => { x with state := .voting, slab := some i })
  unfold State.allocate
  split
  · exact State.foldCapture_stands ((given.trans (.foldInto _ _ _ _ _)).stands h) i p
  · exact State.foldCapture_stands (given.stands h) i p

theorem State.takeFailing_stands {c : Phase} {s : State} (h : s.Stands c) (j : JobIx) (sec : Nat) (r : Record)
    (p : Pending) (noVote : Bool) : (s.takeFailing j sec r p noVote).Stands c := by
  have counted := Keeps.countBlind s j p.ident
  have raw := counted.trans (.modRecord _ j sec fun x => x.takeRaw p.words)
  unfold State.takeFailing
  split
  · split
    · exact raw.stands h
    · split
      · exact State.allocate_stands (counted.stands h) _ _ _ _ _
      · exact (raw.trans (.raise _ _)).stands h
  · split
    · exact h
    · split
      · exact h
      · split
        · exact h
        · split
          · exact State.foldCapture_stands (counted.stands h) _ _
          · split
            · exact (counted.trans (.modSlab _ _ _)).stands h
            · exact h
  all_goals exact h

theorem Keeps.countStray (s : State) (j : JobIx) (n : UnitId) : Keeps s (s.countStray j n) := by
  unfold State.countStray
  refine (Keeps.modJob s j _ fun _ => ?_).trans (.modDrive _ n _ ?_ ?_) <;> rfl

theorem Keeps.keepStray (s : State) (b : Fin 4) (x : Stray) : Keeps s (s.keepStray b x) := by
  have kept : Keeps s { s with strays := s.strays.set b (some x) } := .outside rfl rfl rfl rfl
  exact kept.trans (.enqueue _ (.stray b) fun _ e => by cases e)

theorem Keeps.stray (s : State) (cap : Capture) (x : Job) (keep : Bool) : Keeps s (s.stray cap x keep) := by
  have counted := Keeps.countStray s cap.job cap.unit
  unfold State.stray
  dsimp only
  split
  · split
    · exact counted.trans (.keepStray _ _ _)
    · exact counted
  · exact counted

theorem State.takeHeader_stands {c : Phase} {s : State} (h : s.Stands c) (j : JobIx) (sec : Nat)
    (data : Option DataField) (rev : Revolution) : (s.takeHeader j sec data rev).Stands c := by
  unfold State.takeHeader
  split
  · exact h
  · next f =>
    have named := (Keeps.modRecord s j sec fun x => { x with lastSync := some f.sync }).stands h
    dsimp only
    split
    · exact named
    · split
      · exact State.recover_stands ((Keeps.modRecord _ j sec Record.read).stands named) _ _ _ _
      · exact State.takeFailing_stands named _ _ _ _ _

theorem State.takeBlind_stands {c : Phase} {s : State} (h : s.Stands c) (j : JobIx) (sec : Nat)
    (data : Option DataField) (rev : Revolution) : (s.takeBlind j sec data rev).Stands c := by
  unfold State.takeBlind
  split
  · exact State.takeFailing_stands h _ _ _ _ _
  · exact h

theorem Keeps.countHeader (s : State) (cap : Capture) : Keeps s (s.countHeader cap) := by
  unfold State.countHeader
  split
  · exact .modJob _ _ _ fun _ => rfl
  all_goals exact .refl _

theorem State.applyCapture_stands {c : Phase} {s : State} (h : s.Stands c) (cap : Capture) (rev : Revolution) :
    (s.applyCapture cap rev).Stands c := by
  unfold State.applyCapture
  split
  · exact h
  · split
    · exact h
    · have counted := (Keeps.countHeader s cap).stands h
      dsimp only
      split
      · exact (Keeps.stray _ _ _ _).stands counted
      · split
        · exact State.takeHeader_stands counted _ _ _ _
        · exact State.takeBlind_stands counted _ _ _ _
        · exact counted

theorem State.foldPending_stands {c : Phase} {s : State} (h : s.Stands c) (i : SlabId) : (s.foldPending i).Stands c := by
  unfold State.foldPending
  split
  · exact State.foldCapture_stands ((Keeps.modSlab s i _).stands h) i _
  · exact h

theorem State.applyOutcome_stands {c : Phase} {s : State} (h : s.Stands c) (i : SlabId) (x : Slab)
    (passing : List (List Word12)) : (s.applyOutcome i x passing).Stands c := by
  unfold State.applyOutcome
  split
  · exact State.recover_stands h _ _ _ _
  · exact State.foldPending_stands ((Keeps.modSlab s i _).stands h) i
  · refine State.foldPending_stands (Keeps.stands (.modJob _ _ _ ?_) ((Keeps.modSlab s i _).stands h)) i
    exact fun _ => rfl

theorem State.endSearch_stands {c : Phase} {s : State} (h : s.Stands c) : s.endSearch.Stands c := by
  unfold State.endSearch
  split
  · exact h
  · have free : Keeps s { s with search := none } := .outside rfl rfl rfl rfl
    have next := (free.trans (.startSearch _)).stands h
    dsimp only
    split
    · exact next
    · refine State.finalizeIfDone_stands ?_ _
      split
      · split
        · exact (Keeps.modSlab _ _ _).stands next
        · exact State.applyOutcome_stands next _ _ _
      · exact next

/-! ### The captured revolution -/

theorem Keeps.noteField (s : State) (low : Bool) : Keeps s (s.noteField low) := .channel s _ rfl rfl

theorem Keeps.dropHeader (s : State) : Keeps s { s with channel := { s.channel with openHeader := none } } :=
  .channel s _ rfl rfl

theorem State.completeAbsent_stands {c : Phase} {s : State} (h : s.Stands c) (cap : Capture) (rev : Revolution) :
    (s.completeAbsent cap rev).Stands c := by
  have noted := ((Keeps.dropHeader s).trans (.noteField _ cap.low)).stands h
  unfold State.completeAbsent
  dsimp only
  split
  · exact State.applyCapture_stands noted _ _
  · exact noted

theorem State.closeWindow_stands {c : Phase} {s : State} (h : s.Stands c) (rev : Revolution) :
    (s.closeWindow rev).Stands c := by
  unfold State.closeWindow
  split
  · exact State.completeAbsent_stands h _ _
  · exact h

theorem State.readHeader_stands {c : Phase} {s : State} (h : s.Stands c) (n : UnitId) (rev : Revolution) (last : Nat)
    (h1 h2 h3 : Word12) (low : Bool) : (s.readHeader n rev last h1 h2 h3 low).Stands c := by
  refine Keeps.stands (.channel _ _ ?_ ?_) (State.closeWindow_stands h rev) <;> rfl

theorem Keeps.blindCandidate (s : State) (n : UnitId) (rev : Revolution) (cap : Capture) (sync : Nat) :
    Keeps s (s.blindCandidate n rev cap sync) := by
  unfold State.blindCandidate
  dsimp only
  split
  · exact (Keeps.noteField s cap.low).trans (.channel _ _ rfl rfl)
  · exact .noteField s cap.low

theorem State.completeWithData_stands {c : Phase} {s : State} (h : s.Stands c) (n : UnitId) (rev : Revolution)
    (cap : Capture) (sync : Nat) : (s.completeWithData n rev cap sync).Stands c := by
  have dropped := (Keeps.dropHeader s).stands h
  unfold State.completeWithData
  dsimp only
  split
  · exact State.applyCapture_stands ((Keeps.noteField _ cap.low).stands dropped) _ _
  · exact (Keeps.blindCandidate _ n rev cap sync).stands dropped

theorem State.readData_stands {c : Phase} {s : State} (h : s.Stands c) (n : UnitId) (rev : Revolution) (f : DataField)
    (low : Bool) : (s.readData n rev f low).Stands c := by
  unfold State.readData
  split
  · split
    · exact State.completeWithData_stands h _ _ _ _
    · exact State.completeWithData_stands (State.closeWindow_stands h rev) _ _ _ _
  · exact State.completeWithData_stands h _ _ _ _

theorem State.settleCut_stands {c : Phase} {s : State} (h : s.Stands c) (rev : Revolution) (cut : CutField) :
    (s.settleCut rev cut).Stands c := by
  unfold State.settleCut
  split
  · exact State.closeWindow_stands h rev
  · exact (Keeps.noteField _ _).stands (State.closeWindow_stands h rev)
  · split
    · exact State.completeAbsent_stands h _ _
    · exact (Keeps.noteField s _).stands h

theorem State.handSlot_stands {c : Phase} {s : State} (h : s.Stands c) (n : UnitId) (slot : Nat) :
    (s.handSlot n slot).Stands c := by
  unfold State.handSlot
  split
  · split
    · exact State.applyCapture_stands h _ _
    · exact h
  · exact h

theorem State.handBlind_stands {c : Phase} {s : State} (h : s.Stands c) (n : UnitId) : (s.handBlind n).Stands c := by
  unfold State.handBlind
  generalize List.range 32 = slots
  induction slots generalizing s with
  | nil => exact h
  | cons slot slots ih => exact ih (State.handSlot_stands h n slot)

/-! ### The stages of closing -/

theorem State.Stands.loose {n : UnitId} {c : Phase} {s : State} (h : s.Stands c) (hh : (s.drive n).heldJob = none) :
    s.Loose c n :=
  { h.but n with unheld := hh, released := by by_contra e; exact (h.units n).holder (by simpa using e) hh }

/-- A unit whose revolution is being closed may be in SPEED_FAULT or restore (R40, R70). -/
theorem State.StandsBut.closingStands {n : UnitId} {s : State} (h : s.StandsBut (.closing n) n)
    (hh : (s.drive n).heldJob ≠ none) (hc : s.channel.state = .capturing n)
    (hst : (s.drive n).state ∈ [.speedFault, .recalibrating]) : s.Stands (.closing n) := by
  have out : ∀ l : List DriveState, (∀ st ∈ l, st ≠ .speedFault ∧ st ≠ .recalibrating) → (s.drive n).state ∉ l := by
    intro l hl e
    obtain ⟨e1, e2⟩ := hl _ e
    simp [e1, e2] at hst
  exact h.all ⟨⟨fun e => absurd e (out _ (by decide)), fun e => absurd e (out _ (by decide)),
    fun e => absurd (by simp [e]) (out [.idle] (by decide))⟩, fun _ => .inr ⟨rfl, hc, hh, hst⟩⟩

theorem State.evaluatePositioning_channel (s : State) (n : UnitId) (j : JobIx) :
    (s.evaluatePositioning n j).channel = s.channel := by
  unfold State.evaluatePositioning
  split <;> rfl

/-- The pass end of a unit that the channel captures for (R66 to R70). -/
theorem State.passEnd_stands {n : UnitId} {s : State} (h : s.Stands (.closing n)) (hc : s.channel.state = .capturing n)
    (p : Profile) : (s.passEnd n p).Stands (.closing n) := by
  unfold State.passEnd
  split
  · exact h
  · next j hj =>
    split
    · exact h
    · next x hx =>
      have counted := (Keeps.setJob s hx (y := x.passEnded) rfl).trans (.modDrive _ n fun d => { d with prepared := none })
      have held : (s.drive n).heldJob ≠ none := by rw [hj]; simp
      dsimp only
      split
      · split
        · have again := counted.trans (.setJob _ (j := j) (x := x.passEnded) (y := x.passEnded.recalibrated) (by simp) rfl)
          have ordered := again.trans (.evaluatePositioning _ n j)
          refine ((ordered.but (h.but n)).modDrive _).closingStands ?_ ?_ ?_
          · rw [State.modDrive_drive_self]
            exact (ordered.held n).trans hj ▸ by simp
          · exact (congrArg Channel.state (State.evaluatePositioning_channel _ n j)).trans hc
          · simp
        · exact State.passStart_stands ((counted.trans (.modDrive _ n _)).stands h) n
      · next ht =>
        have ended := counted.trans (.modDrive _ n fun d => { d with passStrays := 0 })
        split
        · exact ((ended.trans (.setJob _ (j := j) (x := x.passEnded) (y := x.passEnded.recalibrated) (by simp) rfl)).trans
            ((Keeps.modDrive _ n _).trans (.evaluatePositioning _ n j))).stands h
        · split
          · have hst : (s.drive n).state ∈ [.speedFault, .recalibrating] :=
              ((h.units n).channel (by rw [hc]; simp [ChannelState.holds])).resolve_left ht |>.2.2.2
            obtain ⟨loose, hst'⟩ := (ended.but (h.but n)).endHeldJob (j := j) (by simpa using hj) .passesExhausted
            rw [ended.state n] at hst'
            refine loose.stands ?_ ?_
            · rw [hst']
              exact fun e => by rcases List.mem_pair.1 hst with g | g <;> simp [g] at e
            · rw [hst']
              exact fun e => by simp [e] at hst
          · exact ended.stands h

theorem State.arbitrate_notCapturing {s : State} (h : s.channel.state = .idle) (n : UnitId) :
    s.arbitrate.channel.state ≠ .capturing n := by
  unfold State.arbitrate
  rw [if_pos h]
  split
  · simp [State.grant]
  · rw [h]; simp

theorem State.stageIdle_stands {n : UnitId} {s : State} (h : s.Stands (.closing n)) : (s.stageIdle n).Stands (.closed n) := by
  unfold State.stageIdle
  split
  · exact ((Keeps.channelIdle s).stands h).close (State.arbitrate_notCapturing rfl n)
  · next hc => exact h.close hc

/-- An unload ends the held job (R17, R18, R19). -/
theorem State.unload_stands {c : Phase} {s : State} (h : s.Stands c) (n : UnitId) (cause : EndCause) :
    ((s.beginUnload n).endHeld n cause).Stands c := by
  obtain ⟨loose, hst⟩ := ((h.but n).modDrive (fun d =>
    { d.enter .unloading with unloadLine := true, target := none, monitor := .cleared, deadRevs := 0 })).endHeld
    (fun e => by simpa using (h.units n).holder e) cause
  exact loose.stands (by rw [hst]; simp) fun e => by rw [hst] at e; simp at e

theorem State.protectionUnload_stands {c : Phase} {s : State} (h : s.Stands c) (n : UnitId) :
    (s.protectionUnload n).Stands c := State.unload_stands h n _

theorem State.closingStages_stands {n : UnitId} {s : State} (h : s.Stands (.closing n))
    (hc : s.channel.state = .capturing n) (rev : Revolution) : (s.closingStages n rev).Stands (.closed n) := by
  have counted : ∀ k : Drive → Nat, (s.modDrive n (fun d => { d with deadRevs := k d })).Stands (.closing n) := fun k =>
    (Keeps.modDrive s n _).stands h
  unfold State.closingStages
  dsimp only
  split
  · exact State.stageIdle_stands (State.passEnd_stands (counted fun _ => 0) hc _)
  · split
    · exact State.stageIdle_stands (State.protectionUnload_stands (counted fun d => holdAt 8 d.deadRevs) n)
    · exact State.stageIdle_stands (State.passEnd_stands (counted fun d => holdAt 8 d.deadRevs) hc _)

/-- A closed revolution leaves its unit's capture closed (R38 to R40). -/
theorem State.closeRevolution_stands {n : UnitId} {s : State} (h : s.Stands (.closing n)) (cut : CutField) :
    (s.closeRevolution n cut).Stands (.closed n) := by
  unfold State.closeRevolution
  split
  · next m rev hcap =>
    split
    · have settled := State.handBlind_stands (State.settleCut_stands h rev cut) n
      dsimp only
      split
      · next hc => exact State.closingStages_stands settled hc rev
      · next hc => exact settled.close hc
    · next hm =>
      refine h.close fun e => ?_
      simp only [State.capturing, e] at hcap
      split at hcap
      · next hst _ => cases hst; cases hcap; exact hm rfl
      · cases hcap
  · next hcap =>
    refine h.close fun e => ?_
    cases hr : s.channel.rev with
    | none => exact h.accord.capture n e hr
    | some rev => simp [State.capturing, e, hr] at hcap

/-! ### The stages of an index -/

/-- A unit enters SPEED_FAULT with its job, if any, and the channel released (R16). -/
theorem State.StandsBut.releaseEarly {c : Phase} {n : UnitId} {s : State} (h : s.StandsBut c n)
    (hst : (s.drive n).state = .speedFault) : (s.releaseEarly n).Stands c := by
  have holds : ∀ t : State, t.drives = s.drives → t.UnitHolds n := fun t e => by
    have : (t.drive n).state = .speedFault := by simp only [State.drive, e]; exact hst
    exact ⟨fun g => by simp [this] at g, fun g => by simp [this] at g, fun g => by simp [this] at g⟩
  unfold State.releaseEarly
  split
  · have off : ({ s with channel := s.channel.toIdle } : State).Stands c :=
      ((Keeps.channelOff s s.channel.toIdle rfl).but h).all ((holds { s with channel := s.channel.toIdle } rfl).stands rfl)
    exact (Keeps.arbitrate _).stands off
  · next hc => exact h.all ((holds s rfl).stands (by simpa using hc))

/-- The phase of an index of a unit that closes its captured revolution, by the stages still to be taken. -/
def Phase.before (n : UnitId) (rest : List IndexStage) : Phase :=
  if .track ∈ rest then if .speed ∈ rest then .plain else .closing n else .closed n

theorem State.enterSpeedFault_closing {n : UnitId} {s : State} (h : s.Stands .plain) (at_ : Situation) :
    (s.enterSpeedFault n at_).Stands (.closing n) := by
  unfold State.enterSpeedFault
  split
  · next hc =>
    have relaxed := (h.relax n).but n
    exact (relaxed.modDrive _).closingStands
      (by simpa using (h.units n).holder (by rw [hc.2]; simp [ChannelState.holds])) hc.2 (by simp)
  · exact (((h.relax n).but n).modDrive fun d => d.enter .speedFault).releaseEarly (by simp)

theorem State.enterSpeedFault_stands {n : UnitId} {c : Phase} {s : State} (h : s.Stands c) {at_ : Situation}
    (ha : at_ = .closing → s.channel.state ≠ .capturing n) : (s.enterSpeedFault n at_).Stands c := by
  unfold State.enterSpeedFault
  rw [if_neg fun g => ha g.1 g.2]
  exact ((h.but n).modDrive fun d => d.enter .speedFault).releaseEarly (by simp)

theorem State.leaveSpeedFault_stands {n : UnitId} {c : Phase} {s : State} (h : s.Stands c) (hc : c ≠ .closing n)
    (hst : (s.drive n).state = .speedFault) : (s.leaveSpeedFault n).Stands c := by
  have unserved := (h.units n).notServed hc (by rw [hst]; simp)
  unfold State.leaveSpeedFault
  split
  · next hh => exact (h.loose hh).toIdle
  · next j hj =>
    have evaluated := (Keeps.evaluatePositioning s n j).but (h.but n)
    have held : ((s.evaluatePositioning n j).drive n).heldJob ≠ none := by
      rw [(Keeps.evaluatePositioning s n j).held n, hj]; simp
    have released : (s.evaluatePositioning n j).channel.state.holds n = false := by
      rw [State.evaluatePositioning_channel]; exact unserved
    split
    · exact evaluated.issueRestore held released
    · split
      · exact ((h.but n).modDrive fun d => { d.enter .settling with settleCount := 1 }).busyStands
          (by simp [hj]) unserved (by simp)
      · exact evaluated.issueSeek held released

theorem State.stageSpeed_stands {n : UnitId} {c : Phase} {s : State} (h : s.Stands c) (hc : c ≠ .closing n)
    {at_ : Situation} (ha : at_ = .closing → s.channel.state ≠ .capturing n) : (s.stageSpeed n at_).Stands c := by
  unfold State.stageSpeed
  split
  · exact State.enterSpeedFault_stands h ha
  · exact State.enterSpeedFault_stands h ha
  · exact State.enterSpeedFault_stands h ha
  · next hst _ => exact State.leaveSpeedFault_stands h hc hst
  · exact h

theorem State.stageSpeed_closing {n : UnitId} {s : State} (h : s.Stands .plain) (at_ : Situation) :
    (s.stageSpeed n at_).Stands (.closing n) := by
  unfold State.stageSpeed
  split
  · exact State.enterSpeedFault_closing h at_
  · exact State.enterSpeedFault_closing h at_
  · exact State.enterSpeedFault_closing h at_
  · next hst _ => exact (State.leaveSpeedFault_stands h (by simp) hst).relax n
  · exact h.relax n

theorem State.takeSwap_stands {c : Phase} {s : State} (h : s.Stands c) (n : UnitId) : (s.takeSwap n).Stands c := by
  have kept : Keeps s (s.setProfiles n (s.unitProfiles n).swap) := .outside rfl rfl rfl rfl
  have swapped := kept.stands h
  unfold State.takeSwap
  dsimp only
  split
  · split
    · exact State.passStart_stands swapped n
    · exact swapped
  · exact h

/-- A reserved channel begins its unit's capture (R30). -/
theorem State.openCapture_stands {s : State} (h : s.Stands .plain) {n : UnitId} (hc : s.channel.state = .reserved n)
    (j : JobIx) (x : Job) (p : Prepared) (d : Descriptor) : (s.openCapture n j x p d).Stands .plain := by
  unfold State.openCapture
  refine (Keeps.modDrive _ n _).stands ⟨{ h.accord with capture := fun m _ => by simp, closed := fun m e => by cases e },
    fun m => { (h.units m).toUnitHolds with channel := fun e => .inl ?_ }⟩
  refine (h.units m).tracking (by simp) ?_
  rw [hc]
  simpa [ChannelState.holds] using e

theorem State.stageOpen_stands {s : State} (h : s.Stands .plain) (n : UnitId) : (s.stageOpen n).Stands .plain := by
  have swapped := State.takeSwap_stands h n
  unfold State.stageOpen
  dsimp only
  split
  · next hc =>
    split
    · split
      · exact State.openCapture_stands swapped hc _ _ _ _
      · exact swapped
    · exact swapped
  · exact swapped

theorem State.StandsBut.track {c : Phase} {s : State} {n : UnitId} (h : s.StandsBut c n) {j : JobIx}
    (hj : (s.drive n).heldJob = some j) : (s.track n).Stands c := (h.enterTracking hj).orIdle

theorem State.stageSettle_stands {c : Phase} {s : State} (h : s.Stands c) (n : UnitId) : (s.stageSettle n).Stands c := by
  unfold State.stageSettle
  split
  · next hst =>
    obtain ⟨j, hj⟩ := Option.ne_none_iff_exists'.1 ((h.units n).busy (by simp [hst.1]))
    split
    · exact (h.but n).track hj
    · exact (Keeps.modDrive s n _).stands h
  · exact h

theorem State.stageWaiting_stands {c : Phase} {s : State} (h : s.Stands c) (n : UnitId) : (s.stageWaiting n).Stands c := by
  unfold State.stageWaiting
  split
  · exact (Keeps.modDrive s n _).stands h
  · exact h

theorem State.stageTrack_stands {s : State} (h : s.Stands .plain) (n : UnitId) {at_ : Situation} (ha : at_ ≠ .closing)
    (held : Option JobIx) (cut : CutField) : (s.stageTrack n at_ held cut).Stands .plain := by
  unfold State.stageTrack
  split
  · exact absurd rfl ha
  · split
    · exact State.stageOpen_stands h n
    · exact h
  · split
    · exact State.stageWaiting_stands h n
    · exact h
  · split
    · exact State.stageSettle_stands h n
    · exact h
  · exact h

theorem State.stageBudget_stands {c : Phase} {s : State} (h : s.Stands c) (n : UnitId) (held : Option JobIx) :
    (s.stageBudget n held).Stands c := by
  unfold State.stageBudget
  split
  · exact h
  · split
    · split
      · next j _ x hx =>
        have spent := (Keeps.setJob s hx (y := x.revolution) rfl).stands h
        dsimp only
        split
        · exact State.endJobAndGoOn_stands spent _ _
        · exact spent
      · exact h
    · exact h

theorem State.stageDeferral_stands {c : Phase} {s : State} (h : s.Stands c) (n : UnitId) : (s.stageDeferral n).Stands c := by
  unfold State.stageDeferral
  split
  · exact (Keeps.modDrive s n _).stands h
  · exact h

theorem State.stageMonitor_stands {c : Phase} {s : State} (h : s.Stands c) (n : UnitId) : (s.stageMonitor n).Stands c := by
  unfold State.stageMonitor
  split
  · exact h
  · next d _ =>
    have measured := (Keeps.modDrive s n fun x => { x with monitor := x.monitor.index d s.clock }).stands h
    dsimp only
    split
    · exact (Keeps.raise _ _).stands measured
    · exact measured

theorem State.stageSwap_stands {c : Phase} {s : State} (h : s.Stands c) (n : UnitId) (at_ : Situation)
    (held : Option JobIx) : (s.stageSwap n at_ held).Stands c := by
  unfold State.stageSwap
  split
  · exact State.takeSwap_stands ((Keeps.channelOff s _ rfl).stands h) n
  · exact State.takeSwap_stands h n

/-- A stage that takes neither the speed fault nor the revolution's work keeps every phase. -/
theorem State.indexStage_stands {c : Phase} {n : UnitId} {s : State} (h : s.Stands c) (at_ : Situation)
    (held : Option JobIx) (cut : CutField) {stage : IndexStage} (hs : stage ≠ .speed) (ht : stage ≠ .track) :
    (State.indexStage n at_ held cut s stage).Stands c := by
  cases stage with
  | monitor => exact (Keeps.arbitrate _).stands (State.stageMonitor_stands h n)
  | speed => exact absurd rfl hs
  | track => exact absurd rfl ht
  | budget => exact (Keeps.arbitrate _).stands (State.stageBudget_stands h n held)
  | deferral => exact (Keeps.arbitrate _).stands (State.stageDeferral_stands h n)
  | swap => exact (Keeps.arbitrate _).stands (State.stageSwap_stands h n at_ held)

/-- The stages of an index at which the unit has no revolution to close. -/
theorem State.indexStages_plain {n : UnitId} {at_ : Situation} (ha : at_ ≠ .closing) (held : Option JobIx) (cut : CutField)
    (stages : List IndexStage) (s : State) (h : s.Stands .plain) :
    (stages.foldl (State.indexStage n at_ held cut) s).Stands .plain := by
  induction stages generalizing s with
  | nil => exact h
  | cons stage rest ih =>
    refine ih _ ?_
    by_cases hs : stage = .speed
    · subst hs
      exact (Keeps.arbitrate _).stands (State.stageSpeed_stands h (by simp) fun e => absurd e ha)
    · by_cases ht : stage = .track
      · subst ht
        exact (Keeps.arbitrate _).stands (State.stageTrack_stands h n ha held cut)
      · exact State.indexStage_stands h at_ held cut hs ht

/-- The stages of an index that closes a captured revolution, each taken once. -/
theorem State.indexStages_closing {n : UnitId} (held : Option JobIx) (cut : CutField) (stages : List IndexStage)
    (hn : stages.Nodup) (s : State) (h : s.Stands (.before n stages)) :
    (stages.foldl (State.indexStage n .closing held cut) s).Stands (.closed n) := by
  induction stages generalizing s with
  | nil => exact h
  | cons stage rest ih =>
    obtain ⟨hnew, hrest⟩ := List.nodup_cons.1 hn
    refine ih hrest _ ?_
    by_cases hs : stage = .speed
    · subst hs
      refine (Keeps.arbitrate _).stands ?_
      by_cases ht : .track ∈ rest
      · simp only [Phase.before, List.mem_cons, ht, hnew, or_true, true_or, if_true, if_false] at h ⊢
        exact State.stageSpeed_closing h _
      · simp only [Phase.before, List.mem_cons, ht, reduceCtorEq, or_false, if_false] at h ⊢
        exact State.stageSpeed_stands h (by simp) fun _ => h.accord.closed n rfl
    · by_cases ht : stage = .track
      · subst ht
        refine (Keeps.arbitrate _).stands ?_
        have relaxed : s.Stands (.closing n) := by
          simp only [Phase.before, List.mem_cons, true_or, if_true] at h
          split at h
          · exact h.relax n
          · exact h
        simp only [Phase.before, hnew, if_false]
        exact State.closeRevolution_stands relaxed cut
      · have same : Phase.before n (stage :: rest) = Phase.before n rest := by
          simp only [Phase.before, List.mem_cons, Ne.symm hs, Ne.symm ht, false_or]
        exact State.indexStage_stands (same ▸ h) _ held cut hs ht

/-- Every order is a rearrangement of the six stages. -/
theorem indexStages_perm (o : IndexOrder) :
    (indexStages o).Perm [.swap, .deferral, .budget, .monitor, .speed, .track] := by
  have core : ∀ l : List IndexStage, l.length = 3 →
      (((l.insertIdx o.budgetAt.val .budget).insertIdx o.deferralAt.val .deferral).insertIdx o.swapAt.val .swap).Perm
        (.swap :: .deferral :: .budget :: l) := fun l hl => by
    have b := o.budgetAt.isLt
    have d := o.deferralAt.isLt
    have w := o.swapAt.isLt
    have lb : (l.insertIdx o.budgetAt.val .budget).length = 4 := by
      rw [List.length_insertIdx_of_le_length (by omega), hl]
    have ld : ((l.insertIdx o.budgetAt.val .budget).insertIdx o.deferralAt.val .deferral).length = 5 := by
      rw [List.length_insertIdx_of_le_length (by omega), lb]
    refine (List.perm_insertIdx _ _ (by omega)).trans (.cons _ ?_)
    exact (List.perm_insertIdx _ _ (by omega)).trans (.cons _ (List.perm_insertIdx _ _ (by omega)))
  unfold indexStages
  dsimp only
  split
  · exact core _ rfl
  · exact (core _ rfl).trans (.cons _ (.cons _ (.cons _ (.cons _ (.swap _ _ _)))))

theorem indexStages_once (o : IndexOrder) : (indexStages o).Nodup ∧ ∀ stage, stage ∈ indexStages o :=
  ⟨(indexStages_perm o).nodup_iff.2 (by decide), fun stage => (indexStages_perm o).mem_iff.2 (by cases stage <;> decide)⟩

/-- An index keeps jobs, units and channel in accord, in every order. -/
theorem State.indexIn_stands {s : State} (h : s.Stands .plain) (n : UnitId) (cut : CutField) (order : IndexOrder) :
    (s.indexIn n cut order).Stands .plain := by
  unfold State.indexIn
  split
  · exact h
  · have seen := (Keeps.modDrive s n fun d => d.indexSeen s.clock).stands h
    dsimp only
    split
    · obtain ⟨once, all⟩ := indexStages_once order
      by_cases ha : (s.modDrive n fun d => d.indexSeen s.clock).situation n = .closing
      · rw [ha]
        have start : Phase.before n (indexStages order) = .plain := by simp [Phase.before, all]
        exact (State.indexStages_closing _ cut _ once _ (start ▸ seen)).plain
      · exact State.indexStages_plain ha _ cut _ _ seen
    · exact State.takeSwap_stands seen n

theorem State.index_stands {s : State} (h : s.Stands .plain) (n : UnitId) (elapsed : Nat) (cut : CutField) :
    (s.index n elapsed cut).Stands .plain := by
  have moved : Keeps s { s with clock := s.clock + elapsed, choices := s.choices + 1 } := .outside rfl rfl rfl rfl
  exact State.indexIn_stands (moved.stands h) n cut _

end Sys2Proof.Machine
end

section
/-! ## Requests and events keep jobs, units and the channel in accord -/

namespace Sys2Proof.Machine

/-- Work on nothing that the accord is about. -/
theorem State.Stands.outside {c : Phase} {s t : State} (h : s.Stands c) (hd : t.drives = s.drives) (hj : t.jobs = s.jobs)
    (hc : t.channel = s.channel) (hq : t.queue = s.queue) : t.Stands c :=
  (Keeps.outside hd hj hc hq).stands h

/-! ### Requests -/

theorem State.Loose.idleIfReady {c : Phase} {n : UnitId} {s : State} (h : s.Loose c n)
    (hst : (s.drive n).state = .notReady) : (s.idleIfReady n).Stands c := by
  unfold State.idleIfReady
  split
  · exact h.toIdle
  · exact h.stands (by simp [hst]) fun e => by simp [hst] at e

theorem State.Loose.readyInNotReady {c : Phase} {n : UnitId} {s : State} (h : s.Loose c n) :
    (s.readyInNotReady n).Stands c :=
  (h.modDrive fun d => { d with cylinder := none, monitor := .cleared, indexTimer := d.timerFrom s.clock }).toIdle

theorem State.install_stands {c : Phase} {s : State} (h : s.Stands c) (n : UnitId) (x : Descriptor)
    (hj : s.jobsOf n = []) : (s.install n x).Stands c := by
  have unheld : (s.drive n).heldJob = none := by
    by_contra e
    obtain ⟨j, hj'⟩ := Option.ne_none_iff_exists'.1 e
    obtain ⟨y, hy, hu, -⟩ := h.accord.heldJob hj'
    have mem : j ∈ s.jobsOf n := List.mem_filter.2 ⟨List.mem_finRange j, by simp [hy, hu]⟩
    rw [hj] at mem
    cases mem
  have loose := h.loose unheld
  unfold State.install
  split
  · next hr =>
    exact (loose.modDrive fun d => { d.forgetQuirks with descriptor := some x, deadRevs := 0 }).stands
      (by simp [Drive.forgetQuirks, hr]) fun e => by simp [Drive.forgetQuirks, hr] at e
  · exact (loose.modDrive fun d => { (d.losePosition.enter .notReady).forgetQuirks with
      descriptor := some x, seekErrors := 0, deadRevs := 0, indexTimer := some (s.clock + 3 * x.period) }).idleIfReady
      (by simp [Drive.forgetQuirks])

theorem State.reload_stands {c : Phase} {s : State} (h : s.Stands c) (n : UnitId) (hr : (s.drive n).state = .retracted) :
    (s.reload n).Stands c := by
  have entered := (h.loose ((h.units n).free (by simp [hr]))).modDrive fun d =>
    { d.enter .notReady with loadLine := true, indexTimer := d.timerFrom s.clock }
  unfold State.reload
  dsimp only
  split
  · exact entered.readyInNotReady
  · exact entered.stands (by simp) fun e => by simp at e

/-- Jobs of a unit join the table, QUEUED: its drive and the channel stand. -/
structure Admitted (c : Phase) (n : UnitId) (s t : State) : Prop where
  but : t.StandsBut c n
  drives : t.drives = s.drives
  channel : t.channel = s.channel

theorem State.StandsBut.admitJob {c : Phase} {n : UnitId} {s : State} (h : s.StandsBut c n) {j : JobIx}
    (hj : s.job j = none) {x : Job} (hu : x.unit = n) (hq : x.state = .queued) (hf : x.finalized = false) :
    (s.admitJob j x).StandsBut c n := by
  have job : ∀ k, (s.admitJob j x).job k = if j = k then some x else s.job k := fun k => State.setJob_job s j k (some x)
  refine ⟨{ h.accord with held := fun m k => ?_, settled := fun k y hy hyf => ?_, ends := fun k hk => ?_ }, fun m e => ?_⟩
  · rw [show ((s.admitJob j x).drive m).heldJob = some k ↔ _ from h.accord.held m k, job]
    split
    · next e =>
      subst e
      rw [hj]
      simp [hq]
    · rfl
  · rw [job] at hy
    split at hy
    · cases hy
      rw [hf] at hyf
      cases hyf
    · exact h.accord.settled k y hy hyf
  · obtain ⟨y, hy, hyf⟩ := h.accord.ends k hk
    rw [job, if_neg (by rintro rfl; rw [hj] at hy; cases hy)]
    exact ⟨y, hy, hyf⟩
  · refine { (h.units m e) with taken := fun hi => ?_ }
    rintro ⟨k, y, hy, hyu, hyq⟩
    rw [job] at hy
    split at hy
    · cases hy
      exact e (hyu.symm.trans hu)
    · exact (h.units m e).taken hi ⟨k, y, hy, hyu, hyq⟩

theorem State.freeJob_job {s : State} {j : JobIx} (h : s.freeJob = some j) : s.job j = none := by
  simpa using List.find?_some h

/-- Selection after jobs have joined. -/
theorem Admitted.runSelection {c : Phase} {n : UnitId} {s t : State} (h : Admitted c n s t) (hs : s.Stands c) :
    (t.runSelection n).Stands c := by
  have drive : t.drive n = s.drive n := by simp only [State.drive, h.drives]
  by_cases hi : (s.drive n).state = .idle
  · have unheld := (hs.units n).free (by simp [hi])
    refine State.Loose.runSelection { h.but with unheld := by rw [drive]; exact unheld, released := ?_ } (by rw [drive, hi]; simp)
    rw [h.channel]
    exact (hs.loose unheld).released
  · unfold State.runSelection
    rw [if_neg (by rw [drive]; exact hi)]
    exact h.but.all ⟨⟨by rw [drive]; exact (hs.units n).free, by rw [drive]; exact (hs.units n).busy,
      fun e => absurd (drive ▸ e) hi⟩, by rw [h.channel, drive]; exact (hs.units n).channel⟩

theorem Admitted.admitTracks {c : Phase} {n : UnitId} {s : State} (cls : JobClass) (tag : Tag) (budget sectors : Nat)
    (ls : List Landing) (tracks : List (Nat × Nat)) (t : State) (h : Admitted c n s t) :
    Admitted c n s (t.admitTracks n cls tag budget sectors ls tracks).1 := by
  induction tracks generalizing t with
  | nil => exact h
  | cons track rest ih =>
    unfold State.admitTracks
    split
    · exact h
    · next j hj =>
      exact ih _ ⟨h.but.admitJob (State.freeJob_job hj) rfl rfl rfl, h.drives, h.channel⟩

/-- The ends of QUEUED jobs leave every unit as it stands. -/
theorem State.endQueued_stands {c : Phase} (cause : EndCause) (jobs : List JobIx) (s : State) (h : s.Stands c)
    (hq : ∀ j ∈ jobs, ∀ x, s.job j = some x → ¬ x.state.holding) :
    (jobs.foldl (fun t j => t.endJob j cause) s).Stands c := by
  induction jobs generalizing s with
  | nil => exact h
  | cons j rest ih =>
    refine ih _ (State.endJob_stands h j cause fun n e => ?_) fun k hk x hx => ?_
    · obtain ⟨x, hx, -, hh, -⟩ := h.accord.heldJob e
      exact hq j (by simp) x hx hh
    · obtain ⟨-, hx⟩ | ⟨-, hd⟩ := State.endJob_job hx
      · exact hq k (by simp [hk]) x hx
      · rw [hd]
        rintro (e | e) <;> cases e

theorem queuedByAge_notHolding (s : State) (n : UnitId) :
    ∀ j ∈ s.queuedByAge n, ∀ x, s.job j = some x → ¬ x.state.holding := by
  intro j hj x hx
  obtain ⟨y, hy, -, hq⟩ := (mem_queuedByAge s n j).1 hj
  rw [hx] at hy
  cases hy
  rw [hq]
  rintro (e | e) <;> cases e

theorem State.abortUnit_stands {c : Phase} {s : State} (h : s.Stands c) (n : UnitId) : (s.abortUnit n).Stands c := by
  have ended := State.endQueued_stands .aborted _ s h (queuedByAge_notHolding s n)
  unfold State.abortUnit
  dsimp only
  split
  · exact State.endJobAndGoOn_stands ended _ _
  · exact ended

theorem State.resetDrive_stands {c : Phase} {n : UnitId} {s : State} (h : s.Loose c n) : (s.resetDrive n).Stands c := by
  have cleared := h.modDrive fun d => { d.forgetQuirks with deferral := 0, deadRevs := 0 }
  unfold State.resetDrive
  dsimp only
  split
  · exact (cleared.modDrive _).idleIfReady (by simp)
  · next ht =>
    refine cleared.stands ?_ ?_
    · intro e
      simp only [State.modDrive_drive_self, Drive.forgetQuirks, List.mem_cons, List.not_mem_nil, or_false] at e
      rcases e with e | e <;> simp [e, DriveState.timed] at ht
    · intro e
      simp only [State.modDrive_drive_self, Drive.forgetQuirks] at e
      simp [e, DriveState.timed] at ht

theorem State.resetUnit_stands {c : Phase} {s : State} (h : s.Stands c) (n : UnitId) : (s.resetUnit n).Stands c := by
  have ended := State.endQueued_stands .driveReset _ s h (queuedByAge_notHolding s n)
  have loose := ((ended.but n).endHeld (ended.units n).holder .driveReset).1
  have rest : ∀ (t : State) (dir : Direction) (p : UnitProfiles), Keeps t ((t.setDirection n dir).setProfiles n p) :=
    fun t dir p => .outside rfl rfl rfl rfl
  have cleared : ∀ t : State, Keeps t (t.clearFlags (unitFlags n)) := fun t => .outside rfl rfl rfl rfl
  exact (cleared _).stands (State.resetDrive_stands ((rest _ _ _).loose loose))

theorem Takes.keepsJobs {s t : State} (h : Takes s t) (hs : s.Stands .plain) : t.Stands .plain := by
  cases h with
  | nothing => exact hs
  | install n x _ hj _ => exact State.install_stands hs n x hj
  | unload n => exact State.unload_stands hs n _
  | reload n hr => exact State.reload_stands hs n hr
  | track n j cylinder head cls tag budget records hj =>
    have joined := (hs.but n).admitJob (State.freeJob_job hj)
      (x := Job.fresh n cylinder head cls tag budget records s.arrival) rfl rfl rfl
    exact Admitted.runSelection (s := s) ⟨joined, rfl, rfl⟩ hs
  | blocks n cls tag budget sectors ls tracks =>
    exact (Admitted.admitTracks cls tag budget sectors ls tracks s ⟨hs.but n, rfl, rfl⟩).runSelection hs
  | abortUnit n => exact State.abortUnit_stands hs n
  | abortJob j => exact State.endJobAndGoOn_stands hs j _
  | resetUnit n => exact State.resetUnit_stands hs n
  | profiles | quirks | extent | noExtents | remap | unmap | hold | flags | resetAll =>
    exact hs.outside rfl rfl rfl rfl

/-! ### Events of the drives -/

theorem State.indexTimeout_stands {c : Phase} {s : State} (h : s.Stands c) (n : UnitId) (deadline : Nat) :
    (s.indexTimeout n deadline).Stands c := by
  have marked : (({ s with clock := max s.clock deadline } : State).indexMarked n).Stands c :=
    (Keeps.raise _ _).stands ((Keeps.modDrive _ n _).stands (h.outside rfl rfl rfl rfl))
  rw [State.indexTimeout_eq]
  split
  · exact State.unload_stands marked n _
  · exact marked

theorem State.readyRise_stands {c : Phase} {s : State} (h : s.Stands c) (n : UnitId) : (s.readyRise n).Stands c := by
  have raised := Keeps.modDrive s n fun d => { d with ready := true }
  unfold State.readyRise
  dsimp only
  split
  · next hst => exact (raised.loose (h.loose ((h.units n).free (by simp [hst])))).readyInNotReady
  · exact raised.stands h

theorem State.readyFall_stands {c : Phase} {s : State} (h : s.Stands c) (n : UnitId) : (s.readyFall n).Stands c := by
  have fell := Keeps.modDrive s n fun d => { d with ready := false }
  unfold State.readyFall
  dsimp only
  split
  · obtain ⟨loose, hst⟩ := ((fell.but (h.but n)).modDrive fun d => d.losePosition.enter .notReady).endHeld
      (fun e => by simpa [Drive.losePosition] using (h.units n).holder e) .driveLost
    exact loose.stands (by rw [hst]; simp) fun e => by rw [hst] at e; simp at e
  · exact fell.stands h

/-- A unit whose motion is over, unserved, goes on with its job or enters IDLE (R11, R12). -/
theorem State.StandsBut.arrive {c : Phase} {n : UnitId} {s : State} (h : s.StandsBut c n)
    (hr : s.channel.state.holds n = false) : (s.arrive n).Stands c := by
  unfold State.arrive
  split
  · next hh =>
    obtain ⟨j, hj⟩ := Option.isSome_iff_exists.1 hh
    exact (h.settleFor hj hr _).orIdle
  · next hh => exact State.Loose.toIdle { h with unheld := by simpa using hh, released := hr }

/-- A unit enters SPEED_FAULT unserved, with its job or without (R11, R12, R16). -/
theorem State.StandsBut.faulted {c : Phase} {n : UnitId} {s : State} (h : s.StandsBut c n)
    (hr : s.channel.state.holds n = false) : (s.modDrive n (fun d => d.enter .speedFault)).Stands c :=
  (h.modDrive fun d => d.enter .speedFault).all
    (State.UnitHolds.stands ⟨fun e => by simp at e, fun e => by simp at e, fun e => by simp at e⟩ hr)

theorem State.seekDone_stands {c : Phase} {s : State} (h : s.Stands c) {n : UnitId}
    (hr : s.channel.state.holds n = false) : (s.seekDone n).Stands c := by
  have arrived := (h.but n).modDrive fun d => { d with motion := .still, cylinder := d.target }
  unfold State.seekDone
  dsimp only
  split
  · exact arrived.faulted hr
  · exact arrived.arrive hr

theorem State.restoreDone_stands {c : Phase} {s : State} (h : s.Stands c) {n : UnitId}
    (hr : s.channel.state.holds n = false) : (s.restoreDone n).Stands c := by
  have arrived := (h.but n).modDrive fun d => { d with motion := .still, cylinder := some 0 }
  unfold State.restoreDone
  dsimp only
  split
  · exact arrived.faulted hr
  · split
    · next hj => exact arrived.issueSeek (by simpa [Option.isSome_iff_ne_none] using hj.1) hr
    · exact arrived.arrive hr

theorem State.seekError_stands {c : Phase} {s : State} (h : s.Stands c) {n : UnitId}
    (hr : s.channel.state.holds n = false) : (s.seekError n).Stands c := by
  have counted := (Keeps.raise _ (unitFlag n .seekError)).but ((h.but n).modDrive fun d =>
    { d with motion := .still, cylinder := none, seekErrors := holdAt 3 d.seekErrors })
  unfold State.seekError
  dsimp only
  split
  · next hj =>
    split
    · exact counted.issueRestore (by simpa [Option.isSome_iff_ne_none] using hj) hr
    · exact (counted.endHeld (fun e => by simp [hr] at e) .seekFailed).1.toIdle
  · next hj => exact State.Loose.toIdle { counted with unheld := by simpa using hj, released := hr }

theorem State.headsUnloaded_stands {c : Phase} {s : State} (h : s.Stands c) {n : UnitId}
    (hu : (s.drive n).state = .unloading) : (s.headsUnloaded n).Stands c := by
  have entered := (h.loose ((h.units n).free (by simp [hu]))).modDrive fun d =>
    { d.enter .retracted with cylinder := none, offset := 0 }
  exact (Keeps.raise _ _).stands (entered.stands (by simp) fun e => by simp at e)

end Sys2Proof.Machine
end

section
/-! ## The message in transmission, and what every step keeps of the jobs -/

namespace Sys2Proof.Machine

/-! ### The queues that messages are sent from -/

/-- The message in transmission is the same, and replies and entries have joined the tails of their queues alone. -/
structure Follows (s t : State) : Prop where
  tx : t.link.tx = s.link.tx
  replies : ∃ l, t.link.replies = s.link.replies ++ l
  queue : ∃ l, t.queue = s.queue ++ l

theorem Follows.same {s t : State} (hl : t.link = s.link) (hq : t.queue = s.queue) : Follows s t :=
  ⟨by rw [hl], ⟨[], by rw [hl, List.append_nil]⟩, ⟨[], by rw [hq, List.append_nil]⟩⟩

theorem Follows.refl (s : State) : Follows s s := .same rfl rfl

theorem Follows.trans {s t u : State} (h : Follows s t) (g : Follows t u) : Follows s u := by
  obtain ⟨r1, h1⟩ := h.replies
  obtain ⟨r2, g1⟩ := g.replies
  obtain ⟨q1, h2⟩ := h.queue
  obtain ⟨q2, g2⟩ := g.queue
  exact ⟨g.tx.trans h.tx, ⟨r1 ++ r2, by rw [g1, h1, List.append_assoc]⟩, ⟨q1 ++ q2, by rw [g2, h2, List.append_assoc]⟩⟩

theorem EvolvesIf.follows {Q : Prop} {s t : State} (h : EvolvesIf Q s t) : Follows s t := by
  refine ⟨by rw [h.same.link], ⟨[], by rw [h.same.link, List.append_nil]⟩, ?_⟩
  induction h with
  | refl => exact ⟨[], (List.append_nil _).symm⟩
  | @enqueue t e _ _ ih =>
    obtain ⟨l, hl⟩ := ih
    exact ⟨l ++ [e], by rw [State.enqueue, hl, List.append_assoc]⟩
  | _ => assumption

theorem head?_append_of_some {α : Type} {l m : List α} {a : α} (h : l.head? = some a) : (l ++ m).head? = some a := by
  cases l with
  | nil => cases h
  | cons b l => exact h

theorem State.TxStands.follow {s t : State} (hs : s.TxStands) (h : Follows s t) : t.TxStands := by
  intro m hm
  have old := hs m (h.tx ▸ hm)
  obtain ⟨r, hr⟩ := h.replies
  obtain ⟨q, hq⟩ := h.queue
  cases hsrc : m.source with
  | reply =>
    simp only [hsrc] at old ⊢
    obtain ⟨x, hx, hf⟩ := Option.map_eq_some_iff.1 old
    rw [hr, head?_append_of_some hx]
    exact congrArg some hf
  | notice => trivial
  | delivery e =>
    simp only [hsrc] at old ⊢
    rw [hq]
    exact head?_append_of_some old

theorem State.TxStands.idle {s : State} (h : s.link.tx = none) : s.TxStands := fun m hm => by rw [h] at hm; cases hm

theorem Follows.reload (s : State) (n : UnitId) : Follows s (s.reload n) := by
  have entered : Follows s (s.modDrive n (fun d =>
    { d.enter .notReady with loadLine := true, indexTimer := d.timerFrom s.clock })) := .same rfl rfl
  unfold State.reload
  dsimp only
  split
  · exact entered.trans (State.readyInNotReady_evolves _ n (by simp)).follows
  · exact entered

theorem Follows.install (s : State) (n : UnitId) (x : Descriptor) : Follows s (s.install n x) := by
  unfold State.install
  split
  · exact .same rfl rfl
  · exact Follows.trans (t := s.modDrive n _) (.same rfl rfl) (State.idleIfReady_evolves _ n).follows

theorem Follows.admitTracks (n : UnitId) (cls : JobClass) (tag : Tag) (budget sectors : Nat) (ls : List Landing)
    (tracks : List (Nat × Nat)) (s : State) : Follows s (s.admitTracks n cls tag budget sectors ls tracks).1 := by
  induction tracks generalizing s with
  | nil => exact .refl _
  | cons t rest ih =>
    unfold State.admitTracks
    split
    · exact .refl _
    · exact (State.admitJob_evolves s _ _).follows.trans (ih _)

theorem Takes.follows {s t : State} (h : Takes s t) : Follows s t := by
  cases h with
  | install n x _ _ _ => exact .install s n x
  | unload n => exact ((State.beginUnload_evolves _ _).trans (State.endHeld_evolves _ _ _)).follows
  | reload n => exact .reload s n
  | track => exact (State.admitJob_evolves s _ _).follows.trans (State.runSelection_evolves _ _).follows
  | blocks => exact (Follows.admitTracks _ _ _ _ _ _ _ s).trans (State.runSelection_evolves _ _).follows
  | abortUnit n => exact (State.abortUnit_evolves s n).follows
  | abortJob j => exact (State.endJobAndGoOn_evolves s j _).follows
  | resetUnit n => exact (State.resetUnit_evolves s n).follows
  | resetAll => exact ⟨rfl, ⟨[], (List.append_nil _).symm⟩, ⟨[], (List.append_nil _).symm⟩⟩
  | nothing | profiles | quirks | extent | noExtents | remap | unmap | hold | flags => exact .same rfl rfl

/-- A message begins as the head of the queue that it comes from (R173, R146). -/
theorem State.TxStands.transmit {s : State} (h : s.TxStands) : s.transmit.TxStands := by
  unfold State.transmit
  split
  · split
    · next m hm =>
      intro m' hm'
      cases hm'
      unfold State.nextMessage at hm
      split at hm
      · next r rest hr =>
        cases hm
        show (State.link _).replies.head?.map _ = _
        rw [show (s.begin _).link.replies = s.link.replies from rfl, hr]
        rfl
      · split at hm
        · cases hm
          trivial
        · unfold State.deliveryMessage at hm
          split at hm
          · next e rest _ hq =>
            obtain ⟨f, -, hf⟩ := Option.map_eq_some_iff.1 hm
            cases hf
            show (s.begin _).queue.head? = some e
            rw [show (s.begin _).queue = s.queue from rfl, hq]
            rfl
          · cases hm
    · exact h
  · exact h

/-! ### Deliveries -/

/-- The head entry leaves the queue. -/
theorem Keeps.popDelivery (s : State) : Keeps s s.popDelivery :=
  .of (fun _ => rfl) (fun _ => rfl) (fun _ => rfl) (.inl ⟨rfl, rfl⟩) fun h =>
    ⟨fun j hj => h.ends j (List.mem_of_mem_tail hj),
     fun j => ((List.tail_sublist _).count_le _).trans (h.once j)⟩

theorem State.sectorDone_stands {c : Phase} {s : State} (h : s.Stands c) (j : JobIx) (sec : Nat) :
    (s.sectorDone j sec).Stands c :=
  (((Keeps.setDelivery _ j sec .sent).trans (.popDelivery _)).trans (.admitWaiting _)).stands
    (h.outside (t := s.endMessage) rfl rfl rfl rfl)

theorem State.strayDone_stands {c : Phase} {s : State} (h : s.Stands c) (b : Fin 4) : (s.strayDone b).Stands c := by
  unfold State.strayDone
  dsimp only
  exact ((Keeps.popDelivery _).trans (.admitWaiting _)).stands (h.outside rfl rfl rfl rfl)

/-- A job leaves the table with its JOB-END, the head of the queue (R55). -/
theorem State.jobEndDone_stands {c : Phase} {s : State} (h : s.Stands c) {j : JobIx}
    (hj : s.queue.head? = some (.jobEnd j)) : (s.jobEndDone j).Stands c := by
  refine (Keeps.admitWaiting _).stands ?_
  obtain ⟨rest, hq⟩ : ∃ rest, s.queue = .jobEnd j :: rest := by
    cases hs : s.queue with
    | nil => rw [hs] at hj; cases hj
    | cons e rest =>
      rw [hs] at hj
      cases hj
      exact ⟨rest, rfl⟩
  obtain ⟨x, hx, hf⟩ := h.accord.ends j (by simp [hq])
  have hd := h.accord.settled j x hx hf
  have job : ∀ k, ((s.endMessage.setJob j none).popDelivery).job k = if j = k then none else s.job k := fun k =>
    State.setJob_job s.endMessage j k none
  have others : ∀ k y, ((s.endMessage.setJob j none).popDelivery).job k = some y → s.job k = some y := fun k y hy => by
    rw [job] at hy
    split at hy
    · cases hy
    · exact hy
  have gone : Entry.jobEnd j ∉ rest := fun hm => by
    have := h.accord.once j
    rw [hq, List.count_cons_self] at this
    have := List.count_pos_iff.2 hm
    omega
  have once : ∀ k, rest.count (.jobEnd k) ≤ 1 := fun k => by
    have := h.accord.once k
    rw [hq, List.count_cons] at this
    omega
  have queue : (s.endMessage.setJob j none).popDelivery.queue = rest := by
    show s.queue.tail = rest
    rw [hq]
    rfl
  refine ⟨{ h.accord with
    held := fun n k => ?_
    settled := fun k y hy => h.accord.settled k y (others k y hy)
    ends := fun k hk => ?_
    once := fun k => by rw [queue]; exact once k },
    fun n => { (h.units n) with
      taken := fun hi ⟨k, y, hy, hu, hst⟩ => (h.units n).taken hi ⟨k, y, others k y hy, hu, hst⟩ }⟩
  · rw [show (((s.endMessage.setJob j none).popDelivery).drive n).heldJob = some k ↔ _ from h.accord.held n k, job]
    split
    · next e =>
      subst e
      rw [hx]
      simp [hd]
    · rfl
  · rw [queue] at hk
    obtain ⟨y, hy, hyf⟩ := h.accord.ends k (by rw [hq]; exact List.mem_cons_of_mem _ hk)
    exact ⟨y, by rw [job, if_neg (by rintro rfl; exact gone hk)]; exact hy, hyf⟩

/-! ### Between commands -/

/-- What stands between commands, of the jobs and of the message in transmission. -/
structure State.JobsAccord (s : State) : Prop where
  stands : s.Stands .plain
  sending : s.TxStands

theorem State.JobsStand.jobsAccord {s : State} (h : s.JobsStand) (hr : s.InRange) : s.JobsAccord where
  stands :=
    ⟨⟨h.held, fun j x hx => (hr.jobs j x hx).finalized, h.capture, fun _ e => (by cases e), h.ends, h.once⟩,
     fun n => ⟨⟨h.free n, h.busy n, h.taken n⟩, fun e => .inl (h.channel n e)⟩⟩
  sending := h.sending

theorem State.JobsAccord.jobsStand {s : State} (h : s.JobsAccord) : s.JobsStand where
  held := h.stands.accord.held
  free n := (h.stands.units n).free
  busy n := (h.stands.units n).busy
  taken n := (h.stands.units n).taken
  channel n := (h.stands.units n).tracking (by simp)
  capture := h.stands.accord.capture
  ends := h.stands.accord.ends
  once := h.stands.accord.once
  sending := h.sending

theorem State.JobsAccord.outside {s t : State} (h : s.JobsAccord) (hd : t.drives = s.drives) (hj : t.jobs = s.jobs)
    (hc : t.channel = s.channel) (hq : t.queue = s.queue) (hl : t.link = s.link) : t.JobsAccord :=
  ⟨h.stands.outside hd hj hc hq, h.sending.follow (.same hl hq)⟩

theorem State.JobsAccord.finish {s : State} (h : s.JobsAccord) : s.finish.JobsAccord := by
  have arbitrated := (Keeps.arbitrate s).stands h.stands
  have sending : s.arbitrate.gapSync.TxStands :=
    (h.sending.follow (State.arbitrate_evolves s).follows).follow
      ⟨rfl, ⟨[], (List.append_nil _).symm⟩, ⟨[], (List.append_nil _).symm⟩⟩
  refine ⟨?_, sending.transmit⟩
  have synced : s.arbitrate.gapSync.Stands .plain := arbitrated.outside rfl rfl rfl rfl
  unfold State.finish State.transmit
  split
  · split
    · exact synced.outside rfl rfl rfl rfl
    · exact synced
  · exact synced

theorem jobsAccord_linkSteps : LinkSteps (fun s t => s.JobsAccord → t.JobsAccord) where
  refl _ h := h
  trans h g k := g (h k)
  link s l ht hr h := ⟨h.stands.outside rfl rfl rfl rfl, h.sending.follow
    ⟨ht, ⟨[], by simp [hr]⟩, ⟨[], (List.append_nil _).symm⟩⟩⟩
  run s f h := ⟨((serve_takes f s).keepsJobs h.stands).outside rfl rfl rfl rfl,
    (h.sending.follow (serve_takes f s).follows).follow
      ⟨rfl, ⟨_, rfl⟩, ⟨[], (List.append_nil _).symm⟩⟩⟩
  raise s k h := ⟨(Keeps.raise s k).stands h.stands, h.sending.follow (.same rfl rfl)⟩
  finish _ h := h.finish

theorem State.powerOn_jobsAccord (s : State) (rate : Fin 4) : (s.powerOn rate).JobsAccord := by
  have jobs : ∀ j, (s.powerOn rate).job j = none := fun j => by simp [State.powerOn, State.job, State.reset]
  have drive : ∀ n, (s.powerOn rate).drive n = Drive.powerOn (s.drive n).ready := fun n => by
    simp [State.powerOn, State.drive]
  refine ⟨⟨⟨fun n j => ?_, fun j x hx => ?_, fun n e => ?_, fun n e => ?_, fun j hj => ?_, fun j => ?_⟩, fun n =>
    State.UnitHolds.stands ⟨fun _ => ?_, fun e => ?_, fun e => ?_⟩ rfl⟩, .idle rfl⟩
  · simp [drive, Drive.powerOn, jobs]
  · rw [jobs] at hx; cases hx
  · cases e
  · cases e
  · cases hj
  · exact Nat.zero_le _
  · rw [drive]; rfl
  · rw [drive] at e; simp [Drive.powerOn] at e
  · rw [drive] at e; cases e

theorem State.replyDone_jobsAccord {s : State} (h : s.JobsAccord) : s.replyDone.JobsAccord := by
  have ended : ({ s.endMessage with link := { s.endMessage.link with replies := s.link.replies.tail } } : State).JobsAccord :=
    ⟨h.stands.outside rfl rfl rfl rfl, .idle rfl⟩
  unfold State.replyDone
  dsimp only
  split
  · exact ended
  · split
    · exact State.powerOn_jobsAccord _ _
    · exact jobsAccord_linkSteps.takeFrames _ ended

/-- A JOB-END in transmission is the head of the delivery queue (R146). -/
theorem State.TxStands.jobEnd {s : State} (h : s.TxStands) {j : JobIx} (hd : s.deliveryCompleting = some (.jobEnd j)) :
    s.queue.head? = some (.jobEnd j) := by
  unfold State.deliveryCompleting at hd
  split at hd
  · next m hm =>
    have := h m hm
    split at hd
    · next e he =>
      rw [he] at this
      split at hd
      · cases hd; exact this
      · cases hd
    all_goals cases hd
  · cases hd

/-- A unit with a motion in flight is not served by the channel (R3, R25). -/
theorem State.Stands.moving {s : State} (h : s.Stands .plain) (hr : s.InRange) {n : UnitId}
    (hm : (s.drive n).motion ≠ .still) : s.channel.state.holds n = false := by
  refine (h.units n).notServed (by simp) fun ht => ?_
  cases e : (s.drive n).motion with
  | still => exact hm e
  | seek l => have := (hr.drives n).seek l e; rw [ht] at this; cases this
  | restore l => have := (hr.drives n).restore l e; rw [ht] at this; cases this

theorem Acts.keepsJobs {s t : State} (h : Acts s t) (hr : s.InRange) (hs : s.JobsAccord) : t.JobsAccord := by
  have engine : ∀ {u : State} {Q : Prop}, u.Stands .plain → EvolvesIf Q s u → u.finish.JobsAccord := fun hu he =>
    State.JobsAccord.finish ⟨hu, hs.sending.follow he.follows⟩
  have line : ∀ {u : State}, u.Stands .plain → u.link.tx = none → u.finish.JobsAccord := fun hu ht =>
    State.JobsAccord.finish ⟨hu, .idle ht⟩
  have admitted : ∀ u : State, u.link.tx = none → u.popDelivery.admitWaiting.link.tx = none := fun u hu => by
    rw [(State.admit_same _).2]; exact hu
  have times : ∀ clock choices hold, Follows s { s with clock := clock, choices := choices, hold := hold } := fun _ _ _ =>
    .same rfl rfl
  cases h with
  | nothing => exact hs
  | powerOn rate => exact (State.powerOn_jobsAccord s rate).finish
  | request f => exact (jobsAccord_linkSteps.offerFrame s f hs).finish
  | bytes bs => exact jobsAccord_linkSteps.receive bs s hs
  | gap now =>
    have timed : ({ s with clock := now } : State).JobsAccord := hs.outside rfl rfl rfl rfl rfl
    exact (jobsAccord_linkSteps.discardFrame _ timed).finish
  | lineBreak =>
    exact State.JobsAccord.finish ⟨hs.stands.outside rfl rfl rfl rfl, hs.sending.follow
      ⟨rfl, ⟨[], (List.append_nil _).symm⟩, ⟨[], (List.append_nil _).symm⟩⟩⟩
  | line rts last => exact (jobsAccord_linkSteps.link s { s.link with rts := rts, lastByte := last } rfl rfl hs).finish
  | reply => exact (State.replyDone_jobsAccord hs).finish
  | notice => exact line (hs.stands.outside rfl rfl rfl rfl) rfl
  | sector j sec =>
    refine line (State.sectorDone_stands hs.stands j sec) (admitted _ ?_)
    simp [State.setDelivery, State.endMessage]
  | stray b => exact line (State.strayDone_stands hs.stands b) (admitted _ rfl)
  | jobEnd j hd => exact line (State.jobEndDone_stands hs.stands (hs.sending.jobEnd hd)) (admitted _ rfl)
  | holdEnds now => exact State.JobsAccord.finish (hs.outside rfl rfl rfl rfl rfl)
  | index n elapsed cut =>
    exact State.JobsAccord.finish ⟨State.index_stands hs.stands n elapsed cut,
      hs.sending.follow ((times _ _ _).trans (State.indexIn_evolves _ n cut _).follows)⟩
  | indexTimeout n deadline =>
    refine State.JobsAccord.finish ⟨State.indexTimeout_stands hs.stands n deadline,
      hs.sending.follow ((times (max s.clock deadline) s.choices s.hold).trans ?_)⟩
    have marked := State.indexMarked_evolves ({ s with clock := max s.clock deadline } : State) n
    rw [State.indexTimeout_eq]
    split
    · exact (marked.trans ((State.beginUnload_evolves _ _).trans (State.endHeld_evolves _ _ _))).follows
    · exact marked.follows
  | readyRise n => exact engine (State.readyRise_stands hs.stands n) (State.readyRise_evolves s n)
  | readyFall n => exact engine (State.readyFall_stands hs.stands n) (State.readyFall_evolves s n)
  | seekDone n limit hm =>
    exact engine (State.seekDone_stands hs.stands (hs.stands.moving hr (by simp [hm]))) (State.seekDone_evolves s n)
  | restoreDone n limit hm =>
    exact engine (State.restoreDone_stands hs.stands (hs.stands.moving hr (by simp [hm]))) (State.restoreDone_evolves s n hm)
  | seekError n now hm =>
    have timed : ({ s with clock := now } : State).Stands .plain := hs.stands.outside rfl rfl rfl rfl
    exact State.JobsAccord.finish
      ⟨State.seekError_stands timed (hs.stands.moving hr hm),
       hs.sending.follow ((times now _ _).trans (State.seekError_evolves _ n).follows)⟩
  | headsUnloaded n hu => exact engine (State.headsUnloaded_stands hs.stands hu) (State.headsUnloaded_evolves s n hu)
  | header n rev last h1 h2 h3 low =>
    exact engine (State.readHeader_stands hs.stands n rev last h1 h2 h3 low) (State.readHeader_evolves s _ _ _ _ _ _ _)
  | data n rev sync words timing low =>
    exact engine (State.readData_stands hs.stands n rev _ low) (State.readData_evolves s _ _ _ _)
  | window rev => exact engine (State.closeWindow_stands hs.stands rev) (State.closeWindow_evolves s _)
  | search => exact engine (State.endSearch_stands hs.stands) (State.endSearch_evolves s)

/-- Settles O57, by the stronger `JobsAccord`, which each of the things that a command can do keeps. -/
theorem stepKeepsJobs : Obligations.StepKeepsJobs := by
  intro s t hr hs ht
  obtain rfl | ⟨rest, h⟩ := step_acts ht
  · exact ⟨hs.held, hs.free, hs.busy, hs.taken, hs.channel, hs.capture, hs.ends, hs.once, hs.sending⟩
  · have accord := hs.jobsAccord hr
    exact (h.keepsJobs { hr with } (accord.outside rfl rfl rfl rfl rfl)).jobsStand

/-! ## The reset state -/

/-- The reset state is the state that power-on leads to, with the line idle. -/
theorem State.reset_eq_powerOn : State.reset = State.reset.powerOn 0 := by
  simp [State.powerOn, State.reset, Link.powerOn, Drive.powerOn]

theorem State.reset_lineStands : State.reset.LineStands where
  bounded := ⟨Nat.zero_le _, Nat.zero_le _⟩
  taken := .inl rfl
  busy := fun _ _ => rfl
  measured := by simp [State.GapMeasured, State.reset, Link.powerOn, Link.inProgress]
  sending := .idle rfl
  granted := fun _ n => requesting_notTracking _ n (by simp [State.drive, State.reset, Drive.powerOn])

theorem State.reset_repairStands : State.reset.RepairStands := by
  have free : ∀ i, State.reset.slab i = none := fun i => by simp [State.slab, State.reset]
  refine ⟨.nil, fun i => ?_, fun i => ?_, fun _ => rfl, fun i x hx => ?_⟩
  · simp [free, show State.reset.fifo = [] from rfl]
  · simp [free, show State.reset.search = none from rfl]
  · rw [free] at hx
    cases hx

/-- Settles O60: the tables are empty, the units UNDEFINED and the queues empty, as after power-on. -/
theorem resetStands : Obligations.ResetStands := by
  have same := State.reset_eq_powerOn
  exact ⟨same ▸ State.powerOn_inRange _ _, State.reset_lineStands, same ▸ (State.powerOn_jobsAccord _ _).jobsStand,
    same ▸ State.powerOn_mapsStand _ _, State.reset_repairStands⟩

end Sys2Proof.Machine
end

section
/-! ## What the drive operations make of a drive

Each operation that takes a unit from one state to another, in the terms of the statements. -/

namespace Sys2Proof.Machine

theorem State.modDrive_eq_setDrive (s : State) (n : UnitId) (f : Drive → Drive) :
    s.modDrive n f = s.setDrive n (f (s.drive n)) := rfl

theorem Drive.enter_unloading (d : Drive) :
    { d.enter .unloading with unloadLine := true, target := none, monitor := .cleared, deadRevs := 0 } = d.unloadBegun := by
  simp [Drive.enter, Drive.unloadBegun, DriveState.timed]

theorem State.beginUnload_eq (s : State) (n : UnitId) : s.beginUnload n = s.setDrive n (s.drive n).unloadBegun :=
  congrArg (s.setDrive n) (s.drive n).enter_unloading

theorem Drive.enter_recalibrating (d : Drive) (now : Nat) :
    { d.enter .recalibrating with offset := 0, motion := .restore (now + Config.restoreLimit) } = d.restoring now := by
  simp [Drive.enter, Drive.restoring, Drive.quieted, DriveState.timed, Config.restoreLimit]

theorem State.issueRestore_eq (s : State) (n : UnitId) :
    s.issueRestore n = s.setDrive n ((s.drive n).restoring s.clock) :=
  congrArg (s.setDrive n) ((s.drive n).enter_recalibrating s.clock)

theorem Drive.enter_seeking (d : Drive) (now : Nat) :
    { d.enter .seeking with offset := 0, motion := .seek (now + Config.seekLimit) } = d.seeking now := by
  simp [Drive.enter, Drive.seeking, Drive.quieted, DriveState.timed, Config.seekLimit]

theorem State.issueSeek_eq (s : State) (n : UnitId) : s.issueSeek n = s.setDrive n ((s.drive n).seeking s.clock) :=
  congrArg (s.setDrive n) ((s.drive n).enter_seeking s.clock)

theorem Drive.enter_settling (d : Drive) (count : Nat) :
    { d.enter .settling with settleCount := count } = d.settling count := by
  simp [Drive.enter, Drive.settling, Drive.quieted, DriveState.timed]

theorem Drive.enter_tracking (d : Drive) :
    { d.enter .tracking with seekErrors := 0, prepared := none, waiting := 0, passStrays := 0 } = d.tracked := by
  simp [Drive.enter, Drive.tracked, Drive.quieted, DriveState.timed]

theorem Drive.enter_speedFault (d : Drive) : d.enter .speedFault = { d.quieted with state := .speedFault } := by
  simp [Drive.enter, Drive.quieted, DriveState.timed]

/-- Entering IDLE, with whatever job is held (R10). -/
theorem Drive.enterIdle_eq (d : Drive) :
    d.enterIdle = { d.quieted with state := .idle, target := none, seekErrors := 0 } := by
  simp [Drive.enterIdle, Drive.enter, Drive.quieted, DriveState.timed]

theorem Drive.enterIdle_idled (d : Drive) (h : d.heldJob = none) : d.enterIdle = d.idled := by
  rw [Drive.enterIdle_eq]
  simp [Drive.idled, Drive.quieted, h]

/-! ### Requests that run at once -/

/-- A request that runs at once and leaves the link alone, with its answer. -/
theorem State.request_ran {s : State} (h : s.takesAtOnce) (kind : Byte) (k : Nat) (tag : Tag) (body : List Byte)
    (hk : kind.toNat = k) (h1 : 1 ≤ k ∧ k ≤ 0x1A) (hl : lengthOk k body = true) {r : Response}
    (hr : serveKnown k tag body s = r) (hw : r.state.link = s.link) :
    (Host.Outcome.next (s.request kind tag body) : Host.Outcome State Fault Refusal) =
      .next (r.state.answered kind tag r.status r.fields).finish :=
  congrArg _ (s.request_known kind k tag body h r hk h1 hl hr (by rw [hw]; exact h.notWaiting))

/-! ## DEFINE-DRIVE -/

theorem blocksDefine_iff (st : DriveState) : st.blocksDefine = true ↔ st ∈ [.seeking, .recalibrating, .unloading] := by
  cases st <;> simp [DriveState.blocksDefine]

/-- The checks of DEFINE-DRIVE in their order (R1). -/
theorem serveDefineDrive_eq (n : UnitId) (f : DriveFields) (s : State) :
    serveDefineDrive (driveBody f (unitByte n)) s =
      if (Descriptor.ofFields f).inRange = false then refuse .badField s
      else if (s.jobsOf n).isEmpty = false then refuse .driveBusy s
      else if s.mapConflict n (Descriptor.ofFields f) then refuse .conflict s
      else if (s.drive n).state.blocksDefine then refuse .wrongState s
      else accept [] (s.install n (Descriptor.ofFields f)) := by
  simp [serveDefineDrive, descriptorOf_driveBody, byteAt_driveBody, unitOf_unitByte]

/-- DEFINE-DRIVE, run at once with a known answer. -/
theorem exec_defineDrive {s : State} (h : s.takesAtOnce) (tag : Tag) (n : UnitId) (f : DriveFields) {r : Response}
    (hr : serveDefineDrive (driveBody f (unitByte n)) s = r) (hw : r.state.link = s.link) :
    exec (.defineDrive tag (unitByte n) f) s = .next (r.state.answered 0x02 tag r.status r.fields).finish :=
  State.request_ran h 0x02 2 tag _ rfl (by decide) (by simp [lengthOk, bodyLengths, driveBody, bits, length_beBytes]) hr hw

/-- A unit that is not RETRACTED starts afresh under its new descriptor (R2). -/
theorem State.install_afresh {s : State} {n : UnitId} (x : Descriptor) (hj : ¬ s.HasJob n)
    (hst : (s.drive n).state ≠ .retracted) :
    s.install n x = s.setDrive n
      { (s.drive n).afresh (if (s.drive n).ready then .idle else .notReady) (some (s.clock + 3 * x.period)) with
        descriptor := some x, deadRevs := 0, matchedSlots := 0, positioningSettle := 0 } := by
  unfold State.install State.idleIfReady
  rw [if_neg hst, State.modDrive_drive_self]
  cases hr : (s.drive n).ready with
  | false =>
    rw [if_neg (by simp [Drive.losePosition, Drive.forgetQuirks, hr]), if_neg (by simp)]
    refine congrArg (s.setDrive n) ?_
    simp [Drive.losePosition, Drive.enter, Drive.forgetQuirks, Drive.afresh, DriveState.timed]
  | true =>
    rw [if_pos (by simp [Drive.losePosition, Drive.forgetQuirks, Drive.enter, hr]), toIdle_none (s.modDrive n _) n hj,
      modDrive_modDrive, if_pos rfl]
    refine congrArg (s.setDrive n) ?_
    simp [Drive.losePosition, Drive.enter, Drive.enterIdle, Drive.forgetQuirks, Drive.afresh, DriveState.timed]

theorem State.install_retracted {s : State} {n : UnitId} (x : Descriptor) (hst : (s.drive n).state = .retracted) :
    s.install n x = s.setDrive n
      { s.drive n with descriptor := some x, deadRevs := 0, matchedSlots := 0, positioningSettle := 0 } := by
  unfold State.install
  rw [if_pos hst]
  rfl

/-- Settles O8: the chain of checks, and the drive that the accepted request leaves. -/
theorem defineDriveActs : Obligations.DefineDriveActs := by
  have accepted : ∀ (tag : Tag) (n : UnitId) (f : DriveFields) (s : State), s.takesAtOnce → LegalDriveFields f →
      ¬ s.HasJob n → ¬ s.MapForbids n f → (s.drive n).state ∉ [.seeking, .recalibrating, .unloading] →
      ∀ t, s.install n (Descriptor.ofFields f) = t → t.link = s.link →
        exec (.defineDrive tag (unitByte n) f) s = .next (t.answered 0x02 tag .ok []).finish := by
    intro tag n f s h hl hj hm hb t ht hw
    refine exec_defineDrive h tag n f (r := accept [] t) ?_ hw
    rw [serveDefineDrive_eq]
    simp [(legalDrive_iff f).2 hl, (jobsOf_isEmpty s n).2 hj, mapConflict_iff, hm, blocksDefine_iff, hb, ht]
  have installed : ∀ (n : UnitId) (f : DriveFields) (s : State), ¬ s.HasJob n →
      (s.install n (Descriptor.ofFields f)).link = s.link := by
    intro n f s hj
    by_cases hst : (s.drive n).state = .retracted
    · rw [State.install_retracted _ hst]; rfl
    · rw [State.install_afresh _ hj hst]; rfl
  refine ⟨fun tag n f s h => ⟨fun hl => ?_, fun hl hj => ?_, fun hl hj hm => ?_, fun hl hj hm hb => ?_, fun hl hj hm hb =>
    ⟨_, accepted tag n f s h hl hj hm hb _ rfl (installed n f s hj)⟩⟩, fun tag n f s h hl hj hm => ⟨fun hb => ?_, fun hb => ?_⟩⟩
  · refine exec_defineDrive h tag n f (r := refuse .badField s) ?_ rfl
    rw [serveDefineDrive_eq, if_pos (by simpa using mt (legalDrive_iff f).1 hl)]
  · refine exec_defineDrive h tag n f (r := refuse .driveBusy s) ?_ rfl
    have busy : (s.jobsOf n).isEmpty = false := by simpa using mt (jobsOf_isEmpty s n).1 (not_not.2 hj)
    rw [serveDefineDrive_eq, if_neg (by simp [(legalDrive_iff f).2 hl]), if_pos busy]
  · refine exec_defineDrive h tag n f (r := refuse .conflict s) ?_ rfl
    rw [serveDefineDrive_eq]
    simp [(legalDrive_iff f).2 hl, (jobsOf_isEmpty s n).2 hj, (mapConflict_iff s n f).2 hm]
  · refine exec_defineDrive h tag n f (r := refuse .wrongState s) ?_ rfl
    rw [serveDefineDrive_eq]
    simp [(legalDrive_iff f).2 hl, (jobsOf_isEmpty s n).2 hj, mapConflict_iff, hm, (blocksDefine_iff _).2 hb]
  · simp only [List.mem_cons, not_or] at hb
    exact accepted tag n f s h hl hj hm (by simp [hb]) _ (State.install_afresh _ hj hb.2.2.2.1) rfl
  · exact accepted tag n f s h hl hj hm (by simp [hb]) _ (State.install_retracted _ hb) rfl

/-! ## UNLOAD and RELOAD -/

theorem blocksUnload_iff (st : DriveState) : st.blocksUnload = true ↔ st ∈ [.undefined, .unloading, .retracted] := by
  cases st <;> simp [DriveState.blocksUnload]

theorem exec_unload {s : State} (h : s.takesAtOnce) (tag : Tag) (n : UnitId) {r : Response}
    (hr : serveUnload [unitByte n] s = r) (hw : r.state.link = s.link) :
    exec (.unload tag (unitByte n)) s = .next (r.state.answered 0x04 tag r.status r.fields).finish :=
  State.request_ran h 0x04 4 tag _ rfl (by decide) rfl hr hw

theorem serveUnload_eq (n : UnitId) (s : State) :
    serveUnload [unitByte n] s =
      if (s.drive n).state.blocksUnload then refuse .wrongState s
      else accept [] ((s.beginUnload n).endHeld n .aborted) := by
  simp [serveUnload, byteAt_cons_zero, unitOf_unitByte]

theorem exec_reload {s : State} (h : s.takesAtOnce) (tag : Tag) (n : UnitId) {r : Response}
    (hr : serveReload [unitByte n] s = r) (hw : r.state.link = s.link) :
    exec (.reload tag (unitByte n)) s = .next (r.state.answered 0x05 tag r.status r.fields).finish :=
  State.request_ran h 0x05 5 tag _ rfl (by decide) rfl hr hw

theorem serveReload_eq (n : UnitId) (s : State) :
    serveReload [unitByte n] s =
      if (s.drive n).state = .retracted then accept [] (s.reload n) else refuse .wrongState s := by
  simp [serveReload, byteAt_cons_zero, unitOf_unitByte, State.reload]

theorem State.endHeld_none {s : State} {n : UnitId} (h : (s.drive n).heldJob = none) (cause : EndCause) :
    s.endHeld n cause = s := by
  unfold State.endHeld
  rw [h]

/-- The end of the job that a unit holds (R51). -/
theorem State.endHeld_ended {s : State} {n : UnitId} {j : JobIx} {x : Job} (hh : (s.drive n).heldJob = some j)
    (hx : s.job j = some x) (hu : x.unit = n) (hd : x.state ≠ .draining) (cause : EndCause) :
    (∃ y, (s.endHeld n cause).job j = some y ∧ y.unit = x.unit ∧ y.state = .draining ∧ y.endCause = some cause ∧
        y.counters = x.counters ∧ y.budget = x.budget) ∧
      (s.endHeld n cause).drive n = (s.drive n).dropJob ∧ (s.endHeld n cause).channel.state.holds n = false ∧
      SameButJobs s (s.endHeld n cause) := by
  unfold State.endHeld
  rw [hh]
  obtain ⟨hy, -, hend⟩ := endJob_end s j x cause hx hd
  obtain ⟨hdrop, hfree⟩ := hend (by rw [hu]; exact hh)
  exact ⟨hy, hu ▸ hdrop, hu ▸ hfree, SameButJobs.endJob s j cause⟩

/-- Settles O9. -/
theorem unloadAndReloadAct : Obligations.UnloadAndReloadAct := by
  refine ⟨fun tag n s h => ⟨fun hst hh => ?_, fun j x hst hh hx hu hd => ?_, fun hst => ?_⟩,
    fun tag n s h => ⟨fun d hst hdesc hr => ?_, fun d hst hdesc hr hj => ?_, fun hst => ?_⟩⟩
  · refine exec_unload h tag n (r := accept [] (s.setDrive n (s.drive n).unloadBegun)) ?_ rfl
    rw [serveUnload_eq, if_neg (by rw [blocksUnload_iff]; exact hst), State.beginUnload_eq,
      State.endHeld_none (by rw [drive_setDrive_same]; exact hh)]
  · obtain ⟨⟨y, hy, -, hyd, hyc, -⟩, hdrive, hfree, same⟩ :=
      State.endHeld_ended (s := s.setDrive n (s.drive n).unloadBegun) (n := n) (j := j)
        (by rw [drive_setDrive_same]; exact hh) hx hu hd .aborted
    refine ⟨_, y, exec_unload h tag n
      (r := accept [] ((s.setDrive n (s.drive n).unloadBegun).endHeld n .aborted)) (by
      rw [serveUnload_eq, if_neg (by rw [blocksUnload_iff]; exact hst), State.beginUnload_eq]) same.link, ?_, hy, hyd, hyc,
      hfree⟩
    exact hdrive.trans (by rw [drive_setDrive_same]; rfl)
  · refine exec_unload h tag n (r := refuse .wrongState s) ?_ rfl
    rw [serveUnload_eq, if_pos ((blocksUnload_iff _).2 hst)]
  · refine exec_reload h tag n (r := accept [] (s.setDrive n _)) ?_ rfl
    rw [serveReload_eq, if_pos hst]
    unfold State.reload
    dsimp only
    rw [if_neg (by simp [hr])]
    refine congrArg (fun d => accept [] (s.setDrive n d)) ?_
    simp [Drive.enter, DriveState.timed, Drive.timerFrom, hdesc]
  · refine exec_reload h tag n (r := accept [] (s.setDrive n _)) ?_ rfl
    rw [serveReload_eq, if_pos hst]
    unfold State.reload State.readyInNotReady
    dsimp only
    rw [if_pos hr, modDrive_modDrive, toIdle_none (s.modDrive n _) n hj, modDrive_modDrive]
    refine congrArg (fun d => accept [] (s.setDrive n d)) ?_
    simp [Drive.enter, Drive.enterIdle, DriveState.timed, Drive.timerFrom, Drive.afresh, hdesc]
  · refine exec_reload h tag n (r := refuse .wrongState s) ?_ rfl
    rw [serveReload_eq, if_neg hst]

end Sys2Proof.Machine
end

section
/-! ## Matching and combining quirks (R125, R126), and the pass that is prepared (R61, R62) -/

namespace Sys2Proof.Machine

theorem slotSet_foldl (ks : List (Fin 16)) (set : BitVec 16) (k : Fin 16) :
    (ks.foldl (fun set k => set ||| BitVec.twoPow 16 k.val) set).getLsbD k.val = true ↔
      set.getLsbD k.val = true ∨ k ∈ ks := by
  induction ks generalizing set with
  | nil => simp
  | cons m ks ih =>
    have same : k.val = m.val ↔ k = m := Fin.ext_iff.symm
    rw [List.foldl_cons, ih, BitVec.getLsbD_or, BitVec.getLsbD_twoPow]
    simp [same, or_assoc, eq_comm (a := m.val)]

theorem slotSet_getLsbD (ks : List (Fin 16)) (k : Fin 16) : (slotSet ks).getLsbD k.val = true ↔ k ∈ ks := by
  unfold slotSet
  rw [slotSet_foldl]
  simp

theorem OffsetCondition.holds_iff (c : OffsetCondition) (x : Int) :
    c.holds x = true ↔ (c = .positive → 0 < x) ∧ (c = .negative → x < 0) ∧ (c = .nonzero → x ≠ 0) := by
  cases c <;> simp [OffsetCondition.holds]

theorem Quirk.matches_iff (q : Quirk) (model cylinder head : Nat) (offset : Int) :
    q.matches model cylinder head offset = true ↔ q.model = model ∧
      (∀ set, q.heads = some set → set.getLsbD head = true) ∧
      (∀ low high, q.cylinders = some (low, high) → low ≤ cylinder ∧ cylinder ≤ high) ∧
      (q.condition = some .positive → 0 < offset) ∧ (q.condition = some .negative → offset < 0) ∧
      (q.condition = some .nonzero → offset ≠ 0) := by
  obtain ⟨code, heads, cylinders, condition, action⟩ := q
  simp only [Quirk.matches, Bool.and_eq_true, beq_iff_eq, and_assoc]
  refine and_congr Iff.rfl (and_congr ?_ (and_congr ?_ ?_))
  · cases heads <;> simp
  · cases cylinders with
    | none => simp
    | some range => obtain ⟨low, high⟩ := range; simp
  · cases condition with
    | none => simp
    | some c => simp only [OffsetCondition.holds_iff, Option.some.injEq]

/-- The slots evaluated are those that match (R125). -/
theorem State.mem_evaluate (s : State) (n : UnitId) (cylinder head : Nat) (offset : Int) (k : Fin 16) :
    k ∈ s.evaluate n cylinder head offset ↔ ∃ q, s.SlotMatches n cylinder head offset k q := by
  unfold State.evaluate
  cases hd : (s.drive n).descriptor with
  | none =>
    simp only [List.not_mem_nil, false_iff]
    rintro ⟨q, h⟩
    obtain ⟨d, hd', -⟩ := h.model
    rw [hd] at hd'
    cases hd'
  | some d =>
    simp only [State.matchingSlots, List.mem_filter, List.mem_finRange, true_and]
    cases hq : s.quirks[k] with
    | none =>
      simp only [Bool.false_eq_true, false_iff]
      rintro ⟨q, h⟩
      have := h.entry
      rw [hq] at this
      cases this
    | some q =>
      simp only [Quirk.matches_iff]
      constructor
      · rintro ⟨hm, hh, hc, hp, hn, hz⟩
        exact ⟨q, hq, ⟨d, hd, hm⟩, hh, hc, hp, hn, hz⟩
      · rintro ⟨q', h⟩
        have := h.entry
        rw [hq] at this
        cases this
        obtain ⟨d', hd', hm⟩ := h.model
        rw [hd] at hd'
        cases hd'
        exact ⟨hm, h.heads, h.cylinders, h.positive, h.negative, h.nonzero⟩

/-! ### Combining -/

theorem LeastWith.insert {P : Nat → Prop} {o : Option Nat} (h : LeastWith P o) (x : Nat) :
    LeastWith (fun y => P y ∨ y = x) (leastOf x o) := by
  cases o with
  | none => exact ⟨.inr rfl, fun y hy => hy.elim (fun hy => absurd hy (h y)) fun e => e ▸ le_refl _⟩
  | some z =>
    refine ⟨?_, fun y hy => ?_⟩
    · rcases Nat.le_total x z with hxz | hxz
      · rw [min_eq_left hxz]; exact .inr rfl
      · rw [min_eq_right hxz]; exact .inl h.1
    · obtain hy | rfl := hy
      · exact (min_le_right _ _).trans (h.2 y hy)
      · exact min_le_left _ _

theorem GreatestWith.insert {P : Nat → Prop} {o : Option Nat} (h : GreatestWith P o) (x : Nat) :
    GreatestWith (fun y => P y ∨ y = x) (greatestOf x o) := by
  cases o with
  | none => exact ⟨.inr rfl, fun y hy => hy.elim (fun hy => absurd hy (h y)) fun e => e ▸ le_refl _⟩
  | some z =>
    refine ⟨?_, fun y hy => ?_⟩
    · rcases Nat.le_total x z with hxz | hxz
      · rw [max_eq_right hxz]; exact .inl h.1
      · rw [max_eq_left hxz]; exact .inr rfl
    · obtain hy | rfl := hy
      · exact (h.2 y hy).trans (le_max_right _ _)
      · exact le_max_left _ _

/-- Actions are those of a set, combined toward the cautious side (R126). -/
structure Actions.Of (a : Actions) (P : QuirkAction → Prop) : Prop where
  clampOffset : LeastWith (fun c => P (.clampOffset c)) a.clampOffset
  extraSettle : GreatestWith (fun e => P (.extraSettle e)) a.extraSettle
  headerMask : LeastWith (fun m => P (.headerMask m)) a.headerMask
  weightCap : LeastWith (fun w => P (.weightCap w)) a.weightCap
  noBlind : a.noBlind = true ↔ P .noBlind
  noVote : a.noVote = true ↔ P .noVote

theorem Actions.Of.congr {a : Actions} {P Q : QuirkAction → Prop} (h : a.Of P) (e : ∀ q, P q ↔ Q q) : a.Of Q := by
  rw [show Q = P from funext fun q => propext (e q).symm]
  exact h

theorem Actions.none_of : Actions.none.Of (fun _ => False) :=
  ⟨fun _ => id, fun _ => id, fun _ => id, fun _ => id, by simp [Actions.none], by simp [Actions.none]⟩

theorem Actions.Of.combine {a : Actions} {P : QuirkAction → Prop} (h : a.Of P) (q : QuirkAction) :
    (a.combine q).Of (fun b => P b ∨ b = q) := by
  obtain ⟨hclamp, hsettle, hmask, hcap, hblind, hvote⟩ := h
  cases q with
  | clampOffset c => have := hclamp.insert c; constructor <;> simp [Actions.combine, *]
  | extraSettle e => have := hsettle.insert e; constructor <;> simp [Actions.combine, *]
  | headerMask m => have := hmask.insert m; constructor <;> simp [Actions.combine, *]
  | weightCap w => have := hcap.insert w; constructor <;> simp [Actions.combine, *]
  | noBlind => constructor <;> simp [Actions.combine, *]
  | noVote => constructor <;> simp [Actions.combine, *]

/-- The combined actions of slots are those that their entries carry. -/
theorem State.combined_of (s : State) (ks : List (Fin 16)) :
    (s.combined ks).Of (fun b => ∃ k ∈ ks, ∃ q, s.quirks[k] = some q ∧ q.action = b) := by
  have folded : ∀ (ks : List (Fin 16)) (a : Actions) (P : QuirkAction → Prop), a.Of P →
      (ks.foldl (fun a k => match s.quirks[k] with | some q => a.combine q.action | none => a) a).Of
        (fun b => P b ∨ ∃ k ∈ ks, ∃ q, s.quirks[k] = some q ∧ q.action = b) := by
    intro ks
    induction ks with
    | nil => exact fun a P h => h.congr fun b => by simp
    | cons k ks ih =>
      intro a P h
      rw [List.foldl_cons]
      cases hq : s.quirks[k] with
      | none =>
        refine (ih a P h).congr fun b => ?_
        simp only [List.mem_cons, exists_eq_or_imp, hq, reduceCtorEq, false_and, exists_false, false_or]
      | some q =>
        refine (ih _ _ (h.combine q.action)).congr fun b => ?_
        simp only [List.mem_cons, exists_eq_or_imp, hq, Option.some.injEq, exists_eq_left', @eq_comm _ b, or_assoc]
  exact (folded ks .none _ Actions.none_of).congr fun b => by simp

/-- The evaluation of a track at an offset gives the slots that match and their combined actions (R125, R126). -/
theorem State.evaluate_combines (s : State) (n : UnitId) (cylinder head : Nat) (offset : Int) :
    s.Combines n cylinder head offset (slotSet (s.evaluate n cylinder head offset))
      (s.combined (s.evaluate n cylinder head offset)) := by
  have of := (s.combined_of (s.evaluate n cylinder head offset)).congr (Q := s.Calls n cylinder head offset) fun b => by
    unfold State.Calls
    constructor
    · rintro ⟨k, hk, q, hq, rfl⟩
      obtain ⟨q', h⟩ := (s.mem_evaluate n cylinder head offset k).1 hk
      have e := h.entry
      rw [hq] at e
      cases e
      exact ⟨k, q, h, rfl⟩
    · rintro ⟨k, q, h, rfl⟩
      exact ⟨k, (s.mem_evaluate n cylinder head offset k).2 ⟨q, h⟩, q, h.entry, rfl⟩
  exact ⟨fun k => by rw [slotSet_getLsbD, State.mem_evaluate], of.clampOffset, of.extraSettle, of.headerMask, of.weightCap,
    of.noBlind, of.noVote⟩

/-! ### What an evaluation depends on -/

theorem State.evaluate_congr {s t : State} (hq : t.quirks = s.quirks) {n : UnitId}
    (hd : (t.drive n).descriptor = (s.drive n).descriptor) (cylinder head : Nat) (offset : Int) :
    t.evaluate n cylinder head offset = s.evaluate n cylinder head offset := by
  unfold State.evaluate State.matchingSlots
  rw [hd, hq]

theorem State.combined_congr {s t : State} (hq : t.quirks = s.quirks) (ks : List (Fin 16)) :
    t.combined ks = s.combined ks := by
  unfold State.combined
  rw [hq]

/-- A positioning evaluation for a job, by the slots and the actions of its track at offset 0 (R128). -/
theorem State.evaluatePositioning_eq (s : State) (n : UnitId) {j : JobIx} {x : Job} (hx : s.job j = some x) :
    s.evaluatePositioning n j = s.setDrive n ((s.drive n).evaluated (slotSet (s.evaluate n x.cylinder x.head 0))
      (s.combined (s.evaluate n x.cylinder x.head 0))) := by
  unfold State.evaluatePositioning
  rw [hx]
  rfl

/-- A positioning evaluation of a unit whose quirks and descriptor are those of an earlier state. -/
theorem State.evaluatePositioning_combines {s t : State} {n : UnitId} {j : JobIx} {x : Job} (hx : t.job j = some x)
    (hq : t.quirks = s.quirks) (hd : (t.drive n).descriptor = (s.drive n).descriptor) :
    ∃ slots a, s.Combines n x.cylinder x.head 0 slots a ∧
      t.evaluatePositioning n j = t.setDrive n ((t.drive n).evaluated slots a) :=
  ⟨_, _, s.evaluate_combines n x.cylinder x.head 0, by
    rw [State.evaluatePositioning_eq t n hx, State.evaluate_congr hq hd, State.combined_congr hq]⟩

/-! ### The pass that is prepared -/

theorem clampTo_eq (limit : Nat) (x : Int) : clampTo limit x = max (-(limit : Int)) (min limit x) := by
  unfold clampTo
  split
  · omega
  · split <;> omega

/-- The pass that a pass start prepares, in the terms of R61 and R62. -/
theorem State.preparePass_prepared (s : State) (n : UnitId) (x : Job) (hp : (s.unitProfiles n).active.passes ≠ []) :
    s.PassPrepared n x (s.preparePass n x) := by
  have hpos : 0 < (s.active n).passes.length := List.length_pos_iff.2 hp
  have hlt : x.passCount % (s.active n).passes.length < (s.active n).passes.length := Nat.mod_lt _ hpos
  refine ⟨rfl, ?_, s.evaluate_combines n x.cylinder x.head _, fun d hd hc => ?_, fun d c hd hc => ?_⟩
  · show (s.active n).passes[x.passCount % (s.active n).passes.length]? = some ((s.active n).passAt x.passCount)
    simp [Profile.passAt, List.getD, List.getElem?_eq_getElem hlt]
  · simp only [State.preparePass] at hc ⊢
    rw [hc, hd]
    exact clampTo_eq _ _
  · simp only [State.preparePass] at hc ⊢
    rw [hc, hd]
    simp only [clampOffset, clampTo_eq]
    rfl

theorem State.preparePass_congr {s t : State} {n : UnitId} (hp : t.profiles = s.profiles) (hq : t.quirks = s.quirks)
    (hd : (t.drive n).descriptor = (s.drive n).descriptor) {x y : Job} (hc : y.passCount = x.passCount)
    (hcyl : y.cylinder = x.cylinder) (hh : y.head = x.head) : t.preparePass n y = s.preparePass n x := by
  have active : t.active n = s.active n := by simp only [State.active, State.unitProfiles, hp]
  unfold State.preparePass
  dsimp only
  rw [active, hc, hcyl, hh, State.evaluate_congr hq hd, State.combined_congr hq, hd]

end Sys2Proof.Machine
end

section
/-! ## Positioning, tracking and hand-over in the terms of the statements -/

namespace Sys2Proof.Machine

/-- The end of a job that its unit holds, after which the unit enters IDLE with no job to take (R15, R51). -/
theorem State.endJob_toIdle {s : State} {n : UnitId} {j : JobIx} {x : Job} (hh : (s.drive n).heldJob = some j)
    (hx : s.job j = some x) (hu : x.unit = n) (hd : x.state ≠ .draining)
    (hq : ∀ i z, s.job i = some z → z.unit = n → z.state = .queued → i = j) (cause : EndCause) :
    (s.endJob j cause).toIdle n = (s.endJob j cause).modDrive n Drive.enterIdle ∧
      ((s.endJob j cause).toIdle n).drive n = (s.drive n).idled := by
  obtain ⟨-, -, hend⟩ := endJob_end s j x cause hx hd
  have idle : (s.endJob j cause).toIdle n = (s.endJob j cause).modDrive n Drive.enterIdle :=
    toIdle_noQueued _ n fun i z hz hzu hzq => by
      obtain ⟨hne, hz⟩ | ⟨-, hzd⟩ := State.endJob_job hz
      · exact hne (hq i z hz hzu hzq)
      · rw [hzd] at hzq; cases hzq
  refine ⟨idle, ?_⟩
  rw [idle, modDrive_drive, ← hu, (hend (hu ▸ hh)).1, Drive.enterIdle_idled _ rfl]
  rfl

theorem State.endJob_ended {s : State} {j : JobIx} {x : Job} (hx : s.job j = some x) (hd : x.state ≠ .draining)
    (cause : EndCause) : (s.endJob j cause).Ended j cause := by
  obtain ⟨⟨y, hy, -, hyd, hyc, -⟩, -⟩ := endJob_end s j x cause hx hd
  exact ⟨y, hy, hyd, hyc⟩

/-! ### Entering TRACKING -/

theorem State.modJob_eq {s : State} {j : JobIx} {x : Job} (hx : s.job j = some x) (f : Job → Job) :
    s.modJob j f = s.setJob j (some (f x)) := by
  unfold State.modJob
  rw [hx]

/-- A pass start below the pass limit prepares the pass (R60 to R62). -/
theorem State.passStartCore_started {s : State} {n : UnitId} {j : JobIx} {x : Job} (hh : (s.drive n).heldJob = some j)
    (hx : s.job j = some x) (hl : x.passCount < (s.unitProfiles n).active.passLimit) :
    s.passStartCore n = (s.setDrive n ((s.drive n).started (s.preparePass n x)), false) := by
  have below : s.exhausted n x = false := decide_eq_false (Nat.not_le.2 hl)
  unfold State.passStartCore
  simp only [hh, hx, below]
  rfl

theorem State.passStartCore_exhausted {s : State} {n : UnitId} {j : JobIx} {x : Job} (hh : (s.drive n).heldJob = some j)
    (hx : s.job j = some x) (hl : (s.unitProfiles n).active.passLimit ≤ x.passCount) :
    s.passStartCore n = (s.endJob j .passesExhausted, true) := by
  have reached : s.exhausted n x = true := decide_eq_true hl
  unfold State.passStartCore
  simp only [hh, hx, reached]
  rfl

/-- The unit and its job as TRACKING is entered, before the pass start (R14, R48, R59). -/
theorem State.enterTracking_eq {s : State} {n : UnitId} {j : JobIx} {x : Job} (hh : (s.drive n).heldJob = some j)
    (hx : s.job j = some x) :
    s.enterTracking n = ((s.setJob j (some x.startReading)).setDrive n (s.drive n).tracked).passStartCore n := by
  unfold State.enterTracking
  simp only [hh]
  rw [State.modDrive_eq_setDrive, Drive.enter_tracking, State.modJob_eq (s := s.setDrive n _) hx]
  rfl

/-- The unit enters TRACKING and starts the pass that it prepares (R14, R48, R59 to R62). -/
theorem State.enterTracking_prepares {s : State} {n : UnitId} {d : Drive} {j : JobIx} {y : Job} (hh : d.heldJob = some j)
    (hy : s.job j = some y) (hd : d.descriptor = (s.drive n).descriptor)
    (hl : y.passCount < (s.unitProfiles n).active.passLimit) :
    (s.setDrive n d).enterTracking n =
      ((s.setJob j (some y.startReading)).setDrive n (d.tracked.started (s.preparePass n y)), false) := by
  have same : (((s.setDrive n d).setJob j (some y.startReading)).setDrive n d.tracked).preparePass n y.startReading =
      s.preparePass n y :=
    State.preparePass_congr (s := s) (t := ((s.setDrive n d).setJob j (some y.startReading)).setDrive n d.tracked)
      (x := y) (y := y.startReading) rfl rfl (by rw [drive_setDrive_same]; exact hd) rfl rfl rfl
  rw [State.enterTracking_eq (s := s.setDrive n d) (x := y) (by rw [drive_setDrive_same]; exact hh) hy, drive_setDrive_same,
    State.passStartCore_started (s := ((s.setDrive n d).setJob j (some y.startReading)).setDrive n d.tracked) (j := j)
      (x := y.startReading) (by rw [drive_setDrive_same]; exact hh) (by rw [State.setDrive_job, job_setJob_same]) hl,
    drive_setDrive_same, setDrive_setDrive, same]
  exact congrArg (·, false) (setDrive_setDrive (s.setJob j (some y.startReading)) n d _)

theorem State.settleFor_eq {s : State} (n : UnitId) {count : Nat} (h : count ≠ 0) :
    s.settleFor n count = (s.setDrive n ((s.drive n).settling count), false) := by
  unfold State.settleFor
  rw [if_neg h, State.modDrive_eq_setDrive, Drive.enter_settling]

theorem State.settle_eq {s : State} (n : UnitId) {count : Nat} (h : count ≠ 0) :
    s.settle n count = s.setDrive n ((s.drive n).settling count) := by
  unfold State.settle
  rw [State.settleFor_eq n h]
  rfl

/-! ### Selection and hand-over -/

/-- A QUEUED job handed over, and its unit's quirks evaluated as in a state with the same quirks and descriptor (R48, R128). -/
theorem State.handOver_eq {s u : State} {n : UnitId} {j : JobIx} {x : Job} (hx : s.job j = some x)
    (hq : x.state = .queued) (hquirks : s.quirks = u.quirks) (hd : (s.drive n).descriptor = (u.drive n).descriptor)
    (dir : Direction) :
    ∃ slots a, u.Combines n x.cylinder x.head 0 slots a ∧
      s.handOver n j dir = ((s.setDirection n dir).setJob j (some { x with state := .positioning })).setDrive n
        (({ s.drive n with heldJob := some j, target := some x.cylinder } : Drive).evaluated slots a) := by
  have positioned : (s.setDirection n dir).modJob j Job.startPositioning =
      (s.setDirection n dir).setJob j (some { x with state := .positioning }) := by
    rw [State.modJob_eq (s := s.setDirection n dir) hx]
    simp [Job.startPositioning, hq]
  have target : s.cylinderOf j = x.cylinder := by simp [State.cylinderOf, hx]
  unfold State.handOver
  rw [positioned, target]
  dsimp only
  obtain ⟨slots, a, hc, he⟩ := State.evaluatePositioning_combines (s := u) (n := n) (j := j)
    (t := ((s.setDirection n dir).setJob j (some { x with state := .positioning })).modDrive n
      (fun d => { d with heldJob := some j, target := some x.cylinder })) (x := { x with state := .positioning })
    (by rw [State.modDrive_job, job_setJob_same]) hquirks (by rw [modDrive_drive]; exact hd)
  refine ⟨slots, a, hc, ?_⟩
  rw [he, modDrive_drive, State.modDrive_eq_setDrive, setDrive_setDrive]
  rfl

theorem State.leaveIdle_lost {s : State} {n : UnitId} (h : (s.drive n).cylinder = none) :
    s.leaveIdle n = (s.setDrive n ((s.drive n).restoring s.clock), false) := by
  unfold State.leaveIdle
  simp only [h, State.issueRestore_eq]

theorem State.leaveIdle_away {s : State} {n : UnitId} {at_ : Nat} (h : (s.drive n).cylinder = some at_)
    (ht : (s.drive n).target ≠ some at_) : s.leaveIdle n = (s.setDrive n ((s.drive n).seeking s.clock), false) := by
  unfold State.leaveIdle
  simp only [h, if_neg (Ne.symm ht), State.issueSeek_eq]

theorem State.leaveIdle_there {s : State} {n : UnitId} {at_ : Nat} (h : (s.drive n).cylinder = some at_)
    (ht : (s.drive n).target = some at_) : s.leaveIdle n = s.settleFor n (s.drive n).positioningSettle := by
  unfold State.leaveIdle
  simp only [h, ht, if_true]

/-- Selection whose hand-over leaves IDLE with the job (R46, R48). -/
theorem State.runSelection_taken {s t : State} {n : UnitId} {j : JobIx} {dir : Direction} (hi : (s.drive n).state = .idle)
    (hsel : s.select n = some (j, dir)) (hl : (s.handOver n j dir).leaveIdle n = (t, false)) :
    s.runSelection n = t := by
  unfold State.runSelection
  rw [if_pos hi]
  unfold State.selection
  simp only [hsel, hl]

/-! ## The index timeout and the heads -/

theorem ready_timed {st : DriveState} (h : st.Ready) : st.timed = true := measures_timed st h

theorem exec_indexTimeout {s : State} {n : UnitId} {limit : Nat} (hl : (s.drive n).indexTimer = some limit)
    (ht : (s.drive n).state.timed = true) : exec (.indexTimeout n) s = .next (s.indexTimeout n limit).finish := by
  show execIndexTimeout n s = _
  unfold execIndexTimeout
  simp only [hl, ht, if_true]

/-- The state in which an index timeout raises its flag (R8). -/
theorem State.indexMarked_eq (s : State) (n : UnitId) :
    s.indexMarked n = (s.raise (4 * n.val)).setDrive n { s.drive n with indexTimer := none, indexLost := true } := rfl

/-- The index timeout of a ready unit begins an unload (R17). -/
theorem State.indexTimeout_ready {s : State} {n : UnitId} (limit : Nat) (hr : (s.drive n).state.Ready) :
    s.indexTimeout n limit = ((({ s with clock := max s.clock limit } : State).raise (4 * n.val)).setDrive n
      { (s.drive n).unloadBegun with indexLost := true }).endHeld n .driveRetracted := by
  rw [State.indexTimeout_eq, if_pos ((measures_iff _).2 hr), State.beginUnload_eq, State.indexMarked_eq, drive_setDrive_same,
    setDrive_setDrive]
  rfl

/-- Settles O32. -/
theorem spindleLossUnloads : Obligations.SpindleLossUnloads := by
  intro n s
  refine ⟨fun limit hl => ⟨fun hst => ?_, fun hr hh => ?_, fun j x hr hh hx hu hd => ?_⟩, fun hl => ?_, fun hst => ?_,
    fun hst => ?_⟩
  · rw [exec_indexTimeout hl (by rw [hst]; rfl), State.indexTimeout_eq, if_neg (by rw [hst]; decide), State.indexMarked_eq]
    rfl
  · rw [exec_indexTimeout hl (ready_timed hr), State.indexTimeout_ready limit hr,
      State.endHeld_none (by rw [drive_setDrive_same]; exact hh)]
  · obtain ⟨⟨y, hy, -, hyd, hyc, -⟩, hdrive, hfree, same⟩ := State.endHeld_ended
      (s := (({ s with clock := max s.clock limit } : State).raise (4 * n.val)).setDrive n
        { (s.drive n).unloadBegun with indexLost := true }) (n := n) (j := j)
      (by rw [drive_setDrive_same]; exact hh) hx hu hd .driveRetracted
    refine ⟨_, by rw [exec_indexTimeout hl (ready_timed hr), State.indexTimeout_ready limit hr], ?_, ⟨y, hy, hyd, hyc⟩, hfree,
      same.flags, same.clock⟩
    exact hdrive.trans (by rw [drive_setDrive_same]; rfl)
  · show execIndexTimeout n s = _
    unfold execIndexTimeout
    rw [hl]
  · show execHeadsUnloaded n s = _
    unfold execHeadsUnloaded
    rw [if_pos hst]
    refine congrArg (fun d => Host.Outcome.next (State.finish ((s.raise (4 * n.val + 2)).setDrive n d))) ?_
    simp [Drive.enter, Drive.quieted, DriveState.timed]
  · show execHeadsUnloaded n s = _
    unfold execHeadsUnloaded
    rw [if_neg hst]

/-! ## The ready line -/

/-- A NOT_READY unit whose ready line rises enters IDLE with its position lost (R9, R10). -/
theorem Drive.afresh_of_rise (d : Drive) (timer : Option Nat) :
    ({ d with ready := true, cylinder := none, monitor := .cleared, indexTimer := timer } : Drive).enterIdle =
      { d.afresh .idle timer with ready := true, offset := d.offset } := by
  simp [Drive.enterIdle, Drive.enter, Drive.afresh, DriveState.timed]

theorem State.readyRise_eq {s : State} {n : UnitId} (hst : (s.drive n).state = .notReady) :
    s.readyRise n = (s.setDrive n
      { (s.drive n).afresh .idle ((s.drive n).descriptor.map (fun x => s.clock + 3 * x.period)) with
        ready := true, offset := (s.drive n).offset }).runSelection n := by
  unfold State.readyRise State.readyInNotReady State.toIdle
  dsimp only
  rw [if_pos hst, modDrive_modDrive, modDrive_modDrive]
  exact congrArg (fun d => (s.setDrive n d).runSelection n) ((s.drive n).afresh_of_rise _)

theorem State.readyFall_eq {s : State} {n : UnitId} (hr : (s.drive n).state.Ready) :
    s.readyFall n = (s.setDrive n
      { (s.drive n).afresh .notReady (s.drive n).indexTimer with
        ready := false, seekErrors := (s.drive n).seekErrors }).endHeld n .driveLost := by
  unfold State.readyFall
  dsimp only
  rw [if_pos ((measures_iff _).2 hr), modDrive_modDrive]
  refine congrArg (fun d => (s.setDrive n d).endHeld n .driveLost) ?_
  simp [Drive.losePosition, Drive.enter, Drive.afresh, DriveState.timed]

/-- A unit in IDLE at an unknown cylinder takes the job that selection chooses, and restores for it. -/
theorem State.runSelection_restores {s u : State} {n : UnitId} (hi : (s.drive n).state = .idle)
    (hc : (s.drive n).cylinder = none) (hq : s.HasQueued n) (hquirks : s.quirks = u.quirks)
    (hd : (s.drive n).descriptor = (u.drive n).descriptor) :
    ∃ j dir x slots a, s.select n = some (j, dir) ∧ s.QueuedIn n x.cls j x ∧ u.Combines n x.cylinder x.head 0 slots a ∧
      s.runSelection n = ((s.setDirection n dir).setJob j (some { x with state := .positioning })).setDrive n
        ((({ s.drive n with heldJob := some j, target := some x.cylinder } : Drive).evaluated slots a).restoring s.clock) := by
  cases hsel : s.select n with
  | none => exact absurd hq (State.select_eq_none hsel)
  | some r =>
    obtain ⟨j, dir⟩ := r
    obtain ⟨x, hx, hu, hst⟩ := select_queued s n j dir hsel
    obtain ⟨slots, a, hcomb, hover⟩ := State.handOver_eq hx hst hquirks hd dir
    refine ⟨j, dir, x, slots, a, rfl, ⟨hx, hu, hst, rfl⟩, hcomb, State.runSelection_taken hi hsel ?_⟩
    rw [hover, State.leaveIdle_lost (by rw [drive_setDrive_same]; exact hc), drive_setDrive_same, setDrive_setDrive]
    rfl

/-- Settles O33. -/
theorem readyLineFollowed : Obligations.ReadyLineFollowed := by
  intro n s
  refine ⟨fun d hst hd => ⟨fun hq => ?_, fun hq => ?_⟩, fun hst => ?_, fun hr hh => ?_, fun j x hr hh hx hu hne => ?_,
    fun hr => ?_⟩
  · show Host.Outcome.next (s.readyRise n).finish = _
    rw [State.readyRise_eq hst, ← hd, runSelection_noQueued (s.setDrive n d) n (not_queued_of_not_hasQueued s n hq)]
  · obtain ⟨j, dir, x, slots, a, hsel, hqueued, hcomb, htaken⟩ := State.runSelection_restores (s := s.setDrive n d) (u := s)
      (n := n) (by rw [drive_setDrive_same, hd]; rfl) (by rw [drive_setDrive_same, hd]; rfl) hq rfl
      (by rw [drive_setDrive_same, hd]; rfl)
    refine ⟨j, dir, x, slots, a, hsel, hqueued, hcomb, ?_⟩
    show Host.Outcome.next (s.readyRise n).finish = _
    rw [State.readyRise_eq hst, ← hd, htaken, drive_setDrive_same]
    refine congrArg (fun t => Host.Outcome.next (State.finish t)) ?_
    exact setDrive_setDrive ((s.setDirection n dir).setJob j (some { x with state := .positioning })) n d _
  · show Host.Outcome.next (s.readyRise n).finish = _
    unfold State.readyRise
    dsimp only
    rw [if_neg hst]
    rfl
  · show Host.Outcome.next (s.readyFall n).finish = _
    rw [State.readyFall_eq hr, State.endHeld_none (by rw [drive_setDrive_same]; exact hh)]
  · obtain ⟨⟨y, hy, -, hyd, hyc, -⟩, hdrive, hfree, -⟩ := State.endHeld_ended
      (s := s.setDrive n { (s.drive n).afresh .notReady (s.drive n).indexTimer with
        ready := false, seekErrors := (s.drive n).seekErrors }) (n := n) (j := j)
      (by rw [drive_setDrive_same]; exact hh) hx hu hne .driveLost
    refine ⟨_, congrArg (fun t => Host.Outcome.next (State.finish t)) (State.readyFall_eq hr), ?_, ⟨y, hy, hyd, hyc⟩, hfree⟩
    exact hdrive.trans (by rw [drive_setDrive_same]; rfl)
  · show Host.Outcome.next (s.readyFall n).finish = _
    unfold State.readyFall
    dsimp only
    rw [if_neg (by rw [measures_iff]; exact hr)]
    rfl

end Sys2Proof.Machine
end

section
/-! ## Completed positionings and seek errors -/

namespace Sys2Proof.Machine

theorem exec_seekComplete {s : State} {n : UnitId} {limit : Nat} (hm : (s.drive n).motion = .seek limit) :
    exec (.seekComplete n) s = .next (s.seekDone n).finish := by
  show execSeekComplete n s = _
  unfold execSeekComplete
  rw [hm]

theorem exec_restoreComplete {s : State} {n : UnitId} {limit : Nat} (hm : (s.drive n).motion = .restore limit) :
    exec (.restoreComplete n) s = .next (s.restoreDone n).finish := by
  show execRestoreComplete n s = _
  unfold execRestoreComplete
  rw [hm]

theorem State.speedOut_iff (s : State) (n : UnitId) : s.speedOut n = true ↔ (s.drive n).monitor.speed = .out := by
  simp [State.speedOut]

theorem State.speedOut_false_iff (s : State) (n : UnitId) :
    s.speedOut n = false ↔ (s.drive n).monitor.speed = .inTolerance := by
  unfold State.speedOut
  cases (s.drive n).monitor.speed <;> simp

/-- A drive that has arrived at a cylinder (R11, R12). -/
def Drive.arrivedAt (d : Drive) (cylinder : Option Nat) : Drive := { d with motion := .still, cylinder := cylinder }

theorem State.seekDone_eq (s : State) (n : UnitId) :
    s.seekDone n =
      if s.speedOut n then s.setDrive n { (s.drive n).quieted with state := .speedFault, cylinder := (s.drive n).target }
      else (s.setDrive n ((s.drive n).arrivedAt (s.drive n).target)).arrive n := by
  unfold State.seekDone
  dsimp only
  rw [modDrive_modDrive]
  simp only [Drive.enter_speedFault]
  rfl

theorem State.restoreDone_eq (s : State) (n : UnitId) :
    s.restoreDone n =
      if s.speedOut n then s.setDrive n { (s.drive n).quieted with state := .speedFault, cylinder := some 0 }
      else if (s.drive n).heldJob.isSome ∧ (s.drive n).target ≠ some 0 then
        s.setDrive n { (s.drive n).quieted with
          state := .seeking, cylinder := some 0, offset := 0, motion := .seek (s.clock + 5000000) }
      else (s.setDrive n ((s.drive n).arrivedAt (some 0))).arrive n := by
  unfold State.restoreDone
  dsimp only
  rw [modDrive_modDrive, State.issueSeek_eq, modDrive_drive, State.modDrive_eq_setDrive s n fun d =>
    { d with motion := .still, cylinder := some 0 }, setDrive_setDrive]
  simp only [Drive.enter_speedFault]
  rfl

/-- A unit with no job, and none to take, enters IDLE on its arrival (R11, R12). -/
theorem State.arrive_idle {s : State} {n : UnitId} {d : Drive} (hh : d.heldJob = none) (hq : ¬ s.HasQueued n) :
    (s.setDrive n d).arrive n = s.setDrive n d.idled := by
  unfold State.arrive
  rw [drive_setDrive_same, if_neg (by simp [hh]), toIdle_noQueued (s.setDrive n d) n (not_queued_of_not_hasQueued s n hq),
    modDrive_setDrive, Drive.enterIdle_idled _ hh]

theorem State.arrivalSettle_eq {s : State} {n : UnitId} {d : Drive} {x : Descriptor} (hx : d.descriptor = some x) :
    (s.setDrive n d).arrivalSettle n = x.settle + d.positioningSettle := by
  simp [State.arrivalSettle, hx]

/-- A unit with a job settles on its arrival (R11, R12). -/
theorem State.arrive_settles {s : State} {n : UnitId} {d : Drive} {x : Descriptor} (hh : d.heldJob ≠ none)
    (hx : d.descriptor = some x) (hs : x.settle + d.positioningSettle ≠ 0) :
    (s.setDrive n d).arrive n = s.setDrive n (d.settling (x.settle + d.positioningSettle)) := by
  unfold State.arrive
  rw [drive_setDrive_same, if_pos (Option.isSome_iff_ne_none.2 hh), State.arrivalSettle_eq hx, State.settle_eq n hs,
    drive_setDrive_same, setDrive_setDrive]

/-- A unit with a job and no revolutions to settle enters TRACKING on its arrival (R11, R12, R14). -/
theorem State.arrive_tracks {s : State} {n : UnitId} {d : Drive} {x : Descriptor} (hh : d.heldJob ≠ none)
    (hx : d.descriptor = some x) (hs : x.settle + d.positioningSettle = 0) :
    (s.setDrive n d).arrive n = (s.setDrive n d).track n := by
  unfold State.arrive
  rw [drive_setDrive_same, if_pos (Option.isSome_iff_ne_none.2 hh), State.arrivalSettle_eq hx, hs]
  rfl

/-- Settles O34. -/
theorem positioningCompletes : Obligations.PositioningCompletes := by
  refine ⟨fun n s d x c arrived hd hx hc _ => ?_, fun n s => ⟨fun h => ?_, fun h => ?_⟩⟩
  · subst hd
    have out : (s.drive n).monitor.speed = .out → exec c s =
        .next (s.setDrive n { (s.drive n).quieted with state := .speedFault, cylinder := arrived }).finish := fun hout => by
      obtain ⟨rfl, ⟨limit, hm⟩, rfl⟩ | ⟨rfl, ⟨limit, hm⟩, rfl⟩ := hc
      · rw [exec_seekComplete hm, State.seekDone_eq, if_pos ((s.speedOut_iff n).2 hout)]
      · rw [exec_restoreComplete hm, State.restoreDone_eq, if_pos ((s.speedOut_iff n).2 hout)]
    have stays : (s.drive n).monitor.speed = .inTolerance → ((s.drive n).heldJob = none ∨ arrived = (s.drive n).target) →
        exec c s = .next ((s.setDrive n ((s.drive n).arrivedAt arrived)).arrive n).finish := fun hin ha => by
      have hspeed := (s.speedOut_false_iff n).2 hin
      obtain ⟨rfl, ⟨limit, hm⟩, rfl⟩ | ⟨rfl, ⟨limit, hm⟩, rfl⟩ := hc
      · rw [exec_seekComplete hm, State.seekDone_eq, if_neg (by simp [hspeed])]
      · rw [exec_restoreComplete hm, State.restoreDone_eq, if_neg (by simp [hspeed]), if_neg]
        rintro ⟨h1, h2⟩
        obtain ha | ha := ha
        · rw [ha] at h1; cases h1
        · exact h2 ha.symm
    refine ⟨out, fun hin => ⟨fun hh hq => ?_, fun hh ha hs => ?_, fun hh ha => ?_⟩⟩
    · rw [stays hin (.inl hh), State.arrive_idle (d := (s.drive n).arrivedAt arrived) hh hq]
      rfl
    · rw [stays hin (.inr ha), State.arrive_settles (d := (s.drive n).arrivedAt arrived) hh hx (Nat.pos_iff_ne_zero.1 hs)]
      rfl
    · obtain ⟨-, -, rfl⟩ | ⟨rfl, ⟨limit, hm⟩, rfl⟩ := hc
      · exact absurd rfl ha
      · rw [exec_restoreComplete hm, State.restoreDone_eq, if_neg (by simp [(s.speedOut_false_iff n).2 hin]),
          if_pos ⟨Option.isSome_iff_ne_none.2 hh, Ne.symm ha⟩]
  · show execSeekComplete n s = _
    unfold execSeekComplete
    split
    · next limit hm => exact absurd hm (h limit)
    all_goals rfl
  · show execRestoreComplete n s = _
    unfold execRestoreComplete
    split
    · next limit hm => exact absurd hm (h limit)
    all_goals rfl

theorem Job.startReading_state (y : Job) :
    y.startReading = { y with state := if y.state = .positioning then .reading else y.state } := rfl

/-- A unit that enters TRACKING with its job below the pass limit (R14, R60). -/
theorem State.track_started {s : State} {n : UnitId} {d : Drive} {j : JobIx} {y : Job} (hh : d.heldJob = some j)
    (hy : s.job j = some y) (hd : d.descriptor = (s.drive n).descriptor) (hp : (s.unitProfiles n).active.passes ≠ [])
    (hl : y.passCount < (s.unitProfiles n).active.passLimit) :
    ∃ p, s.PassPrepared n y p ∧
      (s.setDrive n d).track n = (s.setJob j (some y.startReading)).setDrive n (d.tracked.started p) := by
  refine ⟨_, s.preparePass_prepared n y hp, ?_⟩
  unfold State.track
  rw [State.enterTracking_prepares hh hy hd hl]
  rfl

/-- A unit that enters TRACKING with its job at the pass limit ends it, and enters IDLE where it has no other (R15, R60). -/
theorem State.track_exhausted {s : State} {n : UnitId} {j : JobIx} {y : Job} (hh : (s.drive n).heldJob = some j)
    (hy : s.job j = some y) (hu : y.unit = n) (hd : y.state ≠ .draining)
    (hl : (s.unitProfiles n).active.passLimit ≤ y.passCount)
    (hq : ∀ i z, s.job i = some z → z.unit = n → z.state = .queued → i = j) :
    (s.track n).Ended j .passesExhausted ∧ (s.track n).drive n = (s.drive n).tracked.idled := by
  have held : (((s.setJob j (some y.startReading)).setDrive n (s.drive n).tracked).drive n).heldJob = some j := by
    rw [drive_setDrive_same]; exact hh
  have job : ((s.setJob j (some y.startReading)).setDrive n (s.drive n).tracked).job j = some y.startReading := by
    rw [State.setDrive_job, job_setJob_same]
  have live : y.startReading.state ≠ .draining := by
    rw [Job.startReading_state]
    dsimp only
    split
    · simp
    · exact hd
  have only : ∀ i z, ((s.setJob j (some y.startReading)).setDrive n (s.drive n).tracked).job i = some z → z.unit = n →
      z.state = .queued → i = j := fun i z hz hzu hzq => by
    by_contra hne
    rw [State.setDrive_job, job_setJob_ne _ _ (Ne.symm hne)] at hz
    exact hne (hq i z hz hzu hzq)
  obtain ⟨idle, drive⟩ := State.endJob_toIdle held job hu live only .passesExhausted
  obtain ⟨z, hz, hzd, hzc⟩ := State.endJob_ended job live .passesExhausted
  unfold State.track
  rw [State.enterTracking_eq hh hy, State.passStartCore_exhausted held job hl]
  refine ⟨⟨z, ?_, hzd, hzc⟩, ?_⟩
  · show (State.toIdle _ n).job j = some z
    rw [idle]
    exact hz
  · rw [drive_setDrive_same] at drive
    exact drive

/-- Settles O35. -/
theorem trackingStartsPass : Obligations.TrackingStartsPass := by
  intro n s d x j y limit hd hx hm hin hh hy hu hdr hs hp
  subst hd
  have tracks : exec (.seekComplete n) s =
      .next ((s.setDrive n ((s.drive n).arrivedAt (s.drive n).target)).track n).finish := by
    rw [exec_seekComplete hm, State.seekDone_eq, if_neg (by simp [(s.speedOut_false_iff n).2 hin]),
      State.arrive_tracks (d := (s.drive n).arrivedAt (s.drive n).target) (by simp [Drive.arrivedAt, hh]) hx hs]
  refine ⟨fun hl => ?_, fun hl hq => ?_⟩
  · obtain ⟨p, hprep, htrack⟩ := State.track_started (s := s) (n := n) (d := (s.drive n).arrivedAt (s.drive n).target) hh hy rfl
      hp hl
    refine ⟨p, hprep, ?_⟩
    rw [tracks, htrack]
    rfl
  · obtain ⟨ended, drive⟩ := State.track_exhausted (s := s.setDrive n ((s.drive n).arrivedAt (s.drive n).target)) (n := n)
      (j := j) (y := y) (by rw [drive_setDrive_same]; exact hh) hy hu hdr hl hq
    rw [drive_setDrive_same] at drive
    exact ⟨_, tracks, ended, by rw [drive]; rfl, by rw [drive]; rfl, by rw [drive]; rfl⟩

/-! ## Seek errors -/

/-- A drive whose seek error is counted (R13). -/
def Drive.errorCounted (d : Drive) : Drive :=
  { d with motion := .still, cylinder := none, seekErrors := holdAt 3 d.seekErrors }

/-- A state at a time with SEEK_ERROR raised and the error counted for a unit (R13). -/
def State.errorCounted (s : State) (n : UnitId) (now : Nat) : State :=
  (({ s with clock := now } : State).raise (4 * n.val + 3)).setDrive n (s.drive n).errorCounted

theorem State.seekError_eq (s : State) (n : UnitId) :
    s.seekError n =
      if (s.drive n).heldJob.isSome then
        if holdAt 3 (s.drive n).seekErrors < 3 then
          (s.raise (4 * n.val + 3)).setDrive n ((s.drive n).errorCounted.restoring s.clock)
        else (((s.errorCounted n s.clock).endHeld n .seekFailed).toIdle n)
      else (s.errorCounted n s.clock).toIdle n := by
  have counted :
      (s.modDrive n (fun d => { d with motion := .still, cylinder := none, seekErrors := holdAt 3 d.seekErrors })).raise
        (unitFlag n .seekError) = (s.raise (4 * n.val + 3)).setDrive n (s.drive n).errorCounted := rfl
  unfold State.seekError
  dsimp only
  rw [counted, State.issueRestore_eq, drive_setDrive_same, setDrive_setDrive]
  rfl

/-- A seek error comes to the unit at its time (R11 to R13). -/
theorem SeekErrorAt.exec_eq {n : UnitId} {s : State} {c : Instr} {now : Nat} (h : SeekErrorAt n s c now) :
    exec c s = .next (if (s.drive n).heldJob.isSome then
        if holdAt 3 (s.drive n).seekErrors < 3 then
          (({ s with clock := now } : State).raise (4 * n.val + 3)).setDrive n ((s.drive n).errorCounted.restoring now)
        else (((s.errorCounted n now).endHeld n .seekFailed).toIdle n)
      else (s.errorCounted n now).toIdle n).finish := by
  refine Eq.trans ?_ (congrArg (fun t => Host.Outcome.next (State.finish t)) (({ s with clock := now } : State).seekError_eq n))
  cases h with
  | indication hm =>
    show execSeekErrorIndication n s = _
    unfold execSeekErrorIndication
    split
    · rfl
    · rfl
    · next h => exact absurd h hm
  | seekLimit limit hm =>
    show execSeekTimeout n s = _
    unfold execSeekTimeout
    rw [hm]
    rfl
  | restoreLimit limit hm =>
    show execRestoreTimeout n s = _
    unfold execRestoreTimeout
    rw [hm]
    rfl

/-- Settles O36. -/
theorem seekErrorsHandled : Obligations.SeekErrorsHandled := by
  intro n s d hd _
  subst hd
  refine ⟨fun c now hc => ⟨fun hh hq => ?_, fun hh he => ?_, fun j x hh he hx hu hdr _ hq => ?_⟩, fun hm => ⟨?_, ?_, ?_⟩⟩
  · have idle := toIdle_noQueued (s.errorCounted n now) n (not_queued_of_not_hasQueued s n hq)
    rw [State.errorCounted, modDrive_setDrive, Drive.enterIdle_idled (s.drive n).errorCounted hh] at idle
    rw [hc.exec_eq, if_neg (by simp [hh])]
    exact congrArg (fun t => Host.Outcome.next (State.finish t)) idle
  · have count : holdAt 3 (s.drive n).seekErrors = (s.drive n).seekErrors + 1 := min_eq_right he.le
    rw [hc.exec_eq, if_pos (Option.isSome_iff_ne_none.2 hh), if_pos (by rw [count]; exact he), ← count]
    rfl
  · have last : ¬ holdAt 3 (s.drive n).seekErrors < 3 := by rw [holdAt, min_eq_left he]; decide
    have held : ((s.errorCounted n now).drive n).heldJob = some j := by rw [State.errorCounted, drive_setDrive_same]; exact hh
    have same := SameButJobs.endJob (s.errorCounted n now) j .seekFailed
    obtain ⟨idle, drive⟩ := State.endJob_toIdle held hx hu hdr hq .seekFailed
    obtain ⟨y, hy, hyd, hyc⟩ := State.endJob_ended (s := s.errorCounted n now) hx hdr .seekFailed
    refine ⟨_, ?_, drive.trans (by rw [State.errorCounted, drive_setDrive_same]; rfl), ⟨y, by rw [idle]; exact hy, hyd, hyc⟩,
      by rw [idle]; exact same.flags⟩
    rw [hc.exec_eq, if_pos (by simp [hh]), if_neg last]
    unfold State.endHeld
    rw [held]
  · show execSeekErrorIndication n s = _
    unfold execSeekErrorIndication
    rw [hm]
  · show execSeekTimeout n s = _
    unfold execSeekTimeout
    rw [hm]
  · show execRestoreTimeout n s = _
    unfold execRestoreTimeout
    rw [hm]

end Sys2Proof.Machine
end

section
/-! ## ABORT (R56) -/

namespace Sys2Proof.Machine

theorem exec_abort {s : State} (h : s.takesAtOnce) (tag : Tag) (id u : Byte) {r : Response} (hr : serveAbort [id, u] s = r)
    (hw : r.state.link = s.link) :
    exec (.abort tag id u) s = .next (r.state.answered 0x13 tag r.status r.fields).finish :=
  State.request_ran h 0x13 0x13 tag _ rfl (by decide) rfl hr hw

theorem serveAbort_unit (n : UnitId) (s : State) :
    serveAbort [0, unitByte n] s = accept [BitVec.ofNat 8 (s.abortCount n)] (s.abortUnit n) := by
  simp [serveAbort, byteAt_eq, unitOf_unitByte, beBytes_one]

theorem serveAbort_noJob {j : JobIx} {s : State} (hx : s.job j = none) (u : Byte) :
    serveAbort [idByte j, u] s = refuse .noJob s := by
  simp [serveAbort, byteAt_cons_zero, idByte_ne, jobOf_idByte, hx]

theorem serveAbort_job {j : JobIx} {s : State} {x : Job} (hx : s.job j = some x) (u : Byte) :
    serveAbort [idByte j, u] s =
      if x.state = .draining then refuse .wrongState s else accept [1] (s.endJobAndGoOn j .aborted) := by
  simp [serveAbort, byteAt_cons_zero, idByte_ne, jobOf_idByte, beBytes_one, hx]

/-- A DRAINING job stays as it is where its unit enters IDLE without it, and is not taken again (R46, R47). -/
theorem State.toIdle_draining {s : State} {n : UnitId} {j : JobIx} {x : Job} (hj : s.job j = some x) (hx : x.state = .draining)
    (hh : (s.drive n).heldJob ≠ some j) :
    (s.toIdle n).job j = some x ∧ ((s.toIdle n).drive n).heldJob ≠ some j := by
  have idle : ((s.modDrive n Drive.enterIdle).drive n).heldJob ≠ some j := by rw [modDrive_drive]; exact hh
  unfold State.toIdle State.runSelection
  split
  · exact selection_draining 33 _ n j x hj hx idle
  · exact ⟨hj, idle⟩

theorem State.endJobAndGoOn_held {s : State} {j : JobIx} {x : Job} (hx : s.job j = some x) (hd : x.state ≠ .draining)
    (hh : (s.drive x.unit).heldJob = some j) (cause : EndCause) :
    s.endJobAndGoOn j cause = (s.endJob j cause).goOn x.unit := by
  simp [State.endJobAndGoOn, hx, hd, hh]

theorem State.endJobAndGoOn_notHeld {s : State} {j : JobIx} {x : Job} (hx : s.job j = some x)
    (hh : (s.drive x.unit).heldJob ≠ some j) (cause : EndCause) : s.endJobAndGoOn j cause = s.endJob j cause := by
  by_cases hd : x.state = .draining
  · simp [State.endJobAndGoOn, State.endJob, hx, hd]
  · simp [State.endJobAndGoOn, hx, hd, hh]

/-- What a unit goes on to where none of its jobs is QUEUED (R15). -/
theorem State.goOn_noQueued {s : State} {n : UnitId} (h : ∀ j x, s.job j = some x → x.unit = n → x.state ≠ .queued) :
    s.goOn n = if (s.drive n).state ∈ [.settling, .tracking] then s.modDrive n Drive.enterIdle else s := by
  split
  · next hst => rw [goOn_settled s n (by simpa using hst), toIdle_noQueued s n h]
  · next hst => exact goOn_other s n (by simpa using hst)

/-- A held job is not QUEUED (R48). -/
theorem State.JobsHeld.notQueued {s : State} {n : UnitId} {j : JobIx} (hs : s.JobsHeld) (hh : (s.drive n).heldJob = some j) :
    j ∉ s.queuedByAge n := fun hm => by
  obtain ⟨x, hx, -, hq⟩ := (mem_queuedByAge s n j).1 hm
  obtain ⟨y, hy, -, hst⟩ := (hs n j).1 hh
  rw [hx] at hy
  cases hy
  rw [hq] at hst
  rcases hst with h | h <;> cases h

/-- ABORT of a unit's jobs, by the end of each and what the unit goes on to (R15, R56). -/
theorem State.abortUnit_eq {s : State} (n : UnitId) (hs : s.JobsHeld) {u : State}
    (hu : u = (s.queuedByAge n).foldl (fun t j => t.endJob j .aborted) s) :
    s.abortUnit n = if (s.drive n).heldJob = none then u else (u.endHeld n .aborted).goOn n := by
  obtain ⟨-, kept, drives, -⟩ := endQueued s n .aborted hs
  rw [← hu] at kept drives
  have drive : u.drive n = s.drive n := by simp only [State.drive, drives]
  unfold State.abortUnit
  rw [← hu]
  cases hh : (s.drive n).heldJob with
  | none => rfl
  | some j =>
    obtain ⟨x, hx, rfl, hst⟩ := (hs n j).1 hh
    have notQueued := hs.notQueued hh
    have held : (u.drive x.unit).heldJob = some j := by rw [drive]; exact hh
    have live : x.state ≠ .draining := fun e => by rw [e] at hst; rcases hst with h | h <;> cases h
    rw [if_neg (by simp)]
    dsimp only
    rw [State.endJobAndGoOn_held ((kept j notQueued).trans hx) live held]
    unfold State.endHeld
    rw [held]

/-- Where every job of a unit that had not ended has ended, none of them is QUEUED. -/
theorem noQueued_of_ended {s t : State} {n : UnitId} {cause : EndCause} (ended : ∀ j, s.Unended n j → t.Ended j cause)
    (others : ∀ j, ¬ s.Unended n j → t.job j = s.job j) :
    ∀ j x, t.job j = some x → x.unit = n → x.state ≠ .queued := by
  intro j x hx hu hq
  by_cases h : s.Unended n j
  · obtain ⟨y, hy, hd, -⟩ := ended j h
    rw [hx] at hy
    cases hy
    rw [hq] at hd
    cases hd
  · exact h ⟨x, (others j h).symm.trans hx, hu, by rw [hq]; decide⟩

/-- What ABORT of a unit's jobs makes of the jobs and of the unit (R15, R56). -/
theorem State.abortUnit_ends {s : State} (n : UnitId) (hs : s.JobsHeld) :
    (∀ j, s.Unended n j → (s.abortUnit n).Ended j .aborted) ∧ (∀ j, ¬ s.Unended n j → (s.abortUnit n).job j = s.job j) ∧
      ((s.abortUnit n).drive n).heldJob = none ∧
      ((s.drive n).heldJob ≠ none → (s.drive n).state ∈ [.settling, .tracking] →
        (s.abortUnit n).drive n = (s.drive n).idled) ∧
      ((s.drive n).heldJob = none → (s.abortUnit n).drives = s.drives ∧ (s.abortUnit n).channel = s.channel) := by
  obtain ⟨-, -, drives, channel, -⟩ := endQueued s n .aborted hs
  obtain ⟨-, ended, others, -, dropped, -⟩ := endUnitJobs s n .aborted hs _ rfl
  have eq := State.abortUnit_eq n hs rfl
  generalize (s.queuedByAge n).foldl (fun t j => t.endJob j .aborted) s = u at *
  have drive : u.drive n = s.drive n := by simp only [State.drive, drives]
  by_cases hh : (s.drive n).heldJob = none
  · rw [if_pos hh] at eq
    rw [State.endHeld_none (by rw [drive]; exact hh)] at ended others
    rw [eq]
    exact ⟨ended, others, by rw [drive]; exact hh, fun e => absurd hh e, fun _ => ⟨drives, channel⟩⟩
  · have dropped := dropped hh
    have state : ((u.endHeld n .aborted).drive n).state = (s.drive n).state := by rw [dropped]; rfl
    rw [if_neg hh, State.goOn_noQueued (noQueued_of_ended ended others), state] at eq
    rw [eq]
    split
    · exact ⟨ended, others, by rw [modDrive_drive, dropped]; rfl,
        fun _ _ => by rw [modDrive_drive, dropped, Drive.enterIdle_idled _ rfl]; rfl, fun e => absurd e hh⟩
    · next hst => exact ⟨ended, others, by rw [dropped]; rfl, fun _ e => absurd e hst, fun e => absurd e hh⟩

/-- Settles O21. -/
theorem abortEndsJobs : Obligations.AbortEndsJobs := by
  refine ⟨fun tag id u s h => ⟨fun hid => ?_, fun j hj => ?_⟩, fun tag s h => ⟨fun u hu => ?_, fun n hs => ?_⟩⟩
  · refine exec_abort h tag id u (r := refuse .badField s) ?_ rfl
    have nonzero : id.toNat ≠ 0 := by omega
    simp [serveAbort, byteAt_cons_zero, nonzero, jobOf_bad id (.inr hid)]
  · subst hj
    refine ⟨fun hx => ?_, fun x hx => ⟨fun hd => ?_, fun hd => ?_⟩⟩
    · exact exec_abort h tag _ u (r := refuse .noJob s) (serveAbort_noJob hx u) rfl
    · exact exec_abort h tag _ u (r := refuse .wrongState s) ((serveAbort_job hx u).trans (if_pos hd)) rfl
    · have ran := exec_abort h tag (idByte j) u (r := accept [1] (s.endJobAndGoOn j .aborted))
        ((serveAbort_job hx u).trans (if_neg hd)) (State.endJobAndGoOn_evolves s j .aborted).same.link
      obtain ⟨⟨y, hy, -, hyd, hyc, hycount, hyb⟩, unheld, held⟩ := endJob_end s j x .aborted hx hd
      have others := OtherUnits.only (OnlyJob.endJob s j .aborted) (n := x.unit) fun z hz => by rw [hx] at hz; cases hz; rfl
      by_cases hh : (s.drive x.unit).heldJob = some j
      · obtain ⟨drive, -⟩ := held hh
        have dropped : ((s.endJob j .aborted).drive x.unit).heldJob ≠ some j := by rw [drive]; simp [Drive.dropJob]
        have state : ((s.endJob j .aborted).drive x.unit).state = (s.drive x.unit).state := by rw [drive]; rfl
        rw [State.endJobAndGoOn_held hx hd hh] at ran
        by_cases hst : (s.drive x.unit).state ∈ [.settling, .tracking]
        · rw [goOn_settled _ _ (by rw [state]; simpa using hst)] at ran
          obtain ⟨kept, gone⟩ := State.toIdle_draining hy hyd dropped
          exact ⟨_, y, ran, kept, hyd, hyc, hycount, hyb, others.trans (OtherUnits.toIdle _ _), fun e => absurd hh e,
            fun _ => ⟨gone, fun e => absurd hst e, fun _ hq => (State.endJob_toIdle hh hx rfl hd hq .aborted).2⟩⟩
        · rw [goOn_other _ _ (by rw [state]; simpa using hst)] at ran
          exact ⟨_, y, ran, hy, hyd, hyc, hycount, hyb, others, fun e => absurd hh e,
            fun _ => ⟨dropped, fun _ => drive, fun e => absurd e hst⟩⟩
      · rw [State.endJobAndGoOn_notHeld hx hh] at ran
        exact ⟨_, y, ran, hy, hyd, hyc, hycount, hyb, others, unheld, fun e => absurd e hh⟩
  · exact exec_abort h tag 0 u (r := refuse .badField s) 
      (by simp [serveAbort, byteAt_eq, unitOf_above hu]) rfl
  · have members : ∀ j, j ∈ s.queuedByAge n ++ (s.drive n).heldJob.toList ↔ s.Unended n j := fun j => by
      rw [(endUnitJobs s n .aborted hs _ rfl).1 j, List.mem_append, Option.mem_toList]
    have once : (s.queuedByAge n ++ (s.drive n).heldJob.toList).Nodup :=
      List.nodup_append.2 ⟨nodup_queuedByAge s n, by cases (s.drive n).heldJob <;> simp, fun a ha b hb e =>
        hs.notQueued (Option.mem_toList.1 hb) (e ▸ ha)⟩
    have count : s.abortCount n = (s.queuedByAge n ++ (s.drive n).heldJob.toList).length := by
      cases hh : (s.drive n).heldJob <;> simp [State.abortCount, hh]
    obtain ⟨ended, others, dropped, idled, same⟩ := State.abortUnit_ends n hs
    refine ⟨s.abortUnit n, s.queuedByAge n ++ (s.drive n).heldJob.toList, ?_, once,
      members, fun j hj => ended j ((members j).1 hj), fun j hj => others j (mt (members j).2 hj), dropped, idled, same⟩
    rw [← count]
    exact exec_abort h tag 0 (unitByte n) (serveAbort_unit n s) (State.abortUnit_evolves s n).same.link

end Sys2Proof.Machine
end

section
/-! ## RESET of a unit (R23, R58, R160, R181) -/

namespace Sys2Proof.Machine

theorem State.setDirection_same (s : State) (n : UnitId) (dir : Direction) : (s.setDirection n dir).directions[n] = dir := by
  simp [State.setDirection]

theorem State.setDirection_other (s : State) {n m : UnitId} (dir : Direction) (h : n ≠ m) :
    (s.setDirection n dir).directions[m] = s.directions[m] :=
  Vector.getElem_set_ne n.isLt m.isLt fun e => h (Fin.ext e)

theorem exec_resetUnit {s : State} (h : s.takesAtOnce) (tag : Tag) (scope : Byte) {r : Response}
    (hr : serveReset [scope] s = r) (hw : r.state.link = s.link) :
    exec (.resetUnit tag scope) s = .next (r.state.answered 0x1A tag r.status r.fields).finish :=
  State.request_ran h 0x1A 0x1A tag _ rfl (by decide) rfl hr hw

theorem serveReset_unit (n : UnitId) (s : State) : serveReset [unitByte n] s = accept [] (s.resetUnit n) := by
  have notAll : (unitByte n).toNat ≠ 0xFF := by revert n; decide
  simp [serveReset, byteAt_cons_zero, unitOf_unitByte, notAll]

theorem timed_iff (st : DriveState) : st.timed = true ↔ st ∉ [.undefined, .unloading, .retracted] := by
  cases st <;> simp [DriveState.timed]

/-- The flags of a unit are the four numbers from four times its own (R164). -/
theorem unitFlags_getLsbD (n : UnitId) {k : Nat} (hk : k < 18) : (unitFlags n).getLsbD k = true ↔ k / 4 = n.val := by
  simp only [unitFlags, BitVec.getLsbD_or, getLsbD_flagBit, hk, unitFlag, FlagKind.index, decide_true, Bool.true_and,
    Bool.or_eq_true, decide_eq_true_eq]
  omega

/-- The drive that RESET of a unit leaves, its job ended, at a time (R23, R181). -/
def Drive.afterReset (d : Drive) (now : Nat) : Drive :=
  if d.state.timed then
    { d.afresh (if d.ready then .idle else .notReady) (if d.indexLost then none else d.timerFrom now) with
      deadRevs := 0, matchedSlots := 0, positioningSettle := 0 }
  else { d with deferral := 0, deadRevs := 0, matchedSlots := 0, positioningSettle := 0 }

/-- The drive's part of a reset, where the unit has no QUEUED job to take (R23, R181). -/
theorem State.resetDrive_eq {s : State} {n : UnitId} (hq : ∀ j x, s.job j = some x → x.unit = n → x.state ≠ .queued) :
    s.resetDrive n = s.setDrive n ((s.drive n).afterReset s.clock) := by
  unfold State.resetDrive State.idleIfReady Drive.afterReset
  dsimp only
  rw [modDrive_modDrive, modDrive_drive]
  split
  · cases hr : (s.drive n).ready with
    | false =>
      rw [if_neg (by simpa [Drive.losePosition, Drive.forgetQuirks] using hr), if_neg (by simp)]
      refine congrArg (s.setDrive n) ?_
      simp [Drive.losePosition, Drive.enter, Drive.forgetQuirks, Drive.afresh, DriveState.timed, Drive.timerFrom]
      rfl
    | true =>
      rw [if_pos (by simpa [Drive.losePosition, Drive.forgetQuirks] using hr), if_pos rfl,
        toIdle_noQueued (s.modDrive n _) n hq, modDrive_modDrive]
      refine congrArg (s.setDrive n) ?_
      simp [Drive.losePosition, Drive.enter, Drive.enterIdle, Drive.forgetQuirks, Drive.afresh, DriveState.timed,
        Drive.timerFrom]
      rfl
  · rfl

/-- The end of a job changes nothing of another unit's drive but its deferral count (R29, R51). -/
theorem State.endJob_drive_other {s : State} {j : JobIx} {x : Job} (hx : s.job j = some x) (cause : EndCause) {m : UnitId}
    (hm : m ≠ x.unit) :
    (s.endJob j cause).drive m = { s.drive m with deferral := ((s.endJob j cause).drive m).deferral } := by
  have letGo : ∀ t : State, t.drives = s.drives →
      (t.letGo j x.unit).drive m = { s.drive m with deferral := ((t.letGo j x.unit).drive m).deferral } := fun t ht => by
    have same : t.drive m = s.drive m := by simp only [State.drive, ht]
    unfold State.letGo
    split
    · rw [releaseEarly_drive_def, State.modDrive_drive_other t _ m _ (Ne.symm hm), same]
    · rw [same]
  have quiet : ∀ u : State, (u.finalizeIfDone j).drive m = u.drive m := fun u => by
    simp only [State.drive, (Quiet.finalizeIfDone u j).drives]
  unfold State.endJob
  rw [hx]
  dsimp only
  split
  · rfl
  · rw [quiet]
    split
    · exact letGo (s.setJob j _) rfl
    · exact letGo (s.setJob j _) rfl

/-- What the end of a unit's jobs leaves of the drives (R51, R58). -/
theorem State.resetJobs_drives {s : State} (n : UnitId) (hs : s.JobsHeld) :
    (∃ p w k, (s.resetJobs n).drive n = { s.drive n with heldJob := none, prepared := p, waiting := w, passStrays := k }) ∧
      ((s.drive n).heldJob = none → (s.resetJobs n).drive n = s.drive n) ∧
      ∀ m, m ≠ n → (s.resetJobs n).drive m = { s.drive m with deferral := ((s.resetJobs n).drive m).deferral } := by
  obtain ⟨-, kept, drives, -⟩ := endQueued s n .driveReset hs
  obtain ⟨-, -, -, same, dropped, -⟩ := endUnitJobs s n .driveReset hs _ rfl
  have alone : (s.drive n).heldJob = none → (s.resetJobs n).drive n = s.drive n := fun hh =>
    congrArg (fun v : Vector Drive 4 => v[n]) (same hh).1
  refine ⟨?_, alone, fun m hm => ?_⟩
  · cases hh : (s.drive n).heldJob with
    | none => exact ⟨_, _, _, (alone hh).trans (by rw [← hh])⟩
    | some j => exact ⟨none, 0, 0, dropped (by rw [hh]; simp)⟩
  · unfold State.resetJobs
    generalize (s.queuedByAge n).foldl (fun t j => t.endJob j .driveReset) s = u at *
    have drive : ∀ k, u.drive k = s.drive k := fun k => by simp only [State.drive, drives]
    unfold State.endHeld
    rw [drive]
    cases hh : (s.drive n).heldJob with
    | none =>
      show u.drive m = { s.drive m with deferral := (u.drive m).deferral }
      rw [drive m]
    | some j =>
      obtain ⟨x, hx, rfl, -⟩ := (hs n j).1 hh
      rw [← drive m]
      exact State.endJob_drive_other ((kept j (hs.notQueued hh)).trans hx) .driveReset hm

/-- The state that RESET of a unit leaves, by what the end of its jobs left (R58, R160, R181). -/
theorem State.resetUnit_eq {s : State} (n : UnitId)
    (none : ∀ j x, (s.resetJobs n).job j = some x → x.unit = n → x.state ≠ .queued) :
    s.resetUnit n = ((((s.resetJobs n).setDirection n .up).setProfiles n
      { (s.resetJobs n).unitProfiles n with swapPending := false }).setDrive n
      (((s.resetJobs n).drive n).afterReset (s.resetJobs n).clock)).clearFlags (unitFlags n) := by
  unfold State.resetUnit
  generalize s.resetJobs n = v at *
  dsimp only
  rw [State.resetDrive_eq (s := (v.setDirection n .up).setProfiles n _) none]
  rfl

/-- Settles O26. -/
theorem resetUnitActs : Obligations.ResetUnitActs := by
  intro tag n s d h hs hd
  subst hd
  obtain ⟨-, ended, others, -, -, same⟩ := endUnitJobs s n .driveReset hs _ rfl
  obtain ⟨⟨p, w, k, drive⟩, alone, apart⟩ := State.resetJobs_drives n hs
  have eq := State.resetUnit_eq n (noQueued_of_ended ended others)
  have ran := exec_resetUnit h tag (unitByte n) (serveReset_unit n s) (State.resetUnit_evolves s n).same.link
  change ∀ j, s.Unended n j → (s.resetJobs n).Ended j .driveReset at ended
  change ∀ j, ¬ s.Unended n j → (s.resetJobs n).job j = s.job j at others
  change SameButJobs s (s.resetJobs n) at same
  generalize s.resetJobs n = v at *
  refine ⟨s.resetUnit n, ran, ?_⟩
  rw [eq]
  generalize hw : ((v.setDirection n .up).setProfiles n { v.unitProfiles n with swapPending := false }).setDrive n
      ((v.drive n).afterReset v.clock) = u
  have self : u.drive n = (v.drive n).afterReset v.clock := by rw [← hw, drive_setDrive_same]
  have flags : u.flags = s.flags := by rw [← hw]; exact same.flags
  have profiles : ∀ m, v.unitProfiles m = s.unitProfiles m :=
    fun m => congrArg (fun x : Vector UnitProfiles 4 => x[m]) same.profiles
  have lost : (u.drive n).indexLost = (s.drive n).indexLost := by
    rw [self, drive]
    unfold Drive.afterReset
    split <;> rfl
  have held : ∀ b, b / 4 = n.val → (u.HeldFlag b ↔ b = 4 * n.val ∧ (s.drive n).indexLost = true) := fun b hb => by
    constructor
    · rintro ⟨m, rfl, hm⟩
      have e : m = n := Fin.ext (by omega)
      subst e
      exact ⟨rfl, lost ▸ hm⟩
    · rintro ⟨rfl, hl⟩
      exact ⟨n, rfl, lost.trans hl⟩
  have cleared : ∀ b, b < 18 → ((unitFlags n).getLsbD b = false ∨ u.HeldFlag b ↔
      b / 4 ≠ n.val ∨ (b = 4 * n.val ∧ (s.drive n).indexLost = true)) := fun b hb => by
    rw [← Bool.not_eq_true, unitFlags_getLsbD n hb]
    by_cases hm : b / 4 = n.val
    · rw [held b hm]
    · simp [hm]
  refine ⟨?_, ?_, ?_, ?_, (congrArg FlagUnit.enabled flags :), fun b hb => ?_, fun hst => ?_, fun hst hh => ?_,
    fun m hm => ⟨?_, ?_, ?_⟩, ?_⟩
  · rw [← hw]; exact ended
  · rw [← hw]; exact others
  · show u.directions[n] = .up
    rw [← hw]
    exact State.setDirection_same v n .up
  · show u.unitProfiles n = _
    rw [← hw, State.setDrive_unitProfiles, State.setProfiles_unitProfiles_self, profiles]
  · obtain ⟨set, owed⟩ := clearFlags_bits u (unitFlags n) b hb
    rw [flags, cleared b hb] at set owed
    exact ⟨set, owed⟩
  · show u.drive n = _
    rw [self, drive, Drive.afterReset, if_pos ((timed_iff _).2 hst), same.clock]
    rfl
  · show u.drive n = _
    rw [self, alone hh, Drive.afterReset, if_neg (by rw [timed_iff]; exact not_not.2 hst)]
  · show u.unitProfiles m = _
    rw [← hw, State.setDrive_unitProfiles, State.setProfiles_unitProfiles_other _ _ _ _ (Ne.symm hm)]
    exact profiles m
  · show u.directions[m] = s.directions[m]
    rw [← hw, ← same.directions]
    exact State.setDirection_other v .up (Ne.symm hm)
  · show u.drive m = { s.drive m with deferral := (u.drive m).deferral }
    have other : u.drive m = v.drive m := by rw [← hw, drive_setDrive_ne _ _ (Ne.symm hm)]; rfl
    rw [other]
    exact apart m hm
  · rw [← hw]
    exact ⟨same.hold, same.quirks, same.extents, same.remaps, same.link⟩

end Sys2Proof.Machine
end

section
/-! ## Power-on and RESET ALL (R22, R42, R58, R92, R113, R129, R130, R135, R164, R165, R182, R183) -/

namespace Sys2Proof.Machine

theorem State.powerOn_drive (s : State) (rate : Fin 4) (n : UnitId) :
    (s.powerOn rate).drive n = Drive.powerOn (s.drive n).ready := by
  simp [State.powerOn, State.drive]

theorem State.powerOn_poweredOn (s : State) (rate : Fin 4) : (s.powerOn rate).PoweredOn where
  drives n := by rw [State.powerOn_drive]; rfl
  profiles n := ⟨Profile.default, by simp [State.powerOn, State.unitProfiles, State.reset, UnitProfiles.powerOn], rfl⟩
  directions n := by simp [State.powerOn, State.reset]
  extents n := by simp [State.powerOn, State.extentsOf, State.reset]
  channel := ⟨rfl, rfl, rfl, rfl⟩
  revolution := ⟨rfl, rfl, rfl, rfl⟩
  jobs j := by simp [State.powerOn, State.job, State.reset]
  arrival := rfl
  slabs i := by simp [State.powerOn, State.slab, State.reset]
  repair := ⟨rfl, rfl⟩
  quirks k := by simp [State.powerOn, State.reset]
  remaps := rfl
  queue := rfl
  strays b := by simp [State.powerOn, State.reset]
  hold := rfl
  flags := ⟨rfl, rfl, rfl⟩
  receiver := ⟨rfl, rfl, rfl, rfl⟩
  sender := ⟨rfl, rfl, rfl, rfl⟩

theorem State.gapSync_eq {s : State} (h : s.link.inProgress = false) (hg : s.link.gapFrom = none) : s.gapSync = s := by
  unfold State.gapSync
  simp only [h, Bool.false_and, Bool.false_eq_true, if_false]
  rw [← hg]

theorem State.transmit_none {s : State} (h : s.nextMessage = none) : s.transmit = s := by
  unfold State.transmit
  rw [h]
  split <;> rfl

/-- At power-on values nothing is granted, no gap is measured and nothing is sent (R27, R168, R174). -/
theorem State.PoweredOn.finish_eq {s : State} (h : s.PoweredOn) : s.finish = s := by
  obtain ⟨phase, -, gap, -⟩ := h.receiver
  have idle : s.arbitrate = s := arbitrate_none s fun n => requesting_notTracking s n (by rw [h.drives n]; simp)
  have quiet : s.nextMessage = none := by
    simp [State.nextMessage, h.sender.1, lowest_none _ h.flags.2.2, State.deliveryMessage, h.queue]
  unfold State.finish
  rw [idle, State.gapSync_eq (by rw [Link.inProgress, phase]; rfl) gap, State.transmit_none quiet]

theorem exec_powerOn (straps : Fin 4) (s : State) : exec (.powerOn straps) s = .next (s.powerOn straps) :=
  congrArg Host.Outcome.next (State.powerOn_poweredOn s straps).finish_eq

/-- RESET ALL waits for its reply (R181, R182). -/
theorem exec_resetAll {s : State} (h : s.takesAtOnce) (tag : Tag) :
    exec (.resetAll tag) s =
      .next (({ s with link := { s.link with resetWaiting := true } } : State).pushReply
        { frame := { kind := 0x80, tag := tag, body := [0x1A, 0] }, resetAll := true }).finish := by
  have served : serve { kind := 0x1A, tag := tag, body := [0xFF] } s =
      accept [] { s with link := { s.link with resetWaiting := true } } :=
    serve_known _ _ _ s 0x1A rfl (by decide) (by decide) rfl
  show Host.Outcome.next (s.request 0x1A tag [0xFF]) = _
  rw [State.request_atOnce _ _ _ _ h, State.runFrame, served]
  rfl

/-- Settles O27. -/
theorem powerOnAndResetAll : Obligations.PowerOnAndResetAll := by
  refine ⟨⟨fun straps s => ⟨_, exec_powerOn straps s, State.powerOn_poweredOn s straps, rfl, rfl, fun n => ?_, rfl⟩, ?_⟩,
    fun tag s h => ⟨fun scope hs hn => ?_, exec_resetAll h tag⟩⟩
  · rw [State.powerOn_drive]
    rfl
  · rw [State.reset_eq_powerOn]
    exact State.powerOn_poweredOn _ _
  · have notAll : scope.toNat ≠ 0xFF := fun e => hn (BitVec.eq_of_toNat_eq e)
    refine exec_resetUnit h tag scope (r := refuse .badField s) ?_ rfl
    simp [serveReset, byteAt_cons_zero, notAll, unitOf_above hs]

end Sys2Proof.Machine
end

section
/-! ## A job handed to an IDLE unit (R10 to R12, R44 to R48) -/

namespace Sys2Proof.Machine

/-! ### The choice where one job is QUEUED -/

/-- The oldest of a list that names one job alone. -/
theorem oldest_only (s : State) {l : List JobIx} {j : JobIx} (hj : j ∈ l) (h : ∀ k ∈ l, k = j) : s.oldest l = some j := by
  cases ho : s.oldest l with
  | none => rw [(oldest_eq_none s l).1 ho] at hj; cases hj
  | some k => rw [h k (oldest_mem s l k ho)]

theorem mem_nearest_only (s : State) (current : Nat) (dir : Direction) {js : List JobIx} {j : JobIx} (h : ∀ k ∈ js, k = j)
    (hj : j ∈ js) : j ∈ s.nearest current dir js ↔ dir.ahead current (s.cylinderOf j) = true := by
  simp only [State.nearest, List.mem_filter, hj, true_and, List.all_eq_true, decide_eq_true_eq, and_iff_left_iff_imp]
  rintro - k ⟨hk, -⟩
  rw [h k hk]

/-- Selection where one job of the unit is QUEUED: a BULK job that lies behind reverses the elevator (R47). -/
theorem State.select_only {s : State} {n : UnitId} {j : JobIx} {x : Job} (hx : s.job j = some x) (hu : x.unit = n)
    (hq : x.state = .queued) (only : ∀ i z, s.job i = some z → z.unit = n → z.state = .queued → i = j) :
    s.select n = some (j, if x.cls = .bulk ∧ (s.directions[n]).ahead ((s.drive n).cylinder.getD 0) x.cylinder = false then
      (s.directions[n]).reverse else s.directions[n]) := by
  have alone : ∀ c, ∀ k ∈ s.queuedJobs n c, k = j := fun c k hk => by
    obtain ⟨z, hz, hzu, hzq, -⟩ := (mem_queuedJobs s n c k).1 hk
    exact only k z hz hzu hzq
  have mem : j ∈ s.queuedJobs n x.cls := (mem_queuedJobs s n x.cls j).2 ⟨x, hx, hu, hq, rfl⟩
  have cylinder : s.cylinderOf j = x.cylinder := by simp [State.cylinderOf, hx]
  have near : ∀ dir : Direction, dir.ahead ((s.drive n).cylinder.getD 0) x.cylinder = true → x.cls = .bulk →
      s.oldest (s.nearest ((s.drive n).cylinder.getD 0) dir (s.queuedJobs n .bulk)) = some j := fun dir hd hc =>
    oldest_only s ((mem_nearest_only s _ dir (alone _) (hc ▸ mem)).2 (cylinder ▸ hd)) fun k hk =>
      alone .bulk k (List.mem_of_mem_filter (List.mem_of_mem_filter hk))
  unfold State.select
  dsimp only
  generalize s.directions[n] = dir
  cases hc : x.cls with
  | urgent => simp [oldest_only s (hc ▸ mem) (alone _)]
  | bulk =>
    have none : s.queuedJobs n .urgent = [] := List.eq_nil_iff_forall_not_mem.2 fun k hk => by
      obtain ⟨z, hz, -, -, hzc⟩ := (mem_queuedJobs s n .urgent k).1 hk
      rw [alone .urgent k hk, hx] at hz
      cases hz
      rw [hc] at hzc
      cases hzc
    rw [none, State.oldest]
    cases ha : dir.ahead ((s.drive n).cylinder.getD 0) x.cylinder with
    | true => simp [near dir ha hc]
    | false =>
      have behind : s.nearest ((s.drive n).cylinder.getD 0) dir (s.queuedJobs n .bulk) = [] :=
        List.eq_nil_iff_forall_not_mem.2 fun k hk => by
          have e := alone .bulk k (List.mem_of_mem_filter (List.mem_of_mem_filter hk))
          rw [e, mem_nearest_only s _ dir (alone _) (hc ▸ mem), cylinder, ha] at hk
          cases hk
      simp [behind, State.oldest, near dir.reverse ((ahead_or_reverse dir _ _).resolve_left (by simp [ha])) hc]

/-! ### Taking the job up -/

/-- What an IDLE unit makes of its drive and of the job handed to it, by where its heads stand (R10 to R12, R14, R48). -/
structure State.TakesUp (s : State) (n : UnitId) (x : Job) (e D : Drive) (z : Job) : Prop where
  lost : e.cylinder = none → D = e.restoring s.clock ∧ z = { x with state := .positioning }
  away : ∀ at_, e.cylinder = some at_ → at_ ≠ x.cylinder → D = e.seeking s.clock ∧ z = { x with state := .positioning }
  settles : e.cylinder = some x.cylinder → e.positioningSettle ≠ 0 →
    D = e.settling e.positioningSettle ∧ z = { x with state := .positioning }
  tracks : e.cylinder = some x.cylinder → e.positioningSettle = 0 →
    ∃ p, s.PassPrepared n x p ∧ D = e.tracked.started p ∧ z = { x with state := .reading }

theorem State.setJob_setJob (s : State) (j : JobIx) (x y : Option Job) : (s.setJob j x).setJob j y = s.setJob j y := by
  simp [State.setJob]

theorem State.setJob_self {s : State} {j : JobIx} {x : Option Job} (h : s.job j = x) : s.setJob j x = s := by
  simp [State.setJob, ← h, State.job]

/-- A unit leaves IDLE with a job that is POSITIONING (R10). -/
theorem State.leaveIdle_takesUp {s t : State} {n : UnitId} {j : JobIx} {x : Job} {e : Drive}
    (hj : t.job j = some { x with state := .positioning }) (hh : e.heldJob = some j) (ht : e.target = some x.cylinder)
    (hd : e.descriptor = (s.drive n).descriptor) (htd : e.descriptor = (t.drive n).descriptor)
    (hprofiles : t.profiles = s.profiles) (hquirks : t.quirks = s.quirks) (hclock : t.clock = s.clock)
    (hp : (s.unitProfiles n).active.passes ≠ []) (hl : x.passCount < (s.unitProfiles n).active.passLimit) :
    ∃ z D, (t.setDrive n e).leaveIdle n = ((t.setJob j (some z)).setDrive n D, false) ∧ s.TakesUp n x e D z := by
  have kept := State.setJob_self hj
  have drive := drive_setDrive_same t n e
  have clock : (t.setDrive n e).clock = s.clock := hclock
  cases hc : e.cylinder with
  | none =>
    refine ⟨_, e.restoring s.clock, ?_, ⟨fun _ => ⟨rfl, rfl⟩, fun _ h => ?_, fun h => ?_, fun h => ?_⟩⟩
    · rw [State.leaveIdle_lost (by rw [drive]; exact hc), drive, setDrive_setDrive, kept, clock]
    all_goals (rw [hc] at h; cases h)
  | some at_ =>
    by_cases there : at_ = x.cylinder
    · subst there
      have settle : (t.setDrive n e).leaveIdle n = (t.setDrive n e).settleFor n e.positioningSettle := by
        rw [State.leaveIdle_there (by rw [drive]; exact hc) (by rw [drive]; exact ht), drive]
      by_cases still : e.positioningSettle = 0
      · have prepared : t.preparePass n { x with state := .positioning } = s.preparePass n x :=
          State.preparePass_congr hprofiles hquirks (htd.symm.trans hd) rfl rfl rfl
        refine ⟨{ x with state := .reading }, e.tracked.started (s.preparePass n x), ?_, ⟨fun h => ?_, fun _ h g => ?_,
          fun _ h => absurd still h, fun _ _ => ⟨_, s.preparePass_prepared n x hp, rfl, rfl⟩⟩⟩
        · have below : ({ x with state := .positioning } : Job).passCount < (t.unitProfiles n).active.passLimit := by
            rw [State.unitProfiles, hprofiles]
            exact hl
          rw [settle, still, ← prepared]
          exact State.enterTracking_prepares hh hj htd below
        · rw [hc] at h; cases h
        · rw [hc] at h; cases h; exact absurd rfl g
      · refine ⟨_, e.settling e.positioningSettle, ?_, ⟨fun h => ?_, fun _ h g => ?_, fun _ _ => ⟨rfl, rfl⟩,
          fun _ h => absurd h still⟩⟩
        · rw [settle, State.settleFor_eq n still, drive, setDrive_setDrive, kept]
        · rw [hc] at h; cases h
        · rw [hc] at h; cases h; exact absurd rfl g
    · refine ⟨_, e.seeking s.clock, ?_, ⟨fun h => ?_, fun _ _ _ => ⟨rfl, rfl⟩, fun h => ?_, fun h => ?_⟩⟩
      · rw [State.leaveIdle_away (at_ := at_) (by rw [drive]; exact hc) (by rw [drive, ht]; simpa using Ne.symm there), drive,
          setDrive_setDrive, kept, clock]
      all_goals (rw [hc] at h; cases h)
      all_goals exact absurd rfl there

/-- An IDLE unit takes up its one QUEUED job (R46 to R48). -/
theorem State.runSelection_takesUp {s t : State} {n : UnitId} {j : JobIx} {x : Job} (hx : t.job j = some x) (hu : x.unit = n)
    (hq : x.state = .queued) (only : ∀ i z, t.job i = some z → z.unit = n → z.state = .queued → i = j)
    (hdrives : t.drives = s.drives) (hi : (s.drive n).state = .idle) (hprofiles : t.profiles = s.profiles)
    (hquirks : t.quirks = s.quirks) (hclock : t.clock = s.clock) (hp : (s.unitProfiles n).active.passes ≠ [])
    (hl : x.passCount < (s.unitProfiles n).active.passLimit) {dir : Direction}
    (hdir : dir = if x.cls = .bulk ∧ (t.directions[n]).ahead ((s.drive n).cylinder.getD 0) x.cylinder = false then
      (t.directions[n]).reverse else t.directions[n]) :
    ∃ slots a z D, s.Combines n x.cylinder x.head 0 slots a ∧
      t.runSelection n = ((t.setDirection n dir).setJob j (some z)).setDrive n D ∧
      s.TakesUp n x (({ s.drive n with heldJob := some j, target := some x.cylinder } : Drive).evaluated slots a) D z := by
  have drive : t.drive n = s.drive n := by simp only [State.drive, hdrives]
  obtain ⟨slots, a, hcomb, hover⟩ := State.handOver_eq (u := s) hx hq hquirks (by rw [drive]) dir
  have taken := State.leaveIdle_takesUp (s := s) (n := n) (j := j) (x := x)
    (t := (t.setDirection n dir).setJob j (some { x with state := .positioning }))
    (e := ({ s.drive n with heldJob := some j, target := some x.cylinder } : Drive).evaluated slots a)
    (job_setJob_same _ _ _) rfl rfl rfl (congrArg Drive.descriptor drive).symm hprofiles hquirks hclock hp hl
  obtain ⟨z, D, leaves, takes⟩ := taken
  refine ⟨slots, a, z, D, hcomb, ?_, takes⟩
  have chosen := State.select_only hx hu hq only
  rw [drive, ← hdir] at chosen
  rw [drive] at hover
  rw [State.runSelection_taken (by rw [drive]; exact hi) chosen ((congrArg (State.leaveIdle · n) hover).trans leaves),
    State.setJob_setJob]

/-! ### The request -/

/-- The fields of RECOVER-TRACK as its body carries them (R44). -/
theorem trackBody_fields (u : Byte) (cylinder : BitVec 16) (head cls : Byte) (budget : BitVec 16) (wanted : BitVec 32)
    {body : List Byte} (hb : body = trackBody u cylinder head cls budget wanted) :
    byteAt body 0 = u.toNat ∧ field body 1 2 = cylinder.toNat ∧ byteAt body 3 = head.toNat ∧ byteAt body 4 = cls.toNat ∧
      field body 5 2 = budget.toNat ∧ field body 7 4 = wanted.toNat := by
  subst hb
  have h1 := cylinder.isLt
  have h2 := budget.isLt
  have h3 := wanted.isLt
  refine ⟨?_, ?_, ?_, ?_, ?_, ?_⟩
  · simp [trackBody, byteAt_eq]
  all_goals simp [trackBody, byteAt, field, bits, beBytes_two, beBytes_four, beNat]
  all_goals omega

theorem freeJob_of_lowestFree {s : State} {j : JobIx} (h : s.LowestFree j) : s.freeJob = some j := by
  unfold State.freeJob
  rw [List.find?_eq_some_iff_getElem]
  refine ⟨by simp [h.1], j.val, by simp, by simp, fun i hi => ?_⟩
  have taken := h.2 ⟨i, hi.trans j.isLt⟩ hi
  simpa [Option.isSome_iff_ne_none] using taken

theorem trackBusy_of_not_hasJob {s : State} {n : UnitId} (h : ¬ s.HasJob n) (cylinder head : Nat) :
    s.trackBusy n cylinder head = false := by
  unfold State.trackBusy
  rw [List.any_eq_false]
  intro j _ hj
  cases hx : s.job j with
  | none => rw [hx] at hj; cases hj
  | some x =>
    rw [hx] at hj
    simp only [Bool.and_eq_true, beq_iff_eq] at hj
    exact h ⟨j, x, hx, hj.1.1⟩

/-- RECOVER-TRACK of a defined unit, its fields in range and the track free (R44, R45). -/
theorem serveRecoverTrack_admits {s : State} {n : UnitId} {d : Descriptor} {c : JobClass} {j : JobIx} {x : Job} (tag : Tag)
    (cylinder : BitVec 16) (head cls : Byte) (budget : BitVec 16) (wanted : BitVec 32)
    (hd : (s.drive n).descriptor = some d) (hc : (cls = 0 ∧ c = .bulk) ∨ (cls = 1 ∧ c = .urgent))
    (hcyl : cylinder.toNat < d.cylinders) (hhead : head.toNat < d.heads)
    (hw : ∃ i, i < d.sectors ∧ wanted.getLsbD i = true) (hj : ¬ s.HasJob n) (hf : s.LowestFree j)
    (hx : x = jobAdmitted n cylinder.toNat head.toNat c tag budget.toNat
      ((List.range d.sectors).map (fun i => recordAdmitted (wanted.getLsbD i) none)) s.arrival) :
    ∃ st, serveRecoverTrack tag (trackBody (unitByte n) cylinder head cls budget wanted) s =
      { status := st, fields := [idByte j], state := (s.admitJob j x).runSelection n } := by
  obtain ⟨unit, fcyl, fhead, fcls, fbudget, fwanted⟩ := trackBody_fields (unitByte n) cylinder head cls budget wanted rfl
  have class' : classOf cls.toNat = some c := by
    obtain ⟨rfl, rfl⟩ | ⟨rfl, rfl⟩ := hc <;> rfl
  have kept : keptSectors wanted d.sectors = true := by
    obtain ⟨i, hi, hb⟩ := hw
    exact List.any_eq_true.2 ⟨i, List.mem_range.2 hi, hb⟩
  have fits : ¬ (d.cylinders ≤ cylinder.toNat ∨ d.heads ≤ head.toNat ∨ keptSectors wanted d.sectors = false) := by
    rw [kept]
    simp [hcyl, hhead]
  refine ⟨if droppedSectors wanted d.sectors then .clamped else .ok, ?_⟩
  unfold serveRecoverTrack
  simp only [unit, fcyl, fhead, fcls, fbudget, fwanted, unitOf_unitByte, class', hd, BitVec.ofNat_toNat, BitVec.setWidth_eq,
    if_neg fits, trackBusy_of_not_hasJob hj, freeJob_of_lowestFree hf, jobId_idByte, Bool.false_eq_true, if_false]
  rw [hx]
  rfl

/-- Settles O18. -/
theorem idleUnitTakesJob : Obligations.IdleUnitTakesJob := by
  intro tag n cylinder head cls budget wanted s d c j x h hd hc hcyl hhead hw hj hf hi hp hl hx
  obtain ⟨st, served⟩ := serveRecoverTrack_admits tag cylinder head cls budget wanted hd hc hcyl hhead hw hj hf hx
  have job : (s.admitJob j x).job j = some x := job_setJob_same s j (some x)
  have only : ∀ i z, (s.admitJob j x).job i = some z → z.unit = n → z.state = .queued → i = j := fun i z hz hzu _ => by
    by_contra hne
    exact hj ⟨i, z, (job_setJob_ne s (some x) (Ne.symm hne)).symm.trans hz, hzu⟩
  obtain ⟨dir, hdir⟩ : ∃ dir, dir = if x.cls = .bulk ∧ (s.directions[n]).ahead ((s.drive n).cylinder.getD 0) x.cylinder = false
    then (s.directions[n]).reverse else s.directions[n] := ⟨_, rfl⟩
  obtain ⟨slots, a, z, D, hcomb, run, takes⟩ := State.runSelection_takesUp (s := s) (t := s.admitJob j x) (n := n) job
    (by rw [hx]; rfl) (by rw [hx]; rfl) only rfl hi rfl rfl rfl hp (by rw [hx]; exact hl) hdir
  have ran := State.request_ran h 0x11 0x11 tag _ rfl (by decide)
    (by simp [lengthOk, bodyLengths, trackBody, bits, length_beBytes]) served
    ((State.runSelection_evolves (s.admitJob j x) n).same.link)
  have cyl : x.cylinder = cylinder.toNat := by rw [hx]; rfl
  have hd' : x.head = head.toNat := by rw [hx]; rfl
  have cls' : x.cls = c := by rw [hx]; rfl
  dsimp only at ran
  rw [run] at ran
  rw [cyl, hd'] at hcomb
  rw [cyl] at takes
  have drive : ∀ t : State, (t.setDrive n D).drive n = D := fun t => drive_setDrive_same t n D
  have mine : ∀ t : State, ((t.setJob j (some z)).setDrive n D).job j = some z := fun t => job_setJob_same t j (some z)
  refine ⟨st, _, slots, a, _, ran, hcomb, rfl, fun hn => ?_, fun at_ ha hne => ?_, fun ha he => ?_, fun ha he => ?_,
    fun m hm => drive_setDrive_ne _ D (Ne.symm hm), fun i hne => ?_, rfl, fun hu => ?_, fun hb at_ ha => ?_⟩
  · obtain ⟨rfl, rfl⟩ := takes.lost hn
    exact ⟨drive _, mine _⟩
  · obtain ⟨rfl, rfl⟩ := takes.away at_ ha (by rw [cyl]; exact hne)
    exact ⟨drive _, mine _⟩
  · obtain ⟨rfl, rfl⟩ := takes.settles (by rw [cyl]; exact ha) he
    exact ⟨drive _, mine _⟩
  · obtain ⟨p, hprep, rfl, rfl⟩ := takes.tracks (by rw [cyl]; exact ha) he
    exact ⟨p, hprep, drive _, mine _⟩
  · exact (job_setJob_ne _ _ (Ne.symm hne)).trans (job_setJob_ne s (some x) (Ne.symm hne))
  · refine (State.setDirection_same (s.admitJob j x) n dir).trans ?_
    rw [hdir, if_neg (by rw [cls', hu]; simp)]
  · have turned : dir = if (s.directions[n]).ahead at_ cylinder.toNat = false then (s.directions[n]).reverse
        else s.directions[n] := by
      rw [hdir, cls', hb, cyl, ← ha]
      simp
    show (_ → (((s.admitJob j x).setDirection n dir).directions[n] = .down ↔ _)) ∧
      (_ → (((s.admitJob j x).setDirection n dir).directions[n] = .up ↔ _))
    rw [State.setDirection_same, turned]
    constructor
    all_goals
      intro hdir
      rw [hdir]
      simp [Direction.ahead, Direction.reverse]

end Sys2Proof.Machine
end

section
/-! ## The stages of an index, whatever their order (log entry 1)

An index takes six stages, three of them free in their place. `Remaining` says what every tail of an order has in common, and
`indexIn_induction` carries a property through the stages that remain. -/

namespace Sys2Proof.Machine

/-! ### What remains of an order -/

/-- The stages whose order is fixed but for the speed fault and the revolution's work: the monitor comes before both. -/
def IndexStage.judges : IndexStage → Bool
  | .monitor => true
  | .speed => true
  | .track => true
  | .budget => false
  | .deferral => false
  | .swap => false

theorem filter_insertIdx {α : Type} (p : α → Bool) {a : α} (h : p a = false) (i : Nat) (l : List α) :
    (l.insertIdx i a).filter p = l.filter p := by
  induction i generalizing l with
  | zero => simp [h]
  | succ i ih =>
    cases l with
    | nil => simp
    | cons b l => simp only [List.insertIdx_succ_cons, List.filter_cons, ih]

theorem indexStages_judges (o : IndexOrder) : (indexStages o).filter IndexStage.judges =
    if o.faultFirst then [.monitor, .speed, .track] else [.monitor, .track, .speed] := by
  unfold indexStages
  dsimp only
  rw [filter_insertIdx _ rfl, filter_insertIdx _ rfl, filter_insertIdx _ rfl]
  split <;> rfl

/-- The stages still to be taken in an order. -/
structure Remaining (faultFirst : Bool) (rest : List IndexStage) : Prop where
  once : rest.Nodup
  judges : rest.filter IndexStage.judges <:+ if faultFirst then [.monitor, .speed, .track] else [.monitor, .track, .speed]

theorem remaining_indexStages (o : IndexOrder) : Remaining o.faultFirst (indexStages o) :=
  ⟨(indexStages_once o).1, by rw [indexStages_judges]⟩

variable {faultFirst : Bool} {stage : IndexStage} {rest : List IndexStage}

theorem Remaining.tail (h : Remaining faultFirst (stage :: rest)) : Remaining faultFirst rest := by
  refine ⟨(List.nodup_cons.1 h.once).2, List.IsSuffix.trans ?_ h.judges⟩
  rw [List.filter_cons]
  split
  · exact List.suffix_cons _ _
  · exact List.suffix_refl _

theorem Remaining.fresh (h : Remaining faultFirst (stage :: rest)) : stage ∉ rest := (List.nodup_cons.1 h.once).1

theorem mem_judges (hs : stage.judges = true) : stage ∈ rest ↔ stage ∈ rest.filter IndexStage.judges := by
  rw [List.mem_filter, hs]
  simp

/-- The monitor handles the index before its speed is judged and the revolution's work is done. -/
theorem Remaining.measured (h : Remaining faultFirst rest) (hm : .monitor ∈ rest) : .speed ∈ rest ∧ .track ∈ rest := by
  have judges := h.judges
  rw [mem_judges rfl] at hm
  rw [mem_judges (stage := .speed) rfl, mem_judges (stage := .track) rfl]
  cases faultFirst
  all_goals
    simp only [Bool.false_eq_true, if_false, if_true, List.suffix_cons_iff, List.suffix_nil] at judges
    obtain e | e | e | e := judges <;> simp_all

/-- The speed is judged, and the revolution's work done, only when the monitor has handled the index. -/
theorem Remaining.after_monitor (h : Remaining faultFirst (stage :: rest)) (hs : stage = .speed ∨ stage = .track) :
    .monitor ∉ rest := fun hm => by
  obtain ⟨speed, track⟩ := h.tail.measured hm
  obtain rfl | rfl := hs
  · exact h.fresh speed
  · exact h.fresh track

/-- A property of the stages that remain, carried through an order. -/
theorem Remaining.foldl {g : State → IndexStage → State} {P : List IndexStage → State → Prop}
    (step : ∀ stage rest s, Remaining faultFirst (stage :: rest) → P (stage :: rest) s → P rest (g s stage)) :
    ∀ (l : List IndexStage) (s : State), Remaining faultFirst l → P l s → P [] (l.foldl g s)
  | [], _, _, h => h
  | stage :: rest, s, hl, h => Remaining.foldl step rest (g s stage) hl.tail (step stage rest s hl h)

/-- An index of a unit whose periods are measured, stage by stage. -/
theorem State.indexIn_induction {u : State} {n : UnitId} {cut : CutField} {order : IndexOrder}
    {P : List IndexStage → State → Prop} (hr : (u.drive n).state.Ready)
    (start : P (indexStages order) (u.setDrive n ((u.drive n).indexSeen u.clock)))
    (step : ∀ stage rest s, Remaining order.faultFirst (stage :: rest) → P (stage :: rest) s →
      P rest (State.indexStage n (u.situation n) (u.drive n).heldJob cut s stage)) :
    P [] (u.indexIn n cut order) := by
  have situation : (u.modDrive n fun d => d.indexSeen u.clock).situation n = u.situation n := by
    unfold State.situation
    rw [modDrive_drive]
    rfl
  have held : ((u.modDrive n fun d => d.indexSeen u.clock).drive n).heldJob = (u.drive n).heldJob := by
    rw [modDrive_drive]
    rfl
  unfold State.indexIn
  rw [if_neg (fun e => by rw [e] at hr; simp [DriveState.Ready] at hr)]
  dsimp only
  rw [if_pos ((measures_iff _).2 hr), situation, held]
  exact Remaining.foldl step _ _ (remaining_indexStages order) start

/-! ### What each stage does -/

/-- A stage of an index before the arbiter runs (R27). -/
def State.stageWork (n : UnitId) (at_ : Situation) (held : Option JobIx) (cut : CutField) (s : State) : IndexStage → State
  | .monitor => s.stageMonitor n
  | .speed => s.stageSpeed n at_
  | .track => s.stageTrack n at_ held cut
  | .budget => s.stageBudget n held
  | .deferral => s.stageDeferral n
  | .swap => s.stageSwap n at_ held

theorem State.indexStage_eq (n : UnitId) (at_ : Situation) (held : Option JobIx) (cut : CutField) (s : State)
    (stage : IndexStage) :
    State.indexStage n at_ held cut s stage = (State.stageWork n at_ held cut s stage).arbitrate := by
  cases stage <;> rfl

/-- The monitor's stage, of a defined unit (R4 to R6). -/
theorem State.stageMonitor_eq {s : State} {n : UnitId} {x : Descriptor} (hx : (s.drive n).descriptor = some x) :
    s.stageMonitor n =
      ({ s with flags := if (s.drive n).monitor.speed = .inTolerance ∧ ((s.drive n).monitor.index x s.clock).speed = .out then
          s.flags.raise (4 * n.val + 1) else s.flags } : State).setDrive n
        { s.drive n with monitor := (s.drive n).monitor.index x s.clock } := by
  have inTol : (!s.speedOut n) = true ↔ (s.drive n).monitor.speed = .inTolerance := by
    rw [Bool.not_eq_true', State.speedOut_false_iff]
  unfold State.stageMonitor
  rw [hx]
  dsimp only
  have out : (s.modDrive n fun d => { d with monitor := d.monitor.index x s.clock }).speedOut n = true ↔
      ((s.drive n).monitor.index x s.clock).speed = .out := by
    rw [State.speedOut_iff, modDrive_drive]
  simp only [Bool.and_eq_true, inTol, out]
  split <;> rfl

/-- The budget's stage, of the job held when the index came and still held (R49). -/
theorem State.stageBudget_eq {s : State} {n : UnitId} {j : JobIx} {y : Job} (hh : (s.drive n).heldJob = some j)
    (hy : s.job j = some y) :
    s.stageBudget n (some j) = if y.budget ≤ 1 then (s.setJob j (some y.spent)).endJobAndGoOn j .budgetExhausted
      else s.setJob j (some y.spent) := by
  have zero : y.revolution.budget = 0 ↔ y.budget ≤ 1 := Nat.sub_eq_zero_iff_le
  unfold State.stageBudget
  dsimp only
  rw [if_pos hh, hy]
  dsimp only
  simp only [zero]
  rfl

theorem State.stageBudget_spends {s : State} {n : UnitId} {j : JobIx} {y : Job} (hh : (s.drive n).heldJob = some j)
    (hy : s.job j = some y) (hb : 2 ≤ y.budget) : s.stageBudget n (some j) = s.setJob j (some y.spent) := by
  rw [State.stageBudget_eq hh hy, if_neg (by omega)]

theorem State.stageBudget_other {s : State} {n : UnitId} {held : Option JobIx} (hh : (s.drive n).heldJob ≠ held) :
    s.stageBudget n held = s := by
  unfold State.stageBudget
  split
  · rfl
  · exact if_neg hh

theorem State.stageDeferral_eq (s : State) (n : UnitId) :
    s.stageDeferral n = if s.requesting n = true ∧ s.channel.state.holds n = false then
      s.setDrive n { s.drive n with deferral := min 255 ((s.drive n).deferral + 1) } else s := by
  unfold State.stageDeferral
  simp only [Bool.and_eq_true, Bool.not_eq_true']
  rfl

theorem State.stageDeferral_none {s : State} {n : UnitId} (h : s.requesting n = false ∨ s.channel.state.holds n = true) :
    s.stageDeferral n = s := by
  rw [State.stageDeferral_eq, if_neg]
  rintro ⟨hr, hc⟩
  rcases h with h | h
  · rw [h] at hr; cases hr
  · rw [h] at hc; cases hc

theorem State.takeSwap_none {s : State} {n : UnitId} (h : (s.unitProfiles n).swapPending = false) : s.takeSwap n = s := by
  unfold State.takeSwap
  rw [h]
  rfl

/-- A unit's profiles after an index has taken a pending swap (R120). -/
def UnitProfiles.taken (p : UnitProfiles) : UnitProfiles := if p.swapPending then p.exchanged else p

theorem State.setProfiles_self (s : State) (n : UnitId) : s.setProfiles n (s.unitProfiles n) = s := by
  simp [State.setProfiles, State.unitProfiles]

/-- A swap of a unit with no pass loop (R120). -/
theorem State.takeSwap_eq {s : State} {n : UnitId} (h : (s.drive n).state ≠ .tracking) :
    s.takeSwap n = s.setProfiles n (s.unitProfiles n).taken := by
  unfold State.takeSwap UnitProfiles.taken
  split
  · exact if_neg fun e => h e.1
  · exact (State.setProfiles_self s n).symm

theorem State.stageSwap_eq {s : State} {n : UnitId} {at_ : Situation} (ha : at_ ≠ .closing) (held : Option JobIx) :
    s.stageSwap n at_ held = s.takeSwap n := if_neg fun e => ha e.1

theorem State.stageSwap_none {s : State} {n : UnitId} (h : (s.unitProfiles n).swapPending = false) (at_ : Situation)
    (held : Option JobIx) : s.stageSwap n at_ held = s := by
  unfold State.stageSwap
  rw [if_neg fun e => by rw [h] at e; cases e.2.2.2]
  exact State.takeSwap_none h

theorem State.releaseEarly_none {s : State} {n : UnitId} (h : s.channel.state.holds n = false) : s.releaseEarly n = s := by
  unfold State.releaseEarly
  rw [h]
  rfl

end Sys2Proof.Machine
end

section
/-! ## The state in the course of an index

`Pulse` holds what the stages of an index change about its unit, its job and the channel; a stage's effect is then a change
of one item of it. -/

namespace Sys2Proof.Machine

/-- What an index has made so far of its unit, of the job held when it came, of the flags and of the channel. -/
structure Pulse where
  profiles : UnitProfiles
  flags : FlagUnit
  job : Option Job
  drive : Drive
  channel : Channel

/-- A state with the items of a pulse in place of its own. -/
def State.pulsed (u : State) (n : UnitId) (j : JobIx) (v : Pulse) : State :=
  { u with
    profiles := u.profiles.set n v.profiles, flags := v.flags, jobs := u.jobs.set j v.job,
    drives := u.drives.set n v.drive, channel := v.channel }

variable (u : State) (n : UnitId) (j : JobIx) (v : Pulse)

/-- The items of a state itself. -/
def State.pulse : Pulse :=
  { profiles := u.unitProfiles n, flags := u.flags, job := u.job j, drive := u.drive n, channel := u.channel }

theorem State.pulsed_drive : (u.pulsed n j v).drive n = v.drive := by simp [State.pulsed, State.drive]

theorem State.pulsed_drive_other {m : UnitId} (h : m ≠ n) : (u.pulsed n j v).drive m = u.drive m :=
  drive_setDrive_ne u v.drive (Ne.symm h)

theorem State.pulsed_job : (u.pulsed n j v).job j = v.job := by simp [State.pulsed, State.job]

theorem State.pulsed_job_other {i : JobIx} (h : i ≠ j) : (u.pulsed n j v).job i = u.job i :=
  job_setJob_ne u v.job (Ne.symm h)

theorem State.pulsed_unitProfiles : (u.pulsed n j v).unitProfiles n = v.profiles := by
  simp [State.pulsed, State.unitProfiles]

theorem State.pulsed_unitProfiles_other {m : UnitId} (h : m ≠ n) :
    (u.pulsed n j v).unitProfiles m = u.unitProfiles m :=
  State.setProfiles_unitProfiles_other u n m v.profiles (Ne.symm h)

theorem State.pulsed_setDrive (d : Drive) : (u.pulsed n j v).setDrive n d = u.pulsed n j { v with drive := d } := by
  simp [State.pulsed, State.setDrive]

theorem State.pulsed_setJob (x : Option Job) : (u.pulsed n j v).setJob j x = u.pulsed n j { v with job := x } := by
  simp [State.pulsed, State.setJob]

theorem State.pulsed_setProfiles (p : UnitProfiles) :
    (u.pulsed n j v).setProfiles n p = u.pulsed n j { v with profiles := p } := by
  simp [State.pulsed, State.setProfiles]

theorem State.pulsed_eq : u.pulsed n j v =
    ((({ u with flags := v.flags, channel := v.channel } : State).setProfiles n v.profiles).setJob j v.job).setDrive n
      v.drive := rfl

theorem State.pulsed_self (d : Drive) : u.pulsed n j { u.pulse n j with drive := d } = u.setDrive n d := by
  simp [State.pulsed, State.pulse, State.setDrive, State.unitProfiles, State.job]

variable {u n j v}

/-! ### The stages -/

theorem State.stageMonitor_pulsed {x : Descriptor} (hx : v.drive.descriptor = some x) :
    (u.pulsed n j v).stageMonitor n = u.pulsed n j
      { v with
        flags := if v.drive.monitor.speed = .inTolerance ∧ (v.drive.monitor.index x u.clock).speed = .out then
          v.flags.raise (4 * n.val + 1) else v.flags
        drive := { v.drive with monitor := v.drive.monitor.index x u.clock } } := by
  rw [State.stageMonitor_eq (by rw [State.pulsed_drive]; exact hx), State.pulsed_drive]
  simp [State.pulsed, State.setDrive]
  rfl

theorem State.stageBudget_pulsed {y : Job} (hh : v.drive.heldJob = some j) (hy : v.job = some y) (hb : 2 ≤ y.budget) :
    (u.pulsed n j v).stageBudget n (some j) = u.pulsed n j { v with job := some y.spent } := by
  rw [State.stageBudget_spends (by rw [State.pulsed_drive]; exact hh) (by rw [State.pulsed_job]; exact hy) hb,
    State.pulsed_setJob]

theorem State.stageSwap_pulsed {at_ : Situation} (ha : at_ ≠ .closing) (hs : v.drive.state ≠ .tracking)
    (held : Option JobIx) :
    (u.pulsed n j v).stageSwap n at_ held = u.pulsed n j { v with profiles := v.profiles.taken } := by
  rw [State.stageSwap_eq ha, State.takeSwap_eq (by rw [State.pulsed_drive]; exact hs), State.pulsed_unitProfiles,
    State.pulsed_setProfiles]

theorem State.stageSwap_pulsed_none (hp : v.profiles.swapPending = false) (at_ : Situation) (held : Option JobIx) :
    (u.pulsed n j v).stageSwap n at_ held = u.pulsed n j v :=
  State.stageSwap_none (by rw [State.pulsed_unitProfiles]; exact hp) at_ held

/-! ### Requests and grants -/

theorem State.requesting_eq_false {s : State} {n : UnitId}
    (h : (s.drive n).state ≠ .tracking ∨ (s.drive n).waiting ≠ 0 ∨ ¬ (s.drive n).monitor.Settled) :
    s.requesting n = false := by
  unfold State.requesting
  obtain h | h | h := h
  · exact requesting_notTracking s n h
  · simp [h]
  · have : (s.drive n).monitor.trimSettled = false := by
      simpa [Monitor.trimSettled, Monitor.Settled] using h
    simp [this]

/-- The channel has nothing to grant (R27). -/
theorem State.Granted.arbitrate {s : State} (h : s.Granted) : s.arbitrate = s := by
  by_cases hc : s.channel.state = .idle
  · exact arbitrate_none s (h hc)
  · unfold State.arbitrate
    exact if_neg hc

theorem State.mayStartPass_mono {s t : State} {m : UnitId} (hd : t.drive m = s.drive m)
    (hp : t.unitProfiles m = s.unitProfiles m)
    (hj : ∀ i y, t.job i = some y → ∃ x, s.job i = some x ∧ y.passCount = x.passCount ∧ y.budget ≤ x.budget)
    (h : t.mayStartPass m = true) : s.mayStartPass m = true := by
  unfold State.mayStartPass at h ⊢
  rw [hd] at h
  cases hh : (s.drive m).heldJob with
  | none => rw [hh] at h; cases h
  | some i =>
    rw [hh] at h
    simp only [Option.bind_some] at h ⊢
    cases ht : t.job i with
    | none => rw [ht] at h; cases h
    | some y =>
      obtain ⟨x, hx, hc, hb⟩ := hj i y ht
      have active : t.active m = s.active m := congrArg UnitProfiles.active hp
      rw [ht] at h
      rw [hx]
      simp only [Bool.and_eq_true, decide_eq_true_eq, active, hc] at h ⊢
      exact ⟨h.1, by omega⟩

/-- Where the channel had nothing to grant and the unit requests nothing, an index leaves nothing to grant. -/
theorem State.Granted.pulsed (h : u.Granted) (hc : v.channel.state = .idle → u.channel.state = .idle)
    (hn : (u.pulsed n j v).requesting n = false)
    (hj : ∀ y, v.job = some y → ∃ x, u.job j = some x ∧ y.passCount = x.passCount ∧ y.budget ≤ x.budget) :
    (u.pulsed n j v).Granted := by
  intro idle m
  by_cases e : m = n
  · subst e
    exact hn
  · by_contra hr
    have drive := State.pulsed_drive_other u n j v e
    have kept : (u.pulsed n j v).mayStartPass m = true → u.mayStartPass m = true :=
      State.mayStartPass_mono drive (State.pulsed_unitProfiles_other u n j v e) fun i y hy => by
        by_cases ei : i = j
        · subst ei
          exact hj y (by rw [State.pulsed_job] at hy; exact hy)
        · exact ⟨y, by rw [State.pulsed_job_other u n j v ei] at hy; exact hy, rfl, le_refl _⟩
    have := h (hc idle) m
    simp only [State.requesting, drive, Bool.not_eq_false, Bool.and_eq_true] at hr this
    obtain ⟨hstate, hmay⟩ := hr
    rw [kept hmay] at this
    simp [hstate] at this

end Sys2Proof.Machine
end

section
/-! ## An index at which one stage does the work -/

namespace Sys2Proof.Machine

theorem exec_indexPulse (n : UnitId) (elapsed : Nat) (cut : CutField) (s : State) :
    exec (.indexPulse n elapsed cut) s =
      .next (({ s with clock := s.clock + elapsed, choices := s.choices + 1 } : State).indexIn n cut
        (Config.indexOrder s.choices)).finish := rfl

theorem Drive.indexSeen_eq {d : Drive} {x : Descriptor} (hr : d.state.Ready) (hx : d.descriptor = some x) (now : Nat) :
    d.indexSeen now = { d with indexLost := false, indexTimer := some (now + 3 * x.period) } := by
  simp [Drive.indexSeen, ready_timed hr, Drive.timerFrom, hx]

theorem Drive.indexed_eq {d : Drive} {x : Descriptor} (hr : d.state.Ready) (hx : d.descriptor = some x) (now : Nat) :
    { d.indexSeen now with monitor := d.monitor.index x now } = d.indexed x now := by
  rw [Drive.indexSeen_eq hr hx]
  rfl

/-- The flags after the monitor has handled an index of a unit (R5). -/
def State.indexFlags (u : State) (n : UnitId) (x : Descriptor) : FlagUnit :=
  if (u.drive n).monitor.speed = .inTolerance ∧ ((u.drive n).monitor.index x u.clock).speed = .out then
    u.flags.raise (4 * n.val + 1) else u.flags

/-- The course of an index whose work, the drive and the channel after it, is done by one stage alone. -/
def State.course (u : State) (n : UnitId) (j : JobIx) (x : Descriptor) (done : IndexStage) (y : Option Job) (g : Drive)
    (c : Channel) (rest : List IndexStage) : Pulse :=
  { profiles := if .swap ∈ rest then u.unitProfiles n else (u.unitProfiles n).taken
    flags := if .monitor ∈ rest then u.flags else u.indexFlags n x
    job := if .budget ∈ rest then u.job j else y
    drive := if .monitor ∈ rest then (u.drive n).indexSeen u.clock
      else if done ∈ rest then (u.drive n).indexed x u.clock else g
    channel := if done ∈ rest then u.channel else c }

/-- What the held job's entry is after the budget's stage: spent where a job is held (R49). -/
inductive State.Spends (u : State) (n : UnitId) (j : JobIx) (g : Drive) : Option Job → Prop where
  | unheld : (u.drive n).heldJob = none → Spends u n j g (u.job j)
  | held (y : Job) : (u.drive n).heldJob = some j → g.heldJob = some j → u.job j = some y → 2 ≤ y.budget →
    Spends u n j g (some y.spent)

theorem State.indexIn_course {u : State} {n : UnitId} {j : JobIx} {x : Descriptor} {done : IndexStage} {y : Option Job}
    {g : Drive} {c : Channel} {cut : CutField} {order : IndexOrder} (hr : (u.drive n).state.Ready)
    (hx : (u.drive n).descriptor = some x) (hdone : done = .speed ∨ done = .track)
    (hswap : (u.unitProfiles n).swapPending = false ∨
      (u.situation n ≠ .closing ∧ (u.drive n).state ≠ .tracking ∧ g.state ≠ .tracking))
    (hspends : u.Spends n j g y)
    (quiet : ∀ rest, Remaining order.faultFirst rest → (u.pulsed n j (u.course n j x done y g c rest)).Granted ∧
      ((u.pulsed n j (u.course n j x done y g c rest)).requesting n = false ∨
        (u.course n j x done y g c rest).channel.state.holds n = true))
    (speed : ∀ rest, Remaining order.faultFirst (.speed :: rest) →
      (u.pulsed n j (u.course n j x done y g c (.speed :: rest))).stageSpeed n (u.situation n) =
        u.pulsed n j (u.course n j x done y g c rest))
    (track : ∀ rest, Remaining order.faultFirst (.track :: rest) →
      (u.pulsed n j (u.course n j x done y g c (.track :: rest))).stageTrack n (u.situation n) (u.drive n).heldJob cut =
        u.pulsed n j (u.course n j x done y g c rest)) :
    u.indexIn n cut order = u.pulsed n j (u.course n j x done y g c []) := by
  have all := (indexStages_once order).2
  refine State.indexIn_induction (P := fun rest t => t = u.pulsed n j (u.course n j x done y g c rest)) hr ?_ ?_
  · rw [← State.pulsed_self u n j]
    simp [State.course, State.pulse, all]
  · rintro stage rest t hrest rfl
    obtain ⟨granted, still⟩ := quiet _ hrest
    obtain ⟨granted', -⟩ := quiet rest hrest.tail
    have fresh := hrest.fresh
    have next : ∀ t, t = u.pulsed n j (u.course n j x done y g c rest) →
        t.arbitrate = u.pulsed n j (u.course n j x done y g c rest) := fun t ht => by rw [ht, granted'.arbitrate]
    cases stage with
    | speed => exact next _ (speed rest hrest)
    | track => exact next _ (track rest hrest)
    | deferral =>
      refine next _ ((State.stageDeferral_none still).trans ?_)
      obtain rfl | rfl := hdone <;> simp [State.course]
    | swap =>
      refine next _ ?_
      obtain hp | ⟨ha, hst, hg⟩ := hswap
      · rw [State.stageSwap_pulsed_none (by simpa [State.course] using hp)]
        obtain rfl | rfl := hdone <;> simp [State.course, UnitProfiles.taken, hp]
      · rw [State.stageSwap_pulsed ha ?_]
        · obtain rfl | rfl := hdone <;> simp [State.course, fresh]
        · simp only [State.course]
          split
          · exact hst
          · split
            · exact hst
            · exact hg
    | budget =>
      refine next _ ?_
      cases hspends with
      | unheld hh =>
        rw [hh]
        obtain rfl | rfl := hdone <;> simp [State.course, State.stageBudget]
      | held y hh hg hy hb =>
        have held : (u.course n j x done (some y.spent) g c (.budget :: rest)).drive.heldJob = some j := by
          simp only [State.course]
          split
          · exact hh
          · split
            · exact hh
            · exact hg
        rw [hh, State.stageBudget_pulsed held (by simpa [State.course] using hy) hb]
        obtain rfl | rfl := hdone <;> simp [State.course, fresh]
    | monitor =>
      have later : done ∈ rest := by
        obtain ⟨hspeed, htrack⟩ := hrest.measured (by simp)
        obtain rfl | rfl := hdone
        · simpa using hspeed
        · simpa using htrack
      have seen : (u.course n j x done y g c (.monitor :: rest)).drive = (u.drive n).indexSeen u.clock := by
        simp [State.course]
      refine next _ ?_
      rw [State.stageMonitor_pulsed (x := x) (by rw [seen]; exact hx), seen]
      obtain rfl | rfl := hdone <;> simp [State.course, fresh, later, State.indexFlags, ← Drive.indexed_eq hr hx]
      all_goals rfl

theorem State.Spends.mono {u : State} {n : UnitId} {j : JobIx} {g : Drive} {o : Option Job} (h : u.Spends n j g o)
    (pending : Prop) [Decidable pending] (y : Job) (hy : (if pending then u.job j else o) = some y) :
    ∃ x, u.job j = some x ∧ y.passCount = x.passCount ∧ y.budget ≤ x.budget := by
  cases h with
  | unheld => rw [ite_self] at hy; exact ⟨y, hy, rfl, le_refl _⟩
  | held x _ _ hx =>
    refine ⟨x, hx, ?_⟩
    split at hy
    · rw [hx] at hy; cases hy; exact ⟨rfl, le_refl _⟩
    · cases hy; exact ⟨rfl, Nat.sub_le _ _⟩

/-- An index of a unit that requests nothing in its course leaves the channel as it was. -/
theorem State.course_quiet {u : State} {n : UnitId} {j : JobIx} {x : Descriptor} {done : IndexStage} {y : Option Job}
    {g : Drive} (h : u.Granted) (hspends : u.Spends n j g y)
    (hd : (u.drive n).state ≠ .tracking ∨ (u.drive n).waiting ≠ 0) (hg : g.state ≠ .tracking ∨ g.waiting ≠ 0)
    (rest : List IndexStage) :
    (u.pulsed n j (u.course n j x done y g u.channel rest)).Granted ∧
      ((u.pulsed n j (u.course n j x done y g u.channel rest)).requesting n = false ∨
        (u.course n j x done y g u.channel rest).channel.state.holds n = true) := by
  have quiet : (u.pulsed n j (u.course n j x done y g u.channel rest)).requesting n = false := by
    refine State.requesting_eq_false (or_assoc.1 (.inl ?_))
    rw [State.pulsed_drive]
    simp only [State.course]
    split
    · exact hd
    · split
      · exact hd
      · exact hg
  refine ⟨State.Granted.pulsed h (fun e => ?_) quiet fun y' hy => hspends.mono (IndexStage.budget ∈ rest) y' hy, .inl quiet⟩
  simpa [State.course] using e

end Sys2Proof.Machine
end

section
/-! ## An index of a unit with no pass under way (R4 to R8, R11, R12, R15, R16, R49) -/

namespace Sys2Proof.Machine

/-! ### The speed fault -/

theorem State.stageSpeed_faults {s : State} {n : UnitId} (hst : (s.drive n).state ∈ [.idle, .settling, .tracking])
    (ho : (s.drive n).monitor.speed = .out) (at_ : Situation) : s.stageSpeed n at_ = s.enterSpeedFault n at_ := by
  have out := (s.speedOut_iff n).2 ho
  simp only [List.mem_cons, List.not_mem_nil, or_false] at hst
  unfold State.stageSpeed
  obtain h | h | h := hst <;> rw [h, out]

theorem State.stageSpeed_leaves {s : State} {n : UnitId} (hst : (s.drive n).state = .speedFault)
    (hi : (s.drive n).monitor.speed = .inTolerance) (at_ : Situation) : s.stageSpeed n at_ = s.leaveSpeedFault n := by
  unfold State.stageSpeed
  rw [hst, (s.speedOut_false_iff n).2 hi]

/-- The speed changes nothing of a unit in tolerance outside SPEED_FAULT, nor of one that is OUT and positions or stays
there (R16). -/
theorem State.stageSpeed_none {s : State} {n : UnitId}
    (hi : (s.drive n).state ∈ [.idle, .settling, .tracking] → (s.drive n).monitor.speed = .inTolerance)
    (ho : (s.drive n).state = .speedFault → (s.drive n).monitor.speed = .out) (at_ : Situation) :
    s.stageSpeed n at_ = s := by
  have tolerable : ∀ b, s.speedOut n = b → (s.drive n).monitor.speed = .inTolerance → b = false := fun b hb h => by
    rw [← hb, State.speedOut_false_iff, h]
  unfold State.stageSpeed
  split
  · next h g => exact absurd (tolerable _ g (hi (by rw [h]; simp))) (by simp)
  · next h g => exact absurd (tolerable _ g (hi (by rw [h]; simp))) (by simp)
  · next h g => exact absurd (tolerable _ g (hi (by rw [h]; simp))) (by simp)
  · next h g =>
    have hout := (s.speedOut_iff n).2 (ho h)
    rw [g] at hout
    cases hout
  · rfl

theorem State.enterSpeedFault_eq {s : State} {n : UnitId} {at_ : Situation}
    (ha : at_ ≠ .closing ∨ s.channel.state ≠ .capturing n) :
    s.enterSpeedFault n at_ = (s.setDrive n { (s.drive n).quieted with state := .speedFault }).releaseEarly n := by
  unfold State.enterSpeedFault
  rw [if_neg fun e => ha.elim (fun h => h e.1) fun h => h e.2, State.modDrive_eq_setDrive, Drive.enter_speedFault]

/-! ### What the revolution's work is -/

theorem State.situation_eq {s : State} {n : UnitId} (h : s.channel.state.holds n = false) :
    s.situation n = if (s.drive n).state = .tracking then .looping
      else if (s.drive n).state = .settling then .settling else .other := by
  have free : s.channel.state ≠ .capturing n ∧ s.channel.state ≠ .reserved n := by
    have := (ChannelState.holds_iff s.channel.state n).not.1 (by rw [h]; simp)
    exact ⟨fun e => this (.inr e), fun e => this (.inl e)⟩
  unfold State.situation
  rw [if_neg free.1, if_neg free.2]
  cases (s.drive n).state <;> rfl

/-! ### The unit without a pass -/

/-- A drive that neither settles nor tracks, once its speed has been judged (R16). -/
def Drive.judged (e : Drive) : Drive :=
  if e.state = .idle ∧ e.monitor.speed = .out then { e.quieted with state := .speedFault }
  else if e.state = .speedFault ∧ e.monitor.speed = .inTolerance then e.idled
  else e

theorem State.leaveSpeedFault_noJob {s : State} {n : UnitId} (hh : (s.drive n).heldJob = none)
    (hq : ∀ j x, s.job j = some x → x.unit = n → x.state ≠ .queued) :
    s.leaveSpeedFault n = s.setDrive n (s.drive n).idled := by
  unfold State.leaveSpeedFault
  rw [hh]
  dsimp only
  rw [toIdle_noQueued s n hq, State.modDrive_eq_setDrive, Drive.enterIdle_idled _ hh]

/-- The speed's stage of a unit that neither settles nor tracks (R16). -/
theorem State.stageSpeed_judged {s : State} {n : UnitId} (hst : (s.drive n).state ∉ [.settling, .tracking])
    (hc : s.channel.state.holds n = false)
    (hi : (s.drive n).state = .speedFault → (s.drive n).monitor.speed = .inTolerance →
      (s.drive n).heldJob = none ∧ ∀ j x, s.job j = some x → x.unit = n → x.state ≠ .queued) {at_ : Situation}
    (ha : at_ ≠ .closing) : s.stageSpeed n at_ = s.setDrive n (s.drive n).judged := by
  have self : s.setDrive n (s.drive n) = s := by simp [State.setDrive, State.drive]
  unfold Drive.judged
  split
  · next h =>
    rw [State.stageSpeed_faults (by simp [h.1]) h.2, State.enterSpeedFault_eq (.inl ha)]
    exact State.releaseEarly_none hc
  · next hf =>
    split
    · next h =>
      obtain ⟨hh, hq⟩ := hi h.1 h.2
      rw [State.stageSpeed_leaves h.1 h.2, State.leaveSpeedFault_noJob hh hq]
    · next hl =>
      rw [self]
      refine State.stageSpeed_none (fun h => ?_) (fun h => ?_) at_
      · by_contra ho
        simp only [List.mem_cons, List.not_mem_nil, or_false, not_or] at h hst
        cases hs : (s.drive n).monitor.speed with
        | inTolerance => exact ho hs
        | out =>
          obtain h | h | h := h
          · exact hf ⟨h, hs⟩
          · exact hst.1 h
          · exact hst.2 h
      · cases hs : (s.drive n).monitor.speed with
        | inTolerance => exact absurd ⟨h, hs⟩ hl
        | out => rfl

/-- An index of a unit that neither settles nor tracks. -/
theorem State.indexIn_judged {u : State} {n : UnitId} {j : JobIx} {x : Descriptor} {y : Option Job} {e : Drive}
    {cut : CutField} {order : IndexOrder} (hr : (u.drive n).state.Ready) (hx : (u.drive n).descriptor = some x)
    (he : e = (u.drive n).indexed x u.clock) (hst : (u.drive n).state ∉ [.settling, .tracking]) (hg : u.Granted)
    (hc : u.channel.state.holds n = false) (hspends : u.Spends n j e.judged y)
    (hi : e.state = .speedFault → e.monitor.speed = .inTolerance → (u.drive n).heldJob = none ∧ ¬ u.HasQueued n) :
    u.indexIn n cut order = u.pulsed n j (u.course n j x .speed y e.judged u.channel []) := by
  have other : u.situation n = .other := by
    simp only [List.mem_cons, List.not_mem_nil, or_false, not_or] at hst
    rw [State.situation_eq hc, if_neg hst.2, if_neg hst.1]
  have judgedState : e.judged.state ≠ .tracking := by
    have est : e.state ≠ .tracking := by rw [he]; simp only [List.mem_cons, not_or] at hst; exact hst.2.1
    unfold Drive.judged
    split
    · simp
    · split
      · simp [Drive.idled]
      · exact est
  have untracked : (u.drive n).state ≠ .tracking := by simp only [List.mem_cons, not_or] at hst; exact hst.2.1
  refine State.indexIn_course hr hx (.inl rfl) (.inr ⟨by rw [other]; simp, untracked, judgedState⟩) hspends
    (fun rest _ => State.course_quiet hg hspends (.inl untracked) (.inl judgedState) rest) (fun rest hrest => ?_)
    (fun rest hrest => ?_)
  · have drive : (u.course n j x .speed y e.judged u.channel (.speed :: rest)).drive = e := by
      simp [State.course, hrest.after_monitor (.inl rfl), he]
    have here := State.pulsed_drive u n j (u.course n j x .speed y e.judged u.channel (.speed :: rest))
    rw [drive] at here
    rw [State.stageSpeed_judged (n := n) (by rw [here, he]; exact hst) (by simpa [State.course, State.pulsed] using hc) ?_
      (by rw [other]; simp), here, State.pulsed_setDrive]
    · simp [State.course, hrest.after_monitor (.inl rfl), hrest.fresh]
    · rw [here]
      intro h1 h2
      obtain ⟨hh, hq⟩ := hi h1 h2
      refine ⟨by rw [he]; exact hh, fun i z hz hu hzq => ?_⟩
      cases hspends with
      | held w g _ _ _ => rw [hh] at g; cases g
      | unheld _ =>
        refine hq ⟨i, z, ?_, hu, hzq⟩
        by_cases ei : i = j
        · subst ei
          rw [State.pulsed_job] at hz
          simpa [State.course] using hz
        · rw [State.pulsed_job_other _ _ _ _ ei] at hz
          exact hz
  · rw [other]
    simp [State.stageTrack, State.course]

/-- The state after an index at a time, its unit's drive apart (R5, R119, R120). -/
def State.indexedAt (s : State) (n : UnitId) (x : Descriptor) (now : Nat) : State :=
  if (s.drive n).monitor.speed = .inTolerance ∧ ((s.drive n).indexed x now).monitor.speed = .out then
    (s.swapped n now).raise (4 * n.val + 1)
  else s.swapped n now

/-- The whole course of an index, in the terms of the statements. -/
theorem State.course_done {s : State} {n : UnitId} {now : Nat} {x : Descriptor} {done : IndexStage} (j : JobIx) (y : Option Job)
    (g : Drive) {u : State} (hu : u = { s with clock := now, choices := s.choices + 1 }) :
    u.pulsed n j (u.course n j x done y g u.channel []) = ((s.indexedAt n x now).setJob j y).setDrive n g := by
  subst hu
  have flags := State.indexFlags.eq_1 { s with clock := now, choices := s.choices + 1 } n x
  unfold State.indexedAt State.course
  simp only [List.not_mem_nil, if_false]
  by_cases h : (s.drive n).monitor.speed = .inTolerance ∧ ((s.drive n).indexed x now).monitor.speed = .out
  · rw [if_pos h, flags.trans (if_pos h)]
    rfl
  · rw [if_neg h, flags.trans (if_neg h)]
    rfl

end Sys2Proof.Machine
end

section
/-! ## What an index measures -/

namespace Sys2Proof.Machine

/-- The trim target is rounded half away from zero and limited to 63 (R6). -/
theorem trimTargetOf_eq (d : Int) :
    trimTargetOf d = max (-63) (min 63 (Int.sign d * ((d.natAbs + 50) / 100 : Nat))) := by
  have rounded : d.natAbs / 100 + (if 50 ≤ d.natAbs % 100 then 1 else 0) = (d.natAbs + 50) / 100 := by
    split <;> omega
  unfold trimTargetOf
  dsimp only
  rw [clampTo_eq, rounded]
  obtain h | rfl | h := lt_trichotomy d 0
  · rw [if_pos h, Int.sign_eq_neg_one_of_neg h, neg_one_mul]
    rfl
  · simp
  · rw [if_neg (by omega), Int.sign_eq_one_of_pos h, one_mul]
    rfl

theorem trimStep_eq (current target : Int) : trimStep current target = current + Int.sign (target - current) := by
  unfold trimStep
  obtain h | rfl | h := lt_trichotomy current target
  · rw [if_pos h, Int.sign_eq_one_of_pos (by omega)]
  · simp
  · rw [if_neg (by omega), if_pos h, Int.sign_eq_neg_one_of_neg (by omega)]
    rfl

/-- The speed status and the run of periods within tolerance after a period (R5). -/
theorem speedAfter_eq (speed : SpeedStatus) (run tolerance : Nat) (d : Int) :
    speedAfter speed run (outOfTolerance d tolerance) =
      (if tolerance < d.natAbs ∨ (speed = .out ∧ run = 0) then .out else .inTolerance,
        if d.natAbs ≤ tolerance ∧ speed = .out ∧ run = 0 then 1 else 0) := by
  unfold outOfTolerance
  by_cases h : tolerance < d.natAbs
  · have h' : ¬ d.natAbs ≤ tolerance := by omega
    cases speed <;> simp [speedAfter, h, h']
  · have h' : d.natAbs ≤ tolerance := by omega
    cases speed with
    | inTolerance => simp [speedAfter, h]
    | out =>
      by_cases hr : run = 0
      · simp [speedAfter, h, h', hr]
      · have : 1 ≤ run := by omega
        simp [speedAfter, h, hr, this]

theorem Monitor.index_first {m : Monitor} (h : m.prevIndex = none) (x : Descriptor) (now : Nat) :
    m.index x now = { m with prevIndex := some now } := by
  unfold Monitor.index
  rw [h]

theorem Monitor.index_next {m : Monitor} {before : Nat} {dev target : Int} (x : Descriptor) (now : Nat)
    (h : m.prevIndex = some before) (hd : dev = Int.tdiv ((((now - before : Nat) : Int) - x.period) * 1000000) x.period)
    (ht : target = max (-63) (min 63 (Int.sign dev * ((dev.natAbs + 50) / 100 : Nat)))) :
    m.index x now =
      { prevIndex := some now, lastPeriod := some (now - before), deviation := dev, trimTarget := target, locked := true
        currentTrim := if m.locked then m.currentTrim + Int.sign (target - m.currentTrim) else target
        speed := if x.tolerance < dev.natAbs ∨ (m.speed = .out ∧ m.run = 0) then .out else .inTolerance
        run := if dev.natAbs ≤ x.tolerance ∧ m.speed = .out ∧ m.run = 0 then 1 else 0 } := by
  have deviation : deviationOf (now - before) x.period = dev := hd.symm
  unfold Monitor.index Monitor.measure
  rw [h]
  dsimp only
  rw [deviation, trimTargetOf_eq, ← ht, speedAfter_eq, trimStep_eq]

theorem State.swapped_none {s : State} {n : UnitId} (h : (s.unitProfiles n).swapPending = false) (now : Nat) :
    s.swapped n now = { s with clock := now, choices := s.choices + 1 } := by
  unfold State.swapped
  rw [h]
  exact State.setProfiles_self _ n

/-- An index of a unit that holds no job and neither settles nor tracks (R4 to R6, R16). -/
theorem exec_indexPulse_noJob {s : State} {n : UnitId} {elapsed now : Nat} {x : Descriptor} {d e : Drive} (cut : CutField)
    (hd : d = s.drive n) (hx : d.descriptor = some x) (hnow : now = s.clock + elapsed) (he : e = d.indexed x now)
    (hr : d.state.Ready) (hst : d.state ∉ [.settling, .tracking]) (hh : d.heldJob = none) (hg : s.Granted)
    (hc : s.channel.state.holds n = false)
    (hi : e.state = .speedFault → e.monitor.speed = .inTolerance → ¬ s.HasQueued n) :
    exec (.indexPulse n elapsed cut) s = .next ((s.indexedAt n x now).setDrive n e.judged).finish := by
  subst hd hnow
  have run := State.indexIn_judged (u := { s with clock := s.clock + elapsed, choices := s.choices + 1 }) (j := 0) (cut := cut)
    (order := Config.indexOrder s.choices) hr hx he hst hg hc (.unheld hh) fun a b => ⟨hh, hi a b⟩
  rw [exec_indexPulse, run, State.course_done 0 _ _ rfl, State.setJob_self]
  unfold State.indexedAt
  split <;> rfl

/-- An index of a unit that holds a job with budget left, and neither settles nor tracks (R49). -/
theorem exec_indexPulse_spends {s : State} {n : UnitId} {elapsed now : Nat} {x : Descriptor} {d e : Drive} {j : JobIx} {y : Job}
    (cut : CutField) (hd : d = s.drive n) (hx : d.descriptor = some x) (hnow : now = s.clock + elapsed)
    (he : e = d.indexed x now)
    (hst : d.state ∈ [.seeking, .recalibrating] ∨ (d.state = .speedFault ∧ e.monitor.speed = .out)) (hh : d.heldJob = some j)
    (hy : s.job j = some y) (hb : 2 ≤ y.budget) (hg : s.Granted) (hc : s.channel.state.holds n = false) :
    exec (.indexPulse n elapsed cut) s = .next (((s.indexedAt n x now).setJob j (some y.spent)).setDrive n e).finish := by
  have state : e.state = d.state := by rw [he]; rfl
  have out : e.state = .speedFault → e.monitor.speed = .inTolerance → False := fun a b => by
    rw [state] at a
    simp [a, b] at hst
  have at_ : d.state ∈ [.seeking, .recalibrating, .speedFault] := by
    obtain h | h := hst
    · simp only [List.mem_cons, List.not_mem_nil, or_false] at h ⊢
      exact h.imp_right .inl
    · simp [h.1]
  have ready : d.state.Ready ∧ d.state ∉ [.settling, .tracking] ∧ d.state ≠ .idle := by
    simp only [List.mem_cons, List.not_mem_nil, or_false] at at_
    obtain h | h | h := at_ <;> simp [h, DriveState.Ready]
  have kept : e.judged = e := by
    unfold Drive.judged
    rw [if_neg fun h => ready.2.2 (state ▸ h.1), if_neg fun h => out h.1 h.2]
  subst hd hnow
  have run := State.indexIn_judged (u := { s with clock := s.clock + elapsed, choices := s.choices + 1 }) (j := j) (cut := cut)
    (order := Config.indexOrder s.choices) (e := e) ready.1 hx he ready.2.1 hg hc
    (.held y hh (by rw [kept, he]; exact hh) hy hb) fun a b => (out a b).elim
  rw [exec_indexPulse, run, State.course_done j _ _ rfl, kept]

/-! ### The end of the budget -/

/-- A held job whose last revolution an index uses, in a state that goes on without it: the unit and the job, by the stages that
remain (R15, R49). -/
structure State.Exhausts (u : State) (n : UnitId) (j : JobIx) (x : Descriptor) (y : Job) (rest : List IndexStage) (t : State) :
    Prop where
  drive : t.drive n = if .monitor ∈ rest then
      if .budget ∈ rest then (u.drive n).indexSeen u.clock else ((u.drive n).indexSeen u.clock).jobless
    else if .budget ∈ rest then (u.drive n).indexed x u.clock else ((u.drive n).indexed x u.clock).jobless
  job : if .budget ∈ rest then t.job j = some y else ∃ z, t.job j = some z ∧ z.budget = y.spent.budget ∧ z.state = .draining ∧
    z.endCause = some .budgetExhausted ∧ z.counters = y.spent.counters
  free : t.channel.state.holds n = false
  clock : t.clock = u.clock

theorem State.Exhausts.arbitrate {u : State} {n : UnitId} {j : JobIx} {x : Descriptor} {y : Job} {rest : List IndexStage}
    {t : State} (h : u.Exhausts n j x y rest t) (hst : (u.drive n).state ≠ .tracking) :
    u.Exhausts n j x y rest t.arbitrate := by
  have state : (t.drive n).state ≠ .tracking := by
    rw [h.drive]
    split <;> split <;> exact hst
  obtain ⟨drive, free⟩ := arbitrate_drive_notRequesting t n (requesting_notTracking t n state)
  have jobs : t.arbitrate.job j = t.job j := by simp only [State.job, jobs_arbitrate]
  exact ⟨drive.trans h.drive, by rw [jobs]; exact h.job, free h.free, (SameButJobs.arbitrate t).clock.trans h.clock⟩

/-- The end of a held job at its last revolution, in a state that goes on without it (R15, R49). -/
theorem State.stageBudget_exhausts {t : State} {n : UnitId} {j : JobIx} {y : Job} (hh : (t.drive n).heldJob = some j)
    (hy : t.job j = some y) (hb : y.budget = 1) (hu : y.unit = n) (hd : y.state ≠ .draining)
    (hst : (t.drive n).state ∉ [.settling, .tracking]) :
    t.stageBudget n (some j) = (t.setJob j (some y.spent)).endJob j .budgetExhausted := by
  subst hu
  have job : (t.setJob j (some y.spent)).job j = some y.spent := job_setJob_same _ _ _
  have held : ((t.setJob j (some y.spent)).drive y.spent.unit).heldJob = some j := hh
  obtain ⟨-, -, drop⟩ := endJob_end _ j y.spent .budgetExhausted job hd
  rw [State.stageBudget_eq hh hy, if_pos (by omega), State.endJobAndGoOn_held job hd held]
  refine goOn_other _ _ ?_
  rw [(drop held).1]
  exact fun h : (t.drive y.unit).state = .settling ∨ (t.drive y.unit).state = .tracking => hst (by simpa using h)

theorem State.indexIn_exhausts {u : State} {n : UnitId} {j : JobIx} {x : Descriptor} {y : Job} {cut : CutField}
    {order : IndexOrder} (hr : (u.drive n).state.Ready) (hx : (u.drive n).descriptor = some x)
    (hst : (u.drive n).state ∉ [.idle, .settling, .tracking])
    (ho : (u.drive n).state = .speedFault → ((u.drive n).indexed x u.clock).monitor.speed = .out)
    (hh : (u.drive n).heldJob = some j) (hy : u.job j = some y) (hb : y.budget = 1) (hu : y.unit = n)
    (hd : y.state ≠ .draining) (hc : u.channel.state.holds n = false) :
    u.Exhausts n j x y [] (u.indexIn n cut order) := by
  simp only [List.mem_cons, List.not_mem_nil, or_false, not_or] at hst
  have all := (indexStages_once order).2
  have other : u.situation n = .other := by rw [State.situation_eq hc, if_neg hst.2.2, if_neg hst.2.1]
  refine State.indexIn_induction hr ⟨?_, ?_, hc, rfl⟩ fun stage rest t hrest h => ?_
  · rw [drive_setDrive_same]
    simp [all]
  · simp [all, hy]
  · have fresh := hrest.fresh
    have state : (t.drive n).state = (u.drive n).state := by
      rw [h.drive]
      split <;> split <;> rfl
    rw [State.indexStage_eq]
    refine State.Exhausts.arbitrate ?_ hst.2.2
    have drive := h.drive
    have job := h.job
    cases stage with
    | monitor =>
      simp only [List.mem_cons, true_or, if_true, reduceCtorEq, false_or] at drive job
      show u.Exhausts n j x y rest (t.stageMonitor n)
      rw [State.stageMonitor_eq (x := x) (by rw [h.drive]; split <;> split <;> exact hx)]
      refine ⟨?_, job, h.free, h.clock⟩
      rw [drive_setDrive_same, drive, h.clock]
      simp only [fresh, if_false, ← Drive.indexed_eq hr hx]
      split <;> rfl
    | speed =>
      have still : t.stageSpeed n (u.situation n) = t := by
        refine State.stageSpeed_none (fun e => ?_) (fun e => ?_) _
        · rw [state] at e
          simp [hst] at e
        · rw [state] at e
          rw [h.drive]
          simp only [List.mem_cons, reduceCtorEq, hrest.after_monitor (.inl rfl), or_false, if_false]
          split <;> exact ho e
      simp only [List.mem_cons, reduceCtorEq, false_or] at drive job
      show u.Exhausts n j x y rest (t.stageSpeed n (u.situation n))
      rw [still]
      exact ⟨drive, job, h.free, h.clock⟩
    | track =>
      simp only [List.mem_cons, reduceCtorEq, false_or] at drive job
      rw [other]
      exact ⟨drive, job, h.free, h.clock⟩
    | budget =>
      simp only [List.mem_cons, true_or, if_true, reduceCtorEq, false_or] at drive job
      have held : (t.drive n).heldJob = some j := by rw [drive]; split <;> exact hh
      show u.Exhausts n j x y rest (t.stageBudget n (u.drive n).heldJob)
      rw [hh, State.stageBudget_exhausts held job hb hu hd (by rw [state]; simp [hst])]
      obtain ⟨⟨z, hz, -, hzd, hzc, hzn, hzb⟩, -, drop⟩ := endJob_end (t.setJob j (some y.spent)) j y.spent .budgetExhausted
        (job_setJob_same _ _ _) hd
      obtain ⟨dropped, free⟩ := drop (by rw [show y.spent.unit = n from hu]; exact held)
      rw [show y.spent.unit = n from hu] at dropped free
      refine ⟨?_, by simpa [fresh] using ⟨z, hz, hzb, hzd, hzc, hzn⟩, free,
        (SameButJobs.endJob (t.setJob j (some y.spent)) j .budgetExhausted).clock.trans h.clock⟩
      rw [dropped, State.setJob_drive, drive]
      simp only [fresh, if_false]
      split <;> rfl
    | deferral =>
      simp only [List.mem_cons, reduceCtorEq, false_or] at drive job
      show u.Exhausts n j x y rest (t.stageDeferral n)
      rw [State.stageDeferral_none (.inl (requesting_notTracking t n (by rw [state]; exact hst.2.2)))]
      exact ⟨drive, job, h.free, h.clock⟩
    | swap =>
      simp only [List.mem_cons, reduceCtorEq, false_or] at drive job
      show u.Exhausts n j x y rest (t.stageSwap n (u.situation n) (u.drive n).heldJob)
      rw [State.stageSwap_eq (by rw [other]; simp), State.takeSwap_eq (by rw [state]; exact hst.2.2)]
      exact ⟨drive, job, h.free, h.clock⟩

/-! ### The obligation -/

/-- An index that is not timed for a period (R4, R8, R22). -/
theorem State.indexIn_untimed {u : State} {n : UnitId} (cut : CutField) (order : IndexOrder)
    (hst : (u.drive n).state ∈ [.notReady, .unloading, .retracted]) :
    u.indexIn n cut order = (u.setProfiles n (u.unitProfiles n).taken).setDrive n
      { u.drive n with
        indexLost := false
        indexTimer := if (u.drive n).state = .notReady then (u.drive n).descriptor.map (fun x => u.clock + 3 * x.period)
          else none } := by
  have untimed : (u.drive n).state ≠ .tracking ∧ ¬ (u.drive n).state.measures = true ∧ (u.drive n).state ≠ .undefined ∧
      ((u.drive n).state.timed = true ↔ (u.drive n).state = .notReady) := by
    simp only [List.mem_cons, List.not_mem_nil, or_false] at hst
    obtain h | h | h := hst <;> simp [h, DriveState.measures, DriveState.timed]
  obtain ⟨notTracking, unmeasured, defined, timed⟩ := untimed
  have seen : (u.drive n).indexSeen u.clock = { u.drive n with
      indexLost := false
      indexTimer := if (u.drive n).state = .notReady then (u.drive n).descriptor.map (fun x => u.clock + 3 * x.period)
        else none } := by
    simp only [Drive.indexSeen, timed, Drive.timerFrom]
  unfold State.indexIn
  rw [if_neg defined]
  dsimp only
  rw [if_neg unmeasured, State.takeSwap_eq (by rw [modDrive_drive]; exact notTracking), ← seen]
  rfl

theorem exec_indexPulse_undefined {s : State} {n : UnitId} (elapsed : Nat) (cut : CutField)
    (hst : (s.drive n).state = .undefined) :
    exec (.indexPulse n elapsed cut) s =
      .next ({ s with clock := s.clock + elapsed, choices := s.choices + 1 } : State).finish := by
  rw [exec_indexPulse]
  exact congrArg (fun t => Host.Outcome.next (State.finish t)) (if_pos hst)

/-- An index of a unit that is IDLE in tolerance, or in SPEED_FAULT, and has no job: the drive by its next monitor. -/
theorem exec_indexPulse_alone {s u : State} {n : UnitId} {elapsed now : Nat} {x : Descriptor} {d : Drive} (cut : CutField)
    (hd : d = s.drive n) (hx : d.descriptor = some x) (hnow : now = s.clock + elapsed)
    (hu : u = { s with clock := now, choices := s.choices + 1 })
    (hst : (d.state = .idle ∧ d.monitor.speed = .inTolerance) ∨ (d.state = .speedFault ∧ d.monitor.speed = .out))
    (hh : d.heldJob = none) (hq : ¬ s.HasQueued n) (hp : (s.unitProfiles n).swapPending = false) (hg : s.Granted)
    (hc : s.channel.state.holds n = false) {m : Monitor} {g : Drive} (hm : d.monitor.index x now = m)
    (hj : ({ d with indexLost := false, indexTimer := some (now + 3 * x.period), monitor := m } : Drive).judged = g) :
    exec (.indexPulse n elapsed cut) s =
      .next ((if d.monitor.speed = .inTolerance ∧ m.speed = .out then u.raise (4 * n.val + 1) else u).setDrive n g).finish := by
  subst hd hm hu hj
  have ready : (s.drive n).state.Ready ∧ (s.drive n).state ∉ [.settling, .tracking] := by
    obtain h | h := hst <;> simp [h.1, DriveState.Ready]
  rw [exec_indexPulse_noJob cut rfl hx hnow rfl ready.1 ready.2 hh hg hc fun _ _ => hq, State.indexedAt,
    State.swapped_none hp]
  rfl

theorem Drive.judged_same {e : Drive} (hi : e.state = .idle → e.monitor.speed = .inTolerance)
    (ho : e.state = .speedFault → e.monitor.speed = .out) : e.judged = e := by
  unfold Drive.judged
  rw [if_neg (by rintro ⟨a, b⟩; rw [hi a] at b; cases b), if_neg (by rintro ⟨a, b⟩; rw [ho a] at b; cases b)]

theorem Drive.judged_faults {e : Drive} (hi : e.state = .idle) (ho : e.monitor.speed = .out) :
    e.judged = { e.quieted with state := .speedFault } := if_pos ⟨hi, ho⟩

theorem Drive.judged_idles {e : Drive} (hst : e.state = .speedFault) (hi : e.monitor.speed = .inTolerance) :
    e.judged = e.idled := by
  unfold Drive.judged
  rw [if_neg (by rintro ⟨a, -⟩; rw [hst] at a; cases a), if_pos ⟨hst, hi⟩]

/-- Settles O37. -/
theorem indexMeasures : Obligations.IndexMeasures := by
  refine ⟨fun n elapsed now cut s u d x hd hx hnow hu hst hh hq hp hg hc => ?_, fun m x now =>
    ⟨fun h => Monitor.index_first h x now, fun before dev target h hdev ht => Monitor.index_next x now h hdev ht⟩,
    fun n elapsed now cut s u d e x hd hx hnow he hg hc hu => ?_,
    fun n elapsed now cut s d hd hnow => ⟨fun h => ?_, fun h => ?_⟩⟩
  · have run {m : Monitor} {g : Drive} (hm : d.monitor.index x now = m)
        (hj : ({ d with indexLost := false, indexTimer := some (now + 3 * x.period), monitor := m } : Drive).judged = g) :=
      exec_indexPulse_alone cut hd hx hnow hu hst hh hq hp hg hc hm hj
    have idle (hi : d.state = .idle) : d.monitor.speed = .inTolerance := by
      obtain h | h := hst
      · exact h.2
      · rw [hi] at h; cases h.1
    have fault (hf : d.state = .speedFault) : d.monitor.speed = .out := by
      obtain h | h := hst
      · rw [hf] at h; cases h.1
      · exact h.2
    refine ⟨fun hprev => ?_, fun before dev target trim m hprev hdev ht htrim hm => ?_⟩
    · rw [run (Monitor.index_first hprev x now) (Drive.judged_same idle fault), if_neg]
      rintro ⟨a, b⟩
      rw [show d.monitor.speed = .out from b] at a
      cases a
    · have next := Monitor.index_next x now hprev hdev ht
      rw [← htrim] at next
      refine ⟨fun hi htol => ?_, fun hi htol => ?_, fun hf htol => ?_, fun hf htol hrun => ?_, fun hf htol hrun => ?_⟩
      · have index : d.monitor.index x now = m := by
          rw [next, hm]
          simp [idle hi, Nat.not_lt.2 htol]
        rw [run index (Drive.judged_same (fun _ => by rw [hm]) fun h => by cases hi.symm.trans h), if_neg (by rw [hm]; simp)]
      · have index : d.monitor.index x now = { m with speed := .out } := by
          rw [next, hm]
          simp [idle hi, htol]
        rw [run index (Drive.judged_faults hi rfl), if_pos ⟨idle hi, rfl⟩]
        rfl
      · have index : d.monitor.index x now = { m with speed := .out } := by
          rw [next, hm]
          simp [htol, Nat.not_le.2 htol]
        rw [run index (Drive.judged_same (fun h => by cases hf.symm.trans h) fun _ => rfl), if_neg (by rw [fault hf]; simp)]
      · have index : d.monitor.index x now = { m with speed := .out, run := 1 } := by
          rw [next, hm]
          simp [fault hf, hrun, htol]
        rw [run index (Drive.judged_same (fun h => by cases hf.symm.trans h) fun _ => rfl), if_neg (by rw [fault hf]; simp)]
      · have index : d.monitor.index x now = m := by
          rw [next, hm]
          simp [fault hf, Nat.one_le_iff_ne_zero.1 hrun, Nat.not_lt.2 htol]
        rw [run index (Drive.judged_idles hf (by rw [hm])), if_neg (by rw [hm]; simp)]
        rfl
  · have used : u = s.indexedAt n x now := by
      rw [hu, hd, he, hd]
      rfl
    have state : e.state = d.state := by rw [he]; rfl
    refine ⟨fun hi hh => ?_, fun hst => ?_⟩
    · have judged : e.judged = if e.monitor.speed = .out then { e.quieted with state := .speedFault } else e := by
        unfold Drive.judged
        simp [state, hi]
      rw [exec_indexPulse_noJob cut hd hx hnow he (by simp [hi, DriveState.Ready]) (by simp [hi]) hh hg hc
        (fun h _ => by rw [state, hi] at h; cases h), used, judged]
    · have at_ : d.state ∈ [.seeking, .recalibrating, .speedFault] := by
        obtain h | h := hst
        · simp only [List.mem_cons, List.not_mem_nil, or_false] at h ⊢
          exact h.imp_right .inl
        · simp [h.1]
      have ready : d.state.Ready ∧ d.state ∉ [.idle, .settling, .tracking] := by
        simp only [List.mem_cons, List.not_mem_nil, or_false] at at_
        obtain h | h | h := at_ <;> simp [h, DriveState.Ready]
      have out : d.state = .speedFault → e.monitor.speed = .out := fun h => by
        obtain g | g := hst
        · rw [h] at g; simp at g
        · exact g.2
      refine ⟨fun hh => ?_, fun j y hh hy hb => ?_, fun j y hh hy hb hyu hyd => ?_⟩
      · have kept : e.judged = e :=
          Drive.judged_same (fun h => absurd (state.symm.trans h) fun i => ready.2 (by simp [i])) fun h => out (state ▸ h)
        rw [exec_indexPulse_noJob cut hd hx hnow he ready.1 (fun h => ready.2 (List.mem_cons_of_mem _ h)) hh hg hc
          (fun h g => by simp [out (state ▸ h)] at g), used, kept]
      · rw [exec_indexPulse_spends cut hd hx hnow he hst hh hy hb hg hc, used]
      · subst hd hnow he
        have ends := State.indexIn_exhausts (u := { s with clock := s.clock + elapsed, choices := s.choices + 1 }) (cut := cut)
          (order := Config.indexOrder s.choices) ready.1 hx ready.2 out hh hy hb hyu hyd hc
        obtain ⟨z, hz, hzb, rest⟩ := ends.job
        exact ⟨_, z, exec_indexPulse n elapsed cut s, ends.drive, hz, hzb.trans (by simp [Job.spent, hb]), rest⟩
  · subst hd hnow
    exact exec_indexPulse_undefined elapsed cut h
  · subst hd hnow
    exact congrArg (fun t => Host.Outcome.next (State.finish t))
      (State.indexIn_untimed (u := { s with clock := s.clock + elapsed, choices := s.choices + 1 }) cut _ h)

end Sys2Proof.Machine
end

section
/-! ## The phases of an index

Where an index changes the channel or a deferral count the state after it depends on the order of its stages. Its course is then
told by what the unit's drive and its job are in each phase: the judged stages that remain, and whether the budget and the
deferral remain. -/

namespace Sys2Proof.Machine

/-- The stages of the monitor, the speed and the revolution's work, in their order (log entry 1). -/
def judgedStages (faultFirst : Bool) : List IndexStage :=
  if faultFirst then [.monitor, .speed, .track] else [.monitor, .track, .speed]

/-- What follows a judged stage in its order. -/
theorem Remaining.judged_tail {faultFirst : Bool} {stage : IndexStage} {rest : List IndexStage}
    (h : Remaining faultFirst (stage :: rest)) (hs : stage.judges = true) :
    stage :: rest.filter IndexStage.judges <:+ judgedStages faultFirst := by
  have judges := h.judges
  rwa [List.filter_cons_of_pos hs] at judges

theorem judgedStages_after_speed {faultFirst : Bool} {l : List IndexStage} (h : .speed :: l <:+ judgedStages faultFirst) :
    l = if faultFirst then [.track] else [] := by
  cases faultFirst
  all_goals
    simp only [judgedStages, Bool.false_eq_true, if_false, if_true, List.suffix_cons_iff, List.suffix_nil] at h ⊢
    simpa using h

theorem judgedStages_after_track {faultFirst : Bool} {l : List IndexStage} (h : .track :: l <:+ judgedStages faultFirst) :
    l = if faultFirst then [] else [.speed] := by
  cases faultFirst
  all_goals
    simp only [judgedStages, Bool.false_eq_true, if_false, if_true, List.suffix_cons_iff, List.suffix_nil] at h ⊢
    simpa using h

/-- An index of a unit whose periods are measured and whose profiles no swap awaits, phase by phase. -/
theorem State.indexIn_phases {u : State} {n : UnitId} {cut : CutField} {order : IndexOrder}
    {Q : List IndexStage → Bool → Bool → State → Prop} (hr : (u.drive n).state.Ready)
    (start : Q (judgedStages order.faultFirst) true true (u.setDrive n ((u.drive n).indexSeen u.clock)))
    (swap : ∀ l b c t, Q l b c t → (t.unitProfiles n).swapPending = false)
    (arbitrate : ∀ l b c t, Q l b c t → Q l b c t.arbitrate)
    (monitor : ∀ l b c t, .speed ∈ l → .track ∈ l → .monitor ∉ l → Q (.monitor :: l) b c t → Q l b c (t.stageMonitor n))
    (speed : ∀ l b c t, (l = if order.faultFirst then [.track] else []) → Q (.speed :: l) b c t →
      Q l b c (t.stageSpeed n (u.situation n)))
    (track : ∀ l b c t, (l = if order.faultFirst then [] else [.speed]) → Q (.track :: l) b c t →
      Q l b c (t.stageTrack n (u.situation n) (u.drive n).heldJob cut))
    (budget : ∀ l c t, Q l true c t → Q l false c (t.stageBudget n (u.drive n).heldJob))
    (deferral : ∀ l b t, Q l b true t → Q l b false (t.stageDeferral n)) :
    Q [] false false (u.indexIn n cut order) := by
  have all := (indexStages_once order).2
  have follow := State.indexIn_induction (u := u) (n := n) (cut := cut) (order := order)
    (P := fun rest t => Q (rest.filter IndexStage.judges) (decide (.budget ∈ rest)) (decide (.deferral ∈ rest)) t) hr ?_ ?_
  · simpa using follow
  · simpa [all, indexStages_judges, judgedStages] using start
  · intro stage rest t hrest h
    rw [State.indexStage_eq]
    refine arbitrate _ _ _ _ ?_
    have fresh := hrest.fresh
    cases stage with
    | monitor =>
      rw [List.filter_cons_of_pos rfl] at h
      obtain ⟨hs, ht⟩ := hrest.measured (by simp)
      refine monitor _ _ _ t ?_ ?_ ?_ (by simpa using h)
      · simpa [IndexStage.judges] using hs
      · simpa [IndexStage.judges] using ht
      · simp [fresh]
    | speed =>
      rw [List.filter_cons_of_pos rfl] at h
      exact speed _ _ _ t (judgedStages_after_speed (hrest.judged_tail rfl)) (by simpa using h)
    | track =>
      rw [List.filter_cons_of_pos rfl] at h
      exact track _ _ _ t (judgedStages_after_track (hrest.judged_tail rfl)) (by simpa using h)
    | budget =>
      rw [List.filter_cons_of_neg (by simp [IndexStage.judges])] at h
      have next := budget _ _ t (by simpa using h)
      simpa [fresh, State.stageWork] using next
    | deferral =>
      rw [List.filter_cons_of_neg (by simp [IndexStage.judges])] at h
      have next := deferral _ _ t (by simpa using h)
      simpa [fresh, State.stageWork] using next
    | swap =>
      rw [List.filter_cons_of_neg (by simp [IndexStage.judges])] at h
      have here := by simpa using h
      show Q _ _ _ (t.stageSwap n (u.situation n) (u.drive n).heldJob)
      rw [State.stageSwap_none (swap _ _ _ t here)]
      exact here

/-! ### The unit amid an index -/

/-- A drive apart from its deferral count, which stands where the unit is not TRACKING (R25, R29). -/
def Drive.Like (d e : Drive) : Prop := e = { d with deferral := e.deferral } ∧ (d.state ≠ .tracking → e = d)

theorem Drive.Like.refl (d : Drive) : d.Like d := ⟨rfl, fun _ => rfl⟩

theorem Drive.Like.trans {d e f : Drive} (h : d.Like e) (g : e.Like f) : d.Like f := by
  obtain ⟨h1, h2⟩ := h
  obtain ⟨g1, g2⟩ := g
  refine ⟨?_, fun hd => ?_⟩
  · rw [g1, h1]
  · rw [g2 (by rw [h2 hd]; exact hd), h2 hd]

theorem Drive.Like.deferral {d e : Drive} (h : d.Like e) (hd : d.state = .tracking) (k : Nat) :
    d.Like { e with deferral := k } := by
  refine ⟨?_, fun hn => absurd hd hn⟩
  rw [h.1]

theorem arbitrate_like (t : State) (n : UnitId) : (t.drive n).Like (t.arbitrate.drive n) :=
  ⟨arbitrate_drive_def t n, fun h => (arbitrate_drive_notRequesting t n (requesting_notTracking t n h)).1⟩

/-- What an index leaves alone beside its unit and the held job. -/
structure State.Around (u : State) (n : UnitId) (j : JobIx) (t : State) : Prop where
  profiles : t.profiles = u.profiles
  clock : t.clock = u.clock
  quirks : t.quirks = u.quirks
  others : ∀ i, i ≠ j → t.job i = u.job i

/-- The unit's drive, its deferral count apart, and the job held when the index came. -/
structure State.Amid (u : State) (n : UnitId) (j : JobIx) (d : Drive) (y : Job) (t : State) : Prop
    extends u.Around n j t where
  drive : d.Like (t.drive n)
  job : t.job j = some y

variable {u t : State} {n : UnitId} {j : JobIx} {d : Drive} {y : Job}

theorem State.Around.self (u : State) (n : UnitId) (j : JobIx) : u.Around n j u := ⟨rfl, rfl, rfl, fun _ _ => rfl⟩

theorem State.Around.arbitrate (h : u.Around n j t) : u.Around n j t.arbitrate := by
  have same := SameButJobs.arbitrate t
  refine ⟨same.profiles.trans h.profiles, same.clock.trans h.clock, same.quirks.trans h.quirks, fun i hi => ?_⟩
  rw [State.job, jobs_arbitrate]
  exact h.others i hi

theorem State.Around.unitProfiles (h : u.Around n j t) : t.unitProfiles n = u.unitProfiles n := by
  rw [State.unitProfiles, State.unitProfiles, h.profiles]

theorem State.Amid.arbitrate (h : u.Amid n j d y t) : u.Amid n j d y t.arbitrate where
  toAround := h.toAround.arbitrate
  drive := h.drive.trans (arbitrate_like t n)
  job := by rw [State.job, jobs_arbitrate]; exact h.job

theorem State.Amid.state (h : u.Amid n j d y t) : (t.drive n).state = d.state := by rw [h.drive.1]

theorem State.Amid.heldJob (h : u.Amid n j d y t) : (t.drive n).heldJob = d.heldJob := by rw [h.drive.1]

theorem State.Amid.speed (h : u.Amid n j d y t) : (t.drive n).monitor = d.monitor := by rw [h.drive.1]

theorem State.Amid.setDrive (h : u.Amid n j d y t) {e f : Drive} (he : f.Like e) : u.Amid n j f y (t.setDrive n e) where
  toAround := ⟨h.profiles, h.clock, h.quirks, h.others⟩
  drive := by rw [drive_setDrive_same]; exact he
  job := h.job

theorem State.Amid.setJob (h : u.Amid n j d y t) (z : Job) : u.Amid n j d z (t.setJob j (some z)) where
  toAround := ⟨h.profiles, h.clock, h.quirks, fun i hi => (job_setJob_ne t _ (Ne.symm hi)).trans (h.others i hi)⟩
  drive := h.drive
  job := job_setJob_same t j _

theorem State.Amid.channel (h : u.Amid n j d y t) (c : Channel) : u.Amid n j d y { t with channel := c } :=
  ⟨⟨h.profiles, h.clock, h.quirks, h.others⟩, h.drive, h.job⟩

theorem State.Amid.releaseEarly (h : u.Amid n j d y t) : u.Amid n j d y (t.releaseEarly n) := by
  unfold State.releaseEarly
  split
  · exact (h.channel t.channel.toIdle).arbitrate
  · exact h

theorem State.Amid.stageDeferral (h : u.Amid n j d y t) : u.Amid n j d y (t.stageDeferral n) := by
  rw [State.stageDeferral_eq]
  split
  · next hreq =>
    by_cases hst : d.state = .tracking
    · exact h.setDrive (h.drive.deferral hst _)
    · rw [requesting_notTracking t n (by rw [h.state]; exact hst)] at hreq
      cases hreq.1
  · exact h

/-- The monitor's stage amid an index (R4 to R6). -/
theorem State.Amid.stageMonitor {x : Descriptor} (h : u.Amid n j d y t) (hx : d.descriptor = some x) :
    u.Amid n j { d with monitor := d.monitor.index x u.clock } y (t.stageMonitor n) := by
  have speed := h.speed
  rw [State.stageMonitor_eq (x := x) (by rw [h.drive.1]; exact hx), speed, h.clock]
  obtain ⟨hd, hst⟩ := h.drive
  refine ⟨⟨h.profiles, rfl, h.quirks, h.others⟩, ?_, h.job⟩
  rw [drive_setDrive_same]
  exact ⟨by rw [hd], fun hn => by rw [hst hn]⟩

theorem State.stageMonitor_flags {x : Descriptor} (h : u.Amid n j d y t) (hx : d.descriptor = some x) :
    (t.stageMonitor n).flags =
      if d.monitor.speed = .inTolerance ∧ (d.monitor.index x u.clock).speed = .out then t.flags.raise (4 * n.val + 1)
      else t.flags := by
  rw [State.stageMonitor_eq (x := x) (by rw [h.drive.1]; exact hx), h.speed, h.clock]
  rfl

theorem State.stageMonitor_channel (t : State) (n : UnitId) : (t.stageMonitor n).channel = t.channel := by
  unfold State.stageMonitor
  split
  · rfl
  · dsimp only
    split <;> rfl

/-- The budget's stage amid an index, of a job with budget left (R49). -/
theorem State.Amid.stageBudget (h : u.Amid n j d y t) (hh : d.heldJob = some j) (hb : 2 ≤ y.budget) :
    u.Amid n j d y.spent (t.stageBudget n (some j)) := by
  rw [State.stageBudget_spends (by rw [h.heldJob]; exact hh) h.job hb]
  exact h.setJob _

theorem State.stageBudget_channel {t : State} {n : UnitId} {j : JobIx} {y : Job} (hh : (t.drive n).heldJob = some j)
    (hy : t.job j = some y) (hb : 2 ≤ y.budget) : (t.stageBudget n (some j)).channel = t.channel := by
  rw [State.stageBudget_spends hh hy hb]
  rfl

theorem State.stageDeferral_channel (t : State) (n : UnitId) : (t.stageDeferral n).channel = t.channel := by
  rw [State.stageDeferral_eq]
  split <;> rfl

/-! ### The end of a command -/

theorem State.transmit_same (s : State) : s.transmit.drives = s.drives ∧ s.transmit.jobs = s.jobs ∧
    s.transmit.channel = s.channel := by
  unfold State.transmit
  split
  · split
    · exact ⟨rfl, rfl, rfl⟩
    · exact ⟨rfl, rfl, rfl⟩
  · exact ⟨rfl, rfl, rfl⟩

theorem State.finish_drive (s : State) (n : UnitId) : s.finish.drive n = s.arbitrate.drive n := by
  unfold State.finish State.drive
  rw [(State.transmit_same _).1]
  rfl

theorem State.finish_job (s : State) (j : JobIx) : s.finish.job j = s.job j := by
  unfold State.finish State.job
  rw [(State.transmit_same _).2.1, ← jobs_arbitrate s]
  rfl

theorem State.finish_channel (s : State) : s.finish.channel = s.arbitrate.channel := by
  unfold State.finish
  rw [(State.transmit_same _).2.2]
  rfl

end Sys2Proof.Machine
end

section
/-! ## An index in tolerance starts work (R14, R15, R26, R30, R49, R60 to R63) -/

namespace Sys2Proof.Machine

/-! ### The revolution's work -/

/-- The waiting revolutions of a pass loop count down (R63). -/
theorem State.stageWaiting_counts {t : State} {n : UnitId} (hst : (t.drive n).state = .tracking)
    (hw : (t.drive n).waiting ≠ 0) (hi : (t.drive n).monitor.speed = .inTolerance) :
    t.stageWaiting n = t.setDrive n { t.drive n with waiting := (t.drive n).waiting - 1 } := by
  unfold State.stageWaiting
  rw [if_pos ⟨hst, Nat.pos_of_ne_zero hw, (t.speedOut_false_iff n).2 hi⟩]
  rfl

theorem State.stageWaiting_none {t : State} {n : UnitId}
    (h : (t.drive n).state ≠ .tracking ∨ (t.drive n).waiting = 0 ∨ (t.drive n).monitor.speed = .out) :
    t.stageWaiting n = t := by
  unfold State.stageWaiting
  rw [if_neg]
  rintro ⟨hst, hw, hs⟩
  obtain h | h | h := h
  · exact h hst
  · omega
  · rw [(t.speedOut_false_iff n).1 hs] at h; cases h

/-- The revolutions to settle count down (R14). -/
theorem State.stageSettle_counts {t : State} {n : UnitId} (hst : (t.drive n).state = .settling)
    (hc : 2 ≤ (t.drive n).settleCount) (hi : (t.drive n).monitor.speed = .inTolerance) :
    t.stageSettle n = t.setDrive n { t.drive n with settleCount := (t.drive n).settleCount - 1 } := by
  unfold State.stageSettle
  rw [if_pos ⟨hst, (t.speedOut_false_iff n).2 hi⟩, if_neg (by omega)]
  rfl

theorem State.stageSettle_tracks {t : State} {n : UnitId} (hst : (t.drive n).state = .settling)
    (hc : (t.drive n).settleCount ≤ 1) (hi : (t.drive n).monitor.speed = .inTolerance) : t.stageSettle n = t.track n := by
  unfold State.stageSettle
  rw [if_pos ⟨hst, (t.speedOut_false_iff n).2 hi⟩, if_pos hc]

theorem State.stageSettle_none {t : State} {n : UnitId}
    (h : (t.drive n).state ≠ .settling ∨ (t.drive n).monitor.speed = .out) : t.stageSettle n = t := by
  unfold State.stageSettle
  rw [if_neg]
  rintro ⟨hst, hs⟩
  obtain h | h := h
  · exact h hst
  · rw [(t.speedOut_false_iff n).1 hs] at h; cases h

theorem State.situation_looping {u : State} {n : UnitId} (hst : (u.drive n).state = .tracking)
    (hc : u.channel.state.holds n = false) : u.situation n = .looping := by
  rw [State.situation_eq hc, if_pos hst]

theorem State.situation_settling {u : State} {n : UnitId} (hst : (u.drive n).state = .settling)
    (hc : u.channel.state.holds n = false) : u.situation n = .settling := by
  rw [State.situation_eq hc, if_neg (by rw [hst]; simp), if_pos hst]

theorem State.situation_opening {u : State} {n : UnitId} (hc : u.channel.state = .reserved n) :
    u.situation n = .opening := by
  unfold State.situation
  rw [if_neg (by rw [hc]; simp), if_pos hc]

/-- An index in tolerance whose one work, the drive and the channel after it, is the revolution's. -/
theorem State.indexIn_works {u : State} {n : UnitId} {j : JobIx} {x : Descriptor} {y : Option Job} {e g : Drive} {c : Channel}
    {cut : CutField} {order : IndexOrder} (hr : (u.drive n).state ∈ [.settling, .tracking])
    (hx : (u.drive n).descriptor = some x) (he : e = (u.drive n).indexed x u.clock) (hi : e.monitor.speed = .inTolerance)
    (hp : (u.unitProfiles n).swapPending = false) (hspends : u.Spends n j g y) (hg : g.state = (u.drive n).state)
    (hgm : g.monitor = e.monitor)
    (quiet : ∀ rest, Remaining order.faultFirst rest → (u.pulsed n j (u.course n j x .track y g c rest)).Granted ∧
      ((u.pulsed n j (u.course n j x .track y g c rest)).requesting n = false ∨
        (u.course n j x .track y g c rest).channel.state.holds n = true))
    (work : ∀ t : State, t.drive n = e → t.channel = u.channel → t.unitProfiles n = u.unitProfiles n →
      (t.job j = u.job j ∨ t.job j = y) → t.stageTrack n (u.situation n) (u.drive n).heldJob cut =
        ({ t with channel := c } : State).setDrive n g) :
    u.indexIn n cut order = u.pulsed n j (u.course n j x .track y g c []) := by
  have ready : (u.drive n).state.Ready := by
    simp only [List.mem_cons, List.not_mem_nil, or_false] at hr
    obtain h | h := hr <;> simp [h, DriveState.Ready]
  have unfaulted : (u.drive n).state ≠ .speedFault := by
    simp only [List.mem_cons, List.not_mem_nil, or_false] at hr
    obtain h | h := hr <;> simp [h]
  refine State.indexIn_course ready hx (.inr rfl) (.inl hp) hspends quiet (fun rest hrest => ?_) (fun rest hrest => ?_)
  · have monitor := hrest.after_monitor (.inl rfl)
    have drive : ((u.pulsed n j (u.course n j x .track y g c (.speed :: rest))).drive n).state = (u.drive n).state ∧
        ((u.pulsed n j (u.course n j x .track y g c (.speed :: rest))).drive n).monitor.speed = .inTolerance := by
      rw [State.pulsed_drive]
      simp only [State.course, List.mem_cons, monitor, reduceCtorEq, false_or, if_false]
      split
      · exact ⟨rfl, by rw [← he]; exact hi⟩
      · exact ⟨hg, by rw [hgm]; exact hi⟩
    rw [State.stageSpeed_none (fun _ => drive.2) fun h => absurd (drive.1 ▸ h) unfaulted]
    simp [State.course]
  · have monitor := hrest.after_monitor (.inr rfl)
    have fresh := hrest.fresh
    refine (work _ ?_ ?_ ?_ ?_).trans ?_
    · rw [State.pulsed_drive]
      simp [State.course, monitor, he]
    · simp [State.pulsed, State.course]
    · rw [State.pulsed_unitProfiles]
      simp [State.course, UnitProfiles.taken, hp]
    · rw [State.pulsed_job]
      simp only [State.course]
      split
      · exact .inl rfl
      · exact .inr rfl
    · simp [State.pulsed, State.course, State.setDrive, monitor, fresh]

theorem exec_indexPulse_inside {s t u : State} {n : UnitId} {elapsed now : Nat} {cut : CutField}
    (hnow : now = s.clock + elapsed) (hu : u = { s with clock := now, choices := s.choices + 1 })
    (h : u.indexIn n cut (Config.indexOrder s.choices) = t) : exec (.indexPulse n elapsed cut) s = .next t.finish := by
  subst hu hnow h
  exact exec_indexPulse n elapsed cut s

/-- The whole course of an index in tolerance that leaves the channel as it is. -/
theorem State.course_inside {u : State} {n : UnitId} {x : Descriptor} {j : JobIx} {y : Option Job} {g : Drive} {c : Channel}
    (hi : ((u.drive n).indexed x u.clock).monitor.speed = .inTolerance) (hp : (u.unitProfiles n).swapPending = false) :
    u.pulsed n j (u.course n j x .track y g c []) = (({ u with channel := c } : State).setJob j y).setDrive n g := by
  have flags : u.indexFlags n x = u.flags := if_neg fun h => by
    rw [show ((u.drive n).monitor.index x u.clock).speed = .inTolerance from hi] at h
    cases h.2
  have profiles : (u.unitProfiles n).taken = u.unitProfiles n := by simp [UnitProfiles.taken, hp]
  rw [State.pulsed_eq]
  simp only [State.course, List.not_mem_nil, if_false, flags, profiles]
  exact congrArg (fun t : State => (t.setJob j y).setDrive n g) (State.setProfiles_self { u with channel := c } n)

/-- An index at which a unit in tolerance makes one change of its own, and requests nothing before or after. -/
theorem State.indexIn_counts {u : State} {n : UnitId} {x : Descriptor} {e g : Drive} {j : JobIx} {y : Job} {cut : CutField}
    {order : IndexOrder} (hx : (u.drive n).descriptor = some x) (hr : (u.drive n).state ∈ [.settling, .tracking])
    (he : e = (u.drive n).indexed x u.clock) (hi : e.monitor.speed = .inTolerance) (hh : (u.drive n).heldJob = some j)
    (hy : u.job j = some y) (hb : 2 ≤ y.budget) (hp : (u.unitProfiles n).swapPending = false) (hs : u.Granted)
    (hg : g.state = (u.drive n).state) (hgm : g.monitor = e.monitor) (hgh : g.heldJob = some j)
    (hq : (u.drive n).state ≠ .tracking ∨ (u.drive n).waiting ≠ 0) (hq' : g.state ≠ .tracking ∨ g.waiting ≠ 0)
    (work : ∀ t : State, t.drive n = e → t.stageTrack n (u.situation n) (u.drive n).heldJob cut = t.setDrive n g) :
    u.indexIn n cut order = (u.setJob j (some y.spent)).setDrive n g := by
  have spends : u.Spends n j g (some y.spent) := .held y hh hgh hy hb
  rw [State.indexIn_works (c := u.channel) hr hx he hi hp spends hg hgm
    (fun rest _ => State.course_quiet hs spends hq hq' rest) fun t ht hc _ _ => ?_,
    State.course_inside (by rw [← he]; exact hi) hp]
  rw [← hc]
  exact work t ht

/-- The capture that opens at an index for the unit the channel is reserved for (R30). -/
theorem State.stageOpen_opens {t : State} {n : UnitId} {j : JobIx} {x : Descriptor} {y : Job} {p : Prepared}
    (hc : t.channel.state = .reserved n) (hp : (t.unitProfiles n).swapPending = false) (hh : (t.drive n).heldJob = some j)
    (hpp : (t.drive n).prepared = some p) (hx : (t.drive n).descriptor = some x) (hy : t.job j = some y) :
    t.stageOpen n = t.openCapture n j y p x := by
  unfold State.stageOpen
  rw [State.takeSwap_none hp]
  dsimp only
  rw [if_pos hc, hh, hpp, hx]
  dsimp only
  rw [hy]

/-! ### An index that may begin a request -/

/-- An index at which the revolution's work takes the unit and its job on, amid requests and grants. `K` speaks of the channel
and of the unit's deferral count. -/
theorem State.indexIn_amid {u : State} {n : UnitId} {j : JobIx} {x : Descriptor} {y z : Job} {e g : Drive} {cut : CutField}
    {order : IndexOrder} {K : Bool → State → Prop} (hr : (u.drive n).state ∈ [.settling, .tracking])
    (hx : (u.drive n).descriptor = some x) (he : e = (u.drive n).indexed x u.clock) (hi : e.monitor.speed = .inTolerance)
    (hh : (u.drive n).heldJob = some j) (hy : u.job j = some y) (hb : 2 ≤ y.budget) (hz : z.budget = y.budget)
    (hp : (u.unitProfiles n).swapPending = false) (hg : g.state ∈ [.settling, .tracking]) (hgm : g.monitor = e.monitor)
    (hgh : g.heldJob = some j)
    (work : ∀ t w, (w = (y, z) ∨ w = (y.spent, z.spent)) → u.Amid n j e w.1 t →
      u.Amid n j g w.2 (t.stageTrack n (u.situation n) (u.drive n).heldJob cut))
    (start : K true (u.setDrive n ((u.drive n).indexSeen u.clock)))
    (keep : ∀ c t v, K c t → v.channel = t.channel → (v.drive n).deferral = (t.drive n).deferral → K c v)
    (works : ∀ c t, K c t → K c (t.stageTrack n (u.situation n) (u.drive n).heldJob cut))
    (arbitrate : ∀ c t, K c t → K c t.arbitrate) (defers : ∀ t, K true t → K false (t.stageDeferral n)) :
    u.Amid n j g z.spent (u.indexIn n cut order) ∧ K false (u.indexIn n cut order) := by
  have ready : (u.drive n).state.Ready := by
    simp only [List.mem_cons, List.not_mem_nil, or_false] at hr
    obtain h | h := hr <;> simp [h, DriveState.Ready]
  have unfaulted {st : DriveState} (h : st ∈ [.settling, .tracking]) : st ≠ .speedFault := by
    simp only [List.mem_cons, List.not_mem_nil, or_false] at h
    obtain h | h := h <;> simp [h]
  have est : e.state = (u.drive n).state := by rw [he]; rfl
  have eheld : e.heldJob = some j := by rw [he]; exact hh
  have whole := State.indexIn_phases (u := u) (n := n) (cut := cut) (order := order)
    (Q := fun l b c t => (∃ w, (w = if b then (y, z) else (y.spent, z.spent)) ∧
      u.Amid n j (if .monitor ∈ l then (u.drive n).indexSeen u.clock else if .track ∈ l then e else g)
        (if .track ∈ l then w.1 else w.2) t) ∧ K c t) ready ?_ ?_ ?_ ?_ ?_ ?_ ?_ ?_
  · obtain ⟨⟨w, rfl, amid⟩, k⟩ := whole
    exact ⟨by simpa using amid, k⟩
  · have order : ∀ b, .monitor ∈ judgedStages b ∧ .track ∈ judgedStages b := by decide
    refine ⟨⟨_, rfl, ?_⟩, start⟩
    rw [if_pos (order _).1, if_pos (order _).2]
    exact ⟨⟨rfl, rfl, rfl, fun _ _ => rfl⟩, by rw [drive_setDrive_same]; exact Drive.Like.refl _, hy⟩
  · rintro l b c t ⟨⟨w, -, amid⟩, -⟩
    rw [amid.toAround.unitProfiles]
    exact hp
  · rintro l b c t ⟨⟨w, hw, amid⟩, k⟩
    exact ⟨⟨w, hw, amid.arbitrate⟩, arbitrate c t k⟩
  · rintro l b c t - htrack hmon ⟨⟨w, hw, amid⟩, k⟩
    simp only [List.mem_cons, true_or, if_true, htrack, or_true] at amid
    refine ⟨⟨w, hw, ?_⟩, keep c t _ k (State.stageMonitor_channel t n) ?_⟩
    · rw [if_neg hmon, if_pos htrack, if_pos htrack, he, ← Drive.indexed_eq ready hx]
      exact amid.stageMonitor (x := x) hx
    · rw [State.stageMonitor_eq (x := x) (by rw [amid.drive.1]; exact hx), drive_setDrive_same]
  · rintro l b c t hl ⟨⟨w, hw, amid⟩, k⟩
    have hmon : .monitor ∉ l := by rw [hl]; split <;> simp
    simp only [List.mem_cons, hmon, reduceCtorEq, or_self, false_or, if_false] at amid
    have same : t.stageSpeed n (u.situation n) = t := by
      refine State.stageSpeed_none (fun _ => ?_) (fun h => absurd h ?_) _
      · rw [amid.speed]
        split
        · exact hi
        · rw [hgm]; exact hi
      · rw [amid.state]
        split
        · rw [est]; exact unfaulted hr
        · exact unfaulted hg
    rw [same]
    exact ⟨⟨w, hw, by rw [if_neg hmon]; exact amid⟩, k⟩
  · rintro l b c t hl ⟨⟨w, hw, amid⟩, k⟩
    have hmon : .monitor ∉ l ∧ .track ∉ l := by rw [hl]; split <;> simp
    simp only [List.mem_cons, hmon, reduceCtorEq, or_self, true_or, if_true, if_false] at amid
    refine ⟨⟨w, hw, ?_⟩, works c t k⟩
    rw [if_neg hmon.1, if_neg hmon.2, if_neg hmon.2]
    exact work t w (by rw [hw]; cases b <;> simp) amid
  · rintro l c t ⟨⟨w, hw, amid⟩, k⟩
    simp only [if_true] at hw
    subst hw
    have held : (if .monitor ∈ l then (u.drive n).indexSeen u.clock else if .track ∈ l then e else g).heldJob = some j := by
      split
      · exact hh
      · split
        · exact eheld
        · exact hgh
    have budget : 2 ≤ (if .track ∈ l then (y, z).1 else (y, z).2).budget := by split <;> simp [hb, hz]
    have spent := amid.stageBudget held budget
    rw [hh]
    refine ⟨⟨_, rfl, ?_⟩, keep c t _ k (State.stageBudget_channel (by rw [amid.heldJob]; exact held) amid.job budget) ?_⟩
    · rw [apply_ite Job.spent] at spent
      exact spent
    · rw [State.stageBudget_spends (by rw [amid.heldJob]; exact held) amid.job budget, State.setJob_drive]
  · rintro l b t ⟨⟨w, hw, amid⟩, k⟩
    exact ⟨⟨w, hw, amid.stageDeferral⟩, defers t k⟩

end Sys2Proof.Machine
end

section
/-! ## What an index starts: the statement -/

namespace Sys2Proof.Machine

theorem State.stageTrack_looping {t : State} {n : UnitId} {held : Option JobIx} (cut : CutField)
    (hh : (t.drive n).heldJob = held) : t.stageTrack n .looping held cut = t.stageWaiting n := if_pos hh

theorem State.stageTrack_settling {t : State} {n : UnitId} {held : Option JobIx} (cut : CutField)
    (hh : (t.drive n).heldJob = held) : t.stageTrack n .settling held cut = t.stageSettle n := if_pos hh

theorem State.stageTrack_opening {t : State} {n : UnitId} {held : Option JobIx} (cut : CutField)
    (hh : (t.drive n).heldJob = held) : t.stageTrack n .opening held cut = t.stageOpen n := if_pos hh

/-! ### The capture that opens -/

/-- The channel with a unit's capture opened (R30). -/
def Channel.opened (c : Channel) (n : UnitId) (j : JobIx) (d : Drive) (y : Job) (p : Prepared) (x : Descriptor)
    (profile : Profile) : Channel :=
  { state := .capturing n, lastGranted := c.lastGranted, strobe := p.strobe, slotSet := [], deferred := []
    rev := some
      { job := j, trim := d.monitor.currentTrim, pitch := d.monitor.lastPeriod.getD 0 / x.sectors
        window := d.monitor.lastPeriod.getD 0 / x.sectors / 4, cylinder := y.cylinder, head := y.head
        headerMask := p.actions.headerMask, noBlind := p.actions.noBlind, weightCap := p.actions.weightCap
        noVote := p.actions.noVote, profile := profile }
    openHeader := none, liveSeen := false }

theorem State.openCapture_eq (s : State) (n : UnitId) (j : JobIx) (y : Job) (p : Prepared) (x : Descriptor) :
    s.openCapture n j y p x =
      ({ s with channel := s.channel.opened n j (s.drive n) y p x (s.unitProfiles n).active } : State).setDrive n
        { s.drive n with passStrays := 0 } := rfl

theorem State.indexIn_opens {u : State} {n : UnitId} {x : Descriptor} {e : Drive} {j : JobIx} {y : Job} {p : Prepared}
    {cut : CutField} {order : IndexOrder} (hx : (u.drive n).descriptor = some x) (hst : (u.drive n).state = .tracking)
    (he : e = (u.drive n).indexed x u.clock) (hi : e.monitor.speed = .inTolerance) (hh : (u.drive n).heldJob = some j)
    (hy : u.job j = some y) (hb : 2 ≤ y.budget) (hp : (u.unitProfiles n).swapPending = false)
    (hc : u.channel.state = .reserved n) (hpp : (u.drive n).prepared = some p) :
    u.indexIn n cut order =
      (({ u with channel := u.channel.opened n j e y p x (u.unitProfiles n).active } : State).setJob j
        (some y.spent)).setDrive n { e with passStrays := 0 } := by
  have eheld : e.heldJob = some j := by rw [he]; exact hh
  have held (rest : List IndexStage) (c : Channel) (hcap : c.state = .capturing n) :
      (if .track ∈ rest then u.channel else c).state.holds n = true := by
    split <;> simp [ChannelState.holds, hc, hcap]
  have busy (rest : List IndexStage) (c : Channel) (hcap : c.state = .capturing n) :
      (if .track ∈ rest then u.channel else c).state ≠ .idle := by
    split <;> simp [hc, hcap]
  rw [State.indexIn_works (e := e) (g := { e with passStrays := 0 }) (y := some y.spent)
    (c := u.channel.opened n j e y p x (u.unitProfiles n).active) (by rw [hst]; simp) hx he hi hp (.held y hh eheld hy hb)
    (by rw [he]; rfl) rfl (fun rest _ => ⟨fun idle => absurd idle (busy rest _ rfl), .inr (held rest _ rfl)⟩)
    fun t ht htc htp htj => ?_, State.course_inside (by rw [← he]; exact hi) hp]
  have opens (z : Job) (hz : t.job j = some z) := State.stageOpen_opens (x := x) (y := z) (p := p) (htc ▸ hc)
    (by rw [htp]; exact hp) (by rw [ht]; exact eheld) (by rw [ht, he]; exact hpp) (by rw [ht, he]; exact hx) hz
  rw [State.situation_opening hc, State.stageTrack_opening cut (by rw [ht, hh]; exact eheld)]
  obtain htj | htj := htj
  · rw [opens y (htj.trans hy), State.openCapture_eq, ht, htc, htp]
  · rw [opens y.spent htj, State.openCapture_eq, ht, htc, htp]
    rfl

/-! ### A waiting that ends -/

/-- While the channel serves another unit it stays as it was, and the deferral count goes up once at most (R26, R27). -/
def State.Defers (u : State) (n : UnitId) (k : Nat) (pending : Bool) (t : State) : Prop :=
  ∀ m, m ≠ n → u.ServedTo m → t.channel = u.channel ∧
    ((t.drive n).deferral = k ∨ (pending = false ∧ (t.drive n).deferral = min 255 (k + 1)))

theorem arbitrate_served {u t : State} {m : UnitId} (h : u.ServedTo m) (hc : t.channel = u.channel) : t.arbitrate = t := by
  unfold State.arbitrate
  rw [if_neg]
  rw [hc]
  obtain h | h := h <;> rw [h] <;> simp

theorem State.Defers.arbitrate {u t : State} {n : UnitId} {k : Nat} {c : Bool} (h : u.Defers n k c t) :
    u.Defers n k c t.arbitrate := fun m hm hs => by
  rw [arbitrate_served hs (h m hm hs).1]
  exact h m hm hs

theorem State.Defers.stageDeferral {u t : State} {n : UnitId} {k : Nat} (h : u.Defers n k true t) :
    u.Defers n k false (t.stageDeferral n) := fun m hm hs => by
  obtain ⟨hc, hk⟩ := h m hm hs
  have hk : (t.drive n).deferral = k := by simpa using hk
  refine ⟨(State.stageDeferral_channel t n).trans hc, ?_⟩
  rw [State.stageDeferral_eq]
  split
  · rw [drive_setDrive_same, hk]
    exact .inr ⟨rfl, rfl⟩
  · exact .inl hk

theorem State.Defers.stageWaiting {u t : State} {n : UnitId} {k : Nat} {c : Bool} (h : u.Defers n k c t) :
    u.Defers n k c (t.stageWaiting n) := by
  unfold State.stageWaiting
  split
  · intro m hm hs
    obtain ⟨hc, hk⟩ := h m hm hs
    exact ⟨hc, by rw [modDrive_drive]; exact hk⟩
  · exact h

theorem State.indexIn_waited {u : State} {n : UnitId} {x : Descriptor} {e : Drive} {j : JobIx} {y : Job} {cut : CutField}
    {order : IndexOrder} (hx : (u.drive n).descriptor = some x) (hst : (u.drive n).state = .tracking)
    (he : e = (u.drive n).indexed x u.clock) (hi : e.monitor.speed = .inTolerance) (hh : (u.drive n).heldJob = some j)
    (hy : u.job j = some y) (hb : 2 ≤ y.budget) (hp : (u.unitProfiles n).swapPending = false)
    (hw : (u.drive n).waiting = 1) (hc : u.channel.state.holds n = false) :
    u.Amid n j { e with waiting := 0 } y.spent (u.indexIn n cut order) ∧
      u.Defers n (u.drive n).deferral false (u.indexIn n cut order) := by
  have situation := State.situation_looping hst hc
  have eheld : e.heldJob = some j := by rw [he]; exact hh
  have est : e.state = .tracking := by rw [he]; exact hst
  refine State.indexIn_amid (z := y) (g := { e with waiting := 0 }) (K := u.Defers n (u.drive n).deferral)
    (by rw [hst]; simp) hx he hi hh hy hb rfl hp (by simp [est]) rfl eheld (fun t w hw' amid => ?_)
    (fun m _ _ => ⟨rfl, by rw [drive_setDrive_same]; exact .inl rfl⟩)
    (fun c t v h hcv hd m hm hs => by rw [hcv, hd]; exact h m hm hs) (fun c t h => ?_)
    (fun c t h => h.arbitrate) fun t h => h.stageDeferral
  · have both : w.2 = w.1 := by obtain rfl | rfl := hw' <;> rfl
    have wait : e.waiting = 1 := by rw [he]; exact hw
    rw [situation, State.stageTrack_looping cut (by rw [amid.heldJob, eheld, hh]),
      State.stageWaiting_counts (by rw [amid.state, est]) (by rw [amid.drive.1]; simp [wait]) (by rw [amid.speed, hi]), both]
    refine amid.setDrive ⟨?_, fun h => absurd est h⟩
    rw [amid.drive.1]
    simp [wait]
  · rw [situation]
    unfold State.stageTrack
    dsimp only
    split
    · exact h.stageWaiting
    · exact h

/-! ### A unit that waits for the channel -/

/-- The monitors before and after an index at which a unit's pass could start: what they let its deferral count become. -/
def Defer (before after : Monitor) (may : Prop) (k : Nat) (pending : Bool) (i : Nat) : Prop :=
  if pending then i = k
  else (i = k ∧ ¬ (before.Settled ∧ after.Settled ∧ may)) ∨ (i = min 255 (k + 1) ∧ (before.Settled ∨ after.Settled))

theorem Monitor.trimSettled_iff (m : Monitor) : m.trimSettled = true ↔ m.Settled := by
  simp [Monitor.trimSettled, Monitor.Settled]

theorem State.mayStartPass_iff {t : State} {n : UnitId} {j : JobIx} {y : Job} (hh : (t.drive n).heldJob = some j)
    (hy : t.job j = some y) :
    t.mayStartPass n = true ↔ y.passCount < (t.unitProfiles n).active.passLimit ∧ 0 < y.budget := by
  unfold State.mayStartPass
  rw [hh, Option.bind_some, hy]
  simp only [Bool.and_eq_true, decide_eq_true_eq]
  rfl

theorem State.requesting_iff {t : State} {n : UnitId} {j : JobIx} {y : Job} (hst : (t.drive n).state = .tracking)
    (hw : (t.drive n).waiting = 0) (hh : (t.drive n).heldJob = some j) (hy : t.job j = some y) (hb : 0 < y.budget) :
    t.requesting n = true ↔ (t.drive n).monitor.Settled ∧ y.passCount < (t.unitProfiles n).active.passLimit := by
  simp [State.requesting, hst, hw, Monitor.trimSettled_iff, State.mayStartPass_iff hh hy, hb]

theorem State.setDrive_self (s : State) (n : UnitId) : s.setDrive n (s.drive n) = s := by simp [State.setDrive, State.drive]

/-- A TRACKING unit that waits for the channel, at the deferral stage (R26). -/
theorem State.stageDeferral_defer {t : State} {n : UnitId} {d : Drive} {j : JobIx} {y : Job} {before after : Monitor}
    (hd : t.drive n = d) (hst : d.state = .tracking) (hw : d.waiting = 0) (hh : d.heldJob = some j) (hy : t.job j = some y)
    (hb : 0 < y.budget) (hc : t.channel.state.holds n = false) (hm : d.monitor = before ∨ d.monitor = after) :
    ∃ i, Defer before after (y.passCount < (t.unitProfiles n).active.passLimit) d.deferral false i ∧
      t.stageDeferral n = t.setDrive n { d with deferral := i } := by
  subst hd
  have asks := State.requesting_iff hst hw hh hy hb
  rw [State.stageDeferral_eq]
  split
  · next h =>
    obtain ⟨settled, -⟩ := asks.1 h.1
    exact ⟨_, .inr ⟨rfl, hm.imp (fun e => by rwa [e] at settled) fun e => by rwa [e] at settled⟩, rfl⟩
  · next h =>
    refine ⟨_, .inl ⟨rfl, fun ⟨hb', ha, hl⟩ => h ⟨asks.2 ⟨?_, hl⟩, hc⟩⟩, (State.setDrive_self t n).symm⟩
    obtain e | e := hm
    · rw [e]; exact hb'
    · rw [e]; exact ha

/-- The monitor's stage where the speed does not pass to OUT (R4 to R6). -/
theorem State.stageMonitor_setDrive {s : State} {n : UnitId} {d : Drive} {x : Descriptor} (hx : d.descriptor = some x)
    (h : ¬ (d.monitor.speed = .inTolerance ∧ (d.monitor.index x s.clock).speed = .out)) :
    (s.setDrive n d).stageMonitor n = s.setDrive n { d with monitor := d.monitor.index x s.clock } := by
  rw [State.stageMonitor_eq (x := x) (by rw [drive_setDrive_same]; exact hx), drive_setDrive_same]
  refine Eq.trans ?_ (setDrive_setDrive s n d _)
  rw [show (s.setDrive n d).clock = s.clock from rfl, if_neg h]
  rfl

theorem State.indexIn_awaits {u : State} {n m : UnitId} {x : Descriptor} {e : Drive} {j : JobIx} {y : Job} {cut : CutField}
    {order : IndexOrder} (hx : (u.drive n).descriptor = some x) (hst : (u.drive n).state = .tracking)
    (he : e = (u.drive n).indexed x u.clock) (hi : e.monitor.speed = .inTolerance) (hh : (u.drive n).heldJob = some j)
    (hy : u.job j = some y) (hb : 2 ≤ y.budget) (hp : (u.unitProfiles n).swapPending = false)
    (hw : (u.drive n).waiting = 0) (hm : m ≠ n) (hs : u.ServedTo m) :
    ∃ i, Defer (u.drive n).monitor e.monitor (y.passCount < (u.unitProfiles n).active.passLimit) (u.drive n).deferral false i ∧
      u.indexIn n cut order = (u.setJob j (some y.spent)).setDrive n { e with deferral := i } := by
  have free : u.channel.state.holds n = false := by
    obtain h | h := hs <;> simp [ChannelState.holds, h, hm]
  have eheld : e.heldJob = some j := by rw [he]; exact hh
  have est : e.state = .tracking := by rw [he]; exact hst
  have ready : (u.drive n).state.Ready := by rw [hst]; simp [DriveState.Ready]
  have flags : ¬ ((u.drive n).monitor.speed = .inTolerance ∧ ((u.drive n).monitor.index x u.clock).speed = .out) :=
    fun h => by
      rw [show ((u.drive n).monitor.index x u.clock).speed = .inTolerance from by rw [he] at hi; exact hi] at h
      cases h.2
  have whole := State.indexIn_phases (u := u) (n := n) (cut := cut) (order := order)
    (Q := fun l b c t => ∃ i, Defer (u.drive n).monitor e.monitor (y.passCount < (u.unitProfiles n).active.passLimit)
      (u.drive n).deferral c i ∧
      t = (u.setJob j (some (if b then y else y.spent))).setDrive n
        { (if .monitor ∈ l then (u.drive n).indexSeen u.clock else e) with deferral := i }) ready ?_ ?_ ?_ ?_ ?_ ?_ ?_ ?_
  · simpa using whole
  · have first : ∀ b, .monitor ∈ judgedStages b := by decide
    refine ⟨(u.drive n).deferral, rfl, ?_⟩
    rw [if_pos (first _), if_pos rfl, State.setJob_self hy]
    rfl
  · rintro l b c t ⟨i, -, rfl⟩
    exact hp
  · rintro l b c t ⟨i, hi', rfl⟩
    exact ⟨i, hi', arbitrate_served hs rfl⟩
  · rintro l b c t - - hmon ⟨i, hi', rfl⟩
    refine ⟨i, hi', (State.stageMonitor_setDrive (x := x) ?_ ?_).trans ?_⟩
    · rw [if_pos List.mem_cons_self]
      exact hx
    · rw [if_pos List.mem_cons_self]
      exact flags
    · rw [if_neg hmon, he, ← Drive.indexed_eq ready hx, if_pos List.mem_cons_self]
      rfl
  · rintro l b c t hl ⟨i, hi', rfl⟩
    have hmon : .monitor ∉ l := by rw [hl]; split <;> simp
    refine ⟨i, hi', ?_⟩
    rw [State.stageSpeed_none]
    · simp
    · intro _
      rw [drive_setDrive_same]
      simpa [hmon] using hi
    · intro h
      rw [drive_setDrive_same] at h
      simp [hmon, est] at h
  · rintro l b c t hl ⟨i, hi', rfl⟩
    have hmon : .monitor ∉ l := by rw [hl]; split <;> simp
    refine ⟨i, hi', ?_⟩
    rw [State.situation_looping hst free, State.stageTrack_looping cut, State.stageWaiting_none]
    · simp
    · rw [drive_setDrive_same]
      exact .inr (.inl (by simp only [List.mem_cons, hmon, reduceCtorEq, or_self, if_false, he]; exact hw))
    · rw [drive_setDrive_same]
      simp [hmon, eheld, hh]
  · rintro l c t ⟨i, hi', rfl⟩
    refine ⟨i, hi', ?_⟩
    rw [hh, State.stageBudget_spends (y := y)]
    · simp [State.setJob, State.setDrive]
    · rw [drive_setDrive_same]
      split
      · exact hh
      · exact eheld
    · rw [State.setDrive_job, job_setJob_same]
      rfl
    · exact hb
  · rintro l b t ⟨i, hi', rfl⟩
    have hi' : i = (u.drive n).deferral := hi'
    subst hi'
    obtain ⟨i, hdefer, hstage⟩ := State.stageDeferral_defer (n := n) (j := j) (y := if b then y else y.spent)
      (before := (u.drive n).monitor) (after := e.monitor) (drive_setDrive_same (u.setJob j (some (if b then y else y.spent))) n
        { (if .monitor ∈ l then (u.drive n).indexSeen u.clock else e) with deferral := (u.drive n).deferral })
      (by dsimp only; split; exacts [hst, est]) (by dsimp only; split; exacts [hw, by rw [he]; exact hw])
      (by dsimp only; split; exacts [hh, eheld]) (by rw [State.setDrive_job, job_setJob_same])
      (by split; exacts [by omega, Nat.sub_pos_of_lt hb]) free (by dsimp only; split; exacts [.inl rfl, .inr rfl])
    have count : (if b then y else y.spent).passCount = y.passCount := by split <;> rfl
    rw [count] at hdefer
    exact ⟨i, hdefer, by rw [hstage, setDrive_setDrive]⟩

end Sys2Proof.Machine
end

section
/-! ### A settling and a budget that end at an index -/

namespace Sys2Proof.Machine

theorem State.Amid.trackStarted {u t : State} {n : UnitId} {j : JobIx} {e : Drive} {y w : Job} (h : u.Amid n j e w t)
    (hh : e.heldJob = some j) (hx : e.descriptor = (u.drive n).descriptor) (hc : w.passCount = y.passCount)
    (hcyl : w.cylinder = y.cylinder) (hhead : w.head = y.head)
    (hl : y.passCount < (u.unitProfiles n).active.passLimit) :
    u.Amid n j (e.tracked.started (u.preparePass n y)) w.startReading (t.track n) := by
  have drive := h.drive
  have limit : w.startReading.passCount < (t.unitProfiles n).active.passLimit := by
    rw [h.toAround.unitProfiles]
    exact hc.trans_lt hl
  have same : ((t.setJob j (some w.startReading)).setDrive n (t.drive n).tracked).preparePass n w.startReading =
      u.preparePass n y :=
    State.preparePass_congr (s := u) (t := (t.setJob j (some w.startReading)).setDrive n (t.drive n).tracked) (x := y)
      (y := w.startReading) h.profiles h.quirks (by rw [drive_setDrive_same, h.drive.1]; exact hx) hc hcyl hhead
  unfold State.track
  rw [State.enterTracking_eq (by rw [h.heldJob]; exact hh) h.job,
    State.passStartCore_started (s := (t.setJob j (some w.startReading)).setDrive n (t.drive n).tracked) (j := j)
      (x := w.startReading) (by rw [drive_setDrive_same, h.drive.1]; exact hh)
      (by rw [State.setDrive_job, job_setJob_same]) limit, same, drive_setDrive_same]
  show u.Amid n j _ _ (((t.setJob j (some w.startReading)).setDrive n (t.drive n).tracked).setDrive n
    ((t.drive n).tracked.started (u.preparePass n y)))
  rw [setDrive_setDrive]
  refine (h.setJob w.startReading).setDrive ⟨?_, fun hn => absurd rfl hn⟩
  rw [drive.1]
  rfl

theorem State.indexIn_settled {u : State} {n : UnitId} {x : Descriptor} {e : Drive} {j : JobIx} {y : Job} {cut : CutField}
    {order : IndexOrder} (hx : (u.drive n).descriptor = some x) (hst : (u.drive n).state = .settling)
    (he : e = (u.drive n).indexed x u.clock) (hi : e.monitor.speed = .inTolerance) (hh : (u.drive n).heldJob = some j)
    (hy : u.job j = some y) (hb : 2 ≤ y.budget) (hp : (u.unitProfiles n).swapPending = false)
    (hs : (u.drive n).settleCount = 1) (hc : u.channel.state.holds n = false)
    (hl : y.passCount < (u.unitProfiles n).active.passLimit) :
    u.Amid n j (e.tracked.started (u.preparePass n y)) y.startReading.spent (u.indexIn n cut order) := by
  have eheld : e.heldJob = some j := by rw [he]; exact hh
  refine (State.indexIn_amid (z := y.startReading) (g := e.tracked.started (u.preparePass n y)) (K := fun _ _ => True)
    (by rw [hst]; simp) hx he hi hh hy hb rfl hp (by simp [Drive.started, Drive.tracked]) rfl eheld
    (fun t w hw amid => ?_) trivial (fun _ _ _ _ _ _ => trivial) (fun _ _ _ => trivial) (fun _ _ _ => trivial)
    fun _ _ => trivial).1
  rw [State.situation_settling hst hc, State.stageTrack_settling cut (by rw [amid.heldJob, eheld, hh]),
    State.stageSettle_tracks (by rw [amid.state, he]; exact hst) (by rw [amid.drive.1, he]; exact hs.le)
      (by rw [amid.speed]; exact hi)]
  have hx' : e.descriptor = (u.drive n).descriptor := by rw [he]; rfl
  obtain rfl | rfl := hw
  · exact amid.trackStarted eheld hx' rfl rfl rfl hl
  · exact amid.trackStarted (y := y) eheld hx' rfl rfl rfl hl

/-- A unit that has entered IDLE at an index without its job, which the end of its budget ended (R15, R49). -/
structure State.Spent (u : State) (n : UnitId) (j : JobIx) (y : Job) (d : Drive) (t : State) : Prop where
  drive : t.drive n = d
  job : ∃ z, t.job j = some z ∧ z.budget = 0 ∧ z.state = .draining ∧ z.endCause = some .budgetExhausted ∧
    z.counters = y.spent.counters
  profiles : t.profiles = u.profiles
  clock : t.clock = u.clock

theorem State.Spent.arbitrate {u t : State} {n : UnitId} {j : JobIx} {y : Job} {d : Drive} (h : u.Spent n j y d t)
    (hd : d.state ≠ .tracking) : u.Spent n j y d t.arbitrate where
  drive := (arbitrate_drive_notRequesting t n (requesting_notTracking t n (by rw [h.drive]; exact hd))).1.trans h.drive
  job := by rw [State.job, jobs_arbitrate]; exact h.job
  profiles := (SameButJobs.arbitrate t).profiles.trans h.profiles
  clock := (SameButJobs.arbitrate t).clock.trans h.clock

/-- The last revolution of a held job's budget, of a unit with no other job to take (R15, R49). -/
theorem State.Amid.stageBudget_ends {u t : State} {n : UnitId} {j : JobIx} {y : Job} {d : Drive} (h : u.Amid n j d y t)
    (hst : d.state = .tracking) (hh : d.heldJob = some j) (hb : y.budget = 1) (hu : y.unit = n) (hd : y.state ≠ .draining)
    (hq : ∀ i z, u.job i = some z → z.unit = n → z.state = .queued → i = j) :
    u.Spent n j y d.idled (t.stageBudget n (some j)) := by
  have held : ((t.setJob j (some y.spent)).drive n).heldJob = some j := h.heldJob.trans hh
  have job : (t.setJob j (some y.spent)).job j = some y.spent := job_setJob_same _ _ _
  have only : ∀ i z, (t.setJob j (some y.spent)).job i = some z → z.unit = n → z.state = .queued → i = j :=
    fun i z hz hzu hzq => by
      by_contra hne
      rw [job_setJob_ne _ _ (Ne.symm hne), h.others i hne] at hz
      exact hne (hq i z hz hzu hzq)
  obtain ⟨idle, drive⟩ := State.endJob_toIdle held job hu hd only .budgetExhausted
  obtain ⟨⟨z, hz, -, hzd, hzc, hzn, hzb⟩, -, drop⟩ := endJob_end _ j y.spent .budgetExhausted job hd
  rw [show y.spent.unit = n from hu] at drop
  have tracking : (((t.setJob j (some y.spent)).endJob j .budgetExhausted).drive n).state = .tracking := by
    rw [(drop held).1]
    exact h.state.trans hst
  have stage : t.stageBudget n (some j) = ((t.setJob j (some y.spent)).endJob j .budgetExhausted).toIdle n := by
    rw [State.stageBudget_eq (h.heldJob.trans hh) h.job, if_pos hb.le,
      State.endJobAndGoOn_held job hd (by rw [show y.spent.unit = n from hu]; exact held), show y.spent.unit = n from hu]
    exact goOn_settled _ _ (.inr tracking)
  have same := SameButJobs.endJob (t.setJob j (some y.spent)) j .budgetExhausted
  rw [stage]
  refine ⟨drive.trans ?_, ?_, ?_, ?_⟩
  · show (t.drive n).idled = d.idled
    rw [h.drive.1]
    rfl
  · rw [idle]
    exact ⟨z, hz, hzb.trans (by simp [Job.spent, hb]), hzd, hzc, hzn⟩
  · rw [idle]
    exact same.profiles.trans h.profiles
  · rw [idle]
    exact same.clock.trans h.clock

theorem State.indexIn_spent {u : State} {n : UnitId} {x : Descriptor} {e : Drive} {j : JobIx} {y : Job} {w : Nat}
    {cut : CutField} {order : IndexOrder} (hx : (u.drive n).descriptor = some x) (hst : (u.drive n).state = .tracking)
    (he : e = (u.drive n).indexed x u.clock) (hi' : e.monitor.speed = .inTolerance) (hh : (u.drive n).heldJob = some j)
    (hy : u.job j = some y) (hb : y.budget = 1)
    (hu : y.unit = n) (hd : y.state ≠ .draining) (hp : (u.unitProfiles n).swapPending = false)
    (hw : (u.drive n).waiting = w + 2) (hc : u.channel.state.holds n = false)
    (hq : ∀ i z, u.job i = some z → z.unit = n → z.state = .queued → i = j) :
    u.Spent n j y e.idled (u.indexIn n cut order) := by
  have eheld : e.heldJob = some j := by rw [he]; exact hh
  have est : e.state = .tracking := by rw [he]; exact hst
  have ready : (u.drive n).state.Ready := by rw [hst]; simp [DriveState.Ready]
  have situation := State.situation_looping hst hc
  have whole := State.indexIn_phases (u := u) (n := n) (cut := cut) (order := order)
    (Q := fun l b _ t => if b then
        u.Amid n j (if .monitor ∈ l then (u.drive n).indexSeen u.clock else if .track ∈ l then e
          else { e with waiting := w + 1 }) y t
      else u.Spent n j y (if .monitor ∈ l then ((u.drive n).indexSeen u.clock).idled else e.idled) t)
    ready ?_ ?_ ?_ ?_ ?_ ?_ ?_ ?_
  · simpa using whole
  · have first : ∀ b, .monitor ∈ judgedStages b := by decide
    rw [if_pos rfl, if_pos (first _)]
    exact ⟨⟨rfl, rfl, rfl, fun _ _ => rfl⟩, by rw [drive_setDrive_same]; exact Drive.Like.refl _, hy⟩
  · rintro l b c t h
    cases b with
    | true => rw [if_pos rfl] at h; rw [h.toAround.unitProfiles]; exact hp
    | false => rw [if_neg (by simp)] at h; rw [State.unitProfiles, h.profiles]; exact hp
  · rintro l b c t h
    cases b with
    | true => exact State.Amid.arbitrate h
    | false => exact State.Spent.arbitrate h (by split <;> simp [Drive.idled])
  · rintro l b c t - htrack hmon h
    rw [if_neg hmon, if_neg hmon]
    rw [if_pos List.mem_cons_self, if_pos List.mem_cons_self] at h
    rw [if_pos htrack, he, ← Drive.indexed_eq ready hx]
    cases b with
    | true => exact State.Amid.stageMonitor (x := x) h hx
    | false =>
      have h : u.Spent n j y ((u.drive n).indexSeen u.clock).idled t := h
      have inside : ¬ ((u.drive n).monitor.speed = .inTolerance ∧ ((u.drive n).monitor.index x u.clock).speed = .out) :=
        fun g => by
          rw [show ((u.drive n).monitor.index x u.clock).speed = .inTolerance from by rw [he] at hi'; exact hi'] at g
          cases g.2
      show u.Spent n j y _ (t.stageMonitor n)
      rw [State.stageMonitor_eq (x := x) (by rw [h.drive]; exact hx)]
      refine ⟨?_, h.job, h.profiles, h.clock⟩
      rw [drive_setDrive_same, h.drive, h.clock]
      rfl
  · rintro l b c t hl h
    have hmon : .monitor ∉ l := by rw [hl]; split <;> simp
    simp only [List.mem_cons, hmon, reduceCtorEq, or_self, false_or, if_false] at h ⊢
    cases b with
    | true =>
      rw [if_pos rfl] at h ⊢
      rw [State.stageSpeed_none]
      · exact h
      · intro _
        rw [h.speed]
        split <;> exact hi'
      · intro g
        rw [h.state] at g
        split at g <;> simp [est] at g
    | false =>
      rw [if_neg (by simp)] at h ⊢
      rw [State.stageSpeed_none]
      · exact h
      · intro _
        rw [h.drive]
        exact hi'
      · intro g
        rw [h.drive] at g
        simp [Drive.idled] at g
  · rintro l b c t hl h
    have hmon : .monitor ∉ l ∧ .track ∉ l := by rw [hl]; split <;> simp
    simp only [List.mem_cons, hmon, reduceCtorEq, or_self, true_or, if_true, if_false] at h ⊢
    rw [situation]
    cases b with
    | true =>
      rw [if_pos rfl] at h ⊢
      have wait : e.waiting = w + 2 := by rw [he]; exact hw
      rw [State.stageTrack_looping cut (by rw [h.heldJob, eheld, hh]),
        State.stageWaiting_counts (by rw [h.state, est]) (by rw [h.drive.1]; simp [wait]) (by rw [h.speed, hi'])]
      refine h.setDrive ⟨?_, fun g => absurd est g⟩
      rw [h.drive.1]
      simp [wait]
    | false =>
      rw [if_neg (by simp)] at h ⊢
      rw [show t.stageTrack n .looping (u.drive n).heldJob cut = t from
        if_neg (by rw [h.drive, hh]; simp [Drive.idled])]
      exact h
  · rintro l c t h
    rw [if_pos rfl] at h
    rw [hh, if_neg (by simp)]
    have ends := State.Amid.stageBudget_ends h (by split; exacts [hst, by split <;> exact est])
      (by split; exacts [hh, by split <;> exact eheld]) hb hu hd hq
    convert ends using 1
    split
    · rfl
    · split <;> rfl
  · rintro l b t h
    cases b with
    | true => exact State.Amid.stageDeferral h
    | false =>
      rw [if_neg (by simp)] at h ⊢
      rw [State.stageDeferral_none (.inl (requesting_notTracking t n ?_))]
      · exact h
      · rw [h.drive]
        split <;> simp [Drive.idled]

/-! ### The obligation -/

/-- Settles O39. -/
theorem indexStartsWork : Obligations.IndexStartsWork := by
  intro n elapsed now w cut s u d e x j y hd hx hnow hh hy he hi hi' hp hg hu
  have hv : ∃ v : State, v = { s with clock := now, choices := s.choices + 1 } := ⟨_, rfl⟩
  obtain ⟨v, hv⟩ := hv
  have hdv : d = v.drive n := by rw [hv]; exact hd
  have hev : e = (v.drive n).indexed x v.clock := by rw [he, hdv, hv]
  have hyv : v.job j = some y := by rw [hv]; exact hy
  have hpv : (v.unitProfiles n).swapPending = false := by rw [hv]; exact hp
  have hgv : v.Granted := by rw [hv]; exact hg
  have hcv : v.channel = s.channel := by rw [hv]
  have huv : u = v.setJob j (some y.spent) := by rw [hu, hv]
  have eheld : e.heldJob = some j := by rw [he]; exact hh
  have est : e.state = d.state := by rw [he]; rfl
  have run {t : State} (h : v.indexIn n cut (Config.indexOrder s.choices) = t) := exec_indexPulse_inside hnow hv h
  subst hdv
  refine ⟨fun hb hst hw hc => ?_, fun hb hst hw hc => ?_, fun p hb hst hc hpp => ?_, fun hb hst hw hc => ?_,
    fun m hb hst hw hm hs => ?_, fun hb hst hw hc hpasses hl => ?_, fun hb hyu hyd hst hw hc hq => ?_⟩
  · rw [huv]
    refine run (State.indexIn_counts hx (by simp [hst]) hev hi' hh hyv hb hpv hgv est rfl eheld (.inr (by simp [hw]))
      (.inr (by simp)) fun t ht => ?_)
    rw [State.situation_looping hst (by rw [hcv]; exact hc), State.stageTrack_looping cut (by rw [ht, hh]; exact eheld),
      State.stageWaiting_counts (by rw [ht, est, hst]) (by rw [ht, he]; simp [Drive.indexed, hw]) (by rw [ht, hi']), ht]
    simp [he, Drive.indexed, hw]
  · rw [huv]
    refine run (State.indexIn_counts hx (by simp [hst]) hev hi' hh hyv hb hpv hgv est rfl eheld (.inl (by simp [hst]))
      (.inl (by simp [est, hst])) fun t ht => ?_)
    rw [State.situation_settling hst (by rw [hcv]; exact hc), State.stageTrack_settling cut (by rw [ht, hh]; exact eheld),
      State.stageSettle_counts (by rw [ht, est, hst]) (by rw [ht, he]; simp [Drive.indexed, hw]) (by rw [ht, hi']), ht]
    simp [he, Drive.indexed, hw]
  · refine (run (State.indexIn_opens hx hst hev hi' hh hyv hb hpv (by rw [hcv]; exact hc) hpp)).trans ?_
    rw [huv, hv]
    rfl
  · obtain ⟨amid, defers⟩ := State.indexIn_waited (cut := cut) (order := Config.indexOrder s.choices) hx hst hev hi' hh hyv hb
      hpv hw (by rw [hcv]; exact hc)
    refine ⟨_, run rfl, ?_, ?_, fun m hm hs => ?_⟩
    · rw [State.finish_job]
      exact amid.job
    · rw [State.finish_drive]
      exact amid.arbitrate.drive.1
    · rw [State.finish_drive]
      obtain ⟨-, h⟩ := defers.arbitrate m hm (by unfold State.ServedTo; rw [hcv]; exact hs)
      simpa using h
  · obtain ⟨i, hdefer, hrun⟩ := State.indexIn_awaits (cut := cut) (order := Config.indexOrder s.choices) hx hst hev hi' hh hyv
      hb hpv hw hm (by unfold State.ServedTo; rw [hcv]; exact hs)
    have limit : (s.unitProfiles n).active.passLimit = (v.unitProfiles n).active.passLimit := by rw [hv]; rfl
    have same : ({ e with deferral := (v.drive n).deferral } : Drive) = e := by rw [he]; rfl
    rw [run hrun, huv, limit]
    simp only [Defer, Bool.false_eq_true, if_false] at hdefer
    refine ⟨fun hb' ha hl => ?_, fun hb' ha => ?_, fun hba hl => ?_⟩
    · obtain ⟨-, h⟩ | ⟨rfl, -⟩ := hdefer
      · exact absurd ⟨hb', ha, hl⟩ h
      · rfl
    · obtain ⟨rfl, -⟩ | ⟨-, h⟩ := hdefer
      · rw [same]
      · exact absurd h (by simp [hb', ha])
    · obtain ⟨rfl, -⟩ | ⟨rfl, -⟩ := hdefer
      · exact .inl (by rw [same])
      · exact .inr rfl
  · have limit : (s.unitProfiles n).active.passLimit = (v.unitProfiles n).active.passLimit := by rw [hv]; rfl
    have amid := State.indexIn_settled (cut := cut) (order := Config.indexOrder s.choices) hx hst hev hi' hh hyv hb hpv hw
      (by rw [hcv]; exact hc) (by rw [← limit]; exact hl)
    refine ⟨_, v.preparePass n y, run rfl, ?_, ?_, ?_⟩
    · rw [State.preparePass_congr (s := s) (t := v) (x := y) (y := y) (by rw [hv]) (by rw [hv]) (by rw [← hd]) rfl rfl rfl]
      exact s.preparePass_prepared n y hpasses
    · rw [State.finish_job]
      exact amid.job
    · rw [State.finish_drive]
      exact amid.arbitrate.drive.1
  · have spent := State.indexIn_spent (cut := cut) (order := Config.indexOrder s.choices) hx hst hev hi' hh hyv hb hyu hyd
      hpv hw (by rw [hcv]; exact hc) fun i z hz => hq i z (by rw [hv] at hz; exact hz)
    obtain ⟨z, hz, hzb, hzd, hzc, hzn⟩ := spent.job
    refine ⟨_, z, run rfl, ?_, hzb, hzd, hzc, hzn, ?_⟩
    · rw [State.finish_job]
      exact hz
    · rw [State.finish_drive]
      exact (spent.arbitrate (by simp [Drive.idled])).drive

end Sys2Proof.Machine
end

section
/-! ## A speed fault with a job held (R16, R49, R128) -/

namespace Sys2Proof.Machine

variable {u t : State} {n : UnitId} {j : JobIx} {d : Drive} {y w : Job}

/-- The slots and the actions of a job's track at offset 0 (R128). -/
def State.slotsFor (u : State) (n : UnitId) (y : Job) : BitVec 16 := slotSet (u.evaluate n y.cylinder y.head 0)

def State.actionsFor (u : State) (n : UnitId) (y : Job) : Actions := u.combined (u.evaluate n y.cylinder y.head 0)

theorem State.combines_for (u : State) (n : UnitId) (y : Job) :
    u.Combines n y.cylinder y.head 0 (u.slotsFor n y) (u.actionsFor n y) := u.evaluate_combines n y.cylinder y.head 0

theorem State.Around.evaluatePositioning (h : u.Around n j t) (hy : t.job j = some w)
    (hx : (t.drive n).descriptor = (u.drive n).descriptor) (hc : w.cylinder = y.cylinder) (hh : w.head = y.head) :
    t.evaluatePositioning n j = t.setDrive n ((t.drive n).evaluated (u.slotsFor n y) (u.actionsFor n y)) := by
  rw [State.evaluatePositioning_eq t n hy, State.evaluate_congr h.quirks hx, State.combined_congr h.quirks, hc, hh]
  rfl

theorem State.Amid.unlike (h : u.Amid n j d y t) (hst : d.state ≠ .tracking) : t.drive n = d := h.drive.2 hst

/-- A unit that requests nothing is not served after an early release (R41). -/
theorem releaseEarly_notTracking (hst : (t.drive n).state ≠ .tracking) :
    (t.releaseEarly n).channel.state.holds n = false := by
  unfold State.releaseEarly
  split
  · exact (arbitrate_drive_notRequesting { t with channel := t.channel.toIdle } n
      (requesting_notTracking { t with channel := t.channel.toIdle } n hst)).2 (by simp [ChannelState.holds, Channel.toIdle])
  · next h => simpa using h

/-- A pass opens only where one is prepared (R30). -/
theorem State.stageOpen_unprepared (hp : (t.unitProfiles n).swapPending = false) (h : (t.drive n).prepared = none) :
    t.stageOpen n = t := by
  unfold State.stageOpen
  rw [State.takeSwap_none hp]
  dsimp only
  rw [h]
  split
  · split <;> simp_all
  · rfl

/-- The opening of a capture amid an index: what it changes of the unit is the count of the pass's strays (R30). -/
theorem State.Amid.stageOpen (h : u.Amid n j d y t) (hp : (u.unitProfiles n).swapPending = false) :
    ∃ k, u.Amid n j { d with passStrays := k } y (t.stageOpen n) ∧ (t.stageOpen n).flags = t.flags := by
  have same : u.Amid n j { d with passStrays := d.passStrays } y t := h
  unfold State.stageOpen
  rw [State.takeSwap_none (by rw [h.toAround.unitProfiles]; exact hp)]
  dsimp only
  split
  · split
    · split
      · refine ⟨0, ?_, rfl⟩
        rw [State.openCapture_eq]
        refine State.Amid.setDrive (h.channel _) ⟨?_, fun hn => ?_⟩
        · rw [h.drive.1]
        · rw [h.unlike hn]
      · exact ⟨_, same, rfl⟩
    · exact ⟨_, same, rfl⟩
  · exact ⟨_, same, rfl⟩

/-- The revolution's work of a unit whose speed is OUT, or that stands in SPEED_FAULT, with no captured revolution to close:
nothing but a capture that opens. -/
theorem State.Amid.stageTrack_faulted {held : Option JobIx} {at_ : Situation} (h : u.Amid n j d y t)
    (hp : (u.unitProfiles n).swapPending = false) (ha : at_ ≠ .closing)
    (hs : (d.state ≠ .tracking ∧ d.state ≠ .settling) ∨ d.monitor.speed = .out) (cut : CutField) :
    ∃ k, u.Amid n j { d with passStrays := k } y (t.stageTrack n at_ held cut) ∧
      (t.stageTrack n at_ held cut).flags = t.flags := by
  have same : u.Amid n j { d with passStrays := d.passStrays } y t := h
  unfold State.stageTrack
  cases at_ with
  | closing => exact absurd rfl ha
  | other => exact ⟨_, same, rfl⟩
  | opening =>
    dsimp only
    split
    · exact h.stageOpen hp
    · exact ⟨_, same, rfl⟩
  | looping =>
    have none : t.stageWaiting n = t := State.stageWaiting_none (by
      rw [h.state, h.speed]
      exact hs.elim (fun g => .inl g.1) fun g => .inr (.inr g))
    dsimp only
    rw [none, ite_self]
    exact ⟨_, same, rfl⟩
  | settling =>
    have none : t.stageSettle n = t := State.stageSettle_none (by
      rw [h.state, h.speed]
      exact hs.imp_left fun g => g.2)
    dsimp only
    rw [none, ite_self]
    exact ⟨_, same, rfl⟩

/-- The revolution's work of a unit whose speed has been judged: nothing. -/
theorem State.Amid.stageTrack_judged {held : Option JobIx} {at_ : Situation} (h : u.Amid n j d y t)
    (hp : (u.unitProfiles n).swapPending = false) (ha : at_ ≠ .closing) (hl : at_ = .looping → d.state ≠ .tracking)
    (hs : at_ = .settling → d.state ≠ .settling) (hd : d.prepared = none) (cut : CutField) :
    t.stageTrack n at_ held cut = t := by
  unfold State.stageTrack
  cases at_ with
  | closing => exact absurd rfl ha
  | other => rfl
  | opening =>
    dsimp only
    rw [State.stageOpen_unprepared (by rw [h.toAround.unitProfiles]; exact hp) (by rw [h.drive.1]; exact hd), ite_self]
  | looping =>
    dsimp only
    rw [State.stageWaiting_none (.inl (by rw [h.state]; exact hl rfl)), ite_self]
  | settling =>
    dsimp only
    rw [State.stageSettle_none (.inl (by rw [h.state]; exact hs rfl)), ite_self]

theorem State.situation_closing {u : State} {n : UnitId} : u.situation n = .closing ↔ u.channel.state = .capturing n := by
  unfold State.situation
  split
  · next h => simp [h]
  · next h =>
    refine ⟨fun g => ?_, fun g => absurd g h⟩
    split at g
    · cases g
    · split at g <;> cases g

theorem State.situation_settling_imp (h : u.situation n = .settling) : (u.drive n).state = .settling := by
  unfold State.situation at h
  split at h
  · cases h
  · split at h
    · cases h
    · split at h <;> first | assumption | cases h

/-- An index at which the speed is judged of a unit with a job and with no captured revolution to close: the speed's stage
makes of the unit the drive `g`, and gives up the channel where `F`. -/
theorem State.indexIn_faults {x : Descriptor} {e g : Drive} {cut : CutField} {order : IndexOrder} {F : Prop}
    (hr : (u.drive n).state.Ready) (hx : (u.drive n).descriptor = some x) (he : e = (u.drive n).indexed x u.clock)
    (hh : (u.drive n).heldJob = some j) (hy : u.job j = some y) (hb : 2 ≤ y.budget)
    (hp : (u.unitProfiles n).swapPending = false) (hc : u.channel.state ≠ .capturing n)
    (hs : (e.state ≠ .tracking ∧ e.state ≠ .settling) ∨ e.monitor.speed = .out) (hg : g.state ≠ .tracking)
    (hgh : g.heldJob = some j) (hgp : g.prepared = none) (hgl : (u.drive n).state = .settling → g.state ≠ .settling)
    (speed : ∀ t w k, (w = y ∨ w = y.spent) → u.Amid n j { e with passStrays := k } w t →
      u.Amid n j g w (t.stageSpeed n (u.situation n)) ∧ (t.stageSpeed n (u.situation n)).flags = t.flags ∧
        (F → (t.stageSpeed n (u.situation n)).channel.state.holds n = false)) :
    u.Amid n j g y.spent (u.indexIn n cut order) ∧ (u.indexIn n cut order).flags = u.indexFlags n x ∧
      (F → (u.indexIn n cut order).channel.state.holds n = false) := by
  have notClosing : u.situation n ≠ .closing := fun h => hc (State.situation_closing.1 h)
  have eheld : e.heldJob = some j := by rw [he]; exact hh
  have whole := State.indexIn_phases (u := u) (n := n) (cut := cut) (order := order)
    (Q := fun l b _ t => (∃ k, u.Amid n j (if .speed ∈ l then
        { (if .monitor ∈ l then (u.drive n).indexSeen u.clock else e) with passStrays := k } else g)
        (if b then y else y.spent) t) ∧
      t.flags = (if .monitor ∈ l then u.flags else u.indexFlags n x) ∧
      (F → .speed ∉ l → t.channel.state.holds n = false)) hr ?_ ?_ ?_ ?_ ?_ ?_ ?_ ?_
  · obtain ⟨⟨k, amid⟩, flags, free⟩ := whole
    exact ⟨by simpa using amid, by simpa using flags, fun f => free f (by simp)⟩
  · have first : ∀ b, .monitor ∈ judgedStages b ∧ .speed ∈ judgedStages b := by decide
    refine ⟨⟨(u.drive n).passStrays, ?_⟩, ?_, fun _ h => absurd (first _).2 h⟩
    · rw [if_pos (first _).1, if_pos (first _).2]
      exact ⟨⟨rfl, rfl, rfl, fun _ _ => rfl⟩, by rw [drive_setDrive_same]; exact Drive.Like.refl _, hy⟩
    · rw [if_pos (first _).1]
      rfl
  · rintro l b c t ⟨⟨k, amid⟩, -⟩
    rw [amid.toAround.unitProfiles]
    exact hp
  · rintro l b c t ⟨⟨k, amid⟩, flags, free⟩
    refine ⟨⟨k, amid.arbitrate⟩, (flags_arbitrate t).trans flags, fun f hl => ?_⟩
    refine (arbitrate_drive_notRequesting t n (requesting_notTracking t n ?_)).2 (free f hl)
    rw [amid.state, if_neg hl]
    exact hg
  · rintro l b c t hspeed - hmon ⟨⟨k, amid⟩, flags, -⟩
    rw [if_pos (List.mem_cons_of_mem _ hspeed), if_pos List.mem_cons_self] at amid
    rw [if_pos List.mem_cons_self] at flags
    refine ⟨⟨k, ?_⟩, ?_, fun _ h => absurd hspeed h⟩
    · rw [if_pos hspeed, if_neg hmon, he, ← Drive.indexed_eq hr hx]
      exact amid.stageMonitor (x := x) hx
    · rw [if_neg hmon, State.stageMonitor_flags amid (x := x) hx, flags]
      rfl
  · rintro l b c t hl ⟨⟨k, amid⟩, flags, -⟩
    have later : .monitor ∉ l ∧ .speed ∉ l := by rw [hl]; split <;> simp
    rw [if_pos List.mem_cons_self, if_neg (by simp [later.1])] at amid
    rw [if_neg (by simp [later.1])] at flags
    obtain ⟨amid', flags', free⟩ := speed t _ k (by cases b <;> simp) amid
    refine ⟨⟨k, by rw [if_neg later.2]; exact amid'⟩, ?_, fun f _ => free f⟩
    rw [if_neg later.1, flags', flags]
  · rintro l b c t hl ⟨⟨k, amid⟩, flags, free⟩
    have hmon : .monitor ∉ l := by rw [hl]; split <;> simp
    rw [if_neg (by simp [hmon])] at flags
    by_cases hspeed : .speed ∈ l
    · rw [if_pos (by simp [hspeed]), if_neg (by simp [hmon])] at amid
      obtain ⟨k', amid', flags'⟩ := amid.stageTrack_faulted (held := (u.drive n).heldJob) hp notClosing hs cut
      refine ⟨⟨k', by rw [if_pos hspeed, if_neg hmon]; exact amid'⟩, ?_, fun _ h => absurd hspeed h⟩
      rw [if_neg hmon, flags', flags]
    · rw [if_neg (by simp [hspeed])] at amid
      rw [amid.stageTrack_judged hp notClosing (fun _ => hg) (fun h => hgl (State.situation_settling_imp h)) hgp]
      exact ⟨⟨k, by rw [if_neg hspeed]; exact amid⟩, by rw [if_neg hmon]; exact flags, fun f _ => free f (by simp [hspeed])⟩
  · rintro l c t ⟨⟨k, amid⟩, flags, free⟩
    rw [if_pos rfl] at amid
    have held : (if .speed ∈ l then { (if .monitor ∈ l then (u.drive n).indexSeen u.clock else e) with passStrays := k }
        else g).heldJob = some j := by
      split
      · dsimp only
        split
        · exact hh
        · exact eheld
      · exact hgh
    have here : (t.drive n).heldJob = some j := amid.heldJob.trans held
    rw [hh]
    refine ⟨⟨k, amid.stageBudget held hb⟩, ?_, fun f hl => ?_⟩
    · rw [State.stageBudget_spends here amid.job hb]
      exact flags
    · rw [State.stageBudget_channel here amid.job hb]
      exact free f hl
  · rintro l b t ⟨⟨k, amid⟩, flags, free⟩
    refine ⟨⟨k, amid.stageDeferral⟩, ?_, fun f hl => ?_⟩
    · rw [State.stageDeferral_eq]
      split <;> exact flags
    · rw [State.stageDeferral_channel]
      exact free f hl

/-! ### The two ways of the speed -/

/-- The drive of a unit that enters SPEED_FAULT with its job held (R16). -/
def Drive.faulted (e : Drive) : Drive := { e.quieted with state := .speedFault }

/-- The unit enters SPEED_FAULT, at an index that closes no captured revolution of it (R16, R41). -/
theorem State.Amid.stageSpeed_faults {e : Drive} {k : Nat} {at_ : Situation}
    (h : u.Amid n j { e with passStrays := k } w t) (hst : e.state ∈ [.settling, .tracking]) (ho : e.monitor.speed = .out)
    (ha : at_ ≠ .closing) :
    u.Amid n j e.faulted w (t.stageSpeed n at_) ∧ (t.stageSpeed n at_).flags = t.flags ∧
      (t.stageSpeed n at_).channel.state.holds n = false := by
  have state : (t.drive n).state ∈ [.idle, .settling, .tracking] := by
    rw [h.state]
    exact List.mem_cons_of_mem _ hst
  have drive : { (t.drive n).quieted with state := .speedFault } = e.faulted := by
    rw [h.drive.1]
    rfl
  rw [State.stageSpeed_faults state (by rw [h.speed]; exact ho), State.enterSpeedFault_eq (.inl ha), drive]
  refine ⟨(h.setDrive (f := e.faulted) (Drive.Like.refl _)).releaseEarly, ?_, releaseEarly_notTracking ?_⟩
  · exact (SameButJobs.releaseEarly (t.setDrive n e.faulted) n).flags
  · rw [drive_setDrive_same]
    simp [Drive.faulted]

theorem State.leaveSpeedFault_held {slots : BitVec 16} {a : Actions} (hh : (t.drive n).heldJob = some j)
    (he : t.evaluatePositioning n j = t.setDrive n ((t.drive n).evaluated slots a)) :
    t.leaveSpeedFault n = t.setDrive n
      (if (t.drive n).cylinder = none then ((t.drive n).evaluated slots a).restoring t.clock
        else if (t.drive n).cylinder = (t.drive n).target then (t.drive n).settling 1
        else ((t.drive n).evaluated slots a).seeking t.clock) := by
  unfold State.leaveSpeedFault
  rw [hh]
  dsimp only
  rw [he, State.issueRestore_eq, State.issueSeek_eq, drive_setDrive_same, setDrive_setDrive, setDrive_setDrive,
    State.modDrive_eq_setDrive, Drive.enter_settling]
  cases (t.drive n).cylinder with
  | none => rfl
  | some c =>
    dsimp only
    rw [if_neg (Option.some_ne_none c)]
    by_cases h : some c = (t.drive n).target
    · rw [if_pos h, if_pos h]
    · rw [if_neg h, if_neg h]
      rfl

/-- The unit leaves SPEED_FAULT with its job (R16, R128). -/
theorem State.Amid.stageSpeed_leaves {e g : Drive} {k : Nat} {at_ : Situation}
    (h : u.Amid n j { e with passStrays := k } w t) (hst : e.state = .speedFault) (hi : e.monitor.speed = .inTolerance)
    (hh : e.heldJob = some j) (hx : e.descriptor = (u.drive n).descriptor) (hc : w.cylinder = y.cylinder)
    (hhd : w.head = y.head)
    (hg : g = if e.cylinder = none then (e.evaluated (u.slotsFor n y) (u.actionsFor n y)).restoring u.clock
      else if e.cylinder = e.target then e.settling 1
      else (e.evaluated (u.slotsFor n y) (u.actionsFor n y)).seeking u.clock) :
    u.Amid n j g w (t.stageSpeed n at_) ∧ (t.stageSpeed n at_).flags = t.flags := by
  have drive : t.drive n = { e with passStrays := k } := h.unlike (by simp [hst])
  have evaluation := h.toAround.evaluatePositioning (y := y) h.job (by rw [drive]; exact hx) hc hhd
  have leaves : t.stageSpeed n at_ = t.setDrive n g := by
    rw [State.stageSpeed_leaves (by rw [drive]; exact hst) (by rw [drive]; exact hi), hg]
    rw [State.leaveSpeedFault_held (by rw [drive]; exact hh) evaluation, drive, h.clock]
    rfl
  rw [leaves]
  exact ⟨h.setDrive (Drive.Like.refl _), rfl⟩

/-- An index that makes or finds the speed OUT, of a unit that settles or tracks (R16). -/
theorem State.indexIn_speedOut {x : Descriptor} {e : Drive} {cut : CutField} {order : IndexOrder}
    (hst : (u.drive n).state ∈ [.settling, .tracking]) (hx : (u.drive n).descriptor = some x)
    (he : e = (u.drive n).indexed x u.clock) (ho : e.monitor.speed = .out) (hh : (u.drive n).heldJob = some j)
    (hy : u.job j = some y) (hb : 2 ≤ y.budget) (hp : (u.unitProfiles n).swapPending = false)
    (hc : u.channel.state ≠ .capturing n) :
    u.Amid n j e.faulted y.spent (u.indexIn n cut order) ∧ (u.indexIn n cut order).flags = u.indexFlags n x ∧
      (u.indexIn n cut order).channel.state.holds n = false := by
  have ready : (u.drive n).state.Ready := by
    simp only [List.mem_cons, List.not_mem_nil, or_false] at hst
    obtain h | h := hst <;> simp [h, DriveState.Ready]
  have est : e.state ∈ [.settling, .tracking] := by rw [he]; exact hst
  obtain ⟨amid, flags, free⟩ := State.indexIn_faults (F := True) (g := e.faulted) (cut := cut) (order := order) ready hx he hh hy
    hb hp hc (.inr ho) (by simp [Drive.faulted]) (by rw [he]; exact hh) rfl (fun _ => by simp [Drive.faulted])
    fun t w k _ amid => by
      obtain ⟨amid', flags, free⟩ := amid.stageSpeed_faults est ho fun h => hc (State.situation_closing.1 h)
      exact ⟨amid', flags, fun _ => free⟩
  exact ⟨amid, flags, free trivial⟩

/-- The index at which the speed of a unit in SPEED_FAULT with a job is in tolerance again (R16, R128). -/
theorem State.indexIn_speedIn {x : Descriptor} {e g : Drive} {cut : CutField} {order : IndexOrder}
    (hst : (u.drive n).state = .speedFault) (hx : (u.drive n).descriptor = some x)
    (he : e = (u.drive n).indexed x u.clock) (hi : e.monitor.speed = .inTolerance) (hh : (u.drive n).heldJob = some j)
    (hy : u.job j = some y) (hb : 2 ≤ y.budget) (hp : (u.unitProfiles n).swapPending = false)
    (hc : u.channel.state ≠ .capturing n)
    (hg : g = if e.cylinder = none then (e.evaluated (u.slotsFor n y) (u.actionsFor n y)).restoring u.clock
      else if e.cylinder = e.target then e.settling 1
      else (e.evaluated (u.slotsFor n y) (u.actionsFor n y)).seeking u.clock) :
    u.Amid n j g y.spent (u.indexIn n cut order) ∧ (u.indexIn n cut order).drive n = g := by
  have est : e.state = .speedFault := by rw [he]; exact hst
  have kept : g.state ≠ .tracking ∧ g.heldJob = some j ∧ g.prepared = none := by
    have held : e.heldJob = some j := by rw [he]; exact hh
    rw [hg]
    split
    · exact ⟨by simp [Drive.restoring], held, rfl⟩
    · split
      · exact ⟨by simp [Drive.settling], held, rfl⟩
      · exact ⟨by simp [Drive.seeking], held, rfl⟩
  obtain ⟨amid, -⟩ := State.indexIn_faults (F := False) (g := g) (cut := cut) (order := order)
    (by rw [hst]; simp [DriveState.Ready]) hx he hh hy hb hp hc (.inl (by simp [est])) kept.1 kept.2.1 kept.2.2
    (fun h => by rw [hst] at h; cases h) fun t w k hw amid => by
      have same : w.cylinder = y.cylinder ∧ w.head = y.head := by obtain rfl | rfl := hw <;> exact ⟨rfl, rfl⟩
      obtain ⟨amid', flags⟩ := amid.stageSpeed_leaves est hi (by rw [he]; exact hh) (by rw [he]; rfl) same.1 same.2 hg
      exact ⟨amid', flags, False.elim⟩
  exact ⟨amid, amid.unlike kept.1⟩

end Sys2Proof.Machine
end

section
/-! ## The index that closes a captured revolution (R37 to R40, R66 to R70) -/

namespace Sys2Proof.Machine

/-! ### Stage 1: what is outstanding -/

theorem CompletesAbsent.spent {c : Capture} {y z : Job} {k m : Nat} (h : CompletesAbsent c y k z m) :
    CompletesAbsent c y.spent k z.spent m := by
  cases h with
  | unread hs => exact .unread hs
  | named sec r hs hn => exact .named sec r hs ⟨hn.header, hn.first, hn.sector, hn.record⟩
  | stray hs hn =>
    have same : (if c.ident = some .header then y.heard else y).strayed.spent =
        (if c.ident = some .header then y.spent.heard else y.spent).strayed := by split <;> rfl
    rw [same]
    exact .stray hs hn

theorem CompletesAbsent.amplitude {c : Capture} {y z : Job} {k m : Nat} (h : CompletesAbsent c y k z m) (low : Bool) :
    CompletesAbsent { c with low := low } y k z m := by
  cases h with
  | unread hs => exact .unread hs
  | named sec r hs hn => exact .named sec r hs ⟨hn.header, hn.first, hn.sector, hn.record⟩
  | stray hs hn => exact .stray (c := { c with low := low }) hs hn

theorem StageOne.spent {s : State} {n : UnitId} {cut : CutField} {j : JobIx} {y z : Job} {k m : Nat} {live : Bool}
    (h : StageOne s n cut j y k z m live) : StageOne s n cut j y.spent k z.spent m live := by
  cases h with
  | bare hw => exact .bare hw
  | window w _ _ hw hu hj hd hc => exact .window w _ _ hw hu hj hd hc.spent

theorem StageOne.congr {s t : State} {n : UnitId} {cut : CutField} {j : JobIx} {y z : Job} {k m : Nat} {live : Bool}
    (h : StageOne s n cut j y k z m live) (hc : t.channel = s.channel) : StageOne t n cut j y k z m live := by
  cases h with
  | bare hw => rw [← hc] at hw ⊢; exact .bare hw
  | window w _ _ hw hu hj hd ha => rw [← hc] at hw ⊢; exact .window w _ _ hw hu hj hd ha

theorem State.countHeader_header {t : State} {c : Capture} {x : Job} (hi : c.ident = some .header)
    (hx : t.job c.job = some x) : t.countHeader c = t.setJob c.job (some x.heard) := by
  unfold State.countHeader
  rw [hi]
  exact State.modJob_eq hx _

theorem State.countHeader_none {t : State} {c : Capture} (hi : c.ident ≠ some .header) : t.countHeader c = t := by
  unfold State.countHeader
  split
  · next h => exact absurd h hi
  · rfl
  · rfl

/-- A capture that names a record of its job (R76, R79). -/
theorem State.applyCapture_named {t : State} {c : Capture} {x : Job} {sec : Nat} {r : Record} (hx : t.job c.job = some x)
    (hd : x.state ≠ .draining) (hn : c.Names x sec r) (rev : Revolution) :
    t.applyCapture c rev = (t.setJob c.job (some x.heard)).takeHeader c.job sec c.data rev := by
  unfold State.applyCapture
  rw [hx]
  dsimp only
  rw [if_neg hd, if_neg (by simp [hn.header, hn.first]), hn.header, hn.sector, State.countHeader_header hn.header hx]

/-- A stray without data (R77, R78). -/
theorem State.applyCapture_stray {t : State} {c : Capture} {x : Job} (hx : t.job c.job = some x) (hd : x.state ≠ .draining)
    (hg : c.status = .good) (hs : c.IsStray) (hdata : c.data = none) (rev : Revolution) :
    t.applyCapture c rev =
      (t.setJob c.job (some (if c.ident = some .header then x.heard else x).strayed)).setDrive c.unit
        { t.drive c.unit with passStrays := min 255 ((t.drive c.unit).passStrays + 1) } := by
  have stray : c.ident = none ∨ c.repeated = true := hs.imp_right And.right
  have counted (u : State) (keep : Bool) : u.stray c x keep = u.countStray c.job c.unit := by
    unfold State.stray
    rw [hdata]
  unfold State.applyCapture
  rw [hx]
  dsimp only
  rw [if_neg hd, if_pos ⟨hg, stray⟩, counted]
  unfold State.countStray
  by_cases hi : c.ident = some .header
  · rw [if_pos hi, State.countHeader_header hi hx, State.modJob_eq (job_setJob_same _ _ _), State.modDrive_eq_setDrive,
      State.setJob_setJob]
    rfl
  · rw [if_neg hi, State.countHeader_none hi, State.modJob_eq hx, State.modDrive_eq_setDrive]
    rfl

/-- A capture that completes without data: its effect on its job, on its unit and on the channel (R35, R76, R77). -/
theorem CompletesAbsent.completeAbsent {t : State} {n : UnitId} {j : JobIx} {c : Capture} {y z : Job} {k m : Nat}
    (h : CompletesAbsent c y k z m) (hu : c.unit = n) (hj : c.job = j) (hdata : c.data = none) (hy : t.job j = some y)
    (hd : y.state ≠ .draining) (hk : (t.drive n).passStrays = k) (rev : Revolution) :
    t.completeAbsent c rev =
      ((({ t with channel := t.channel.afterField c.low } : State).setJob j (some z)).setDrive n
        { t.drive n with passStrays := m }) := by
  subst hu hj hk
  have start : t.completeAbsent c rev =
      if c.status = .good then ({ t with channel := t.channel.afterField c.low } : State).applyCapture c rev
      else { t with channel := t.channel.afterField c.low } := rfl
  have job : ({ t with channel := t.channel.afterField c.low } : State).job c.job = some y := hy
  rw [start]
  cases h with
  | unread hs =>
    rw [if_neg hs, State.setJob_self job]
    exact (State.setDrive_self _ _).symm
  | named sec r hs hn =>
    rw [if_pos hs, State.applyCapture_named job hd hn, hdata]
    exact (State.setDrive_self _ _).symm
  | stray hs hn => rw [if_pos hs, State.applyCapture_stray job hd hs hn hdata]; rfl

/-- Stage 1 of closing: its effect on the held job, on the unit and on the channel (R37, R38). -/
theorem StageOne.settleCut {s t : State} {n : UnitId} {cut : CutField} {j : JobIx} {y z : Job} {k m : Nat} {live : Bool}
    (h : StageOne s n cut j y k z m live) (hc : t.channel = s.channel) (hy : t.job j = some y) (hd : y.state ≠ .draining)
    (hk : (t.drive n).passStrays = k) (rev : Revolution) :
    t.settleCut rev cut =
      ((({ t with channel := { t.channel with openHeader := none, liveSeen := live } } : State).setJob j (some z)).setDrive n
        { t.drive n with passStrays := m }) := by
  cases h with
  | bare hw =>
    have closed : t.closeWindow rev = t := by
      unfold State.closeWindow
      rw [hc, hw]
    subst hk
    have same (c : Channel) : (({ t with channel := c } : State).setJob j (some y)).setDrive n
        { t.drive n with passStrays := (t.drive n).passStrays } = { t with channel := c } := by
      rw [State.setJob_self (s := { t with channel := c }) hy]
      exact State.setDrive_self { t with channel := c } n
    rw [same]
    cases cut with
    | nothing =>
      show t.closeWindow rev = _
      rw [closed]
      simp [cutLive, hc, ← hw]
      rw [← hc]
    | header low =>
      show (t.closeWindow rev).noteField low = _
      rw [closed]
      simp [State.noteField, cutLive, hc, hw]
    | data low =>
      unfold State.settleCut
      rw [hc, hw]
      simp [State.noteField, cutLive, hc, hw]
  | window w _ _ hw hu hj hdata ha =>
    have closed (low : Bool) := (ha.amplitude low).completeAbsent hu hj hdata hy hd hk rev
    have closing : t.closeWindow rev = t.completeAbsent w.capture rev := by
      unfold State.closeWindow
      rw [hc, hw]
    cases cut with
    | nothing =>
      show t.closeWindow rev = _
      rw [closing, closed w.capture.low]
      simp [Channel.afterField, cutLive, hc]
    | header low =>
      show (t.closeWindow rev).noteField low = _
      rw [closing, closed w.capture.low]
      simp [State.noteField, Channel.afterField, cutLive, hc, State.setJob, State.setDrive, Bool.or_assoc]
    | data low =>
      unfold State.settleCut
      rw [hc, hw]
      dsimp only
      rw [closed]
      simp [Channel.afterField, cutLive, hc]

/-! ### Stage 2: no blind candidates -/

theorem State.handBlind_none {t : State} (h : t.channel.deferred = []) (n : UnitId) : t.handBlind n = t := by
  have slot (k : Nat) : t.handSlot n k = t := by
    unfold State.handSlot
    rw [h]
    split <;> simp_all
  unfold State.handBlind
  exact List.foldl_fixed' slot _

end Sys2Proof.Machine
end

section
/-! ### Stages 3 to 5: the dead revolution, the pass end and the channel given up (R18, R39, R40) -/

namespace Sys2Proof.Machine

variable {u t v : State} {n : UnitId} {j : JobIx} {d g : Drive} {y z w : Job} {f : FlagUnit}

/-- A unit and its job before the closing of its captured revolution: the channel stands as it was. -/
structure State.Closing (u : State) (n : UnitId) (j : JobIx) (f : FlagUnit) (d : Drive) (y : Job) (t : State) : Prop
    extends u.Around n j t where
  drive : t.drive n = d
  job : t.job j = some y
  flags : t.flags = f
  channel : t.channel = u.channel

/-- A unit and its job when the closing revolution's captures are settled, and its dead revolutions counted. -/
structure State.Counted (u : State) (n : UnitId) (j : JobIx) (f : FlagUnit) (d : Drive) (y : Job) (t : State) : Prop
    extends u.Around n j t where
  drive : t.drive n = d
  job : t.job j = some y
  flags : t.flags = f
  capturing : t.channel.state = .capturing n

theorem State.closingStages_eq (t : State) (n : UnitId) (rev : Revolution) {live : Bool} {k : Nat}
    (hl : t.channel.liveSeen = live) (hk : k = if live then 0 else holdAt 8 (t.drive n).deadRevs) :
    t.closingStages n rev =
      if live = true ∨ k < rev.profile.dead then
        ((t.setDrive n { t.drive n with deadRevs := k }).passEnd n rev.profile).stageIdle n
      else ((t.setDrive n { t.drive n with deadRevs := k }).protectionUnload n).stageIdle n := by
  unfold State.closingStages
  rw [hl, hk]
  cases live with
  | true => rfl
  | false =>
    simp only [Bool.false_eq_true, if_false, false_or, State.modDrive_eq_setDrive, drive_setDrive_same]
    by_cases h : holdAt 8 (t.drive n).deadRevs < rev.profile.dead
    · rw [if_pos h, if_neg (by omega)]
    · rw [if_neg h, if_pos (by omega)]

/-- The closing of a captured revolution with no blind candidate, up to the stage at which its ways part (R37 to R39). -/
theorem State.Closing.closes {rev : Revolution} {m k : Nat} {live : Bool} {cut : CutField} (h : u.Closing n j f d y t)
    (hc : u.channel.state = .capturing n) (hrev : u.channel.rev = some rev) (hdef : u.channel.deferred = [])
    (hone : StageOne u n cut j y d.passStrays z m live) (hd : y.state ≠ .draining)
    (hk : k = if live then 0 else holdAt 8 d.deadRevs) :
    ∃ v, u.Counted n j f { d with passStrays := m, deadRevs := k } z v ∧ t.closeRevolution n cut =
      if live = true ∨ k < rev.profile.dead then (v.passEnd n rev.profile).stageIdle n
      else (v.protectionUnload n).stageIdle n := by
  have capturing : t.capturing = some (n, rev) := by
    unfold State.capturing
    rw [h.channel, hc, hrev]
  have settled := hone.settleCut h.channel h.job hd (by rw [h.drive]) rev
  rw [h.drive] at settled
  refine ⟨(t.settleCut rev cut).setDrive n { d with passStrays := m, deadRevs := k }, ?_, ?_⟩
  · rw [settled, setDrive_setDrive]
    exact ⟨⟨h.profiles, h.clock, h.quirks, fun i hi => (job_setJob_ne _ _ (Ne.symm hi)).trans (h.others i hi)⟩,
      drive_setDrive_same _ _ _, job_setJob_same _ _ _, h.flags, (congrArg Channel.state h.channel).trans hc⟩
  · have deferred : (t.settleCut rev cut).channel.deferred = [] := by
      rw [settled]
      exact (congrArg Channel.deferred h.channel).trans hdef
    have state : (t.settleCut rev cut).channel.state = .capturing n := by
      rw [settled]
      exact (congrArg Channel.state h.channel).trans hc
    have drive : (t.settleCut rev cut).drive n = { d with passStrays := m } := by
      rw [settled]
      exact drive_setDrive_same _ _ _
    unfold State.closeRevolution
    rw [capturing]
    dsimp only
    rw [if_pos rfl, State.handBlind_none deferred, if_pos state,
      State.closingStages_eq (t.settleCut rev cut) n rev (live := live) (k := k) (by rw [settled]; rfl) (by rw [drive]; exact hk),
      drive]

/-! ### The pass end -/

theorem Job.passEnded_eq {y : Job} (h : y.passCount < 255) :
    y.passEnded = y.passed (if y.mark then 0 else min 255 (y.fruitless + 1)) := by
  have count : holdAt 255 y.passCount = y.passCount + 1 := min_eq_right h
  unfold Job.passEnded Job.passed
  rw [count]
  rfl

theorem Job.passed_recalibrated (y : Job) (k : Nat) : (y.passed k).recalibrated = (y.passed 0).recalibratedOnce := rfl

theorem callsForRecalibration_iff (p : Profile) (strays fruitless : Nat) : callsForRecalibration p strays fruitless = true ↔
    p.strayLimit ≤ strays ∨ (0 < p.recalibrate ∧ p.recalibrate ≤ fruitless) := by
  simp [callsForRecalibration]

theorem State.Counted.passEnd_eq {p : Profile} {k : Nat} (h : u.Counted n j f d y t) (hh : d.heldJob = some j)
    (hc : y.passCount < 255) (hk : k = if y.mark then 0 else min 255 (y.fruitless + 1)) :
    t.passEnd n p =
      if d.state = .tracking then
        if callsForRecalibration p d.passStrays k then
          ((((t.setJob j (some (y.passed k))).setDrive n { d with prepared := none }).setJob j
            (some (y.passed 0).recalibratedOnce)).evaluatePositioning n j).issueRestore n
        else ((t.setJob j (some (y.passed k))).setDrive n
          { d with prepared := none, waiting := min 255 (d.waiting + backoffSkip k p.backoff) }).passStart n
      else if callsForRecalibration p d.passStrays k then
        ((((t.setJob j (some (y.passed k))).setDrive n { d with prepared := none, passStrays := 0 }).setJob j
          (some (y.passed 0).recalibratedOnce)).modDrive n (fun d => { d with cylinder := none })).evaluatePositioning n j
      else if (t.unitProfiles n).active.passLimit ≤ y.passCount + 1 then
        ((t.setJob j (some (y.passed k))).setDrive n { d with prepared := none, passStrays := 0 }).endJob j .passesExhausted
      else (t.setJob j (some (y.passed k))).setDrive n { d with prepared := none, passStrays := 0 } := by
  have fruitless : y.passEnded.fruitless = k := by rw [Job.passEnded_eq hc, hk]; rfl
  have held : (t.drive n).heldJob = some j := by rw [h.drive]; exact hh
  have exhausted (e : Drive) : ((t.setJob j (some (y.passed k))).setDrive n e).exhausted n (y.passed k) =
      decide ((t.unitProfiles n).active.passLimit ≤ y.passCount + 1) := rfl
  unfold State.passEnd
  rw [held]
  dsimp only
  rw [h.job]
  dsimp only
  rw [fruitless, Job.passEnded_eq hc, ← hk, Job.passed_recalibrated]
  simp only [State.modDrive_eq_setDrive, drive_setDrive_same, setDrive_setDrive, h.drive, State.setJob_drive, exhausted,
    decide_eq_true_eq]

end Sys2Proof.Machine
end

section
/-! ### What stands after a closing, whatever stages are still to come -/

namespace Sys2Proof.Machine

variable {u t v : State} {n : UnitId} {j : JobIx} {d g : Drive} {y z w : Job} {f : FlagUnit}

theorem arbitrate_channel (t : State) : t.arbitrate.channel = t.channel ∨
    ∃ m, t.requesting m = true ∧ t.arbitrate.channel = { t.channel with state := .reserved m, lastGranted := m } := by
  unfold State.arbitrate
  split
  · split
    · next m hm => exact .inr ⟨m, arbiterChoice_requesting t m hm, rfl⟩
    · exact .inl rfl
  · exact .inl rfl

theorem arbitrate_rev (t : State) : t.arbitrate.channel.rev = t.channel.rev := by
  obtain h | ⟨m, -, h⟩ := arbitrate_channel t <;> rw [h]

theorem arbitrate_left (h : t.channel.state ≠ .capturing n) : t.arbitrate.channel.state ≠ .capturing n := by
  obtain e | ⟨m, -, e⟩ := arbitrate_channel t
  · rwa [e]
  · rw [e]; simp

/-- A property of the states after some stage of an index, with the budget pending or not, that the stages of the budget and of
the deferral and the arbiter keep. -/
structure IndexStable (n : UnitId) (held : Option JobIx) (R : Bool → State → Prop) : Prop where
  swap : ∀ b t, R b t → (t.unitProfiles n).swapPending = false
  arbitrate : ∀ b t, R b t → R b t.arbitrate
  budget : ∀ t, R true t → R false (t.stageBudget n held)
  deferral : ∀ b t, R b t → R b (t.stageDeferral n)

/-- A unit with its job after its captured revolution has closed: the channel holds nothing of the revolution. -/
structure State.Closed (u : State) (n : UnitId) (j : JobIx) (f : FlagUnit) (g : Drive) (y : Job) (t : State) : Prop
    extends u.Amid n j g y t where
  flags : t.flags = f
  rev : t.channel.rev = none
  left : t.channel.state ≠ .capturing n
  free : g.state ≠ .tracking → t.channel.state.holds n = false

theorem State.Closed.arbitrate (h : u.Closed n j f g y t) : u.Closed n j f g y t.arbitrate where
  toAmid := h.toAmid.arbitrate
  flags := (flags_arbitrate t).trans h.flags
  rev := (arbitrate_rev t).trans h.rev
  left := arbitrate_left h.left
  free := fun hg => (arbitrate_drive_notRequesting t n (requesting_notTracking t n (by rw [h.state]; exact hg))).2 (h.free hg)

/-- A change of the drive or of the job alone. -/
theorem State.Closed.of_amid (h : u.Closed n j f g y t) (a : u.Amid n j d w v) (hc : v.channel = t.channel)
    (hf : v.flags = t.flags) (hd : g.state = .tracking → d.state = .tracking) : u.Closed n j f d w v where
  toAmid := a
  flags := hf.trans h.flags
  rev := by rw [hc]; exact h.rev
  left := by rw [hc]; exact h.left
  free := fun hn => by rw [hc]; exact h.free fun hg => hn (hd hg)

theorem State.Closed.stable (hg : g.heldJob = some j) (hb : 2 ≤ y.budget) (hp : (u.unitProfiles n).swapPending = false) :
    IndexStable n (some j) fun b => u.Closed n j f g (if b then y else y.spent) where
  swap := fun _ t h => by rw [h.toAround.unitProfiles]; exact hp
  arbitrate := fun _ _ h => h.arbitrate
  budget := fun t h => by
    have held : (t.drive n).heldJob = some j := h.heldJob.trans hg
    refine h.of_amid (h.toAmid.stageBudget hg hb) (State.stageBudget_channel held h.job hb) ?_ id
    rw [State.stageBudget_spends held h.job hb]
    rfl
  deferral := fun _ t h => h.of_amid h.toAmid.stageDeferral (State.stageDeferral_channel t n)
    (by rw [State.stageDeferral_eq]; split <;> rfl) id

/-- Stage 5 gives the channel up (R40). -/
theorem State.Amid.stageIdle (h : u.Amid n j g y t) (hf : t.flags = f) (hc : t.channel.state = .capturing n) :
    u.Closed n j f g y (t.stageIdle n) := by
  unfold State.stageIdle
  rw [if_pos hc]
  have idle : u.Amid n j g y { t with channel := t.channel.toIdle } := h.channel _
  exact State.Closed.arbitrate ⟨idle, hf, rfl, by simp [Channel.toIdle], fun _ => by simp [ChannelState.holds, Channel.toIdle]⟩

/-- A unit that has let go of its job at the closing of its captured revolution. -/
structure State.Over (u : State) (n : UnitId) (j : JobIx) (f : FlagUnit) (g : Drive) (P : Job → Prop) (t : State) : Prop where
  profiles : t.profiles = u.profiles
  drive : t.drive n = g
  job : ∃ q, t.job j = some q ∧ P q
  flags : t.flags = f
  rev : t.channel.rev = none
  free : t.channel.state.holds n = false

theorem State.Over.arbitrate {P : Job → Prop} (h : u.Over n j f g P t) (hg : g.state ≠ .tracking) :
    u.Over n j f g P t.arbitrate where
  profiles := (SameButJobs.arbitrate t).profiles.trans h.profiles
  drive := (arbitrate_drive_notRequesting t n (requesting_notTracking t n (by rw [h.drive]; exact hg))).1.trans h.drive
  job := by rw [State.job, jobs_arbitrate]; exact h.job
  flags := (flags_arbitrate t).trans h.flags
  rev := (arbitrate_rev t).trans h.rev
  free := (arbitrate_drive_notRequesting t n (requesting_notTracking t n (by rw [h.drive]; exact hg))).2 h.free

theorem State.Over.stable {P : Job → Prop} (hg : g.state ≠ .tracking) (hh : g.heldJob = none)
    (hp : (u.unitProfiles n).swapPending = false) : IndexStable n (some j) fun _ => u.Over n j f g P where
  swap := fun _ t h => by rw [State.unitProfiles, h.profiles]; exact hp
  arbitrate := fun _ _ h => h.arbitrate hg
  budget := fun t h => by
    rw [State.stageBudget_other (by rw [h.drive, hh]; simp)]
    exact h
  deferral := fun _ t h => by
    rw [State.stageDeferral_none (.inl (requesting_notTracking t n (by rw [h.drive]; exact hg)))]
    exact h

/-! ### The end of a job while its revolution closes -/

/-- A held job that ends while the channel captures for its unit leaves the channel nothing of the revolution (R41, R51). -/
theorem endJob_rev {s : State} {x : Job} (hx : s.job j = some x) (hu : x.unit = n) (hd : x.state ≠ .draining)
    (hh : (s.drive n).heldJob = some j) (hc : s.channel.state = .capturing n) (cause : EndCause) :
    (s.endJob j cause).channel.rev = none := by
  subst hu
  have released (v : State) (hv : (v.drive x.unit).heldJob = some j) (hvc : v.channel.state = .capturing x.unit) :
      (v.letGo j x.unit).channel.rev = none := by
    have holds : (v.modDrive x.unit Drive.dropJob).channel.state.holds x.unit = true := by
      show v.channel.state.holds x.unit = true
      rw [hvc]
      simp [ChannelState.holds]
    unfold State.letGo
    rw [if_pos hv]
    unfold State.releaseEarly
    rw [if_pos holds]
    exact arbitrate_rev _
  have here := released (s.setJob j (some { x with state := .draining, endCause := some cause })) hh hc
  unfold State.endJob
  rw [hx]
  dsimp only
  rw [if_neg hd, (Quiet.finalizeIfDone _ _).channel]
  split
  · rw [(Quiet.withdrawSlabs _ _).channel]
    exact here
  · exact here

/-- Every job stays as it is but for its records and whether it is finalized. -/
def JobsButRecords (s t : State) : Prop :=
  ∀ j x, s.job j = some x → ∃ rs b, t.job j = some { x with records := rs, finalized := b }

theorem JobsButRecords.of_jobs {s t : State} (h : t.jobs = s.jobs) : JobsButRecords s t := fun j x hx =>
  ⟨x.records, x.finalized, by rw [State.job, h]; exact hx⟩

theorem JobsButRecords.trans {s t v : State} (h : JobsButRecords s t) (g : JobsButRecords t v) : JobsButRecords s v :=
  fun j x hx => by
    obtain ⟨_, _, hy⟩ := h j x hx
    obtain ⟨rs, b, hz⟩ := g j _ hy
    exact ⟨rs, b, hz⟩

theorem JobsButRecords.foldl {α : Type} (f : State → α → State) (hf : ∀ s a, JobsButRecords s (f s a)) (l : List α)
    (s : State) : JobsButRecords s (l.foldl f s) := by
  induction l generalizing s with
  | nil => exact .of_jobs rfl
  | cons a l ih => exact (hf s a).trans (ih _)

theorem JobsButRecords.setJob (s : State) {j : JobIx} {x : Job} (hx : s.job j = some x) (rs : List Record) (b : Bool) :
    JobsButRecords s (s.setJob j (some { x with records := rs, finalized := b })) := fun k z hz => by
  by_cases e : j = k
  · subst e
    rw [hx] at hz
    cases hz
    exact ⟨rs, b, job_setJob_same _ _ _⟩
  · exact ⟨z.records, z.finalized, by rw [job_setJob_ne _ _ e]; exact hz⟩

theorem JobsButRecords.offer (s : State) (j : JobIx) (sec : Nat) : JobsButRecords s (s.offer j sec) := by
  have delivery (v : State) (st : DeliveryStatus) : JobsButRecords v (v.setDelivery j sec st) := by
    unfold State.setDelivery State.modRecord State.modJob
    split
    · next x hx => exact .setJob v hx _ _
    · exact .of_jobs rfl
  unfold State.offer
  split
  · exact (JobsButRecords.of_jobs (t := s.enqueue _) rfl).trans (delivery _ _)
  · exact delivery _ _

theorem JobsButRecords.finalizeIfDone (s : State) (j : JobIx) : JobsButRecords s (s.finalizeIfDone j) := by
  unfold State.finalizeIfDone
  split
  · split
    · unfold State.finalize
      split
      · exact .of_jobs rfl
      · next x hx =>
        dsimp only
        refine JobsButRecords.trans ?_ (.of_jobs (s := List.foldl _ _ _) (by unfold State.queueJobEnd; split <;> rfl))
        refine JobsButRecords.trans ?_ (.foldl _ (fun v sec => .offer v j sec) _ _)
        exact (JobsButRecords.setJob s hx _ _).trans (.foldl _ (fun v i => .of_jobs (jobs_freeSlab v i)) _ _)
    · exact .of_jobs rfl
  · exact .of_jobs rfl

/-- What the end of a job makes of it (R51). -/
theorem endJob_job_eq {s : State} {j : JobIx} {x : Job} (hx : s.job j = some x) (hd : x.state ≠ .draining)
    (cause : EndCause) : ∃ rs b, (s.endJob j cause).job j =
      some { x with state := .draining, endCause := some cause, records := rs, finalized := b } := by
  have ended : (((s.setJob j (some { x with state := .draining, endCause := some cause })).letGo j x.unit)).job j =
      some { x with state := .draining, endCause := some cause } := by
    rw [State.job, jobs_letGo]
    exact job_setJob_same _ _ _
  unfold State.endJob
  rw [hx]
  dsimp only
  rw [if_neg hd]
  split
  · obtain ⟨rs, b, h⟩ := (JobsButRecords.of_jobs (s := (s.setJob j _).letGo j x.unit) rfl).trans
      (JobsButRecords.finalizeIfDone (((s.setJob j _).letGo j x.unit).withdrawSlabs j) j) j _ ended
    exact ⟨rs, b, h⟩
  · obtain ⟨rs, b, h⟩ := JobsButRecords.finalizeIfDone _ j j _ ended
    exact ⟨rs, b, h⟩

/-- A held job that ends while its revolution closes (R51). -/
theorem State.Counted.endJob {P : Job → Prop} (h : u.Counted n j f d y t) (hh : d.heldJob = some j) (hu : y.unit = n)
    (hd : y.state ≠ .draining) {cause : EndCause}
    (hP : ∀ rs b, P { y with state := .draining, endCause := some cause, records := rs, finalized := b }) :
    u.Over n j f d.dropJob P (t.endJob j cause) := by
  have held : (t.drive n).heldJob = some j := by rw [h.drive]; exact hh
  obtain ⟨-, -, drop⟩ := endJob_end t j y cause h.job hd
  obtain ⟨dropped, free⟩ := drop (by rw [hu]; exact held)
  obtain ⟨rs, b, job⟩ := endJob_job_eq h.job hd cause
  have same := SameButJobs.endJob t j cause
  rw [hu] at dropped free
  exact ⟨same.profiles.trans h.profiles, by rw [dropped, h.drive], ⟨_, job, hP rs b⟩, same.flags.trans h.flags,
    endJob_rev h.job hu hd held h.capturing cause, free⟩

theorem State.Over.stageIdle {P : Job → Prop} (h : u.Over n j f g P t) : u.Over n j f g P (t.stageIdle n) := by
  have left : t.channel.state ≠ .capturing n := fun e => by
    have free := h.free
    rw [e] at free
    simp [ChannelState.holds] at free
  unfold State.stageIdle
  rw [if_neg left]
  exact h

end Sys2Proof.Machine
end

section
/-! ### The closing index, stage by stage -/

namespace Sys2Proof.Machine

variable {u t v : State} {n : UnitId} {j : JobIx} {d g : Drive} {y z w : Job} {f : FlagUnit}

/-- A drive that enters SPEED_FAULT at the index that closes its captured revolution, the pass's strays kept (R16, R70). -/
def Drive.faultedInPass (e : Drive) : Drive := { e.faulted with passStrays := e.passStrays }

theorem State.enterSpeedFault_closing_eq (hc : t.channel.state = .capturing n) :
    t.enterSpeedFault n .closing = t.setDrive n (t.drive n).faultedInPass := by
  unfold State.enterSpeedFault
  rw [if_pos ⟨rfl, hc⟩, State.modDrive_eq_setDrive, Drive.enter_speedFault]
  rfl

theorem State.Closing.arbitrate (h : u.Closing n j f d y t) (hc : u.channel.state = .capturing n) :
    u.Closing n j f d y t.arbitrate := by
  have busy : t.arbitrate = t := by
    unfold State.arbitrate
    rw [if_neg]
    rw [h.channel, hc]
    simp
  rw [busy]
  exact h

theorem State.Closing.setDrive (h : u.Closing n j f d y t) (e : Drive) : u.Closing n j f e y (t.setDrive n e) where
  toAround := ⟨h.profiles, h.clock, h.quirks, h.others⟩
  drive := drive_setDrive_same _ _ _
  job := h.job
  flags := h.flags
  channel := h.channel

theorem State.Closing.setJob (h : u.Closing n j f d y t) (z : Job) : u.Closing n j f d z (t.setJob j (some z)) where
  toAround := ⟨h.profiles, h.clock, h.quirks, fun i hi => (job_setJob_ne _ _ (Ne.symm hi)).trans (h.others i hi)⟩
  drive := h.drive
  job := job_setJob_same _ _ _
  flags := h.flags
  channel := h.channel

/-- An index that closes a unit's captured revolution: a property `R` that holds when the revolution is closed and its speed still
to be judged, and a property `R'` that holds once both are done, in the order of the two. -/
theorem State.indexIn_closes {x : Descriptor} {e e' : Drive} {cut : CutField} {order : IndexOrder} {R R' : Bool → State → Prop}
    (hst : (u.drive n).state = .tracking) (hx : (u.drive n).descriptor = some x) (he : e = (u.drive n).indexed x u.clock)
    (hh : (u.drive n).heldJob = some j) (hy : u.job j = some y) (hb : 2 ≤ y.budget)
    (hp : (u.unitProfiles n).swapPending = false) (hc : u.channel.state = .capturing n)
    (he' : e' = if order.faultFirst = true ∧ e.monitor.speed = .out then e.faultedInPass else e)
    (close : ∀ b t, u.Closing n j (u.indexFlags n x) e' (if b then y else y.spent) t →
      (if order.faultFirst then R' else R) b (t.closeRevolution n cut))
    (stable : order.faultFirst = false → IndexStable n (some j) R) (stable' : IndexStable n (some j) R')
    (speed : order.faultFirst = false → ∀ b t, R b t → R' b (t.stageSpeed n .closing)) :
    R' false (u.indexIn n cut order) := by
  have ready : (u.drive n).state.Ready := by rw [hst]; simp [DriveState.Ready]
  have est : e.state = .tracking := by rw [he]; exact hst
  have situation : u.situation n = .closing := State.situation_closing.2 hc
  have whole := State.indexIn_phases (u := u) (n := n) (cut := cut) (order := order)
    (Q := fun l b _ t => if .track ∈ l then
        u.Closing n j (if .monitor ∈ l then u.flags else u.indexFlags n x)
          (if .monitor ∈ l then (u.drive n).indexSeen u.clock else if .speed ∈ l then e else e') (if b then y else y.spent) t
      else if .speed ∈ l then order.faultFirst = false ∧ R b t else R' b t) ready ?_ ?_ ?_ ?_ ?_ ?_ ?_ ?_
  · simpa using whole
  · have first : ∀ b, .monitor ∈ judgedStages b ∧ .track ∈ judgedStages b := by decide
    rw [if_pos (first _).2, if_pos (first _).1, if_pos (first _).1]
    exact ⟨⟨rfl, rfl, rfl, fun _ _ => rfl⟩, drive_setDrive_same _ _ _, hy, rfl, rfl⟩
  · intro l b c t h
    split at h
    · rw [h.toAround.unitProfiles]; exact hp
    · split at h
      · exact (stable h.1).swap b t h.2
      · exact stable'.swap b t h
  · intro l b c t h
    split
    · next hl => rw [if_pos hl] at h; exact h.arbitrate hc
    · next hl =>
      rw [if_neg hl] at h
      split
      · next hs => rw [if_pos hs] at h; exact ⟨h.1, (stable h.1).arbitrate b t h.2⟩
      · next hs => rw [if_neg hs] at h; exact stable'.arbitrate b t h
  · intro l b c t hspeed htrack hmon h
    rw [if_pos (List.mem_cons_of_mem _ htrack), if_pos List.mem_cons_self, if_pos List.mem_cons_self] at h
    have hx' : (t.drive n).descriptor = some x := by rw [h.drive]; exact hx
    rw [if_pos htrack, if_neg hmon, if_neg hmon, if_pos hspeed, he, ← Drive.indexed_eq ready hx,
      State.stageMonitor_eq hx', h.drive, h.clock, h.flags]
    exact ⟨⟨h.profiles, rfl, h.quirks, h.others⟩, drive_setDrive_same _ _ _, h.job, rfl, h.channel⟩
  · intro l b c t hl h
    rw [situation]
    cases hff : order.faultFirst with
    | true =>
      rw [hff, if_pos rfl] at hl
      subst hl
      rw [if_pos (by simp), if_neg (by simp), if_neg (by simp), if_pos (by simp)] at h
      rw [if_pos (by simp), if_neg (by simp), if_neg (by simp), if_neg (by simp)]
      by_cases ho : e.monitor.speed = .out
      · rw [State.stageSpeed_faults (by rw [h.drive, est]; simp) (by rw [h.drive]; exact ho),
          State.enterSpeedFault_closing_eq (by rw [h.channel]; exact hc), h.drive, he', if_pos ⟨hff, ho⟩]
        exact h.setDrive _
      · have hin : e.monitor.speed = .inTolerance := by
          cases hs : e.monitor.speed with
          | inTolerance => rfl
          | out => exact absurd hs ho
        rw [State.stageSpeed_none (fun _ => by rw [h.drive]; exact hin) (fun g => by rw [h.drive, est] at g; cases g), he',
          if_neg (fun g => ho g.2)]
        exact h
    | false =>
      rw [hff, if_neg (by simp)] at hl
      subst hl
      rw [if_neg (by simp), if_pos (by simp)] at h
      rw [if_neg (by simp), if_neg (by simp)]
      exact speed hff b t h.2
  · intro l b c t hl h
    have later : .monitor ∉ l ∧ .track ∉ l := by rw [hl]; split <;> simp
    rw [if_pos List.mem_cons_self, if_neg (by simp [later.1]), if_neg (by simp [later.1])] at h
    rw [situation, if_neg later.2]
    cases hff : order.faultFirst with
    | true =>
      rw [hff, if_pos rfl] at hl
      subst hl
      rw [if_neg (by simp)] at h ⊢
      have closed := close b t h
      rwa [hff, if_pos rfl] at closed
    | false =>
      rw [hff, if_neg (by simp)] at hl
      subst hl
      rw [if_pos (by simp)] at h ⊢
      have same : e' = e := by rw [he', if_neg (by simp [hff])]
      have closed := close b t (by rw [same]; exact h)
      rw [hff, if_neg (by simp)] at closed
      exact ⟨rfl, closed⟩
  · intro l c t h
    rw [hh]
    split
    · next hl =>
      rw [if_pos hl, if_pos rfl] at h
      have held : (if .monitor ∈ l then (u.drive n).indexSeen u.clock else if .speed ∈ l then e else e').heldJob = some j := by
        have eheld : e.heldJob = some j := by rw [he]; exact hh
        split
        · exact hh
        · split
          · exact eheld
          · rw [he']
            split <;> exact eheld
      rw [State.stageBudget_spends (by rw [h.drive]; exact held) h.job hb]
      exact h.setJob _
    · next hl =>
      rw [if_neg hl] at h
      split
      · next hs => rw [if_pos hs] at h; exact ⟨h.1, (stable h.1).budget t h.2⟩
      · next hs => rw [if_neg hs] at h; exact stable'.budget t h
  · intro l b t h
    split
    · next hl =>
      rw [if_pos hl] at h
      rw [State.stageDeferral_none (.inr (by rw [h.channel, hc]; simp [ChannelState.holds]))]
      exact h
    · next hl =>
      rw [if_neg hl] at h
      split
      · next hs => rw [if_pos hs] at h; exact ⟨h.1, (stable h.1).deferral b t h.2⟩
      · next hs => rw [if_neg hs] at h; exact stable'.deferral b t h

end Sys2Proof.Machine
end

section
/-! ### Recalibrations and dead revolutions (R18, R39, R66 to R69) -/

namespace Sys2Proof.Machine

variable {u t v : State} {n : UnitId} {j : JobIx} {d g : Drive} {y z w : Job} {f : FlagUnit}

theorem CompletesAbsent.counters {c : Capture} {k m : Nat} (h : CompletesAbsent c y k z m) :
    ∃ cs, z = { y with counters := cs } := by
  cases h with
  | unread => exact ⟨_, rfl⟩
  | named => exact ⟨_, rfl⟩
  | stray =>
    split
    · exact ⟨_, rfl⟩
    · exact ⟨_, rfl⟩

/-- Stage 1 changes no item of the held job but its counters (R76, R77). -/
theorem StageOne.counters {s : State} {cut : CutField} {k m : Nat} {live : Bool} (h : StageOne s n cut j y k z m live) :
    ∃ cs, z = { y with counters := cs } := by
  cases h with
  | bare => exact ⟨_, rfl⟩
  | window _ _ _ _ _ _ _ hc => exact hc.counters

/-- An index that closes a captured revolution with no blind candidate: its stage 1 and its dead-revolution count, and what
follows them by the order of the speed's stage. -/
theorem State.Closes.indexIn {x : Descriptor} {e e' : Drive} {rev : Revolution} {speed : SpeedStatus} {cut : CutField}
    {order : IndexOrder} {m k : Nat} {live : Bool} {R R' : Bool → State → Prop} (h : u.Closes n d x j y rev u.clock speed)
    (hone : StageOne u n cut j y d.passStrays z m live) (hp : (u.unitProfiles n).swapPending = false)
    (hdef : u.channel.deferred = []) (he : e = d.indexed x u.clock)
    (he' : e' = if order.faultFirst = true ∧ speed = .out then e.faultedInPass else e)
    (hk : k = if live then 0 else holdAt 8 d.deadRevs)
    (close : ∀ b v, u.Counted n j (u.indexFlags n x) { e' with passStrays := m, deadRevs := k } (if b then z else z.spent) v →
      (if order.faultFirst then R' else R) b
        (if live = true ∨ k < rev.profile.dead then (v.passEnd n rev.profile).stageIdle n
          else (v.protectionUnload n).stageIdle n))
    (stable : order.faultFirst = false → IndexStable n (some j) R) (stable' : IndexStable n (some j) R')
    (judge : order.faultFirst = false → ∀ b t, R b t → R' b (t.stageSpeed n .closing)) :
    R' false (u.indexIn n cut order) := by
  have hd := h.drive
  have espeed : e.monitor.speed = speed := by rw [he]; exact h.after
  have kept : e'.passStrays = d.passStrays ∧ e'.deadRevs = d.deadRevs := by
    rw [he', he]
    split <;> exact ⟨rfl, rfl⟩
  have reading : y.state ≠ .draining := by rw [h.reading]; simp
  refine State.indexIn_closes (e := e) (e' := e') (by rw [← hd]; exact h.tracking) (by rw [← hd]; exact h.descriptor)
    (by rw [← hd]; exact he) (by rw [← hd]; exact h.held) h.job h.budget hp h.capturing (by rw [espeed]; exact he')
    (fun b t ht => ?_) stable stable' judge
  cases b with
  | true =>
    obtain ⟨v, counted, run⟩ := State.Closing.closes ht h.capturing h.revolution hdef (z := z) (m := m) (live := live) (k := k)
      (cut := cut) (by rw [kept.1]; exact hone) reading (by rw [kept.2]; exact hk)
    rw [run]
    exact close true v counted
  | false =>
    obtain ⟨v, counted, run⟩ := State.Closing.closes ht h.capturing h.revolution hdef (z := z.spent) (m := m) (live := live)
      (k := k) (cut := cut) (by rw [kept.1]; exact hone.spent) reading (by rw [kept.2]; exact hk)
    rw [run]
    exact close false v counted

/-- The closing index of a unit in tolerance that keeps its job. -/
theorem State.Closes.closed {x : Descriptor} {e : Drive} {rev : Revolution} {cut : CutField} {order : IndexOrder} {m k : Nat}
    {live : Bool} (h : u.Closes n d x j y rev u.clock .inTolerance) (hone : StageOne u n cut j y d.passStrays z m live)
    (hp : (u.unitProfiles n).swapPending = false) (hdef : u.channel.deferred = []) (he : e = d.indexed x u.clock)
    (hk : k = if live then 0 else holdAt 8 d.deadRevs) (hg : g.state ≠ .speedFault) (hgm : g.monitor = e.monitor)
    (hgh : g.heldJob = some j) (hw : 2 ≤ w.budget)
    (hl : live = true ∨ k < rev.profile.dead)
    (close : ∀ (b : Bool) v, u.Counted n j (u.indexFlags n x) { e with passStrays := m, deadRevs := k }
      (if b then z else z.spent) v →
      u.Closed n j (u.indexFlags n x) g (if b then w else w.spent) ((v.passEnd n rev.profile).stageIdle n)) :
    u.Closed n j (u.indexFlags n x) g w.spent (u.indexIn n cut order) := by
  have stable := State.Closed.stable (f := u.indexFlags n x) hgh hw hp
  have inside : g.monitor.speed = .inTolerance := by
    rw [hgm, he]
    exact h.after
  have whole := h.indexIn (cut := cut) (order := order)
    (R := fun b => u.Closed n j (u.indexFlags n x) g (if b then w else w.spent))
    (R' := fun b => u.Closed n j (u.indexFlags n x) g (if b then w else w.spent)) hone hp hdef he
    (if_neg (by simp)).symm hk (fun b v hv => by rw [ite_self]; simp only [if_pos hl]; exact close b v hv) (fun _ => stable)
      stable
    fun _ b t ht => by
      rw [State.stageSpeed_none (fun _ => by rw [ht.speed]; exact inside) (fun hf => by rw [ht.state] at hf; exact absurd hf hg)]
      exact ht
  simpa using whole

/-- The closing index of a unit in tolerance that lets go of its job. -/
theorem State.Closes.unheld {x : Descriptor} {e : Drive} {rev : Revolution} {cut : CutField} {order : IndexOrder} {m k : Nat}
    {live : Bool} {P : Job → Prop} (h : u.Closes n d x j y rev u.clock .inTolerance)
    (hone : StageOne u n cut j y d.passStrays z m live) (hp : (u.unitProfiles n).swapPending = false)
    (hdef : u.channel.deferred = []) (he : e = d.indexed x u.clock) (hk : k = if live then 0 else holdAt 8 d.deadRevs)
    (hg : g.state = .unloading) (hgh : g.heldJob = none)
    (hl : ¬ (live = true ∨ k < rev.profile.dead))
    (close : ∀ (b : Bool) v, u.Counted n j (u.indexFlags n x) { e with passStrays := m, deadRevs := k }
      (if b then z else z.spent) v → u.Over n j (u.indexFlags n x) g P ((v.protectionUnload n).stageIdle n)) :
    u.Over n j (u.indexFlags n x) g P (u.indexIn n cut order) := by
  have stable := State.Over.stable (u := u) (j := j) (f := u.indexFlags n x) (P := P) (by rw [hg]; simp) hgh hp
  exact h.indexIn (cut := cut) (order := order) (R := fun _ => u.Over n j (u.indexFlags n x) g P)
    (R' := fun _ => u.Over n j (u.indexFlags n x) g P) hone hp hdef he
    (if_neg (by simp)).symm hk (fun b v hv => by rw [ite_self]; simp only [if_neg hl]; exact close b v hv) (fun _ => stable)
      stable
    fun _ b t ht => by
      rw [State.stageSpeed_none (fun hi => by rw [ht.drive, hg] at hi; simp at hi)
        (fun hf => by rw [ht.drive, hg] at hf; cases hf)]
      exact ht

/-! ### The pass end of a unit that is TRACKING -/

theorem State.Counted.around (h : u.Counted n j f d y t) (w : Job) : u.Around n j (t.setJob j (some w)) :=
  ⟨h.profiles, h.clock, h.quirks, fun i hi => (job_setJob_ne _ _ (Ne.symm hi)).trans (h.others i hi)⟩

/-- A recalibration that is ordered while the unit is TRACKING (R68, R69). -/
theorem State.Counted.recalibrates {p : Profile} {k : Nat} (h : u.Counted n j f d z t) (hst : d.state = .tracking)
    (hh : d.heldJob = some j) (hx : d.descriptor = (u.drive n).descriptor) (hc : z.passCount < 255)
    (hcyl : z.cylinder = y.cylinder) (hhd : z.head = y.head)
    (hk : k = if z.mark then 0 else min 255 (z.fruitless + 1)) (hdue : callsForRecalibration p d.passStrays k = true) :
    u.Closed n j f ((d.evaluated (u.slotsFor n y) (u.actionsFor n y)).restoring u.clock) (z.passed 0).recalibratedOnce
      ((t.passEnd n p).stageIdle n) := by
  have around : u.Around n j ((((t.setJob j (some (z.passed k))).setDrive n { d with prepared := none }).setJob j
      (some (z.passed 0).recalibratedOnce))) :=
    ⟨h.profiles, h.clock, h.quirks, fun i hi => by
      rw [job_setJob_ne _ _ (Ne.symm hi)]
      exact (h.around (z.passed k)).others i hi⟩
  have drive : ((((t.setJob j (some (z.passed k))).setDrive n { d with prepared := none }).setJob j
      (some (z.passed 0).recalibratedOnce))).drive n = { d with prepared := none } := drive_setDrive_same _ _ _
  have evaluation := around.evaluatePositioning (y := y) (w := (z.passed 0).recalibratedOnce) (job_setJob_same _ _ _)
    (by rw [drive]; exact hx) hcyl hhd
  rw [h.passEnd_eq hh hc hk, if_pos hst, if_pos hdue, evaluation, State.issueRestore_eq, drive_setDrive_same, setDrive_setDrive,
    drive]
  refine State.Amid.stageIdle ⟨⟨around.profiles, around.clock, around.quirks, around.others⟩, ?_, job_setJob_same _ _ _⟩ h.flags
    h.capturing
  rw [drive_setDrive_same, show ((((t.setJob j (some (z.passed k))).setDrive n { d with prepared := none }).setJob j
    (some (z.passed 0).recalibratedOnce)).setDrive n _).clock = u.clock from h.clock]
  exact Drive.Like.refl _

theorem State.Around.preparePass (h : u.Around n j t) (hx : (t.drive n).descriptor = (u.drive n).descriptor) (z : Job) :
    t.preparePass n z = u.preparePass n z := State.preparePass_congr h.profiles h.quirks hx rfl rfl rfl

/-- A pass end of a unit that is TRACKING, with no recalibration due and passes left (R66, R67, R70). -/
theorem State.Counted.starts {p : Profile} {k : Nat} (h : u.Counted n j f d z t) (hst : d.state = .tracking)
    (hh : d.heldJob = some j) (hx : d.descriptor = (u.drive n).descriptor) (hc : z.passCount < 255)
    (hk : k = if z.mark then 0 else min 255 (z.fruitless + 1)) (hdue : callsForRecalibration p d.passStrays k = false)
    (hl : z.passCount + 1 < (u.unitProfiles n).active.passLimit) :
    u.Closed n j f (({ d with prepared := none, waiting := min 255 (d.waiting + backoffSkip k p.backoff) } : Drive).started
      (u.preparePass n (z.passed k))) (z.passed k) ((t.passEnd n p).stageIdle n) := by
  obtain ⟨e, he⟩ : ∃ e : Drive,
    e = { d with prepared := none, waiting := min 255 (d.waiting + backoffSkip k p.backoff) } := ⟨_, rfl⟩
  have around : u.Around n j ((t.setJob j (some (z.passed k))).setDrive n e) :=
    ⟨h.profiles, h.clock, h.quirks, (h.around (z.passed k)).others⟩
  have drive : ((t.setJob j (some (z.passed k))).setDrive n e).drive n = e := drive_setDrive_same _ _ _
  have limit : (z.passed k).passCount < (((t.setJob j (some (z.passed k))).setDrive n e).unitProfiles n).active.passLimit := by
    rw [around.unitProfiles]
    exact hl
  rw [h.passEnd_eq hh hc hk, if_pos hst, if_neg (by simp [hdue]), ← he]
  unfold State.passStart
  rw [State.passStartCore_started (s := (t.setJob j (some (z.passed k))).setDrive n e) (j := j) (x := z.passed k)
    (by rw [drive, he]; exact hh) (job_setJob_same _ _ _) limit, around.preparePass (by rw [drive, he]; exact hx), drive]
  show u.Closed n j f _ _ ((((t.setJob j (some (z.passed k))).setDrive n e).setDrive n _).stageIdle n)
  rw [setDrive_setDrive]
  exact State.Amid.stageIdle ⟨⟨around.profiles, around.clock, around.quirks, around.others⟩,
    by rw [drive_setDrive_same]; exact Drive.Like.refl _, job_setJob_same _ _ _⟩ h.flags h.capturing

/-- The protection unload at the dead limit (R18). -/
theorem State.Counted.unloads {P : Job → Prop} (h : u.Counted n j f d y t) (hh : d.heldJob = some j) (hu : y.unit = n)
    (hd : y.state ≠ .draining)
    (hP : ∀ rs b, P { y with state := .draining, endCause := some .driveRetracted, records := rs, finalized := b }) :
    u.Over n j f { d.unloadBegun with heldJob := none } P ((t.protectionUnload n).stageIdle n) := by
  have unloading : u.Counted n j f d.unloadBegun y (t.beginUnload n) := by
    rw [State.beginUnload_eq, h.drive]
    exact ⟨⟨h.profiles, h.clock, h.quirks, h.others⟩, drive_setDrive_same _ _ _, h.job, h.flags, h.capturing⟩
  have ends : t.protectionUnload n = (t.beginUnload n).endJob j .driveRetracted := by
    unfold State.protectionUnload State.endHeld
    rw [unloading.drive, show d.unloadBegun.heldJob = some j from hh]
  rw [ends]
  exact (unloading.endJob hh hu hd hP).stageIdle

/-! ### The obligation -/

theorem State.Closes.at_ {s : State} {x : Descriptor} {rev : Revolution} {now : Nat} {speed : SpeedStatus}
    (h : s.Closes n d x j y rev now speed) (hu : u = { s with clock := now, choices := s.choices + 1 }) :
    u.Closes n d x j y rev u.clock speed := by
  subst hu
  exact ⟨h.drive, h.descriptor, h.held, h.job, h.unit, h.reading, h.budget, h.tracking, h.before, h.after, h.capturing,
    h.revolution⟩

/-- Settles O41. -/
theorem recalibrationsAndDeadRevolutions : Obligations.RecalibrationsAndDeadRevolutions := by
  intro n elapsed f strays cut s d x j y z rev live hs hone hp hdef hf hc hdead
  obtain ⟨u, hu⟩ : ∃ u : State, u = { s with clock := s.clock + elapsed, choices := s.choices + 1 } := ⟨_, rfl⟩
  have closes := hs.at_ hu
  have one := hone.congr (t := u) (by rw [hu])
  have swap : (u.unitProfiles n).swapPending = false := by rw [hu]; exact hp
  have deferred : u.channel.deferred = [] := by rw [hu]; exact hdef
  have clock : u.clock = s.clock + elapsed := by rw [hu]
  have run := exec_indexPulse_inside (cut := cut) (n := n) rfl hu rfl
  obtain ⟨cs, hz⟩ := hone.counters
  have est : (d.indexed x u.clock).state = .tracking := hs.tracking
  have hx : (d.indexed x u.clock).descriptor = (u.drive n).descriptor := by rw [← closes.drive]; rfl
  have held : (d.indexed x u.clock).heldJob = some j := hs.held
  subst hz
  refine ⟨fun hlive hdue => ?_, fun hlive hlow hstrays hfew hlimit => ?_, fun hlive hreached => ?_⟩
  · subst hlive
    have due : callsForRecalibration rev.profile strays f = true := (callsForRecalibration_iff _ _ _).2 hdue
    have closed := closes.closed (cut := cut) (order := Config.indexOrder s.choices) (k := 0) (m := strays) (live := true)
      (g :=
        (({ d.indexed x u.clock with deadRevs := 0 } : Drive).evaluated (u.slotsFor n y) (u.actionsFor n y)).restoring u.clock)
      (w := (Job.passed { y with counters := cs } 0).recalibratedOnce) one swap deferred rfl rfl (by simp [Drive.restoring]) rfl
      held hs.budget (.inl rfl) fun b v hv => by
        cases b with
        | true => exact hv.recalibrates (y := y) est held hx hc rfl rfl hf due
        | false => exact hv.recalibrates (y := y) est held hx hc rfl rfl hf due
    refine ⟨_, u.slotsFor n y, u.actionsFor n y, run, ?_, ?_, ?_, ?_, ?_⟩
    · subst hu
      exact s.combines_for n y
    · rw [State.finish_drive, closed.arbitrate.unlike (by simp [Drive.restoring]), clock]
    · rw [State.finish_job]
      exact closed.job
    · rw [State.finish_channel]
      exact closed.arbitrate.rev
    · rw [State.finish_channel]
      exact closed.arbitrate.left
  · subst hlive
    have count : holdAt 8 d.deadRevs = d.deadRevs + 1 := min_eq_right (by omega)
    have due : callsForRecalibration rev.profile strays f = false := by
      rw [Bool.eq_false_iff, ne_eq, callsForRecalibration_iff]
      omega
    have closed := closes.closed (cut := cut) (order := Config.indexOrder s.choices) (k := d.deadRevs + 1) (m := strays)
      (live := false) (g := ({ d.indexed x u.clock with
          passStrays := strays, deadRevs := d.deadRevs + 1, prepared := none
          waiting := min 255 (d.waiting + backoffSkip f rev.profile.backoff) } : Drive).started
        (u.preparePass n (Job.passed { y with counters := cs } f)))
      (w := Job.passed { y with counters := cs } f) one swap deferred rfl count.symm
      (by simp [Drive.started, est]) rfl held hs.budget (.inr hlow) fun b v hv => by
        cases b with
        | true => exact hv.starts est held hx hc hf due (by rw [hu]; exact hlimit)
        | false => exact hv.starts est held hx hc hf due (by rw [hu]; exact hlimit)
    refine ⟨_, run, ?_, ?_, ?_, ?_⟩
    · rw [State.finish_job]
      exact closed.job
    · rw [State.finish_drive, closed.arbitrate.drive.1]
      rfl
    · rw [State.finish_drive, closed.arbitrate.drive.1]
      exact est
    · rw [State.finish_drive, closed.arbitrate.drive.1]
      exact held
  · subst hlive
    have count : ¬ holdAt 8 d.deadRevs < rev.profile.dead := by
      unfold holdAt
      omega
    have unheld := closes.unheld (cut := cut) (order := Config.indexOrder s.choices) (k := holdAt 8 d.deadRevs) (m := strays)
      (live := false) (g := ({ (d.indexed x u.clock).unloadBegun with heldJob := none } : Drive))
      (P := fun q : Job => q.state = .draining ∧ q.endCause = some .driveRetracted ∧ q.passCount = y.passCount)
      one swap deferred rfl
      rfl rfl rfl (by simp [count]) fun b v hv => by
        cases b with
        | true => exact hv.unloads held hs.unit (by simp [hs.reading]) fun _ _ => ⟨rfl, rfl, rfl⟩
        | false => exact hv.unloads held hs.unit (by simp [Job.spent, hs.reading]) fun _ _ => ⟨rfl, rfl, rfl⟩
    have after := unheld.arbitrate (by simp [Drive.unloadBegun])
    obtain ⟨q, hq, hqd, hqc, hqp⟩ := unheld.job
    refine ⟨_, q, run, ?_, ?_, hqd, hqc, hqp, ?_⟩
    · rw [State.finish_drive, after.drive, clock]
    · rw [State.finish_job]
      exact hq
    · rw [State.finish_channel]
      exact after.free

end Sys2Proof.Machine
end

section
/-! ### A unit that enters IDLE and is handed another job (R46 to R48) -/

namespace Sys2Proof.Machine

variable {s t u v : State} {n : UnitId} {j : JobIx} {d g : Drive} {y z w : Job} {f : FlagUnit}

/-- What selection and hand-over leave alone. -/
structure Beside (n : UnitId) (s t : State) : Prop where
  channel : t.channel = s.channel
  flags : t.flags = s.flags
  profiles : t.profiles = s.profiles
  monitor : (t.drive n).monitor = (s.drive n).monitor

theorem Beside.refl (n : UnitId) (s : State) : Beside n s s := ⟨rfl, rfl, rfl, rfl⟩

theorem Beside.trans (h : Beside n s t) (g : Beside n t v) : Beside n s v :=
  ⟨g.channel.trans h.channel, g.flags.trans h.flags, g.profiles.trans h.profiles, g.monitor.trans h.monitor⟩

theorem Beside.setDrive (s : State) (hm : d.monitor = (s.drive n).monitor) : Beside n s (s.setDrive n d) :=
  ⟨rfl, rfl, rfl, by rw [drive_setDrive_same]; exact hm⟩

/-- The end of a job of a unit that the channel does not serve. -/
theorem Beside.endJob (hy : s.job j = some y) (hu : y.unit = n) (hc : s.channel.state.holds n = false) (cause : EndCause) :
    Beside n s (s.endJob j cause) := by
  subst hu
  have same := SameButJobs.endJob s j cause
  have lets (v : State) (hv : v.channel = s.channel) : (v.letGo j y.unit).channel = s.channel := by
    have free : (v.modDrive y.unit Drive.dropJob).channel.state.holds y.unit = false := by
      show v.channel.state.holds y.unit = false
      rw [hv]
      exact hc
    unfold State.letGo
    split
    · rw [State.releaseEarly_none free]
      exact hv
    · exact hv
  refine ⟨?_, same.flags, same.profiles, by rw [same.drives]⟩
  unfold State.endJob
  rw [hy]
  dsimp only
  split
  · rfl
  · rw [(Quiet.finalizeIfDone _ _).channel]
    split
    · rw [(Quiet.withdrawSlabs _ _).channel]
      exact lets _ rfl
    · exact lets _ rfl

theorem Beside.passStartCore (hh : (s.drive n).heldJob = some j) (hy : s.job j = some y) (hu : y.unit = n)
    (hc : s.channel.state.holds n = false) : Beside n s (s.passStartCore n).1 := by
  unfold State.passStartCore
  rw [hh]
  dsimp only
  rw [hy]
  dsimp only
  split
  · exact .endJob hy hu hc _
  · exact .setDrive s rfl

theorem Beside.leaveIdle (hh : (s.drive n).heldJob = some j) (hy : s.job j = some y) (hu : y.unit = n)
    (hc : s.channel.state.holds n = false) : Beside n s (s.leaveIdle n).1 := by
  unfold State.leaveIdle
  dsimp only
  split
  · rw [State.issueRestore_eq]
    exact .setDrive s rfl
  · split
    · unfold State.settleFor
      split
      · rw [State.enterTracking_eq hh hy]
        have start : Beside n s ((s.setJob j (some y.startReading)).setDrive n (s.drive n).tracked) :=
          ⟨rfl, rfl, rfl, by rw [drive_setDrive_same]; rfl⟩
        exact start.trans (.passStartCore (j := j) (y := y.startReading) (by rw [drive_setDrive_same]; exact hh)
          (job_setJob_same _ _ _) hu hc)
      · exact .setDrive s rfl
    · rw [State.issueSeek_eq]
      exact .setDrive s rfl

theorem Beside.handOver {x : Job} (hx : s.job j = some x) (hq : x.state = .queued) (dir : Direction) :
    Beside n s (s.handOver n j dir) ∧ (s.handOver n j dir).job j = some { x with state := .positioning } := by
  obtain ⟨slots, a, -, h⟩ := State.handOver_eq (u := s) (n := n) hx hq rfl rfl dir
  rw [h]
  exact ⟨⟨rfl, rfl, rfl, by rw [drive_setDrive_same]; rfl⟩, job_setJob_same _ _ _⟩

theorem Beside.selection (fuel : Nat) (s : State) (hc : s.channel.state.holds n = false) :
    Beside n s (State.selection fuel s n) := by
  induction fuel generalizing s with
  | zero => exact .refl n s
  | succ fuel ih =>
    unfold State.selection
    split
    · exact .refl n s
    · next j dir hsel =>
      obtain ⟨x, hx, hu, hq⟩ := select_queued s n j dir hsel
      obtain ⟨taken, hw⟩ := Beside.handOver (n := n) hx hq dir
      have left := taken.trans (.leaveIdle (held_handOver s n j dir) hw hu (by rw [taken.channel]; exact hc))
      split
      · next t he => rw [he] at left; exact left
      · next t he =>
        rw [he] at left
        have idle := left.trans (.setDrive (d := (t.drive n).enterIdle) t rfl)
        exact idle.trans (ih _ (by rw [idle.channel]; exact hc))

theorem Beside.toIdle (s : State) (hc : s.channel.state.holds n = false) : Beside n s (s.toIdle n) := by
  have idle : Beside n s (s.modDrive n Drive.enterIdle) := .setDrive s rfl
  unfold State.toIdle State.runSelection
  split
  · exact idle.trans (.selection 33 _ hc)
  · exact idle

end Sys2Proof.Machine
end

section
/-! ### The closing index that finds the speed OUT (R16, R66 to R70) -/

namespace Sys2Proof.Machine

variable {s t u v q : State} {n : UnitId} {j : JobIx} {d g : Drive} {y z w : Job} {f : FlagUnit}

theorem State.stageIdle_left (h : t.channel.state ≠ .capturing n) : t.stageIdle n = t := if_neg h

theorem releaseEarly_rev (h : t.channel.rev = none) : (t.releaseEarly n).channel.rev = none := by
  unfold State.releaseEarly
  split
  · exact arbitrate_rev _
  · exact h

/-! #### The speed fault first -/

/-- A recalibration that is ordered when the unit has entered SPEED_FAULT (R68, R70). -/
theorem State.Counted.recalibrates_faulted {p : Profile} {k : Nat} (h : u.Counted n j f d z t) (hst : d.state = .speedFault)
    (hh : d.heldJob = some j) (hx : d.descriptor = (u.drive n).descriptor) (hc : z.passCount < 255)
    (hcyl : z.cylinder = y.cylinder) (hhd : z.head = y.head)
    (hk : k = if z.mark then 0 else min 255 (z.fruitless + 1)) (hdue : callsForRecalibration p d.passStrays k = true) :
    u.Closed n j f (({ d with prepared := none, passStrays := 0, cylinder := none } : Drive).evaluated (u.slotsFor n y)
      (u.actionsFor n y)) (z.passed 0).recalibratedOnce ((t.passEnd n p).stageIdle n) := by
  obtain ⟨e, he⟩ : ∃ e : Drive, e = { d with prepared := none, passStrays := 0, cylinder := none } := ⟨_, rfl⟩
  obtain ⟨q, hq⟩ : ∃ q : State, q = ((t.setJob j (some (z.passed k))).setDrive n
    { d with prepared := none, passStrays := 0 }).setJob j (some (z.passed 0).recalibratedOnce) := ⟨_, rfl⟩
  have around : u.Around n j (q.setDrive n e) := by
    rw [hq]
    exact ⟨h.profiles, h.clock, h.quirks, fun i hi => by
      rw [State.setDrive_job, job_setJob_ne _ _ (Ne.symm hi)]
      exact (h.around (z.passed k)).others i hi⟩
  have lost : q.modDrive n (fun d => { d with cylinder := none }) = q.setDrive n e := by
    rw [State.modDrive_eq_setDrive, hq, he, State.setJob_drive, drive_setDrive_same]
  have drive : (q.setDrive n e).drive n = e := drive_setDrive_same _ _ _
  have job : (q.setDrive n e).job j = some (z.passed 0).recalibratedOnce := by
    rw [hq]
    exact job_setJob_same _ _ _
  have evaluation := around.evaluatePositioning (y := y) job (by rw [drive, he]; exact hx) hcyl hhd
  rw [h.passEnd_eq hh hc hk, if_neg (by rw [hst]; simp), if_pos hdue, ← hq, lost, evaluation, setDrive_setDrive, drive, ← he]
  refine State.Amid.stageIdle ⟨⟨around.profiles, around.clock, around.quirks, around.others⟩, ?_, job⟩ ?_ ?_
  · rw [drive_setDrive_same]
    exact Drive.Like.refl _
  · rw [hq]
    exact h.flags
  · rw [hq]
    exact h.capturing

/-- The state after the accounting of a pass end, the unit's work on it to come. -/
theorem State.Counted.account (h : u.Counted n j f d z t) (w : Job) (e : Drive) :
    u.Counted n j f e w ((t.setJob j (some w)).setDrive n e) where
  toAround := ⟨h.profiles, h.clock, h.quirks, (h.around w).others⟩
  drive := drive_setDrive_same _ _ _
  job := job_setJob_same _ _ _
  flags := h.flags
  capturing := h.capturing

theorem State.Counted.exhausts_faulted {p : Profile} {k : Nat} {P : Job → Prop} (h : u.Counted n j f d z t)
    (hst : d.state = .speedFault) (hh : d.heldJob = some j) (hu : z.unit = n) (hd : z.state ≠ .draining)
    (hc : z.passCount < 255) (hk : k = if z.mark then 0 else min 255 (z.fruitless + 1))
    (hdue : callsForRecalibration p d.passStrays k = false)
    (hl : (u.unitProfiles n).active.passLimit ≤ z.passCount + 1)
    (hP : ∀ rs b, P { z.passed k with state := .draining, endCause := some .passesExhausted, records := rs, finalized := b }) :
    u.Over n j f ({ d with prepared := none, passStrays := 0 } : Drive).dropJob P ((t.passEnd n p).stageIdle n) := by
  rw [h.passEnd_eq hh hc hk, if_neg (by rw [hst]; simp), if_neg (by simp [hdue]),
    if_pos (by rw [h.toAround.unitProfiles]; exact hl)]
  exact ((h.account (z.passed k) { d with prepared := none, passStrays := 0 }).endJob hh hu hd hP).stageIdle

theorem State.Counted.stays_faulted {p : Profile} {k : Nat} (h : u.Counted n j f d z t)
    (hst : d.state = .speedFault) (hh : d.heldJob = some j) (hc : z.passCount < 255)
    (hk : k = if z.mark then 0 else min 255 (z.fruitless + 1)) (hdue : callsForRecalibration p d.passStrays k = false)
    (hl : z.passCount + 1 < (u.unitProfiles n).active.passLimit) :
    u.Closed n j f { d with prepared := none, passStrays := 0 } (z.passed k) ((t.passEnd n p).stageIdle n) := by
  have counted := h.account (z.passed k) { d with prepared := none, passStrays := 0 }
  rw [h.passEnd_eq hh hc hk, if_neg (by rw [hst]; simp), if_neg (by simp [hdue]),
    if_neg (by rw [h.toAround.unitProfiles]; omega)]
  refine State.Amid.stageIdle ⟨counted.toAround, ?_, counted.job⟩ counted.flags counted.capturing
  rw [counted.drive]
  exact Drive.Like.refl _

/-! #### The pass end first -/

theorem State.Counted.exhausts {p : Profile} {k : Nat} (h : u.Counted n j f d z t) (hst : d.state = .tracking)
    (hh : d.heldJob = some j) (hc : z.passCount < 255) (hk : k = if z.mark then 0 else min 255 (z.fruitless + 1))
    (hdue : callsForRecalibration p d.passStrays k = false)
    (hl : (u.unitProfiles n).active.passLimit ≤ z.passCount + 1) :
    ∃ q, u.Counted n j f { d with prepared := none, waiting := min 255 (d.waiting + backoffSkip k p.backoff) } (z.passed k) q ∧
      t.passEnd n p = (q.endJob j .passesExhausted).toIdle n := by
  have counted := h.account (z.passed k) { d with prepared := none, waiting := min 255 (d.waiting + backoffSkip k p.backoff) }
  refine ⟨_, counted, ?_⟩
  rw [h.passEnd_eq hh hc hk, if_pos hst, if_neg (by simp [hdue])]
  unfold State.passStart
  rw [State.passStartCore_exhausted (j := j) (x := z.passed k) (by rw [counted.drive]; exact hh) counted.job
    (by rw [counted.toAround.unitProfiles]; exact hl)]
  rfl

/-- The job ends and its unit, which has no QUEUED job, enters IDLE (R15, R70). -/
theorem State.Counted.endsIdle {P : Job → Prop} (h : u.Counted n j f d z q) (hh : d.heldJob = some j) (hu : z.unit = n)
    (hd : z.state ≠ .draining) (hq : ¬ u.HasQueued n) {cause : EndCause}
    (hP : ∀ rs b, P { z with state := .draining, endCause := some cause, records := rs, finalized := b }) :
    u.Over n j f d.idled P ((q.endJob j cause).toIdle n) := by
  have ends := h.endJob hh hu hd hP
  obtain ⟨idle, drive⟩ := State.endJob_toIdle (by rw [h.drive]; exact hh) h.job hu hd (fun i z hz hzu hzq => by
    by_contra hne
    exact hq ⟨i, z, by rw [← h.others i hne]; exact hz, hzu, hzq⟩) cause
  rw [idle] at drive ⊢
  exact ⟨ends.profiles, by rw [drive, h.drive], ends.job, ends.flags, ends.rev, ends.free⟩

/-- A unit whose job has ended at an index and that may have been handed another. -/
structure State.HandedOn (u : State) (n : UnitId) (j : JobIx) (f : FlagUnit) (cause : EndCause) (t : State) : Prop where
  profiles : t.profiles = u.profiles
  ended : t.Ended j cause
  flags : t.flags = f
  rev : t.channel.rev = none

/-- One that the channel serves only while it is TRACKING, and whose speed is OUT. -/
structure State.HandedOut (u : State) (n : UnitId) (j : JobIx) (f : FlagUnit) (cause : EndCause) (t : State) : Prop
    extends u.HandedOn n j f cause t where
  left : t.channel.state ≠ .capturing n
  served : t.channel.state = .reserved n → (t.drive n).state = .tracking
  out : (t.drive n).monitor.speed = .out

/-- One that is not TRACKING. -/
structure State.HandedOff (u : State) (n : UnitId) (j : JobIx) (f : FlagUnit) (cause : EndCause) (t : State) : Prop
    extends u.HandedOn n j f cause t where
  free : t.channel.state.holds n = false
  still : (t.drive n).state ≠ .tracking

theorem State.HandedOn.arbitrate {cause : EndCause} (h : u.HandedOn n j f cause t) : u.HandedOn n j f cause t.arbitrate where
  profiles := (SameButJobs.arbitrate t).profiles.trans h.profiles
  ended := by
    obtain ⟨y, hy, rest⟩ := h.ended
    exact ⟨y, by rw [State.job, jobs_arbitrate]; exact hy, rest⟩
  flags := (flags_arbitrate t).trans h.flags
  rev := (arbitrate_rev t).trans h.rev

/-- The budget's stage leaves a job that has ended where it is (R49, R51). -/
theorem State.HandedOn.stageBudget {cause : EndCause} (h : u.HandedOn n j f cause t) :
    u.HandedOn n j f cause (t.stageBudget n (some j)) ∧ (t.stageBudget n (some j)).channel = t.channel ∧
      (t.stageBudget n (some j)).drive n = t.drive n := by
  obtain ⟨y, hy, hyd, hyc⟩ := h.ended
  by_cases hh : (t.drive n).heldJob = some j
  · have job : (t.setJob j (some y.spent)).job j = some y.spent := job_setJob_same _ _ _
    have stays : t.stageBudget n (some j) = t.setJob j (some y.spent) := by
      rw [State.stageBudget_eq hh hy]
      split
      · unfold State.endJobAndGoOn
        rw [job]
        exact if_pos hyd
      · rfl
    rw [stays]
    exact ⟨⟨h.profiles, ⟨y.spent, job, hyd, hyc⟩, h.flags, h.rev⟩, rfl, rfl⟩
  · rw [State.stageBudget_other hh]
    exact ⟨h, rfl, rfl⟩

theorem State.HandedOn.stageDeferral {cause : EndCause} (h : u.HandedOn n j f cause t) :
    u.HandedOn n j f cause (t.stageDeferral n) := by
  rw [State.stageDeferral_eq]
  split
  · exact ⟨h.profiles, h.ended, h.flags, h.rev⟩
  · exact h

theorem State.stageDeferral_drive (t : State) (n : UnitId) :
    ((t.stageDeferral n).drive n).state = (t.drive n).state ∧ ((t.stageDeferral n).drive n).monitor = (t.drive n).monitor := by
  rw [State.stageDeferral_eq]
  split
  · rw [drive_setDrive_same]
    exact ⟨rfl, rfl⟩
  · exact ⟨rfl, rfl⟩

theorem State.HandedOut.stable {cause : EndCause} (hp : (u.unitProfiles n).swapPending = false) :
    IndexStable n (some j) fun _ => u.HandedOut n j f cause where
  swap := fun _ t h => by rw [State.unitProfiles, h.profiles]; exact hp
  arbitrate := fun _ t h => by
    have drive := arbitrate_drive_def t n
    refine ⟨h.toHandedOn.arbitrate, arbitrate_left h.left, fun hr => ?_, by rw [drive]; exact h.out⟩
    rw [drive]
    obtain e | ⟨m, hm, e⟩ := arbitrate_channel t
    · exact h.served (by rw [← e]; exact hr)
    · rw [e] at hr
      cases hr
      by_contra hst
      rw [requesting_notTracking t n hst] at hm
      cases hm
  budget := fun t h => by
    obtain ⟨on, channel, drive⟩ := h.toHandedOn.stageBudget
    exact ⟨on, by rw [channel]; exact h.left, by rw [channel, drive]; exact h.served, by rw [drive]; exact h.out⟩
  deferral := fun _ t h => by
    obtain ⟨state, monitor⟩ := State.stageDeferral_drive t n
    have channel := State.stageDeferral_channel t n
    exact ⟨h.toHandedOn.stageDeferral, by rw [channel]; exact h.left, by rw [channel, state]; exact h.served,
      by rw [monitor]; exact h.out⟩

theorem State.HandedOff.stable {cause : EndCause} (hp : (u.unitProfiles n).swapPending = false) :
    IndexStable n (some j) fun _ => u.HandedOff n j f cause where
  swap := fun _ t h => by rw [State.unitProfiles, h.profiles]; exact hp
  arbitrate := fun _ t h => by
    obtain ⟨drive, free⟩ := arbitrate_drive_notRequesting t n (requesting_notTracking t n h.still)
    exact ⟨h.toHandedOn.arbitrate, free h.free, by rw [drive]; exact h.still⟩
  budget := fun t h => by
    obtain ⟨on, channel, drive⟩ := h.toHandedOn.stageBudget
    exact ⟨on, by rw [channel]; exact h.free, by rw [drive]; exact h.still⟩
  deferral := fun _ t h => ⟨h.toHandedOn.stageDeferral, by rw [State.stageDeferral_channel]; exact h.free,
    by rw [(State.stageDeferral_drive t n).1]; exact h.still⟩

/-- The job ends and its unit enters IDLE, where another may be handed to it (R15, R46, R70). -/
theorem State.Counted.handsOn (h : u.Counted n j f d z q) (hh : d.heldJob = some j) (hu : z.unit = n)
    (hd : z.state ≠ .draining) (ho : d.monitor.speed = .out) (cause : EndCause) :
    u.HandedOut n j f cause ((q.endJob j cause).toIdle n) := by
  have ends := h.endJob (P := fun z => z.state = .draining ∧ z.endCause = some cause) hh hu hd fun _ _ => ⟨rfl, rfl⟩
  obtain ⟨x, hx, hxd, hxc⟩ := ends.job
  have beside := Beside.toIdle (n := n) (q.endJob j cause) ends.free
  obtain ⟨job, -⟩ := State.toIdle_draining (n := n) hx hxd (by rw [ends.drive]; simp [Drive.dropJob])
  have free := ends.free
  rw [← beside.channel] at free
  have unserved := (ChannelState.holds_iff _ n).not.1 (by rw [free]; simp)
  refine ⟨⟨beside.profiles.trans ends.profiles, ⟨x, job, hxd, hxc⟩, beside.flags.trans ends.flags, ?_⟩,
    fun e => unserved (.inr e), fun e => absurd (.inl e) unserved, ?_⟩
  · rw [beside.channel]
    exact ends.rev
  · rw [beside.monitor, ends.drive]
    exact ho

/-- The speed fault taken of a unit that has been handed on (R16). -/
theorem State.HandedOut.stageSpeed {cause : EndCause} (h : u.HandedOut n j f cause t) :
    u.HandedOff n j f cause (t.stageSpeed n .closing) := by
  by_cases hst : (t.drive n).state ∈ [.idle, .settling, .tracking]
  · have drive : ((t.setDrive n (t.drive n).faulted).drive n).state ≠ .tracking := by
      rw [drive_setDrive_same]
      simp [Drive.faulted]
    have same := SameButJobs.releaseEarly (t.setDrive n (t.drive n).faulted) n
    obtain ⟨x, hx, hxd, hxc⟩ := h.ended
    rw [State.stageSpeed_faults hst h.out, State.enterSpeedFault_eq (.inr h.left)]
    exact ⟨⟨same.profiles.trans h.profiles, ⟨x, by rw [State.job, jobs_releaseEarly]; exact hx, hxd, hxc⟩,
      same.flags.trans h.flags, releaseEarly_rev h.rev⟩, releaseEarly_notTracking drive,
      by rw [releaseEarly_drive_def]; exact drive⟩
  · rw [State.stageSpeed_none (fun e => absurd e hst) fun _ => h.out]
    have still : (t.drive n).state ≠ .tracking := fun e => hst (by simp [e])
    refine ⟨h.toHandedOn, ?_, still⟩
    rw [Bool.eq_false_iff, ne_eq, ChannelState.holds_iff]
    rintro (e | e)
    · exact still (h.served e)
    · exact h.left e

end Sys2Proof.Machine
end

section
/-! ### A speed fault with a job held: the statement -/

namespace Sys2Proof.Machine

variable {s t u v q : State} {n : UnitId} {j : JobIx} {d g : Drive} {y z w : Job}

section
variable {x : Descriptor} {rev : Revolution} {cut : CutField} {order : IndexOrder} {m k : Nat} {live : Bool}

/-- The closing index that finds the speed OUT, the speed fault taken first. -/
theorem State.Closes.faultFirst {R : Bool → State → Prop} (h : u.Closes n d x j y rev u.clock .out)
    (hone : StageOne u n cut j y d.passStrays z m live) (hp : (u.unitProfiles n).swapPending = false)
    (hdef : u.channel.deferred = []) (hk : k = if live then 0 else holdAt 8 d.deadRevs)
    (hl : live = true ∨ k < rev.profile.dead) (hff : order.faultFirst = true) (stable : IndexStable n (some j) R)
    (close : ∀ (b : Bool) v, u.Counted n j (u.indexFlags n x)
      { (d.indexed x u.clock).faultedInPass with passStrays := m, deadRevs := k } (if b then z else z.spent) v →
      R b ((v.passEnd n rev.profile).stageIdle n)) : R false (u.indexIn n cut order) :=
  h.indexIn (e' := (d.indexed x u.clock).faultedInPass) (R := fun _ _ => True) hone hp hdef rfl (if_pos ⟨hff, rfl⟩).symm hk
    (fun b v hv => by simp only [if_pos hl, if_pos hff]; exact close b v hv) (fun hn => by rw [hff] at hn; cases hn) stable
    fun hn => by rw [hff] at hn; cases hn

/-- The closing index that finds the speed OUT, the pass end taken first. -/
theorem State.Closes.passFirst {R R' : Bool → State → Prop} (h : u.Closes n d x j y rev u.clock .out)
    (hone : StageOne u n cut j y d.passStrays z m live) (hp : (u.unitProfiles n).swapPending = false)
    (hdef : u.channel.deferred = []) (hk : k = if live then 0 else holdAt 8 d.deadRevs)
    (hl : live = true ∨ k < rev.profile.dead) (hff : order.faultFirst = false) (stable : IndexStable n (some j) R)
    (stable' : IndexStable n (some j) R')
    (close : ∀ (b : Bool) v, u.Counted n j (u.indexFlags n x) { d.indexed x u.clock with passStrays := m, deadRevs := k }
      (if b then z else z.spent) v → R b ((v.passEnd n rev.profile).stageIdle n))
    (judge : ∀ b t, R b t → R' b (t.stageSpeed n .closing)) : R' false (u.indexIn n cut order) :=
  h.indexIn (e' := d.indexed x u.clock) (R := R) hone hp hdef rfl (if_neg (by simp [hff])).symm hk
    (fun b v hv => by simp only [if_pos hl, hff, Bool.false_eq_true, if_false]; exact close b v hv) (fun _ => stable) stable'
    fun _ => judge

end

/-- The speed fault taken of a unit whose pass has ended with its job going on (R16). -/
theorem State.Closed.stageSpeed_faults {f : FlagUnit} (h : u.Closed n j f g w t) (hst : g.state = .tracking)
    (ho : g.monitor.speed = .out) : u.Closed n j f g.faulted w (t.stageSpeed n .closing) := by
  have faulted : (t.drive n).faulted = g.faulted := by
    rw [h.drive.1]
    rfl
  have amid : u.Amid n j g.faulted w (t.setDrive n g.faulted) := h.toAmid.setDrive (Drive.Like.refl _)
  have still : ((t.setDrive n g.faulted).drive n).state ≠ .tracking := by
    rw [drive_setDrive_same]
    simp [Drive.faulted]
  rw [State.stageSpeed_faults (by rw [h.state, hst]; simp) (by rw [h.speed]; exact ho), State.enterSpeedFault_eq (.inr h.left)]
  show u.Closed n j f _ w ((t.setDrive n (t.drive n).faulted).releaseEarly n)
  rw [faulted]
  have free := releaseEarly_notTracking still
  refine ⟨amid.releaseEarly, ((SameButJobs.releaseEarly _ n).flags).trans h.flags, releaseEarly_rev h.rev, fun e => ?_,
    fun _ => free⟩
  rw [e] at free
  simp [ChannelState.holds] at free

/-- The speed fault taken of a unit that has entered IDLE (R16). -/
theorem State.Over.stageSpeed_faults {f : FlagUnit} {P : Job → Prop} (h : u.Over n j f d.idled P t)
    (ho : d.monitor.speed = .out) : u.Over n j f { d.idled with state := .speedFault } P (t.stageSpeed n .closing) := by
  have left : t.channel.state ≠ .capturing n := fun e => by
    have free := h.free
    rw [e] at free
    simp [ChannelState.holds] at free
  have free : (t.setDrive n (t.drive n).faulted).channel.state.holds n = false := h.free
  rw [State.stageSpeed_faults (by rw [h.drive]; simp [Drive.idled]) (by rw [h.drive]; exact ho),
    State.enterSpeedFault_eq (.inr left)]
  show u.Over n j f _ P ((t.setDrive n (t.drive n).faulted).releaseEarly n)
  rw [State.releaseEarly_none free]
  exact ⟨h.profiles, by rw [drive_setDrive_same, h.drive]; rfl, h.job, h.flags, h.rev, h.free⟩

section
variable {x : Descriptor} {rev : Revolution} {cut : CutField} {order : IndexOrder} {e : Drive} {cs : Counters} {m k c : Nat}
  {live : Bool}

/-- A revolution that is not dead at the index that closes it and finds the speed OUT, and what its pass end counts. -/
structure State.ClosesOut (u : State) (n : UnitId) (cut : CutField) (d e : Drive) (x : Descriptor) (j : JobIx) (y : Job)
    (cs : Counters) (rev : Revolution) (m k c : Nat) (live : Bool) : Prop where
  closes : u.Closes n d x j y rev u.clock .out
  one : StageOne u n cut j y d.passStrays { y with counters := cs } m live
  swap : (u.unitProfiles n).swapPending = false
  deferred : u.channel.deferred = []
  dead : k = if live then 0 else holdAt 8 d.deadRevs
  goesOn : live = true ∨ k < rev.profile.dead
  passes : y.passCount < 255
  fruitless : c = if y.mark then 0 else min 255 (y.fruitless + 1)
  drive : e = { d.indexed x u.clock with deadRevs := k }

variable (h : u.ClosesOut n cut d e x j y cs rev m k c live)
include h

/-- The speed fault taken first, with a recalibration due. -/
theorem State.ClosesOut.faulted_recalibrates (hff : order.faultFirst = true)
    (hdue : callsForRecalibration rev.profile m c = true) :
    u.Closed n j (u.indexFlags n x)
      (({ e.faulted with cylinder := none } : Drive).evaluated (u.slotsFor n y) (u.actionsFor n y))
      (({ y with counters := cs } : Job).passed 0).spent.recalibratedOnce (u.indexIn n cut order) := by
  obtain ⟨closes, one, swap, deferred, dead, goesOn, passes, fruitless, drive⟩ := h
  subst drive
  have hx : d.descriptor = (u.drive n).descriptor := by rw [← closes.drive]
  exact closes.faultFirst (R := fun b => u.Closed n j (u.indexFlags n x)
      (({ ({ d.indexed x u.clock with deadRevs := k } : Drive).faulted with cylinder := none } : Drive).evaluated
        (u.slotsFor n y) (u.actionsFor n y))
      (if b then (({ y with counters := cs } : Job).passed 0).recalibratedOnce
        else (({ y with counters := cs } : Job).passed 0).recalibratedOnce.spent))
    one swap deferred dead goesOn hff (State.Closed.stable closes.held closes.budget swap) fun b v hv => by
      cases b with
      | true => exact hv.recalibrates_faulted (y := y) rfl closes.held hx passes rfl rfl fruitless hdue
      | false => exact hv.recalibrates_faulted (y := y) rfl closes.held hx passes rfl rfl fruitless hdue

/-- The speed fault taken first, at the pass limit. -/
theorem State.ClosesOut.faulted_exhausts (hff : order.faultFirst = true)
    (hdue : callsForRecalibration rev.profile m c = false) (hl : (u.unitProfiles n).active.passLimit ≤ y.passCount + 1) :
    u.Over n j (u.indexFlags n x) e.faulted.dropJob
      (fun q => q.state = .draining ∧ q.endCause = some .passesExhausted) (u.indexIn n cut order) := by
  obtain ⟨closes, one, swap, deferred, dead, goesOn, passes, fruitless, drive⟩ := h
  subst drive
  have reading : y.state ≠ .draining := by rw [closes.reading]; simp
  exact closes.faultFirst (R := fun _ => u.Over n j (u.indexFlags n x)
      ({ d.indexed x u.clock with deadRevs := k } : Drive).faulted.dropJob
      (fun q => q.state = .draining ∧ q.endCause = some .passesExhausted))
    one swap deferred dead goesOn hff (State.Over.stable (by simp [Drive.faulted, Drive.dropJob]) rfl swap) fun b v hv => by
      cases b with
      | true => exact hv.exhausts_faulted rfl closes.held closes.unit reading passes fruitless hdue hl fun _ _ => ⟨rfl, rfl⟩
      | false => exact hv.exhausts_faulted rfl closes.held closes.unit reading passes fruitless hdue hl fun _ _ => ⟨rfl, rfl⟩

/-- The speed fault taken first, with passes left. -/
theorem State.ClosesOut.faulted_stays (hff : order.faultFirst = true)
    (hdue : callsForRecalibration rev.profile m c = false) (hl : y.passCount + 1 < (u.unitProfiles n).active.passLimit) :
    u.Closed n j (u.indexFlags n x) e.faulted (({ y with counters := cs } : Job).passed c).spent (u.indexIn n cut order) := by
  obtain ⟨closes, one, swap, deferred, dead, goesOn, passes, fruitless, drive⟩ := h
  subst drive
  exact closes.faultFirst (R := fun b => u.Closed n j (u.indexFlags n x)
      ({ d.indexed x u.clock with deadRevs := k } : Drive).faulted
      (if b then ({ y with counters := cs } : Job).passed c else (({ y with counters := cs } : Job).passed c).spent))
    one swap deferred dead goesOn hff (State.Closed.stable closes.held closes.budget swap) fun b v hv => by
      cases b with
      | true => exact hv.stays_faulted rfl closes.held passes fruitless hdue hl
      | false => exact hv.stays_faulted rfl closes.held passes fruitless hdue hl

/-- The pass end taken first, with a recalibration due. -/
theorem State.ClosesOut.recalibrates (hff : order.faultFirst = false)
    (hdue : callsForRecalibration rev.profile m c = true) :
    u.Closed n j (u.indexFlags n x) ((e.evaluated (u.slotsFor n y) (u.actionsFor n y)).restoring u.clock)
      (({ y with counters := cs } : Job).passed 0).spent.recalibratedOnce (u.indexIn n cut order) := by
  obtain ⟨closes, one, swap, deferred, dead, goesOn, passes, fruitless, drive⟩ := h
  subst drive
  have hx : d.descriptor = (u.drive n).descriptor := by rw [← closes.drive]
  obtain ⟨g, hg⟩ : ∃ g, g = (({ d.indexed x u.clock with deadRevs := k } : Drive).evaluated (u.slotsFor n y)
    (u.actionsFor n y)).restoring u.clock := ⟨_, rfl⟩
  obtain ⟨R, hR⟩ : ∃ R : Bool → State → Prop, R = fun b => u.Closed n j (u.indexFlags n x) g
    (if b then (({ y with counters := cs } : Job).passed 0).recalibratedOnce
      else (({ y with counters := cs } : Job).passed 0).recalibratedOnce.spent) := ⟨_, rfl⟩
  have stable : IndexStable n (some j) R := by
    rw [hR]
    exact State.Closed.stable (by rw [hg]; exact closes.held) closes.budget swap
  rw [← hg]
  have whole := closes.passFirst (R := R) (R' := R) one swap deferred dead goesOn hff stable stable (fun b v hv => by
      rw [hR, hg]
      cases b with
      | true => exact hv.recalibrates (y := y) closes.tracking closes.held hx passes rfl rfl fruitless hdue
      | false => exact hv.recalibrates (y := y) closes.tracking closes.held hx passes rfl rfl fruitless hdue) fun b t ht => by
    rw [hR] at ht
    rw [State.stageSpeed_none (fun hi => by rw [ht.state, hg] at hi; simp [Drive.restoring] at hi)
      (fun hf => by rw [ht.state, hg] at hf; cases hf), hR]
    exact ht
  rw [hR] at whole
  exact whole

/-- The pass end taken first, with passes left. -/
theorem State.ClosesOut.discards (hff : order.faultFirst = false)
    (hdue : callsForRecalibration rev.profile m c = false) (hl : y.passCount + 1 < (u.unitProfiles n).active.passLimit) :
    u.Closed n j (u.indexFlags n x) (e.started (u.preparePass n (({ y with counters := cs } : Job).passed c))).faulted
      (({ y with counters := cs } : Job).passed c).spent (u.indexIn n cut order) := by
  obtain ⟨closes, one, swap, deferred, dead, goesOn, passes, fruitless, drive⟩ := h
  subst drive
  have hx : d.descriptor = (u.drive n).descriptor := by rw [← closes.drive]
  have out : (d.indexed x u.clock).monitor.speed = .out := closes.after
  obtain ⟨g, hg⟩ : ∃ g, g = ({ d.indexed x u.clock with
      passStrays := m, deadRevs := k, prepared := none,
      waiting := min 255 (d.waiting + backoffSkip c rev.profile.backoff) } : Drive).started
    (u.preparePass n (({ y with counters := cs } : Job).passed c)) := ⟨_, rfl⟩
  have held : g.heldJob = some j := by rw [hg]; exact closes.held
  exact closes.passFirst (R := fun b => u.Closed n j (u.indexFlags n x) g
      (if b then ({ y with counters := cs } : Job).passed c else (({ y with counters := cs } : Job).passed c).spent))
    (R' := fun b => u.Closed n j (u.indexFlags n x)
      (({ d.indexed x u.clock with deadRevs := k } : Drive).started
        (u.preparePass n (({ y with counters := cs } : Job).passed c))).faulted
      (if b then ({ y with counters := cs } : Job).passed c else (({ y with counters := cs } : Job).passed c).spent))
    one swap deferred dead goesOn hff (State.Closed.stable held closes.budget swap)
    (State.Closed.stable closes.held closes.budget swap) (fun b v hv => by
      rw [hg]
      cases b with
      | true => exact hv.starts closes.tracking closes.held hx passes fruitless hdue hl
      | false => exact hv.starts closes.tracking closes.held hx passes fruitless hdue hl) fun b t ht => by
    have faults := ht.stageSpeed_faults (by rw [hg]; exact closes.tracking) (by rw [hg]; exact out)
    rw [hg] at faults
    exact faults

/-- The pass end taken first, at the pass limit. -/
theorem State.ClosesOut.exhausts (hff : order.faultFirst = false)
    (hdue : callsForRecalibration rev.profile m c = false) (hl : (u.unitProfiles n).active.passLimit ≤ y.passCount + 1)
    (hq : ¬ u.HasQueued n) :
    u.Over n j (u.indexFlags n x) { e.idled with state := .speedFault }
      (fun q => q.state = .draining ∧ q.endCause = some .passesExhausted) (u.indexIn n cut order) := by
  obtain ⟨closes, one, swap, deferred, dead, goesOn, passes, fruitless, drive⟩ := h
  subst drive
  have reading : y.state ≠ .draining := by rw [closes.reading]; simp
  have out : (d.indexed x u.clock).monitor.speed = .out := closes.after
  exact closes.passFirst (R := fun _ => u.Over n j (u.indexFlags n x)
      ({ d.indexed x u.clock with deadRevs := k } : Drive).idled
      (fun q => q.state = .draining ∧ q.endCause = some .passesExhausted))
    (R' := fun _ => u.Over n j (u.indexFlags n x)
      { ({ d.indexed x u.clock with deadRevs := k } : Drive).idled with state := .speedFault }
      (fun q => q.state = .draining ∧ q.endCause = some .passesExhausted))
    one swap deferred dead goesOn hff (State.Over.stable (by simp [Drive.idled]) rfl swap)
    (State.Over.stable (by simp) rfl swap) (fun b v hv => by
      cases b with
      | true =>
        obtain ⟨q, hv, run⟩ := hv.exhausts closes.tracking closes.held passes fruitless hdue hl
        rw [run]
        exact (hv.endsIdle closes.held closes.unit reading hq fun _ _ => ⟨rfl, rfl⟩).stageIdle
      | false =>
        obtain ⟨q, hv, run⟩ := hv.exhausts closes.tracking closes.held passes fruitless hdue hl
        rw [run]
        exact (hv.endsIdle closes.held closes.unit reading hq fun _ _ => ⟨rfl, rfl⟩).stageIdle)
    fun b t ht => ht.stageSpeed_faults out

/-- The pass end taken first, at the pass limit, with a job that may be handed to the unit. -/
theorem State.ClosesOut.handsOn (hff : order.faultFirst = false)
    (hdue : callsForRecalibration rev.profile m c = false) (hl : (u.unitProfiles n).active.passLimit ≤ y.passCount + 1) :
    u.HandedOff n j (u.indexFlags n x) .passesExhausted (u.indexIn n cut order) := by
  obtain ⟨closes, one, swap, deferred, dead, goesOn, passes, fruitless, drive⟩ := h
  have reading : y.state ≠ .draining := by rw [closes.reading]; simp
  exact closes.passFirst (R := fun _ => u.HandedOut n j (u.indexFlags n x) .passesExhausted)
    (R' := fun _ => u.HandedOff n j (u.indexFlags n x) .passesExhausted)
    one swap deferred dead goesOn hff (State.HandedOut.stable swap) (State.HandedOff.stable swap) (fun b v hv => by
      cases b with
      | true =>
        obtain ⟨q, hv, run⟩ := hv.exhausts closes.tracking closes.held passes fruitless hdue hl
        have on := hv.handsOn closes.held closes.unit reading closes.after .passesExhausted
        rw [run, State.stageIdle_left on.left]
        exact on
      | false =>
        obtain ⟨q, hv, run⟩ := hv.exhausts closes.tracking closes.held passes fruitless hdue hl
        have on := hv.handsOn closes.held closes.unit reading closes.after .passesExhausted
        rw [run, State.stageIdle_left on.left]
        exact on)
    fun b t ht => ht.stageSpeed

end

/-- Settles O38. -/
theorem speedFaultHoldsTheJob : Obligations.SpeedFaultHoldsTheJob := by
  refine ⟨fun n elapsed now cut s d e x j y hd hx hnow hh hy hb hp hc he => ?_,
    fun n elapsed now f k strays cut s u d e x j y z w rev live due hnow hs hone hp hdef hdead hcount hk hl hf hdue
      he hw hu => ?_⟩
  · obtain ⟨u, hu⟩ : ∃ u : State, u = { s with clock := now, choices := s.choices + 1 } := ⟨_, rfl⟩
    have hdu : d = u.drive n := by rw [hu]; exact hd
    have heu : e = (u.drive n).indexed x u.clock := by rw [he, hdu, hu]
    have hxu : (u.drive n).descriptor = some x := by rw [← hdu]; exact hx
    have hhu : (u.drive n).heldJob = some j := by rw [← hdu]; exact hh
    have hyu : u.job j = some y := by rw [hu]; exact hy
    have hpu : (u.unitProfiles n).swapPending = false := by rw [hu]; exact hp
    have hcu : u.channel.state ≠ .capturing n := by rw [hu]; exact hc
    have run := exec_indexPulse_inside (cut := cut) (n := n) hnow hu rfl
    refine ⟨fun hst ho => ?_, fun hst hi => ?_⟩
    · obtain ⟨amid, flags, free⟩ := State.indexIn_speedOut (cut := cut) (order := Config.indexOrder s.choices)
        (by rw [← hdu]; exact hst) hxu heu ho hhu hyu hb hpu hcu
      refine ⟨_, run, amid.unlike (by simp [Drive.faulted]), amid.job, free, flags.trans ?_⟩
      have out : (d.monitor.index x u.clock).speed = .out := by
        rw [heu, ← hdu] at ho
        exact ho
      unfold State.indexFlags
      rw [← hdu, out, show u.flags = s.flags by rw [hu]]
      cases hm : d.monitor.speed <;> simp
    · have restored {g : Drive} (hg : g = _) := State.indexIn_speedIn (g := g) (cut := cut)
        (order := Config.indexOrder s.choices) (by rw [← hdu]; exact hst) hxu heu hi hhu hyu hb hpu hcu hg
      have cylinder : e.cylinder = d.cylinder ∧ e.target = d.target := by rw [he]; exact ⟨rfl, rfl⟩
      have clock : u.clock = now := by rw [hu]
      have combines : s.Combines n y.cylinder y.head 0 (u.slotsFor n y) (u.actionsFor n y) := by
        rw [hu]
        exact s.combines_for n y
      rw [cylinder.1, cylinder.2, clock] at restored
      refine ⟨fun hcyl => ?_, fun hcyl ht => ?_, fun hcyl ht => ?_⟩
      · obtain ⟨amid, drive⟩ := restored (if_pos hcyl).symm
        exact ⟨_, _, _, run, combines, drive, amid.job⟩
      · obtain ⟨amid, drive⟩ := restored ((if_neg hcyl).trans (if_pos ht)).symm
        exact ⟨_, run, drive, amid.job⟩
      · obtain ⟨amid, drive⟩ := restored ((if_neg hcyl).trans (if_neg ht)).symm
        exact ⟨_, _, _, run, combines, drive, amid.job⟩
  · have closes := hs.at_ (u := u) (by rw [hu, hnow])
    have clock : u.clock = now := by rw [hu]
    have swap : (u.unitProfiles n).swapPending = false := by rw [hu]; exact hp
    have deferred : u.channel.deferred = [] := by rw [hu]; exact hdef
    have one := hone.congr (t := u) (by rw [hu])
    obtain ⟨cs, hz⟩ := hone.counters
    subst hz
    have dead : k = if live then 0 else holdAt 8 d.deadRevs := by
      cases live with
      | true => exact hk
      | false =>
        have below : k < rev.profile.dead := hl.resolve_left (by simp)
        have count : k = d.deadRevs + 1 := hk
        rw [if_neg (by simp), holdAt, min_eq_right (by omega), count]
    have h : u.ClosesOut n cut d e x j y cs rev strays k f live :=
      ⟨closes, one, swap, deferred, dead, hl, hcount, hf, by rw [he, clock]⟩
    have raised : u.indexFlags n x = s.flags.raise (4 * n.val + 1) := by
      unfold State.indexFlags
      rw [← closes.drive, if_pos ⟨closes.before, closes.after⟩, hu]
    have profiles : u.unitProfiles n = s.unitProfiles n := by rw [hu]; rfl
    have combines : s.Combines n y.cylinder y.head 0 (u.slotsFor n y) (u.actionsFor n y) := by
      rw [hu]
      exact s.combines_for n y
    have isDue (hdue' : due) : callsForRecalibration rev.profile strays f = true := by
      rw [callsForRecalibration_iff, ← hdue]
      exact hdue'
    have notDue (hdue' : ¬ due) : callsForRecalibration rev.profile strays f = false := by
      rw [Bool.eq_false_iff, ne_eq, callsForRecalibration_iff, ← hdue]
      exact hdue'
    have closed {g : Drive} {q : Job} (hg : g.state ≠ .tracking) {t : State} (ht : u.Closed n j (u.indexFlags n x) g q t) :
        t.channel.rev = none ∧ t.channel.state.holds n = false ∧ t.flags = s.flags.raise (4 * n.val + 1) :=
      ⟨ht.rev, ht.free hg, ht.flags.trans raised⟩
    rw [hw, ← profiles]
    refine ⟨exec_indexPulse_inside hnow hu rfl, fun order t ht => ?_⟩
    subst ht
    cases hff : order.faultFirst with
    | true =>
      by_cases hd : due
      · have after := h.faulted_recalibrates hff (isDue hd)
        obtain ⟨hrev, free, flags⟩ := closed (by simp [Drive.faulted, Drive.evaluated]) after
        exact ⟨hrev, free, flags, fun _ => ⟨fun _ => ⟨_, _, combines,
          after.unlike (by simp [Drive.faulted, Drive.evaluated]), after.job⟩,
          fun hn => absurd hd hn, fun hn => absurd hd hn⟩, fun hn => absurd hn (by simp)⟩
      · by_cases limit : (u.unitProfiles n).active.passLimit ≤ y.passCount + 1
        · have after := h.faulted_exhausts hff (notDue hd) limit
          exact ⟨after.rev, after.free, after.flags.trans raised, fun _ => ⟨fun hn => absurd hn hd,
            fun _ _ => ⟨after.job, after.drive⟩, fun _ hn => absurd hn (by omega)⟩, fun hn => absurd hn (by simp)⟩
        · have after := h.faulted_stays hff (notDue hd) (by omega)
          obtain ⟨hrev, free, flags⟩ := closed (by simp [Drive.faulted]) after
          exact ⟨hrev, free, flags, fun _ => ⟨fun hn => absurd hn hd, fun _ hn => absurd hn limit,
            fun _ _ => ⟨after.unlike (by simp [Drive.faulted]), after.job⟩⟩, fun hn => absurd hn (by simp)⟩
    | false =>
      by_cases hd : due
      · have after := h.recalibrates hff (isDue hd)
        obtain ⟨hrev, free, flags⟩ := closed (by simp [Drive.restoring]) after
        have drive := after.unlike (by simp [Drive.restoring])
        rw [clock] at drive
        exact ⟨hrev, free, flags, fun hn => absurd hn (by simp), fun _ => ⟨fun _ => ⟨_, _, combines, drive, after.job⟩,
          fun hn => absurd hd hn, fun hn => absurd hd hn⟩⟩
      · by_cases limit : (u.unitProfiles n).active.passLimit ≤ y.passCount + 1
        · have after := h.handsOn hff (notDue hd) limit
          exact ⟨after.rev, after.free, after.flags.trans raised, fun hn => absurd hn (by simp), fun _ => ⟨fun hn => absurd hn hd,
            fun _ _ => ⟨after.ended, fun hq => (h.exhausts hff (notDue hd) limit (by rw [hu]; exact hq)).drive⟩,
            fun _ hn => absurd hn (by omega)⟩⟩
        · have after := h.discards hff (notDue hd) (by omega)
          obtain ⟨hrev, free, flags⟩ := closed (by simp [Drive.faulted]) after
          have prepared := fun hpasses => s.preparePass_prepared n (({ y with counters := cs } : Job).passed f) hpasses
          refine ⟨hrev, free, flags, fun hn => absurd hn (by simp), fun _ => ⟨fun hn => absurd hn hd, fun _ hn => absurd hn limit,
            fun _ _ hpasses => ⟨_, prepared (by rw [← profiles]; exact hpasses), after.job, ?_⟩⟩⟩
          rw [after.unlike (by simp [Drive.faulted]), hu]
          rfl

end Sys2Proof.Machine
end

section
/-! ### A READING job that is finalized already

R54 finalizes a DRAINING job, and once; `State.finalizeIfDone` queues a JOB-END only for a job that is not finalized. The first
part of O47 asks that the job whose last record is recovered has not ended, but not that it is not finalized, and no invariant
among its premises says so: on a job that is READING and finalized, the completion queues no JOB-END. What is missing is that
premise; the model finalizes no job that has not ended. -/

namespace Sys2Proof.Machine

theorem queue_finish (s : State) : s.finish.queue = s.queue := by
  have sent (t : State) : t.transmit.queue = t.queue := by
    unfold State.transmit
    split
    · split <;> rfl
    · rfl
  unfold State.finish
  rw [sent, ← queue_arbitrate s]
  rfl

/-- A job of one wanted record, READING and yet finalized. -/
def finalizedReader : Job :=
  { Job.fresh 0 12 0 .bulk 0 7 [Record.fresh true none] 0 with state := .reading, finalized := true }

/-- A descriptor of 2 data words a sector. -/
def finalizedDescriptor : Descriptor :=
  { model := 7, cylinders := 411, heads := 4, sectors := 8, words := 2, period := 400000, tolerance := 10000,
    dataOffset := 1800, maxOffset := 4, settle := 1 }

/-- The revolution in which that job reads, its window 12,500 ticks. -/
def finalizedRevolution : Revolution :=
  { job := 0, trim := 0, pitch := 50000, window := 12500, cylinder := 12, head := 0, headerMask := none, noBlind := false,
    weightCap := none, noVote := false, profile := .default }

/-- The header of sector 0, its window open since tick 600. -/
def finalizedHeader : OpenHeader :=
  { capture :=
      { unit := 0, job := 0, ident := some .header, sector := some 0, repeated := false, status := .good,
        header := some (12, 0, 4083), data := none, low := false }
    last := 600 }

/-- The channel captures for unit 0, which tracks with that job held; nothing is queued for delivery. -/
def finalizedState : State :=
  { (State.reset.setDrive 0 { Drive.powerOn false with
      descriptor := some finalizedDescriptor, state := .tracking, heldJob := some 0 }).setJob 0 (some finalizedReader) with
    channel :=
      { Channel.powerOn with
        state := .capturing 0, rev := some finalizedRevolution, openHeader := some finalizedHeader } }

/-- Three words that pass their check. -/
def passingField : List Word12 := [0xFFF, 0xFFF, 0xFFF]

theorem finalizedState_job (i : JobIx) : finalizedState.job i = if 0 = i then some finalizedReader else none := by
  have bare : ∀ k, State.reset.job k = none := by decide
  show (State.setJob _ 0 (some finalizedReader)).job i = _
  rw [State.setJob_job, State.setDrive_job, bare]

theorem finalizedState_slab (i : SlabId) : finalizedState.slab i = none :=
  show State.reset.slab i = none by simp [State.slab, State.reset]

theorem finalizedState_hears :
    finalizedState.Hears 0 finalizedRevolution finalizedHeader finalizedDescriptor finalizedReader 600 passingField where
  capturing := rfl
  revolution := rfl
  window := rfl
  unit := rfl
  good := rfl
  inside := by decide
  descriptor := by
    show ((State.reset.setDrive 0 _).drive 0).descriptor = _
    rw [drive_setDrive_same]
  length := rfl
  job := finalizedState_job 0
  live := by decide

theorem finalizedHeader_names : finalizedHeader.capture.Names finalizedReader 0 (Record.fresh true none) :=
  ⟨rfl, rfl, rfl, rfl⟩

/-- The delivery queue after a command. -/
def queueAfter : Host.Outcome State Fault Refusal → List Entry
  | .next t => t.queue
  | _ => []

/-- The model queues the record's SECTOR alone. -/
theorem finalizedState_sends :
    queueAfter (exec (.dataFieldRead 600 passingField [] false) finalizedState) = [.sector 0 0] := by decide

/-- Refutes O47: a READING job that is finalized already, which the premises allow, has its last record recovered with the
delivery queue empty, and no JOB-END joins the SECTOR. -/
theorem not_jobsComplete : ¬ Obligations.JobsComplete := by
  rintro ⟨completes, -, -⟩
  have tracking : (finalizedState.drive 0).heldJob = some 0 ∧ (finalizedState.drive 0).state = .tracking := by
    rw [show finalizedState.drive 0 = _ from drive_setDrive_same State.reset 0 _]
    exact ⟨rfl, rfl⟩
  have others (i : Nat) (q : Record) (hi : i ≠ 0) (hq : finalizedReader.records[i]? = some q) :
      q.state ∈ [.notWanted, .good, .voted, .repaired] ∧ q.delivery ≠ .awaiting := by
    obtain ⟨k, rfl⟩ := Nat.exists_eq_succ_of_ne_zero hi
    cases hq
  have unqueued : ¬ finalizedState.HasQueued 0 := by
    rintro ⟨i, x, hx, -, hq⟩
    rw [finalizedState_job] at hx
    split at hx
    · cases hx
      cases hq
    · cases hx
  obtain ⟨t, run, -, queue, -⟩ := completes 0 600 0 passingField [] false finalizedState finalizedRevolution finalizedHeader
    finalizedDescriptor finalizedReader (Record.fresh true none) 0 finalizedState_hears finalizedHeader_names
    ⟨by decide, by decide⟩ rfl rfl rfl rfl rfl tracking.1 tracking.2 others
    (fun i k hk => by rw [finalizedState_slab] at hk; cases hk)
    unqueued (by decide)
  have sent := finalizedState_sends
  rw [run] at sent
  have both : t.queue = [.sector 0 0, .jobEnd 0] := queue
  rw [queueAfter, queue_finish, both] at sent
  cases sent

end Sys2Proof.Machine
end

section
-- One declaration at a time, which keeps the memory of the elaboration low.
set_option Elab.async false
/-! ## The link and the arbiter between commands

`finish` itself grants, measures the gap and chooses a message, so after it only three things rest on what the command did:
the room of the queues, the frames taken, and the message in transmission. -/

namespace Sys2Proof.Machine

/-! ### What `finish` writes -/

theorem State.transmit_link (s : State) :
    s.transmit.link = { s.link with tx := s.transmit.link.tx, lastByte := s.transmit.link.lastByte } := by
  unfold State.transmit
  split
  · split <;> rfl
  · rfl

theorem State.transmit_profiles (s : State) : s.transmit.profiles = s.profiles := by
  unfold State.transmit
  split
  · split <;> rfl
  · rfl

theorem State.finish_link (s : State) : s.finish.link =
    { s.link with gapFrom := s.finish.link.gapFrom, tx := s.finish.link.tx, lastByte := s.finish.link.lastByte } := by
  have synced : s.arbitrate.gapSync.link = { s.link with gapFrom := s.arbitrate.gapSync.link.gapFrom } := by
    rewrite [← (State.arbitrate_evolves s).same.link]
    rfl
  unfold State.finish
  rw [State.transmit_link, synced]

/-- The round-robin order names every unit (R28). -/
theorem State.mem_roundRobin (s : State) (n : UnitId) : n ∈ s.roundRobin := by
  unfold State.roundRobin
  generalize s.channel.lastGranted = k
  revert n k
  decide

/-- The arbiter chooses none only where no unit requests (R28). -/
theorem State.arbiterChoice_eq_none {s : State} (h : s.arbiterChoice = none) (n : UnitId) : s.requesting n = false := by
  unfold State.arbiterChoice at h
  dsimp only at h
  split at h
  · cases h
  · split at h
    · cases h
    · rewrite [List.head?_eq_none_iff, List.filter_eq_nil_iff] at h
      simpa using h n (s.mem_roundRobin n)

/-- The arbiter leaves no request waiting for an IDLE channel (R27). -/
theorem State.arbitrate_granted (s : State) : s.arbitrate.Granted := by
  intro idle n
  unfold State.arbitrate at idle ⊢
  split at idle
  · next hc =>
    rewrite [if_pos hc]
    cases hm : s.arbiterChoice with
    | some m => rewrite [hm] at idle; cases idle
    | none => exact State.arbiterChoice_eq_none hm n
  · next hc => exact absurd idle hc

theorem State.Granted.congr {s t : State} (h : s.Granted) (hc : t.channel = s.channel) (hd : t.drives = s.drives)
    (hp : t.profiles = s.profiles) (hj : t.jobs = s.jobs) : t.Granted := by
  intro idle n
  rewrite [← h (hc ▸ idle) n]
  unfold State.requesting State.mayStartPass State.active State.unitProfiles State.drive State.job
  rw [hd, hp, hj]

theorem State.gapSync_measured (s : State) : s.gapSync.GapMeasured := by
  unfold State.GapMeasured
  rewrite [← Bool.and_eq_true, show s.gapSync.link.inProgress = s.link.inProgress from rfl,
    show s.gapSync.clearToSend = s.clearToSend from rfl]
  unfold State.gapSync
  dsimp only
  split
  · next h => simp [h]
  · next h => simp [h]

theorem State.GapMeasured.transmit {s : State} (h : s.GapMeasured) : s.transmit.GapMeasured := by
  unfold State.GapMeasured State.clearToSend Link.inProgress at h ⊢
  rewrite [State.transmit_link]
  exact h

/-- The transmitter leaves the line idle only with nothing to send, or with request-to-send dropped (R174). -/
theorem State.transmit_busy (s : State) : s.transmit.LineBusy := by
  intro free asserted
  unfold State.transmit at free asserted ⊢
  split at free
  · next hc =>
    rewrite [if_pos hc]
    cases hm : s.nextMessage with
    | some m => rewrite [hm] at free; cases free
    | none => exact hm
  · next hc =>
    rewrite [if_neg hc] at asserted
    simp [free, asserted] at hc

/-! ### The frames that wait -/

theorem State.FramesTaken.congr {s t : State} (h : s.FramesTaken) (hb : t.link.buffer = s.link.buffer)
    (hr : t.link.replies = s.link.replies) (hw : t.link.resetWaiting = s.link.resetWaiting) : t.FramesTaken := by
  unfold State.FramesTaken State.mayTakeFrame at *
  rwa [hb, hr, hw]

theorem State.FramesTaken.finish {s : State} (h : s.FramesTaken) : s.finish.FramesTaken := by
  have hl := s.finish_link
  exact h.congr (hl ▸ rfl) (hl ▸ rfl) (hl ▸ rfl)

theorem State.runFrame_buffer (s : State) (f : Frame) : (s.runFrame f).link.buffer = s.link.buffer := by
  have hl := (serve_serves f s).link
  simp only [State.runFrame, State.pushReply]
  rw [hl]

/-- Frames are taken until none waits or none may be taken (R171). -/
theorem State.takeFramesUpTo_taken (fuel : Nat) (s : State) (h : s.link.buffer.length ≤ fuel) :
    (State.takeFramesUpTo fuel s).FramesTaken := by
  induction fuel generalizing s with
  | zero => exact .inl (List.length_eq_zero_iff.1 (Nat.le_zero.1 h))
  | succ fuel ih =>
    unfold State.takeFramesUpTo
    split
    · next hb => exact .inl hb
    · next f rest hb =>
      split
      · refine ih _ ?_
        rewrite [State.runFrame_buffer]
        rewrite [hb] at h
        exact Nat.le_of_succ_le_succ h
      · next hm => exact .inr (by simpa using hm)

theorem State.takeFrames_taken (s : State) : s.takeFrames.FramesTaken := State.takeFramesUpTo_taken _ s le_rfl

theorem State.FramesTaken.offerFrame {s : State} (h : s.FramesTaken) (f : Frame) : (s.offerFrame f).FramesTaken := by
  unfold State.offerFrame
  split
  · exact State.takeFrames_taken _
  · exact h

theorem State.FramesTaken.receiveByte {s : State} (h : s.FramesTaken) (b : Byte) : (s.receiveByte b).FramesTaken := by
  have kept : ∀ phase assembly, (s.assemble phase assembly).FramesTaken := fun _ _ => h.congr rfl rfl rfl
  have hunting : ({ s with link := s.link.hunt } : State).FramesTaken := h.congr rfl rfl rfl
  unfold State.receiveByte
  split
  · split
    · exact kept _ _
    · exact h
  · unfold State.receiveLength
    split
    · exact kept _ _
    · split
      · exact kept _ _
      · exact hunting
  · unfold State.receiveContent
    split <;> exact kept _ _
  · unfold State.receiveCheck
    split
    · exact kept _ _
    · split
      · exact hunting.offerFrame _
      · exact hunting

theorem EvolvesIf.framesTaken {Q : Prop} {s t : State} (h : EvolvesIf Q s t) (hs : s.FramesTaken) : t.FramesTaken :=
  hs.congr (h.same.link ▸ rfl) (h.same.link ▸ rfl) (h.same.link ▸ rfl)

/-! ### The message in transmission -/

theorem txStands_linkSteps : LinkSteps (fun s t => s.TxStands → t.TxStands) where
  refl _ h := h
  trans h g k := g (h k)
  link s l ht hr h := h.follow ⟨ht, ⟨[], by simp [hr]⟩, ⟨[], (List.append_nil _).symm⟩⟩
  run s f h := (h.follow (serve_takes f s).follows).follow ⟨rfl, ⟨_, rfl⟩, ⟨[], (List.append_nil _).symm⟩⟩
  raise s k h := h.follow (.same rfl rfl)
  finish s h :=
    State.TxStands.transmit ((h.follow (State.arbitrate_evolves s).follows).follow
      ⟨rfl, ⟨[], (List.append_nil _).symm⟩, ⟨[], (List.append_nil _).symm⟩⟩)

/-! ### Between commands -/

/-- What must stand before `finish` for the line to stand after it. -/
structure State.LineReady (s : State) : Prop where
  bounded : s.LinkBounded
  taken : s.FramesTaken
  sending : s.TxStands

theorem State.LineStands.ready {s : State} (h : s.LineStands) : s.LineReady := ⟨h.bounded, h.taken, h.sending⟩

theorem State.LineReady.finish {s : State} (h : s.LineReady) : s.finish.LineStands where
  bounded := (State.finish_handles s).bounded h.bounded
  taken := h.taken.finish
  busy := State.transmit_busy _
  measured := (State.gapSync_measured s.arbitrate).transmit
  sending := txStands_linkSteps.finish s h.sending
  granted := by
    obtain ⟨drives, jobs, channel⟩ := State.transmit_same s.arbitrate.gapSync
    exact s.arbitrate_granted.congr channel drives (State.transmit_profiles s.arbitrate.gapSync) jobs

theorem State.LineReady.evolves {s t : State} {Q : Prop} (h : s.LineReady) (he : EvolvesIf Q s t) : t.LineReady where
  bounded := ⟨he.same.link ▸ h.bounded.buffer, he.same.link ▸ h.bounded.replies⟩
  taken := he.framesTaken h.taken
  sending := h.sending.follow he.follows

theorem State.LineReady.same {s t : State} (h : s.LineReady) (hl : t.link = s.link) (hq : t.queue = s.queue) :
    t.LineReady where
  bounded := ⟨hl ▸ h.bounded.buffer, hl ▸ h.bounded.replies⟩
  taken := h.taken.congr (hl ▸ rfl) (hl ▸ rfl) (hl ▸ rfl)
  sending := h.sending.follow (.same hl hq)

theorem State.powerOn_lineReady (s : State) (rate : Fin 4) : (s.powerOn rate).LineReady :=
  ⟨⟨Nat.zero_le _, Nat.zero_le _⟩, .inl rfl, .idle rfl⟩

/-- A reply leaves its queue, and the frames that waited for its room are taken (R171, R182). -/
theorem State.LineReady.replyDone {s : State} (h : s.LineReady) : s.replyDone.LineReady := by
  refine ⟨(State.replyDone_handles s).bounded h.bounded, ?_, ?_⟩
  · unfold State.replyDone
    dsimp only
    split
    · next hr => exact h.taken.congr rfl (by simp [hr]) rfl
    · split
      · exact .inl rfl
      · exact State.takeFrames_taken _
  · unfold State.replyDone
    dsimp only
    split
    · exact .idle rfl
    · split
      · exact .idle rfl
      · exact txStands_linkSteps.takeFrames _ (.idle rfl)

/-- A delivery departs with the line idle again. -/
theorem State.LineReady.departs {s t : State} (h : s.LineReady) (ht : t.link = s.endMessage.link) :
    t.popDelivery.admitWaiting.LineReady := by
  have hl : t.popDelivery.admitWaiting.link = s.endMessage.link := (State.admit_same _).2.trans ht
  exact ⟨⟨hl ▸ h.bounded.buffer, hl ▸ h.bounded.replies⟩,
    h.taken.congr (hl ▸ rfl) (hl ▸ rfl) (hl ▸ rfl), .idle (hl ▸ rfl)⟩

theorem State.receive_lineStands {s : State} (h : s.LineStands) (bs : List Byte) : (s.receive bs).LineStands := by
  unfold State.receive
  induction bs generalizing s with
  | nil => exact h
  | cons b bs ih =>
    exact ih (State.LineReady.finish ⟨(State.receiveByte_handles s b).bounded h.bounded, h.taken.receiveByte b,
      txStands_linkSteps.receiveByte s b h.sending⟩)

theorem State.LineReady.indexTimeout {s : State} (h : s.LineReady) (n : UnitId) (deadline : Nat) :
    (s.indexTimeout n deadline).LineReady := by
  have later : ({ s with clock := max s.clock deadline } : State).LineReady := h.same rfl rfl
  have marked := later.evolves (State.indexMarked_evolves _ n)
  rewrite [State.indexTimeout_eq]
  split
  · exact (marked.evolves (State.beginUnload_evolves _ n)).evolves (State.endHeld_evolves _ n _)
  · exact marked

theorem Acts.keepsLine {s t : State} (h : Acts s t) (hs : s.LineStands) : t.LineStands :=
  have ready := hs.ready
  have bounded := hs.bounded
  have timed (clock choices hold) : ({ s with clock := clock, choices := choices, hold := hold } : State).LineReady :=
    ready.same rfl rfl
  match h with
  | .nothing => hs
  | .powerOn rate => (State.powerOn_lineReady s rate).finish
  | .request f =>
    State.LineReady.finish ⟨(State.offerFrame_handles s f).bounded bounded, hs.taken.offerFrame f,
      txStands_linkSteps.offerFrame s f hs.sending⟩
  | .bytes bs => State.receive_lineStands hs bs
  | .gap now =>
    have later := timed now s.choices s.hold
    State.LineReady.finish ⟨(State.discardFrame_handles _).bounded later.bounded, later.taken.congr rfl rfl rfl,
      txStands_linkSteps.discardFrame _ later.sending⟩
  | .lineBreak =>
    State.LineReady.finish ⟨⟨bounded.buffer, bounded.replies⟩, hs.taken.congr rfl rfl rfl,
      hs.sending.follow ⟨rfl, ⟨[], (List.append_nil _).symm⟩, ⟨[], (List.append_nil _).symm⟩⟩⟩
  | .line rts last =>
    State.LineReady.finish ⟨⟨bounded.buffer, bounded.replies⟩, hs.taken.congr rfl rfl rfl,
      txStands_linkSteps.link s { s.link with rts := rts, lastByte := last } rfl rfl hs.sending⟩
  | .reply => ready.replyDone.finish
  | .notice => State.LineReady.finish ⟨⟨bounded.buffer, bounded.replies⟩, hs.taken.congr rfl rfl rfl, .idle rfl⟩
  | .sector j sec =>
    (ready.departs (t := s.endMessage.setDelivery j sec .sent) (by simp [State.setDelivery, State.modRecord])).finish
  | .stray b => (ready.departs (t := { s.endMessage with strays := s.endMessage.strays.set b none b.isLt }) rfl).finish
  | .jobEnd j _ => (ready.departs (t := s.endMessage.setJob j none) rfl).finish
  | .holdEnds now => (timed now s.choices none).finish
  | .index n elapsed cut => ((timed _ _ s.hold).evolves (State.indexIn_evolves _ n cut _)).finish
  | .indexTimeout n deadline => (ready.indexTimeout n deadline).finish
  | .readyRise n => (ready.evolves (State.readyRise_evolves s n)).finish
  | .readyFall n => (ready.evolves (State.readyFall_evolves s n)).finish
  | .seekDone n _ _ => (ready.evolves (State.seekDone_evolves s n)).finish
  | .restoreDone n _ hm => (ready.evolves (State.restoreDone_evolves s n hm)).finish
  | .seekError n now _ => ((timed now s.choices s.hold).evolves (State.seekError_evolves _ n)).finish
  | .headsUnloaded n hu => (ready.evolves (State.headsUnloaded_evolves s n hu)).finish
  | .header .. => (ready.evolves (State.readHeader_evolves s _ _ _ _ _ _ _)).finish
  | .data .. => (ready.evolves (State.readData_evolves s _ _ _ _)).finish
  | .window rev => (ready.evolves (State.closeWindow_evolves s _)).finish
  | .search => (ready.evolves (State.endSearch_evolves s)).finish

theorem State.LineStands.outside {s t : State} (h : s.LineStands) (hl : t.link = s.link) (hq : t.queue = s.queue)
    (hn : t.nextMessage = s.nextMessage) (hg : t.Granted) : t.LineStands :=
  have ready := h.ready.same hl hq
  { bounded := ready.bounded, taken := ready.taken, sending := ready.sending, granted := hg
    busy := fun ht hr => hn.trans (h.busy (hl ▸ ht) (hl ▸ hr))
    measured := by
      have := h.measured
      unfold State.GapMeasured State.clearToSend at *
      rewrite [hl]
      exact this }

/-- Settles O56: `finish` itself grants, measures and sends; a tick and the queue of commands are read by none of it. -/
theorem stepKeepsLine : Obligations.StepKeepsLine := by
  intros s t hs ht
  obtain rfl | ⟨rest, h⟩ := step_acts ht
  · exact hs.outside rfl rfl rfl (hs.granted.congr rfl rfl rfl rfl)
  · exact h.keepsLine (hs.outside rfl rfl rfl (hs.granted.congr rfl rfl rfl rfl))

end Sys2Proof.Machine
end

section
-- One declaration at a time, which keeps the memory of the elaboration low.
set_option Elab.async false
/-! ## The pass end of a live revolution (R39, R40, R49, R66, R67) -/

namespace Sys2Proof.Machine

/-- Settles O40: in every order of the stages the pass end finds the unit TRACKING, and what it leaves the other stages keep. -/
theorem passEndAccounts : Obligations.PassEndAccounts := by
  intros n elapsed f k strays cut s d x j y z rev hs hone hp hdef hf hk hstrays hfew hpasses hc hlimit
  obtain ⟨u, hu⟩ : ∃ u : State, u = { s with clock := s.clock + elapsed, choices := s.choices + 1 } := ⟨_, rfl⟩
  have closes := hs.at_ hu
  have one := hone.congr (t := u) (hu ▸ rfl)
  have clock : u.clock = s.clock + elapsed := hu ▸ rfl
  have run := exec_indexPulse_inside (cut := cut) (n := n) rfl hu rfl
  obtain ⟨cs, hz⟩ := hone.counters
  have est : (d.indexed x u.clock).state = .tracking := hs.tracking
  have hx : (d.indexed x u.clock).descriptor = (u.drive n).descriptor := closes.drive.symm ▸ rfl
  have held : (d.indexed x u.clock).heldJob = some j := hs.held
  have due : callsForRecalibration rev.profile strays f = false := Bool.eq_false_iff.2 fun h =>
    ((callsForRecalibration_iff ..).1 h).elim (Nat.not_le.2 hstrays) fun ⟨positive, reached⟩ =>
      hfew.elim positive.ne' (fun below => absurd reached (Nat.not_le.2 below))
  have limit : y.passCount + 1 < (u.unitProfiles n).active.passLimit := hu ▸ hlimit
  subst hz
  have closed := closes.closed (cut := cut) (order := Config.indexOrder s.choices) (k := 0) (m := strays) (live := true)
    (g := ({ d.indexed x u.clock with
        passStrays := strays, deadRevs := 0, prepared := none
        waiting := min 255 (d.waiting + backoffSkip f rev.profile.backoff) } : Drive).started
      (u.preparePass n (Job.passed { y with counters := cs } f)))
    (w := Job.passed { y with counters := cs } f) one (hu ▸ hp) (hu ▸ hdef) rfl rfl
    (fun h => nomatch est.symm.trans h) rfl held hs.budget (.inl rfl) fun b v hv =>
      match b with
      | true => hv.starts est held hx hc hf due limit
      | false => hv.starts est held hx hc hf due limit
  refine ⟨_, u.preparePass n (Job.passed { y with counters := cs } f), run, ?_, ?_, ?_, ?_, ?_⟩
  · rewrite [State.finish_job]
    exact closed.job
  · have same : u.preparePass n (Job.passed { y with counters := cs } f) =
        s.preparePass n (Job.passed { y with counters := cs } f) := by
      subst hu
      exact State.preparePass_congr rfl rfl rfl rfl rfl rfl
    rewrite [same]
    exact State.preparePass_prepared s n _ hpasses
  · rewrite [State.finish_drive, closed.arbitrate.drive.1, clock, hk]
    rfl
  · rewrite [State.finish_channel]
    exact closed.arbitrate.rev
  · rewrite [State.finish_channel]
    exact closed.arbitrate.left

end Sys2Proof.Machine
end

section
-- One declaration at a time, which keeps the memory of the elaboration low.
set_option Elab.async false
/-! ## The arbiter's grant (R27 to R29) -/

namespace Sys2Proof.Machine

/-! ### The choice -/

/-- In a list in ascending order of a rank, the search for a property finds the member of lowest rank that has it. -/
theorem find?_lowest {α : Type} {rank : α → Nat} {p : α → Bool} {l : List α} {a : α}
    (hl : l.Pairwise (fun b c => rank b < rank c)) (ha : a ∈ l) (hp : p a = true)
    (least : ∀ b ∈ l, b ≠ a → p b = true → rank a < rank b) : l.find? p = some a := by
  induction l with
  | nil => cases ha
  | cons b l ih =>
    obtain ⟨first, rest⟩ := List.pairwise_cons.1 hl
    by_cases e : b = a
    · rw [e, List.find?_cons_of_pos hp]
    · have later : a ∈ l := (List.mem_cons.1 ha).resolve_left (Ne.symm e)
      have before := first a later
      rewrite [List.find?_cons_of_neg fun hb => by have := least b List.mem_cons_self e hb; omega]
      exact ih rest later fun c hc => least c (List.mem_cons_of_mem _ hc)

/-- In such a list, of the units deferred most often the one of lowest rank is taken (R28). -/
theorem State.mostDeferred_lowest {s : State} {rank : UnitId → Nat} {l : List UnitId} {n : UnitId}
    (hl : l.Pairwise (fun a b => rank a < rank b)) (hn : n ∈ l)
    (most : ∀ m ∈ l, m ≠ n → (s.drive m).deferral < (s.drive n).deferral ∨
      ((s.drive m).deferral = (s.drive n).deferral ∧ rank n < rank m)) : s.mostDeferred l = some n := by
  induction l with
  | nil => cases hn
  | cons a l ih =>
    obtain ⟨first, rest⟩ := List.pairwise_cons.1 hl
    unfold State.mostDeferred
    by_cases e : a = n
    · subst e
      cases hm : s.mostDeferred l with
      | none => rfl
      | some m =>
        have later := mostDeferred_mem s l m hm
        have distinct : m ≠ a := fun h => by have := first m later; rewrite [h] at this; omega
        have := most m (List.mem_cons_of_mem _ later) distinct
        exact if_pos (by omega)
    · have later : n ∈ l := (List.mem_cons.1 hn).resolve_left (Ne.symm e)
      rewrite [ih rest later fun m hm => most m (List.mem_cons_of_mem _ hm)]
      have before := first n later
      have := most a List.mem_cons_self e
      exact if_neg (by omega)

/-- A unit's place in the round-robin order (R28). -/
def State.turn (s : State) (n : UnitId) : Nat := (n.val + 3 - s.channel.lastGranted.val) % 4

theorem State.roundRobin_turns (s : State) : s.roundRobin.Pairwise (fun a b => s.turn a < s.turn b) := by
  unfold State.roundRobin State.turn
  generalize s.channel.lastGranted = k
  revert k
  decide

theorem State.overdue_iff (s : State) (n : UnitId) : s.overdue n = true ↔
    0 < (s.unitProfiles n).active.deferral ∧ (s.unitProfiles n).active.deferral ≤ (s.drive n).deferral := by
  simp only [State.overdue, Bool.and_eq_true, decide_eq_true_eq]
  rfl

theorem State.urgent_iff (s : State) (n : UnitId) : s.urgent n = true ↔
    ∃ j x, (s.drive n).heldJob = some j ∧ s.job j = some x ∧ x.cls = .urgent := by
  have first : s.urgent n = true ↔ ∃ x, (s.drive n).heldJob.bind s.job = some x ∧ x.cls = .urgent := by
    unfold State.urgent
    cases (s.drive n).heldJob.bind s.job with
    | none => exact ⟨nofun, fun ⟨_, h, _⟩ => nomatch h⟩
    | some x => exact ⟨fun h => ⟨x, rfl, eq_of_beq h⟩, fun ⟨_, h, hc⟩ => Option.some.inj h ▸ beq_iff_eq.2 hc⟩
  simp only [first, Option.bind_eq_some_iff, ← exists_and_right, and_assoc, exists_comm (α := Job)]

theorem State.mem_asking {s : State} {n : UnitId} : n ∈ s.roundRobin.filter s.requesting ↔ s.requesting n = true := by
  simp [s.mem_roundRobin n]

theorem State.asking_turns (s : State) : (s.roundRobin.filter s.requesting).Pairwise (fun a b => s.turn a < s.turn b) :=
  s.roundRobin_turns.filter _

/-- The first tier: the unit overdue longest, the first of these in turn (R28). -/
theorem State.arbiterChoice_overdue {s : State} {n : UnitId} (hr : s.requesting n = true) (ho : s.overdue n = true)
    (most : ∀ m, m ≠ n → s.requesting m = true → s.overdue m = true → (s.drive m).deferral < (s.drive n).deferral ∨
      ((s.drive m).deferral = (s.drive n).deferral ∧ s.turn n < s.turn m)) : s.arbiterChoice = some n := by
  have chosen : s.mostDeferred ((s.roundRobin.filter s.requesting).filter s.overdue) = some n :=
    State.mostDeferred_lowest (s.asking_turns.filter _) (List.mem_filter.2 ⟨State.mem_asking.2 hr, ho⟩) fun m hm hne => by
      obtain ⟨asks, due⟩ := List.mem_filter.1 hm
      exact most m hne (State.mem_asking.1 asks) due
  unfold State.arbiterChoice
  dsimp only
  rw [chosen]

/-- The lower tiers, where no requesting unit is overdue: the first in turn with an URGENT job, or the first at all (R28). -/
theorem State.arbiterChoice_timely {s : State} (ho : ∀ m, s.requesting m = true → ¬ s.overdue m = true) :
    s.arbiterChoice = ((s.roundRobin.filter s.requesting).find? s.urgent).or (s.roundRobin.filter s.requesting).head? := by
  have none_due : (s.roundRobin.filter s.requesting).filter s.overdue = [] :=
    List.filter_eq_nil_iff.2 fun m hm => ho m (State.mem_asking.1 hm)
  unfold State.arbiterChoice
  dsimp only
  rewrite [none_due]
  unfold State.mostDeferred
  cases (s.roundRobin.filter s.requesting).find? s.urgent <;> rfl

theorem State.arbiterChoice_urgent {s : State} {n : UnitId} (ho : ∀ m, s.requesting m = true → ¬ s.overdue m = true)
    (hr : s.requesting n = true) (hu : s.urgent n = true)
    (first : ∀ m, m ≠ n → s.requesting m = true → s.urgent m = true → s.turn n < s.turn m) : s.arbiterChoice = some n := by
  rewrite [State.arbiterChoice_timely ho, find?_lowest s.asking_turns (State.mem_asking.2 hr) hu fun m hm hne hmu =>
    first m hne (State.mem_asking.1 hm) hmu]
  rfl

theorem State.arbiterChoice_any {s : State} {n : UnitId} (ho : ∀ m, s.requesting m = true → ¬ s.overdue m = true)
    (hu : ∀ m, s.requesting m = true → ¬ s.urgent m = true) (hr : s.requesting n = true)
    (first : ∀ m, m ≠ n → s.requesting m = true → s.turn n < s.turn m) : s.arbiterChoice = some n := by
  have none_urgent : (s.roundRobin.filter s.requesting).find? s.urgent = none :=
    List.find?_eq_none.2 fun m hm => hu m (State.mem_asking.1 hm)
  have head := find?_lowest (p := fun _ => true) s.asking_turns (State.mem_asking.2 hr) rfl fun m hm hne _ =>
    first m hne (State.mem_asking.1 hm)
  rewrite [State.arbiterChoice_timely ho, none_urgent, ← head]
  cases s.roundRobin.filter s.requesting <;> rfl

/-! ### What follows every command -/

theorem State.finish_drives (s : State) : s.finish.drives = s.arbitrate.drives := by
  unfold State.finish
  rewrite [(State.transmit_same _).1]
  rfl

theorem State.finish_granted {s : State} {n : UnitId} (hc : s.channel.state = .idle) (hn : s.arbiterChoice = some n) :
    s.finish.channel = { s.channel with state := .reserved n, lastGranted := n } ∧
      s.finish.drives = (s.setDrive n { s.drive n with deferral := 0 }).drives := by
  rewrite [State.finish_channel, State.finish_drives]
  unfold State.arbitrate
  rewrite [if_pos hc, hn]
  exact ⟨rfl, rfl⟩

theorem State.arbitrate_eq (s : State) :
    s.arbitrate = { s with channel := s.arbitrate.channel, drives := s.arbitrate.drives } := by
  unfold State.arbitrate
  split
  · split <;> rfl
  · rfl

theorem FlagUnit.takeOwed_eq (f : FlagUnit) : f.takeOwed = { f with owed := f.takeOwed.owed } := by
  unfold FlagUnit.takeOwed
  split <;> rfl

theorem State.transmit_eq (s : State) : s.transmit =
    { s with
      link := { s.link with
        gapFrom := s.transmit.link.gapFrom, tx := s.transmit.link.tx, lastByte := s.transmit.link.lastByte }
      flags := { s.flags with owed := s.transmit.flags.owed } } := by
  unfold State.transmit
  split
  · split
    · next m _ =>
      unfold State.begin
      dsimp only
      split
      · rw [FlagUnit.takeOwed_eq]
      · rfl
    · rfl
  · rfl

theorem State.finish_eq (s : State) : s.finish =
    { s with
      channel := s.finish.channel, drives := s.finish.drives
      link := { s.link with
        gapFrom := s.finish.link.gapFrom, tx := s.finish.link.tx, lastByte := s.finish.link.lastByte }
      flags := { s.flags with owed := s.finish.flags.owed } } := by
  obtain ⟨c, d, granted⟩ : ∃ c d, s.arbitrate = { s with channel := c, drives := d } := ⟨_, _, s.arbitrate_eq⟩
  have whole : s.finish = ({ s with channel := c, drives := d } : State).gapSync.transmit := by
    unfold State.finish
    rw [granted]
  have channel : s.finish.channel = c := by rw [State.finish_channel, granted]
  have drives : s.finish.drives = d := by rw [State.finish_drives, granted]
  rewrite [channel, drives, whole]
  exact State.transmit_eq _

/-- Settles O43: the three tiers by the arbiter's choice, and the frame by what the arbiter, the gap test and the transmitter
write. -/
theorem followUpGrants : Obligations.FollowUpGrants := by
  refine ⟨?_, fun s h => ?_, State.finish_eq⟩
  · intros s rank overdue urgent n hrank hoverdue hurgent hc hr tier
    subst hrank hoverdue hurgent
    simp only [← State.overdue_iff, ← State.urgent_iff] at tier
    refine State.finish_granted hc ?_
    obtain ⟨due, most⟩ | ⟨timely, ⟨hurry, first⟩ | ⟨calm, first⟩⟩ := tier
    · exact State.arbiterChoice_overdue hr due most
    · exact State.arbiterChoice_urgent timely hr hurry first
    · exact State.arbiterChoice_any timely calm hr first
  · have none : s.arbitrate = s := State.Granted.arbitrate fun idle => h.resolve_left fun busy => busy idle
    rewrite [State.finish_channel, State.finish_drives, none]
    exact ⟨rfl, rfl⟩

end Sys2Proof.Machine
end

section
-- One declaration at a time, which keeps the memory of the elaboration low.
set_option Elab.async false
/-! ## What the separator reads

The check of a field, the words and classes that a data field carries, and how a field reaches the Recovery Engine. -/

namespace Sys2Proof.Machine

/-! ### The check (R31, R97) -/

/-- The end-around sum is the plain sum modulo 4095, with 4095 for the multiples of it above 0 (R31). -/
theorem endAround_foldl (words : List Word12) (total : Nat) (ht : total ≤ 4095) :
    words.foldl endAroundAdd total ≤ 4095 ∧
      words.foldl endAroundAdd total % 4095 = (total + (words.map BitVec.toNat).sum) % 4095 ∧
      (words.foldl endAroundAdd total = 0 ↔ total + (words.map BitVec.toNat).sum = 0) := by
  induction words generalizing total with
  | nil => simp [ht]
  | cons w words ih =>
    have hw : w.toNat < 4096 := w.isLt
    have step : endAroundAdd total w ≤ 4095 ∧ (endAroundAdd total w) % 4095 = (total + w.toNat) % 4095 ∧
        (endAroundAdd total w = 0 ↔ total + w.toNat = 0) := by
      unfold endAroundAdd
      split
      · next high => exact ⟨by omega, (Nat.mod_eq_sub_mod (by omega)).symm, by omega⟩
      · next low => exact ⟨by omega, rfl, .rfl⟩
    obtain ⟨bound, rest, zero⟩ := ih _ step.1
    simp only [List.foldl_cons, List.map_cons, List.sum_cons]
    rewrite [← Nat.add_assoc]
    exact ⟨bound, rest.trans (Nat.ModEq.add_right _ step.2.1),
      zero.trans (by rw [Nat.add_eq_zero_iff, step.2.2, ← Nat.add_eq_zero_iff])⟩

theorem passesCheck_iff (words : List Word12) : passesCheck words = true ↔ WordsPass words := by
  obtain ⟨bound, rest, zero⟩ := endAround_foldl words 0 (Nat.zero_le _)
  rewrite [Nat.zero_add] at rest zero
  unfold passesCheck endAroundSum WordsPass
  rewrite [beq_iff_eq]
  constructor
  · intro h
    rewrite [h] at rest zero
    exact ⟨Nat.pos_of_ne_zero fun none => absurd (zero.2 none) (by decide), rest.symm⟩
  · rintro ⟨positive, whole⟩
    obtain ⟨k, hk⟩ := Nat.dvd_of_mod_eq_zero (rest.trans whole)
    have above : words.foldl endAroundAdd 0 ≠ 0 := fun none => positive.ne' (zero.1 none)
    rewrite [hk] at above bound ⊢
    omega

/-! ### Words and classes (R33, R34) -/

theorem readWords_all {words : List Word12} {count : Nat} (h : words.length = count) (sync : Nat) :
    readWords count sync words = words := by
  subst h
  refine List.ext_getElem (by simp [readWords]) fun i h1 h2 => ?_
  simp [readWords, h2]

theorem marginAtLeast_iff (t : Transition) (trim strobe : Int) (q : Nat) :
    marginAtLeast t trim strobe q = true ↔ MarginAtLeast t trim strobe q := by
  unfold marginAtLeast insideWindow MarginAtLeast
  rewrite [decide_eq_true_eq, Int.sub_mul, Int.mul_assoc 40000, Int.mul_left_comm (q : Int)]
  generalize ((160000 * t.place - strobe * t.cell * (10000 + trim)).natAbs : Int) = deviation
  omega

/-- The margin classes are the quarters of half the window, in order (R34). -/
theorem le_marginClass_iff (t : Transition) (trim strobe : Int) {q : Nat} (hq : 1 ≤ q) (hq' : q ≤ 3) :
    q ≤ (marginClass t trim strobe).val ↔ MarginAtLeast t trim strobe q := by
  have less : ∀ a b : Nat, a ≤ b → MarginAtLeast t trim strobe b → MarginAtLeast t trim strobe a := fun a b hab h =>
    h.trans (Int.mul_le_mul_of_nonneg_right (by omega) (Int.natCast_nonneg _))
  have at1 := marginAtLeast_iff t trim strobe 1
  have at2 := marginAtLeast_iff t trim strobe 2
  have at3 := marginAtLeast_iff t trim strobe 3
  unfold marginClass
  split
  · next h3 => exact ⟨fun _ => less q 3 hq' (at3.1 h3), fun _ => hq'⟩
  · next h3 =>
    split
    · next h2 =>
      refine ⟨fun h => less q 2 h (at2.1 h2), fun h => ?_⟩
      by_contra hn
      exact h3 (at3.2 (less 3 q (Nat.lt_of_not_le hn) h))
    · next h2 =>
      split
      · next h1 =>
        refine ⟨fun h => less q 1 h (at1.1 h1), fun h => ?_⟩
        by_contra hn
        exact h2 (at2.2 (less 2 q (Nat.lt_of_not_le hn) h))
      · next h1 => exact ⟨fun h => absurd (hq.trans h) (by simp), fun h => absurd (at1.2 (less 1 q hq h)) h1⟩

/-- A word takes the class of its worst transition (R34). -/
theorem wordClass_graded (trim strobe : Int) (ts : List Transition) (h : ts ≠ []) :
    ∃ g, wordClass trim strobe ts = some g ∧ Graded ts trim strobe g := by
  induction ts with
  | nil => exact absurd rfl h
  | cons t rest ih =>
    unfold wordClass
    by_cases hr : rest = []
    · subst hr
      exact ⟨_, rfl, fun q hq hq' => by simp [le_marginClass_iff t trim strobe hq hq']⟩
    · obtain ⟨g, hg, graded⟩ := ih hr
      rewrite [hg]
      refine ⟨_, rfl, fun q hq hq' => ?_⟩
      have both : q ≤ (min (marginClass t trim strobe) g).val ↔ q ≤ (marginClass t trim strobe).val ∧ q ≤ g.val := by
        rewrite [← le_min_iff]
        rfl
      rewrite [both, le_marginClass_iff t trim strobe hq hq', graded q hq hq']
      simp

theorem readMargins_graded (count sync : Nat) (trim strobe : Int) (timing : List (List Transition)) :
    FieldGraded timing trim strobe count (readMargins count sync trim strobe timing) := by
  refine ⟨by simp [readMargins], fun i ts g hts hne hg => ?_⟩
  obtain ⟨c, hc, graded⟩ := wordClass_graded trim strobe ts hne
  have given : timing.getD i [] = ts := by simp [List.getD, hts]
  simp only [readMargins, List.getElem?_map, Option.map_eq_some_iff] at hg
  obtain ⟨k, hk, rfl⟩ := hg
  obtain rfl : k = i := by
    obtain ⟨hlt, rfl⟩ := List.getElem?_eq_some_iff.1 hk
    simp
  rewrite [given, hc]
  exact graded

/-! ### A field read in a captured revolution (R24, R33) -/

/-- The data field that a command spells, all of whose words are given. -/
def State.fieldOf (s : State) (rev : Revolution) (sync : Nat) (words : List Word12) (timing : List (List Transition)) :
    DataField :=
  { words := words, margins := readMargins words.length sync rev.trim s.channel.strobe timing, sync := sync }

theorem State.fieldOf_graded (s : State) (rev : Revolution) (sync : Nat) (words : List Word12)
    (timing : List (List Transition)) :
    FieldGraded timing rev.trim s.channel.strobe words.length (s.fieldOf rev sync words timing).margins :=
  readMargins_graded _ _ _ _ _

theorem State.fieldRead_eq {s : State} {n : UnitId} {d : Descriptor} (hd : (s.drive n).descriptor = some d)
    {words : List Word12} (hl : words.length = d.words + 1) (rev : Revolution) (sync : Nat)
    (timing : List (List Transition)) : s.fieldRead n rev.trim sync words timing = s.fieldOf rev sync words timing := by
  have count : s.wordsOf n + 1 = words.length := by
    unfold State.wordsOf
    rewrite [hd, hl]
    rfl
  unfold State.fieldRead State.fieldOf
  rw [count, readWords_all rfl]

theorem State.capturing_eq {s : State} {n : UnitId} {rev : Revolution} (hc : s.channel.state = .capturing n)
    (hr : s.channel.rev = some rev) : s.capturing = some (n, rev) := by
  unfold State.capturing
  rw [hc, hr]

theorem exec_dataFieldRead {s : State} {n : UnitId} {rev : Revolution} (hc : s.channel.state = .capturing n)
    (hr : s.channel.rev = some rev) (sync : Nat) (words : List Word12) (timing : List (List Transition)) (low : Bool) :
    exec (.dataFieldRead sync words timing low) s =
      .next (s.readData n rev (s.fieldRead n rev.trim sync words timing) low).finish := by
  simp only [exec, execDataFieldRead, State.capturing_eq hc hr]

theorem exec_headerFieldRead {s : State} {n : UnitId} {rev : Revolution} (hc : s.channel.state = .capturing n)
    (hr : s.channel.rev = some rev) (sync last : Nat) (h1 h2 h3 : Word12) (low : Bool) :
    exec (.headerFieldRead sync last h1 h2 h3 low) s = .next (s.readHeader n rev (max sync last) h1 h2 h3 low).finish := by
  simp only [exec, execHeaderFieldRead, State.capturing_eq hc hr]

theorem exec_dataWindowCloses {s : State} {n : UnitId} {rev : Revolution} (hc : s.channel.state = .capturing n)
    (hr : s.channel.rev = some rev) : exec .dataWindowCloses s = .next (s.closeWindow rev).finish := by
  simp only [exec, execDataWindowCloses, State.capturing_eq hc hr]

theorem State.capturing_none {s : State} (h : ∀ n, s.channel.state ≠ .capturing n) : s.capturing = none := by
  unfold State.capturing
  split
  · next n _ hc _ => exact absurd hc (h n)
  · rfl

/-- A header's capture once its data field is read (R33). -/
def Capture.filled (c : Capture) (f : DataField) (low : Bool) : Capture := { c with data := some f, low := c.low && low }

/-- The state when a field's capture is complete, its hand-over apart (R33, R34, R39). -/
def State.afterField (s : State) (low : Bool) : State := { s with channel := s.channel.afterField low }

theorem State.afterField_def (s : State) (low : Bool) : s.afterField low = { s with channel := s.channel.afterField low } := rfl

/-- A data field in the window of a GOOD header is handed over with it (R33, R35). -/
theorem State.Hears.exec_eq {s : State} {n : UnitId} {rev : Revolution} {h : OpenHeader} {d : Descriptor} {x : Job}
    {sync : Nat} {words : List Word12} (hs : s.Hears n rev h d x sync words) (timing : List (List Transition)) (low : Bool) :
    exec (.dataFieldRead sync words timing low) s =
      .next ((s.afterField (h.capture.low && low)).applyCapture
        (h.capture.filled (s.fieldOf rev sync words timing) low) rev).finish := by
  have covered : h.covers rev.window (s.fieldOf rev sync words timing).sync = true :=
    decide_eq_true hs.inside
  rewrite [exec_dataFieldRead hs.capturing hs.revolution, State.fieldRead_eq hs.descriptor hs.length]
  unfold State.readData
  rewrite [hs.window]
  dsimp only
  rewrite [if_pos covered]
  unfold State.completeWithData
  rewrite [if_pos hs.good]
  rfl

end Sys2Proof.Machine
end

section
-- One declaration at a time, which keeps the memory of the elaboration low.
set_option Elab.async false
/-! ## Header fields, windows that close, and strays (R24, R31 to R35, R76 to R78) -/

namespace Sys2Proof.Machine

/-! ### Captures without data -/

theorem State.countHeader_channel (t : State) (c : Capture) : (t.countHeader c).channel = t.channel := by
  unfold State.countHeader
  split
  · exact State.modJob_channel _ _ _
  · rfl
  · rfl

theorem State.countStray_channel (t : State) (j : JobIx) (n : UnitId) : (t.countStray j n).channel = t.channel :=
  State.modJob_channel _ _ _

/-- A capture without data gives the Recovery Engine nothing but counts (R35, R81). -/
theorem State.applyCapture_absent_channel {t : State} {c : Capture} (hd : c.data = none) (rev : Revolution) :
    (t.applyCapture c rev).channel = t.channel := by
  have counted (x : Job) (keep : Bool) : ((t.countHeader c).stray c x keep).channel = t.channel := by
    unfold State.stray
    rewrite [hd]
    exact (State.countStray_channel _ _ _).trans (State.countHeader_channel t c)
  have header (sec : Nat) : ((t.countHeader c).takeHeader c.job sec c.data rev) = t.countHeader c := hd ▸ rfl
  have blind (sec : Nat) : ((t.countHeader c).takeBlind c.job sec c.data rev) = t.countHeader c := hd ▸ rfl
  unfold State.applyCapture
  split
  · rfl
  · split
    · rfl
    · dsimp only
      split
      · exact counted _ _
      · split
        · rewrite [header]; exact State.countHeader_channel t c
        · rewrite [blind]; exact State.countHeader_channel t c
        · exact State.countHeader_channel t c

/-- A header-identified capture that is no repeat counts, and goes to the record of its sector (R76). -/
theorem State.applyCapture_identified {t : State} {c : Capture} {x : Job} {sec : Nat} (hx : t.job c.job = some x)
    (hd : x.state ≠ .draining) (hi : c.ident = some .header) (hr : c.repeated = false) (hs : c.sector = some sec)
    (rev : Revolution) : t.applyCapture c rev = (t.setJob c.job (some x.heard)).takeHeader c.job sec c.data rev := by
  unfold State.applyCapture
  rewrite [hx]
  dsimp only
  rw [if_neg hd, if_neg (by simp [hi, hr]), hi, hs, State.countHeader_header hi hx]

/-- A capture that completes without data: the channel first, then the Recovery Engine where its header is GOOD (R35). -/
theorem State.completeAbsent_eq (t : State) (c : Capture) (rev : Revolution) :
    t.completeAbsent c rev =
      if c.status = .good then (t.afterField c.low).applyCapture c rev else t.afterField c.low := rfl

theorem State.closeWindow_some {s : State} {w : OpenHeader} (h : s.channel.openHeader = some w) (rev : Revolution) :
    s.closeWindow rev = s.completeAbsent w.capture rev := by
  unfold State.closeWindow
  rw [h]

theorem State.closeWindow_none {s : State} (h : s.channel.openHeader = none) (rev : Revolution) : s.closeWindow rev = s := by
  unfold State.closeWindow
  rw [h]

/-- A window that closes leaves the channel but for the window itself and the dead-revolution test (R33, R39). -/
theorem State.closeWindow_channel {s : State} (h : ∀ w, s.channel.openHeader = some w → w.capture.data = none)
    (rev : Revolution) :
    ∃ live, (s.closeWindow rev).channel = { s.channel with openHeader := none, liveSeen := live } := by
  cases hw : s.channel.openHeader with
  | none =>
    rewrite [State.closeWindow_none hw]
    exact ⟨s.channel.liveSeen, hw.symm ▸ rfl⟩
  | some w =>
    rewrite [State.closeWindow_some hw, State.completeAbsent_eq]
    refine ⟨s.channel.liveSeen || !w.capture.low, ?_⟩
    split
    · exact State.applyCapture_absent_channel (h w hw) rev
    · rfl

theorem State.closeWindow_sectorsOf (s : State) (rev : Revolution) (n : UnitId) :
    (s.closeWindow rev).sectorsOf n = s.sectorsOf n := by
  unfold State.sectorsOf
  rw [(State.closeWindow_evolves s rev).descriptors n]

/-! ### Header fields -/

theorem headerStatus_good (h1 h2 h3 : Word12) : headerStatus h1 h2 h3 = .good ↔ WordsPass [h1, h2, h3] := by
  rewrite [← passesCheck_iff, headerStatus]
  split <;> simp_all

/-- A GOOD header names a sector of the job's track (R32). -/
theorem Revolution.matches_iff (rev : Revolution) (sectors : Nat) (h1 h2 : Word12) :
    rev.matches sectors h1 h2 = true ↔ h2.toNat / 64 = rev.head ∧ h2.toNat % 64 < sectors ∧
      (∀ m, rev.headerMask = some m → h1.toNat % 2 ^ m = rev.cylinder % 2 ^ m) ∧
      (rev.headerMask = none → h1.toNat = rev.cylinder) := by
  unfold Revolution.matches
  rewrite [Bool.and_eq_true, Bool.and_eq_true, and_assoc, and_rotate]
  cases rev.headerMask with
  | none => simp
  | some m => simp

theorem mem_addSlot (slots : List Nat) (sec : Option Nat) (k : Nat) : k ∈ addSlot slots sec ↔ k ∈ slots ∨ sec = some k := by
  cases sec with
  | none => simp [addSlot]
  | some m =>
    unfold addSlot
    dsimp only
    split
    · next h =>
      have : m ∈ slots := by simpa using h
      simp only [Option.some.injEq]
      exact ⟨.inl, fun hk => hk.elim id fun e => e ▸ this⟩
    · simp [eq_comm]

/-- The header captures, with the header's status and its match judged (R31, R32). -/
theorem State.headerCapture_eq {t : State} {n : UnitId} {rev : Revolution} {h1 h2 h3 : Word12} {low named : Bool}
    (hn : named = true ↔ WordsPass [h1, h2, h3] ∧ rev.matches (t.sectorsOf n) h1 h2 = true) :
    t.headerCapture n rev h1 h2 h3 low =
      { unit := n, job := rev.job, ident := if named then some .header else none,
        sector := if named then some (h2.toNat % 64) else none,
        repeated := named && t.channel.slotSet.contains (h2.toNat % 64), status := headerStatus h1 h2 h3,
        header := some (h1, h2, h3), data := none, low := low } := by
  have judged : (headerStatus h1 h2 h3 == .good && rev.matches (t.sectorsOf n) h1 h2) = named := by
    rewrite [Bool.eq_iff_iff, hn, ← headerStatus_good]
    simp
  unfold State.headerCapture
  dsimp only
  rw [judged]

/-- Settles O45: a window closes by its capture's completion, and a header then starts its own. -/
theorem headersAreRead : Obligations.HeadersAreRead := by
  refine ⟨?_, ?_, fun s h => ?_⟩
  · intros n sync last h1 h2 h3 low s u rev x c named hc hr hu hdata hx hnamed hgood hbad hcap
    subst hu
    refine ⟨exec_dataWindowCloses hc hr, fun h => State.closeWindow_none h rev, ?_⟩
    obtain ⟨live, channel⟩ := State.closeWindow_channel hdata rev
    have sectors : (s.closeWindow rev).sectorsOf n = x.sectors := by
      rewrite [State.closeWindow_sectorsOf, State.sectorsOf, hx]
      rfl
    have slots : (s.closeWindow rev).channel.slotSet = s.channel.slotSet := channel ▸ rfl
    have status : c.status = headerStatus h1 h2 h3 := by
      by_cases hp : WordsPass [h1, h2, h3]
      · rw [hgood.2 hp, (headerStatus_good h1 h2 h3).2 hp]
      · have : headerStatus h1 h2 h3 = .badCheck := if_neg (by rewrite [passesCheck_iff]; exact hp)
        rw [hbad.2 hp, this]
    have capture : (s.closeWindow rev).headerCapture n rev h1 h2 h3 low = c := by
      rw [State.headerCapture_eq (named := named) (by rw [sectors, Revolution.matches_iff]; exact hnamed), slots, ← status,
        ← hcap]
    refine ⟨addSlot s.channel.slotSet c.sector, ?_, fun k => ?_⟩
    · rewrite [exec_headerFieldRead hc hr]
      unfold State.readHeader
      dsimp only
      rw [capture, slots]
    · rewrite [mem_addSlot, hcap]
      cases named <;> simp [eq_comm]
  · intros n s rev h hc hr hw
    rewrite [exec_dataWindowCloses hc hr, State.closeWindow_some hw]
    refine ⟨fun hs => ?_, fun x sec hs hi hrep hsec hdata hx hd => ?_⟩
    · rewrite [State.completeAbsent_eq, if_neg hs]
      rfl
    · rewrite [State.completeAbsent_eq, if_pos hs,
        State.applyCapture_identified (t := s.afterField _) hx hd hi hrep hsec, hdata]
      rfl
  · have none := State.capturing_none h
    refine ⟨fun _ _ _ _ _ _ => ?_, fun _ _ _ _ => ?_, ?_⟩
    · simp only [exec, execHeaderFieldRead, none]
    · simp only [exec, execDataFieldRead, none]
    · simp only [exec, execDataWindowCloses, none]

/-! ### Strays (R64, R77, R78) -/

theorem State.applyCapture_judged {t : State} {c : Capture} {x : Job} (hx : t.job c.job = some x) (hd : x.state ≠ .draining)
    (hg : c.status = .good) (hs : c.IsStray) (rev : Revolution) :
    t.applyCapture c rev = (t.countHeader c).stray c x rev.profile.keepStrays := by
  unfold State.applyCapture
  rewrite [hx]
  dsimp only
  rw [if_neg hd, if_pos ⟨hg, hs.imp_right And.right⟩]

/-- The counts of a stray, its header capture's among them (R64, R76, R77). -/
theorem State.countStray_eq {t : State} {c : Capture} {x : Job} (hx : t.job c.job = some x) :
    (t.countHeader c).countStray c.job c.unit =
      (t.setJob c.job (some (if c.ident = some .header then x.heard else x).strayed)).setDrive c.unit
        { t.drive c.unit with passStrays := min 255 ((t.drive c.unit).passStrays + 1) } := by
  unfold State.countStray
  by_cases hi : c.ident = some .header
  · rewrite [if_pos hi, State.countHeader_header hi hx, State.modJob_eq (job_setJob_same _ _ _), State.modDrive_eq_setDrive,
      State.setJob_setJob]
    rfl
  · rewrite [if_neg hi, State.countHeader_none hi, State.modJob_eq hx, State.modDrive_eq_setDrive]
    rfl

/-- The search of a table from its lowest place. -/
theorem find?_finRange {k : Nat} {p : Fin k → Bool} {a : Fin k} (ha : p a = true) (h : ∀ b, b < a → p b = false) :
    (List.finRange k).find? p = some a := by
  rewrite [List.find?_eq_some_iff_getElem]
  refine ⟨ha, a.val, by simp, by simp, fun i hi => ?_⟩
  simpa using h ⟨i, hi.trans a.isLt⟩ hi

/-- A stray that is kept, by the state in which it is counted (R78). -/
theorem State.stray_kept {t u : State} {c : Capture} {x : Job} {f : DataField} {h1 h2 h3 : Word12} {b : Fin 4}
    (hu : t.countStray c.job c.unit = u) (hf : c.data = some f) (hh : c.header = some (h1, h2, h3))
    (hb : u.freeStray = some b) (hp : WordsPass f.words) (hq : u.queueRoom = true) :
    t.stray c x true = u.keepStray b { unit := c.unit, tag := x.tag, h1 := h1, h2 := h2, h3 := h3, words := f.words } := by
  unfold State.stray
  dsimp only
  rewrite [hu, hf, hh, hb]
  dsimp only
  rw [if_pos (by simp [(passesCheck_iff _).2 hp, hq])]

/-- A stray that is only counted (R77, R78). -/
theorem State.stray_counted {t u : State} {c : Capture} {x : Job} {f : DataField} {keep : Bool}
    (hu : t.countStray c.job c.unit = u) (hf : c.data = some f)
    (h : u.freeStray = none ∨ (keep && passesCheck f.words && u.queueRoom) = false) : t.stray c x keep = u := by
  unfold State.stray
  dsimp only
  rewrite [hu, hf]
  obtain h | h := h
  · rewrite [h]
    cases c.header <;> rfl
  · cases c.header with
    | none => rfl
    | some _ =>
      cases u.freeStray with
      | none => rfl
      | some _ => exact if_neg (Bool.eq_false_iff.1 h)

/-- Settles O52: the counts first, then the buffer. -/
theorem straysJudged : Obligations.StraysJudged := by
  refine ⟨?_, ?_⟩
  · intros n sync words timing low s rev h d x y u hs hstray hy hu
    subst hy
    obtain ⟨c, hc⟩ : ∃ c, c = h.capture.filled (s.fieldOf rev sync words timing) low := ⟨_, rfl⟩
    have data : c.data = some (s.fieldOf rev sync words timing) := hc ▸ rfl
    have header : c.header = h.capture.header := hc ▸ rfl
    have unit : c.unit = n := hc ▸ hs.unit
    have job : (s.afterField (h.capture.low && low)).job c.job = some x := hc ▸ hs.job
    have judged := State.applyCapture_judged job hs.live (hc ▸ hs.good) (hc ▸ hstray) rev
    have counts : ((s.afterField (h.capture.low && low)).countHeader c).countStray c.job c.unit = u := by
      rewrite [hu, State.countStray_eq job, unit, hc]
      rfl
    have strays : u.strays = s.strays := hu ▸ rfl
    have queue : u.queue = s.queue := hu ▸ rfl
    rewrite [hs.exec_eq, ← hc, judged]
    refine ⟨fun h1 h2 h3 b hk hp hh hb hlow hq => ?_, fun hno => ?_⟩
    · have free : u.freeStray = some b := find?_finRange
        (strays ▸ Option.isNone_iff_eq_none.2 hb)
        (strays ▸ fun a ha => Option.isNone_eq_false_iff.2 (Option.isSome_iff_ne_none.2 (hlow a ha)))
      have room : u.queueRoom = true := decide_eq_true (queue ▸ hq)
      rewrite [hk, State.stray_kept counts data (header.trans hh) free hp room, unit, ← strays, ← queue]
      rfl
    · have counted : u.freeStray = none ∨
          (rev.profile.keepStrays && passesCheck (s.fieldOf rev sync words timing).words && u.queueRoom) = false := by
        simp only [Bool.and_eq_false_iff]
        obtain keeps | fails | taken | full := hno
        · exact .inr (.inl (.inl keeps))
        · exact .inr (.inl (.inr (Bool.eq_false_iff.2 (mt (passesCheck_iff words).1 fails))))
        · exact .inl (List.find?_eq_none.2 fun b _ => by
            rewrite [strays, Option.isNone_iff_eq_none]
            exact taken b)
        · exact .inr (.inr (decide_eq_false (queue ▸ Nat.not_lt.2 full)))
      rw [State.stray_counted counts data counted]
  · intros n s rev h x y hc hr hw hu hg hstray hdata hx hd hy
    subst hu hy
    rewrite [exec_dataWindowCloses hc hr, State.closeWindow_some hw, State.completeAbsent_eq, if_pos hg,
      State.applyCapture_stray (t := s.afterField _) hx hd hg hstray hdata]
    rfl

end Sys2Proof.Machine
end

section
-- One declaration at a time, which keeps the memory of the elaboration low.
set_option Elab.async false
/-! ## The search that a slab's weak bits call for (R96, R99, R102) -/

namespace Sys2Proof.Machine

/-! ### Weak bits in weak order -/

theorem mem_weakBits {th : Nat} {acc : List Int} {i : Nat} :
    i ∈ weakBits th acc ↔ ∃ a, acc[i]? = some a ∧ a.natAbs < th := by
  simp only [weakBits, List.mem_flatMap, List.mem_range, List.mem_map, List.mem_filter, beq_iff_eq, Prod.exists,
    List.mk_mem_zipIdx_iff_getElem?]
  constructor
  · rintro ⟨m, hm, a, _, ⟨ha, rfl⟩, rfl⟩
    exact ⟨a, ha, hm⟩
  · rintro ⟨a, ha, hlt⟩
    exact ⟨a.natAbs, hlt, a, i, ⟨ha, rfl⟩, rfl⟩

theorem zipIdx_filter_places_increase (acc : List Int) (p : Int × Nat → Bool) :
    ((acc.zipIdx.filter p).map (·.2)).Pairwise (· < ·) := by
  have places : acc.zipIdx.map (·.2) = List.range' 0 acc.length := List.zipIdx_map_snd 0 acc
  have sorted : (acc.zipIdx.map (·.2)).Pairwise (· < ·) := by
    rewrite [places]
    exact List.pairwise_lt_range'
  exact sorted.sublist (List.filter_sublist.map _)

/-- A place among the weak bits of magnitude m holds an accumulator of that magnitude. -/
theorem magnitude_of_mem {acc : List Int} {m i : Nat} {a : Int}
    (hi : i ∈ (acc.zipIdx.filter (fun p => p.1.natAbs == m)).map (·.2)) (ha : acc[i]? = some a) : a.natAbs = m := by
  simp only [List.mem_map, List.mem_filter, beq_iff_eq, Prod.exists, List.mk_mem_zipIdx_iff_getElem?] at hi
  obtain ⟨b, _, ⟨hb, rfl⟩, rfl⟩ := hi
  rewrite [ha] at hb
  cases hb
  rfl

theorem weakBits_ordered (th : Nat) (acc : List Int) :
    (weakBits th acc).Pairwise (fun i m => ∀ a b, acc[i]? = some a → acc[m]? = some b →
      a.natAbs < b.natAbs ∨ (a.natAbs = b.natAbs ∧ i < m)) := by
  unfold weakBits
  refine List.pairwise_flatMap.2 ⟨fun m _ => ?_, ?_⟩
  · refine (zipIdx_filter_places_increase acc _).imp_of_mem (fun hi hk hlt a b ha hb => ?_)
    exact .inr ⟨(magnitude_of_mem hi ha).trans (magnitude_of_mem hk hb).symm, hlt⟩
  · refine List.pairwise_lt_range.imp (fun hlt i hi k hk a b ha hb => .inl ?_)
    rewrite [magnitude_of_mem hi ha, magnitude_of_mem hk hb]
    exact hlt

theorem weakBits_nodup (th : Nat) (acc : List Int) : (weakBits th acc).Nodup := by
  refine (weakBits_ordered th acc).imp_of_mem (fun {i k} hi _ h => ?_)
  rintro rfl
  obtain ⟨a, ha, -⟩ := mem_weakBits.1 hi
  have := h a a ha ha
  omega

theorem weakBits_length_le (th : Nat) (acc : List Int) :
    (weakBits th acc).length ≤ (acc.filter (fun a => a.natAbs < th)).length := by
  have fewer : weakBits th acc ⊆ (acc.zipIdx.filter (fun p => decide (p.1.natAbs < th))).map (·.2) := fun i hi => by
    obtain ⟨a, ha, hlt⟩ := mem_weakBits.1 hi
    exact List.mem_map.2 ⟨(a, i), List.mem_filter.2 ⟨List.mk_mem_zipIdx_iff_getElem?.2 ha, decide_eq_true hlt⟩, rfl⟩
  have count : ((acc.zipIdx.filter (fun p => decide (p.1.natAbs < th))).map (·.1)) =
      acc.filter (fun a => decide (a.natAbs < th)) := by
    conv_rhs => rewrite [← List.zipIdx_map_fst 0 acc, List.filter_map]
    rfl
  have := ((weakBits_nodup th acc).subperm fewer).length_le
  rewrite [List.length_map] at this
  rewrite [← count, List.length_map]
  exact this

/-! ### Candidates -/

theorem inverted_nowhere (image : List Word12) : Inverted image [] image := by
  refine ⟨rfl, fun i b w v hw hv _ => ?_⟩
  rewrite [hw] at hv
  cases hv
  simp

theorem getElem?_flipBit (words : List Word12) (p i : Nat) : (flipBit words p)[i]? =
    words[i]?.map (fun w => if p / 12 = i then w ^^^ BitVec.twoPow 12 (p % 12) else w) := by
  unfold flipBit
  rewrite [List.getElem?_modify]
  split <;> simp

/-- One bit more is inverted. -/
theorem Inverted.flipBit {image mid : List Word12} {places : List Nat} {p : Nat} (h : Inverted image places mid)
    (hp : p ∉ places) : Inverted image (places ++ [p]) (flipBit mid p) := by
  obtain ⟨length, bits⟩ := h
  refine ⟨length.symm ▸ List.length_modify .., fun i b w v hw hv hb => ?_⟩
  rewrite [getElem?_flipBit, Option.map_eq_some_iff] at hv
  obtain ⟨u, hu, rfl⟩ := hv
  have old := bits i b w u hw hu hb
  have place : p / 12 = i ∧ p % 12 = b ↔ b + 12 * i = p ∧ b < 12 := Nat.div_mod_unique (by decide)
  rewrite [Nat.add_comm]
  by_cases here : b + 12 * i = p
  · obtain ⟨rfl, rfl⟩ := place.2 ⟨here, hb⟩
    rewrite [if_pos rfl, BitVec.getLsbD_xor, old, BitVec.getLsbD_twoPow, Nat.add_comm]
    simp [here, hp, hb]
  · have same : (if p / 12 = i then u ^^^ BitVec.twoPow 12 (p % 12) else u).getLsbD b = u.getLsbD b := by
      split
      · next word =>
        have other : ¬ p % 12 = b := fun bit => here (place.1 ⟨word, bit⟩).1
        rewrite [BitVec.getLsbD_xor, BitVec.getLsbD_twoPow]
        simp [other]
      · rfl
    rewrite [same, old, Nat.add_comm]
    simp [here]

theorem inverted_one (image : List Word12) (a : Nat) : Inverted image [a] (flipBit image a) :=
  (inverted_nowhere image).flipBit (List.not_mem_nil)

theorem inverted_two (image : List Word12) {a b : Nat} (h : a ≠ b) :
    Inverted image [a, b] (flipBit (flipBit image a) b) :=
  (inverted_one image a).flipBit (fun hb => h (List.mem_singleton.1 hb).symm)

/-- The candidates of up to three weak bits are those of the search order, one for one (R102). -/
theorem candidatesOf_searchOrder (image : List Word12) {bits : List Nat} (hn : bits.Nodup) (h3 : bits.length ≤ 3) :
    List.Forall₂ (Inverted image) (searchOrder bits) (candidatesOf image bits) := by
  match bits, hn, h3 with
  | [], _, _ => exact .nil
  | [a], _, _ => exact .cons (inverted_one image a) .nil
  | [a, b], hn, _ =>
    have hab : a ≠ b := by simpa using hn
    exact .cons (inverted_one image a) (.cons (inverted_one image b) (.cons (inverted_two image hab) .nil))
  | [a, b, c], hn, _ =>
    obtain ⟨⟨hab, hac⟩, hbc⟩ : (a ≠ b ∧ a ≠ c) ∧ b ≠ c := by simpa using hn
    exact .cons (inverted_one image a) (.cons (inverted_one image b) (.cons (inverted_one image c)
      (.cons (inverted_two image hab) (.cons (inverted_two image hac) (.cons (inverted_two image hbc) .nil)))))

/-- The search of a slab with at most three weak bits is the one that they call for (R102). -/
theorem Slab.searchOf_of {k : Slab} (i : SlabId)
    (h : (k.acc.filter (fun a => a.natAbs < k.thresholds.weak)).length ≤ 3) : (k.searchOf i).Of i k := by
  have candidates := candidatesOf_searchOrder k.votedImage (weakBits_nodup k.thresholds.weak k.acc)
    ((weakBits_length_le _ _).trans h)
  refine ⟨rfl, ⟨fun _ => mem_weakBits, weakBits_ordered _ _⟩, candidates.length_eq.symm, fun m places c hp hc => ?_⟩
  obtain ⟨hm, rfl⟩ := List.getElem?_eq_some_iff.1 hp
  obtain ⟨hm', rfl⟩ := List.getElem?_eq_some_iff.1 hc
  exact candidates.get hm hm'

end Sys2Proof.Machine
end

section
-- One declaration at a time, which keeps the memory of the elaboration low.
set_option Elab.async false
/-! ## Recovery of a record (R75, R88, R143), and the slab it frees (R91, R101, R102, R108) -/

namespace Sys2Proof.Machine

/-! ### A slab is freed -/

theorem State.startSearch_busy {s : State} (h : s.search = none → s.fifo = []) : s.startSearch = s := by
  unfold State.startSearch
  split
  · next hs hf =>
    rewrite [h hs] at hf
    cases hf
  · rfl

theorem State.startSearch_head {s : State} {m : SlabId} {z : Slab} {rest : List SlabId} (hs : s.search = none)
    (hf : s.fifo = m :: rest) (hz : s.slab m = some z) :
    s.startSearch =
      { s.setSlab m (some { z with status := .searching }) with fifo := rest, search := some (z.searchOf m) } := by
  unfold State.startSearch
  rewrite [hs, hf]
  dsimp only
  rw [hz]

theorem State.setSlab_comm (s : State) {i m : SlabId} (x y : Option Slab) (h : i ≠ m) :
    (s.setSlab i x).setSlab m y = (s.setSlab m y).setSlab i x :=
  congrArg (fun slabs => { s with slabs := slabs }) (Vector.set_comm x y (Fin.val_ne_of_ne h))

theorem State.RepairStands.afterField {s : State} (h : s.RepairStands) (low : Bool) : (s.afterField low).RepairStands :=
  ⟨h.once, h.queued, h.searching, h.busy, h.owned⟩

section
variable {s : State} {i : SlabId} {k : Slab}

theorem State.RepairStands.not_mem_fifo (h : s.RepairStands) (hk : s.slab i = some k) (hn : k.status ≠ .queued) :
    i ∉ s.fifo := fun hi => by
  obtain ⟨y, hy, hq⟩ := (h.queued i).1 hi
  rewrite [hk] at hy
  cases hy
  exact hn hq

theorem State.RepairStands.filter_fifo (h : s.RepairStands) (hk : s.slab i = some k) (hn : k.status ≠ .queued) :
    s.fifo.filter (fun m => m ≠ i) = s.fifo :=
  List.filter_eq_self.2 fun _ hm => decide_eq_true fun he => h.not_mem_fifo hk hn (he ▸ hm)

theorem State.RepairStands.other_search (h : s.RepairStands) (hk : s.slab i = some k) (hn : k.status ≠ .searching) {f : Search}
    (hf : s.search = some f) : f.slab ≠ i := fun hi => by
  obtain ⟨y, hy, hq⟩ := (h.searching i).2 ⟨f, hf, hi⟩
  rewrite [hk] at hy
  cases hy
  exact hn hq

/-- A slab is let go, and the repair unit goes on (R91, R108). -/
theorem State.freeSlab_eq {fifo : List SlabId} {search : Option Search} (hf : s.fifo.filter (fun m => m ≠ i) = fifo)
    (hs : s.search.filter (fun f => f.slab ≠ i) = search) :
    s.freeSlab i = ({ s.setSlab i none with fifo := fifo, search := search } : State).startSearch := by
  have others : (fun m : SlabId => m != i) = fun m => decide (m ≠ i) := funext fun m => by rewrite [bne, decide_not]; rfl
  subst hf hs
  unfold State.freeSlab
  rewrite [others]
  cases s.search with
  | none => rfl
  | some f => by_cases hf : f.slab = i <;> simp [Option.filter, hf]

theorem State.RepairStands.filter_search (h : s.RepairStands) (hk : s.slab i = some k) (hn : k.status ≠ .searching) :
    s.search.filter (fun f => f.slab ≠ i) = s.search := by
  cases hf : s.search with
  | none => rfl
  | some f => simp [Option.filter, h.other_search hk hn hf]

theorem State.RepairStands.filter_searched (h : s.RepairStands) (hk : s.slab i = some k) (hi : k.status = .searching) :
    s.search.filter (fun f => f.slab ≠ i) = none := by
  obtain ⟨f, hf, hfi⟩ := (h.searching i).1 ⟨k, hk, hi⟩
  rewrite [hf]
  simp [hfi]

/-- A slab that the search is not for is freed: the search goes on, or none is due. -/
theorem State.RepairStands.freeSlab_unsearched (h : s.RepairStands) (hk : s.slab i = some k) (hn : k.status ≠ .searching) :
    s.freeSlab i = { s.setSlab i none with fifo := s.fifo.filter (fun m => m ≠ i) } :=
  (State.freeSlab_eq rfl (h.filter_search hk hn)).trans
    (State.startSearch_busy fun hs => List.filter_eq_nil_iff.2 (h.busy hs ▸ nofun))

theorem State.RepairStands.freeSlab_idle (h : s.RepairStands) (hk : s.slab i = some k) (hi : k.status = .idle) :
    s.freeSlab i = s.setSlab i none := by
  rewrite [h.freeSlab_unsearched hk (hi ▸ nofun), h.filter_fifo hk (hi ▸ nofun)]
  rfl

/-- The slab that is searched is freed with the FIFO empty: the repair unit is IDLE (R101, R108). -/
theorem State.RepairStands.freeSlab_last (h : s.RepairStands) (hk : s.slab i = some k) (hi : k.status = .searching)
    (hf : s.fifo = []) : s.freeSlab i = { s.setSlab i none with search := none } :=
  (State.freeSlab_eq (h.filter_fifo hk (hi ▸ nofun)) (h.filter_searched hk hi)).trans (State.startSearch_busy fun _ => hf)

/-- The slab that is searched is freed: the repair unit begins on the next slab of the FIFO (R101, R102, R108). -/
theorem State.RepairStands.freeSlab_next (h : s.RepairStands) (hk : s.slab i = some k) (hi : k.status = .searching)
    {m : SlabId} {z : Slab} {rest : List SlabId} (hf : s.fifo = m :: rest) (hz : s.slab m = some z) :
    s.freeSlab i =
      (({ s with search := some (z.searchOf m), fifo := rest } : State).setSlab m
        (some { z with status := .searching })).setSlab i none := by
  have him : i ≠ m := fun he => h.not_mem_fifo hk (hi ▸ nofun) (by rewrite [hf, he]; exact List.mem_cons_self)
  have head : ({ s.setSlab i none with search := none } : State).slab m = some z :=
    (s.setSlab_slab_other i m none him).trans hz
  rewrite [State.freeSlab_eq (h.filter_fifo hk (hi ▸ nofun)) (h.filter_searched hk hi)]
  exact (State.startSearch_head (s := { s.setSlab i none with search := none }) rfl hf head).trans
    (State.setSlab_comm { s with search := some (z.searchOf m), fifo := rest } none _ him)

end

/-! ### A record of a job is replaced -/

/-- A job written with one of its records replaced. -/
def State.putRecord (s : State) (j : JobIx) (x : Job) (sec : Nat) (r : Record) : State :=
  s.setJob j (some { x with records := x.records.set sec r })

theorem State.putRecord_job (s : State) (j : JobIx) (x : Job) (sec : Nat) (r : Record) :
    (s.putRecord j x sec r).job j = some { x with records := x.records.set sec r } := job_setJob_same _ _ _

theorem modify_eq_set_of_getElem? {x : List Record} {sec : Nat} {r : Record} (hr : x[sec]? = some r) (f : Record → Record) :
    x.modify sec f = x.set sec (f r) := by
  rewrite [List.modify_eq_set_getElem?, hr]
  rfl

theorem State.modRecord_eq {s : State} {j : JobIx} {x : Job} {sec : Nat} {r : Record} (hx : s.job j = some x)
    (hr : x.records[sec]? = some r) (f : Record → Record) : s.modRecord j sec f = s.putRecord j x sec (f r) := by
  unfold State.modRecord
  rewrite [State.modJob_eq hx, modify_eq_set_of_getElem? hr]
  rfl

section
variable {s : State} {j : JobIx} {x : Job} {sec : Nat} {r : Record}

theorem State.putRecord_modRecord (hlt : sec < x.records.length) (f : Record → Record) :
    (s.putRecord j x sec r).modRecord j sec f = s.putRecord j x sec (f r) := by
  have found : (x.records.set sec r)[sec]? = some r := List.getElem?_set_self hlt
  rewrite [State.modRecord_eq (s.putRecord_job j x sec r) found]
  unfold State.putRecord
  rw [State.setJob_setJob, List.set_set]

theorem State.putRecord_record (hlt : sec < x.records.length) : (s.putRecord j x sec r).record j sec = some r := by
  unfold State.record
  rewrite [State.putRecord_job]
  exact List.getElem?_set_self hlt

/-! ### Offering and completion -/

theorem State.putRecord_offer (hlt : sec < x.records.length) :
    (s.putRecord j x sec r).offer j sec =
      { s.putRecord j x sec { r with delivery := s.offerStatus } with queue := s.offerQueue j sec } := by
  unfold State.offer State.offerStatus State.offerQueue
  by_cases hq : s.queue.length < 24
  · have room : (s.putRecord j x sec r).queueRoom = true := decide_eq_true hq
    rewrite [if_pos room, if_pos hq, if_pos hq]
    exact State.putRecord_modRecord (s := { s with queue := s.queue ++ [.sector j sec] }) hlt _
  · have full : ¬ (s.putRecord j x sec r).queueRoom = true := fun h => hq (of_decide_eq_true h)
    rewrite [if_neg full, if_neg hq, if_neg hq]
    exact State.putRecord_modRecord hlt _

theorem Record.open_iff (r : Record) : r.open = true ↔ r.Outstanding := by
  simp [Record.open, Record.Outstanding]

/-- A job goes on while another of its records is outstanding (R88). -/
theorem State.completeIfDone_more {t : State} {y : Job} (hy : t.job j = some y) {k : Nat} {q : Record}
    (hk : y.records[k]? = some q) (ho : q.Outstanding) : t.completeIfDone j = t := by
  have more : y.allRecovered = false := by
    rewrite [Bool.eq_false_iff]
    intro h
    have := List.all_eq_true.1 h q (List.mem_of_getElem? hk)
    rewrite [(Record.open_iff q).2 ho] at this
    cases this
  unfold State.completeIfDone
  rewrite [hy]
  dsimp only
  rewrite [more]
  rfl

/-! ### Recovery -/

theorem State.startSearch_setJob (s : State) (j : JobIx) (y : Option Job) :
    (s.setJob j y).startSearch = s.startSearch.setJob j y := by
  unfold State.startSearch
  rewrite [State.setJob_search, State.setJob_fifo]
  split
  · rewrite [State.setJob_slab]
    split <;> rfl
  · rfl

theorem State.freeSlab_setJob (s : State) (j : JobIx) (y : Option Job) (i : SlabId) :
    (s.setJob j y).freeSlab i = (s.freeSlab i).setJob j y := by
  rewrite [State.freeSlab_eq rfl rfl, State.freeSlab_eq rfl rfl]
  exact State.startSearch_setJob ({ s.setSlab i none with
    fifo := s.fifo.filter (fun m => m ≠ i), search := s.search.filter (fun f => f.slab ≠ i) } : State) j y

theorem State.freeSlabOf_putRecord (s : State) (j : JobIx) (x : Job) (sec : Nat) (r : Record) (q : Option Record) :
    (s.putRecord j x sec r).freeSlabOf q = (s.freeSlabOf q).putRecord j x sec r := by
  unfold State.freeSlabOf
  split
  · exact State.freeSlab_setJob _ _ _ _
  · rfl

theorem State.freeSlabOf_none {s : State} {r : Record} (h : r.slab = none) : s.freeSlabOf (some r) = s := by
  unfold State.freeSlabOf
  rw [Option.bind_some, h]

theorem State.freeSlabOf_some {s : State} {r : Record} {i : SlabId} (h : r.slab = some i) :
    s.freeSlabOf (some r) = s.freeSlab i := by
  unfold State.freeSlabOf
  rw [Option.bind_some, h]

/-- A record recovered while its job goes on: the four steps of R88, on the state left when its slab is freed. -/
theorem State.putRecord_recover {v : State} (hlt : sec < x.records.length) (hmore : x.WantsMore sec)
    (hv : s.freeSlabOf (some r) = v) (hq : v.queue = s.queue) (st : RecordState) (words : List Word12) :
    (s.putRecord j x sec r).recover j sec st words =
      { v.setJob j (some (x.gains sec (s.recovers r st words))) with queue := s.offerQueue j sec } := by
  obtain ⟨k, q, hk, hkq, ho⟩ := hmore
  have freed : ((s.putRecord j x sec r).modRecord j sec (fun r => r.recovered st words)).freeSlabOf
      ((s.putRecord j x sec r).record j sec) = v.putRecord j x sec (r.recovered st words) := by
    rw [State.putRecord_modRecord hlt, State.putRecord_record hlt, State.freeSlabOf_putRecord, hv]
  have marked : (v.putRecord j x sec (r.recovered st words)).modJob j (fun x => { x with mark := true }) =
      v.putRecord j { x with mark := true } sec (r.recovered st words) := by
    rewrite [State.modJob_eq (State.putRecord_job ..)]
    exact State.setJob_setJob _ _ _ _
  have offered : (v.putRecord j { x with mark := true } sec (r.recovered st words)).offer j sec =
      { v.setJob j (some (x.gains sec (s.recovers r st words))) with queue := s.offerQueue j sec } := by
    rewrite [State.putRecord_offer (x := { x with mark := true }) hlt]
    unfold State.offerQueue State.recovers State.offerStatus
    rewrite [hq]
    rfl
  have others : (x.gains sec (s.recovers r st words)).records[k]? = some q :=
    (List.getElem?_set_ne (Ne.symm hk)).trans hkq
  unfold State.recover
  dsimp only
  rewrite [freed, marked, offered]
  exact State.completeIfDone_more (job_setJob_same _ _ _) others ho

/-! ### Passing data of a named record -/

/-- A record whose sync time is kept (R180). -/
def Record.synced (r : Record) (sync : Nat) : Record := { r with lastSync := some sync }

/-- A HEADER capture's data reach its record, whose sync time is kept first (R80, R82, R180). -/
theorem State.takeHeader_eq {f : DataField} (hr : x.records[sec]? = some r) (rev : Revolution) :
    (s.setJob j (some x)).takeHeader j sec (some f) rev =
      if passesCheck f.words && (r.synced f.sync).open then
        (s.putRecord j x sec (r.synced f.sync).read).recover j sec .good f.words
      else (s.putRecord j x sec (r.synced f.sync)).takeFailing j sec (r.synced f.sync) (pendingOf f .header rev) rev.noVote := by
  have hlt : sec < x.records.length := (List.getElem?_eq_some_iff.1 hr).1
  have kept : (s.setJob j (some x)).modRecord j sec (fun x => { x with lastSync := some f.sync }) =
      s.putRecord j x sec (r.synced f.sync) := by
    rewrite [State.modRecord_eq (job_setJob_same _ _ _) hr]
    exact State.setJob_setJob _ _ _ _
  unfold State.takeHeader
  dsimp only
  rw [kept, State.putRecord_record hlt, State.putRecord_modRecord hlt]

end

/-- A data field in the window of a GOOD header that names a record: the command, by whether the record is outstanding and the
words pass their check (R35, R76, R80, R82). -/
theorem State.Hears.exec_named {s : State} {n : UnitId} {rev : Revolution} {h : OpenHeader} {d : Descriptor} {x : Job}
    {sync sec : Nat} {words : List Word12} {r : Record} (hs : s.Hears n rev h d x sync words) (hn : h.capture.Names x sec r)
    (timing : List (List Transition)) (low : Bool) :
    exec (.dataFieldRead sync words timing low) s = .next (State.finish
      (if passesCheck words && (r.synced sync).open then
        ((s.afterField (h.capture.low && low)).putRecord h.capture.job x.heard sec (r.synced sync).read).recover
          h.capture.job sec .good words
      else ((s.afterField (h.capture.low && low)).putRecord h.capture.job x.heard sec (r.synced sync)).takeFailing
        h.capture.job sec (r.synced sync) (pendingOf (s.fieldOf rev sync words timing) .header rev) rev.noVote)) := by
  have named : (h.capture.filled (s.fieldOf rev sync words timing) low).Names x sec r :=
    ⟨hn.header, hn.first, hn.sector, hn.record⟩
  have job : (s.afterField (h.capture.low && low)).job (h.capture.filled (s.fieldOf rev sync words timing) low).job =
      some x := hs.job
  rewrite [hs.exec_eq, State.applyCapture_named job hs.live named rev]
  exact congrArg (fun t => Host.Outcome.next (State.finish t)) (State.takeHeader_eq (f := s.fieldOf rev sync words timing)
    (x := x.heard) hn.record rev)

/-- A passing data field of an outstanding record, while the job wants more: the command, on the state left when the record's
slab is freed. -/
theorem State.Hears.exec_recovers {s v : State} {n : UnitId} {rev : Revolution} {h : OpenHeader} {d : Descriptor} {x : Job}
    {sync sec : Nat} {words : List Word12} {r : Record} (hs : s.Hears n rev h d x sync words)
    (hn : h.capture.Names x sec r) (hp : WordsPass words) (ho : r.Outstanding) (hmore : x.WantsMore sec)
    (timing : List (List Transition)) (low : Bool)
    (hv : (s.afterField (h.capture.low && low)).freeSlabOf (some r) = v) (hq : v.queue = s.queue) :
    exec (.dataFieldRead sync words timing low) s =
      .next ({ v.setJob h.capture.job (some (x.heard.gains sec (s.recovers (r.synced sync).read .good words))) with
        queue := s.offerQueue h.capture.job sec } : State).finish := by
  have passes : (passesCheck words && (r.synced sync).open) = true :=
    Bool.and_eq_true_iff.2 ⟨(passesCheck_iff words).2 hp, (Record.open_iff _).2 ho⟩
  have hlt : sec < x.heard.records.length := (List.getElem?_eq_some_iff.1 hn.record).1
  have recovered := State.putRecord_recover (s := s.afterField (h.capture.low && low)) (j := h.capture.job)
    (r := (r.synced sync).read) (v := v) hlt hmore hv hq .good words
  rewrite [hs.exec_named hn, if_pos passes]
  exact congrArg (fun t => Host.Outcome.next (State.finish t)) recovered

/-- Settles O46: the record is recovered on the state that is left when its slab, if it has one, is freed. -/
theorem goodDataRecovers : Obligations.GoodDataRecovers := by
  unfold Obligations.GoodDataRecovers
  refine ⟨?_, ?_⟩
  · intros n sync sec words timing low s rev h d x r hs hn hp hw hst hslab hmore u hu
    have run := hs.exec_recovers hn hp ⟨hw, by rewrite [hst]; decide⟩ hmore timing low (State.freeSlabOf_none hslab) rfl
    rewrite [run]
    have record : ∀ delivery, s.offerStatus = delivery → s.recovers (r.synced sync).read .good words =
        { r with state := .good, reads := min 255 (r.reads + 1), image := some { kind := .final, words := words }, delivery := delivery, lastSync := some sync } := by
      rintro _ rfl
      unfold State.recovers
      rewrite [← hslab]
      rfl
    refine ⟨fun hq => ?_, fun hq => ?_⟩
    · rewrite [hu, record .queued (if_pos hq), State.offerQueue, if_pos hq]
      rfl
    · rewrite [hu, record .awaiting (if_neg (by omega)), State.offerQueue, if_neg (by omega)]
      rfl
  · intros n sync sec words timing low s rev h d x r i k u hs hn hp hw hst hslab hk hrep hmore hu
    have stands := hrep.afterField (h.capture.low && low)
    have hk' : (s.afterField (h.capture.low && low)).slab i = some k := hk
    have run : ∀ w : State, (s.afterField (h.capture.low && low)).freeSlab i =
        ({ w with channel := s.channel.afterField (h.capture.low && low) } : State).setSlab i none → w.queue = s.queue →
        exec (.dataFieldRead sync words timing low) s = .next (u w).finish := fun w hw hq => by
      rewrite [hs.exec_recovers hn hp ⟨‹_›, .inr hst⟩ hmore timing low ((State.freeSlabOf_some hslab).trans hw) hq, hu]
      rfl
    refine ⟨fun hi => run s (stands.freeSlab_idle hk' hi) rfl,
      fun hi => run _ (stands.freeSlab_unsearched hk' (by rw [hi]; decide)) rfl,
      fun hi hf => run _ (stands.freeSlab_last hk' hi hf) rfl, fun m z rest hi hf hz hweak => ?_⟩
    exact ⟨z.searchOf m, Slab.searchOf_of m hweak, run _ (stands.freeSlab_next hk' hi hf hz) rfl⟩

end Sys2Proof.Machine
end
